-- ==== Sys2Proof/Word.lean ====
section
/-! DEFINITION. The word type of the hardware and its plainest arithmetic.
Rule R7 of spec/00_scope.md fixes one width, W = 32; rules R11 and R12 fix bit numbering (bit 0 is the
least significant) and the bitmask operators, which are the `BitVec` ones. -/

namespace Sys2Proof

/-- A register value, a command word, a bus address: 32 bits (R7, R11, R84). -/
abbrev Word := BitVec 32

/-- One byte of a serialised word (R85). -/
abbrev Byte := BitVec 8

/-- `bit(b)`: the 32-bit value with only bit `b` set (R11); 0 where `b` is not below 32. -/
def bit (b : Nat) : Word := BitVec.twoPow 32 b

/-- The word with bits `n-1 .. 0` set (all 32 where `n` is 32 or more). -/
def lowMask (n : Nat) : Word := BitVec.ofNat 32 (2 ^ n - 1)

/-- The indices of the set bits of a word, ascending (the `for j in 0 .. 31 ascending, S[j] == 1` of R183). -/
def setBits (w : Word) : List Nat := (List.range 32).filter w.getLsbD

/-- `ceil(a / b)` as table P of R7 writes it. -/
def ceilDiv (a b : Nat) : Nat := (a + b - 1) / b

end Sys2Proof
end

