-- ==== Sys2Proof/Config.lean ====
section
/-! DEFINITION. What an implementation fixes (spec/00_scope.md, table P of R7, and R67): the enumerations
the parameters range over, the names of the registers, and ONE record `Config` with a field for every
parameter. Two kinds of open value live here: the parameters (fields of `Config`, fixed for a run) and
the free values (opaque constants with no body).
Where table P gives a parameter a default that depends on other parameters (EN_STD, EXIST, SNAP_LIST …),
the field holds the OVERRIDES only; the function of Machine/Params.lean answers the override where there
is one and table P's default otherwise. -/

namespace Sys2Proof

/-- The fourteen node kinds of R21. -/
inductive Kind where
  | route | ingress | egress | tstate | srctrack
  | tile | tileout
  | dl | tl | lmlink
  | lmcommon
  | mctrl
  | pci | priv
deriving DecidableEq, Repr

/-- The four engine families (R133). -/
inductive Family where
  | xbar | portgrp | linkmgmt | mctrlf
deriving DecidableEq, Repr

/-- The three severity trees (R134). -/
inductive Tree where
  | fatal | nonfatal | correctable
deriving DecidableEq, Repr

/-- The severity classes (R8, R136). -/
inductive Severity where
  | correctable | nonFatal | fatal
deriving DecidableEq, Repr

/-- Which diagnostic fields a table entry captures (R8, R138). -/
inductive DiagKind where
  | none | rawBlock | addressFault | eccCounter
deriving DecidableEq, Repr

/-- The ECC class of a table entry (R8): not ECC, the limit bit of unit `u`, the double-bit-error bit of unit `u`. -/
inductive EccTag where
  | notEcc
  | eccLimit (u : Nat)
  | eccDbe (u : Nat)
deriving DecidableEq, Repr

/-- One entry of the classification table (R8). -/
structure Entry where
  sev        : Severity
  contain    : Bool
  deviceWide : Bool
  diag       : DiagKind
  ecc        : EccTag
deriving DecidableEq, Repr

/-- One row of TABLE: the entry of bit `bit` of kind `kind`. A bit with no row is not recognised (R8). -/
structure TableRow where
  kind  : Kind
  bit   : Nat
  entry : Entry
deriving DecidableEq, Repr

/-- The registers of a node (R22 to R32), named as R121 and R122 name them. -/
inductive NodeReg where
  | errStatus | errFirst
  | reportEn (t : Tree)
  | containEn | errAddr
  | diagLog (j : Nat)
  | eccCount (u : Nat) | eccLimit (u : Nat) | eccAddr (u : Nat)
deriving DecidableEq, Repr

/-- A register address: the source's triple (block, instance, register name) of R13, under the name the spec gives it. -/
inductive Reg where
  /-- The node register sets of R22 to R32 (every kind but MCTRL). -/
  | node (k : Kind) (i : Nat) (r : NodeReg)
  /-- MCTRL[m].INTR_STATUS and INTR_STALL_EN (R33, R34). -/
  | intrStatus (m : Nat) | intrStallEn (m : Nat)
  /-- PRIV[0].RING_CMD and RING_STATUS (R35). -/
  | ringCmd | ringStatus
  /-- CTRL[0] (R36 to R41); `summary t w` is SUM_FATAL, SUM_NONFATAL or SUM_CORR word w. -/
  | topPending | topEnable | hostEoi | scratchDevice
  | scratchPort (w : Nat)
  | summary (t : Tree) (w : Nat)
  /-- LINKCTL[l] (R42 to R48). -/
  | portIntrCtrl (l : Nat) | lmIntrCtrl (l : Nat) | debugClear (l : Nat) | containLatch (l : Nat)
  | tagpoolInit (l : Nat) | ramInitStatus (l : Nat)
  | crumbAddr (l : Nat) | crumbData (l : Nat) | camAddr (l : Nat) | camData (l : Nat)
  | rstseqReq (l : Nat) | rstseqStatus (l : Nat)
  /-- PGCTL[g].WARM_RESET (R49). -/
  | warmReset (g : Nat)
  /-- PORTCFG[l] (R50). -/
  | ctrlStop (l : Nat) | passthru (l : Nat) | routePolicy0 (l : Nat) | routePolicy1 (l : Nat)
  /-- GANGED[l].TBL_ADDR and TBL_DATA (R51). -/
  | tblAddr (l : Nat) | tblData (l : Nat)
deriving DecidableEq, Repr

/-- The named link states of R57. -/
inductive LinkStateName where
  | normal | faulted | contained | reset | restored | rearmed | recoveryFailed | destroyed
deriving DecidableEq, Repr

/-- The three RAMs reached through ADDR/DATA pairs (R47, R51, R52). -/
inductive Ram where
  | crumb | cam | ganged
deriving DecidableEq, Repr

/-- FORCED_GATE(forced, l, state) (R282) as data: a condition on the `forced` operand, the link and any state of the
block. Where an atom takes an optional link, `none` is the link being processed. -/
inductive GateExpr where
  | always
  | forced
  | linkIs (l : Nat)
  /-- The fault state: a named state of R57, fatalOccurred, registered, resetRequired (R53 to R56). -/
  | inState (l : Option Nat) (n : LinkStateName)
  | flagged (l : Option Nat)
  | registered (l : Option Nat)
  | resetRequired
  /-- Bit `b` of what a read of a register answers: of `r`, or of the register of that name of the processed link. -/
  | registerBit (r : Reg) (b : Nat)
  | linkRegisterBit (r : Reg) (b : Nat)
  /-- The rest of the hardware: bit `b` of entry `i` of a RAM, tagpool_clean, `armed`. -/
  | ramBit (m : Ram) (l : Option Nat) (i b : Nat)
  | tagpoolClean (l : Option Nat)
  | armed
  /-- A predicate of all of it that these do not express: the `n`-th of the opaque ones (log 17). -/
  | custom (n : Nat)
  | not (g : GateExpr)
  | and (g h : GateExpr)
  | or (g h : GateExpr)
deriving DecidableEq, Repr

/-- One row of REGMAP: where a register name lies on the register bus, and the layout of its fields: bit `j` of the
register is bit `layout[j]` of the bus word; no entry leaves the bit where it is. -/
structure RegPlace where
  kind   : Nat
  offset : Nat
  layout : List Nat
deriving DecidableEq, Repr

/-- Table P of R7: everything the source leaves to "an opaque, versioned constant table supplied per hardware
generation". Plain data; fixed for a run (R67, R100). N_PG, N_LM, N_MC, N_ENG, SUMW and LMW are computed from
it (Machine/Params.lean), as their rows of table P say. -/
structure Config where
  /-- N_LINK, PG_SIZE, LM_SIZE, N_TILE, N_TILEOUT. -/
  nLink    : Nat
  pgSize   : Nat
  lmSize   : Nat
  nTile    : Nat
  nTileout : Nat
  /-- The links for which LINK_ENABLED is false. -/
  disabledLinks : List Nat
  /-- The in-range sub-blocks for which NODE_EXISTS is false. -/
  absentNodes   : List (Kind × Nat)
  /-- TABLE. -/
  table : List TableRow
  /-- Overrides of ORDER(k), TREES(k), EN_STD(k, t), CONTAIN_STD(k). -/
  orderOf   : List (Kind × List Nat)
  treesOf   : List (Kind × List Tree)
  enStdOf   : List ((Kind × Tree) × Word)
  containStdOf : List (Kind × Word)
  /-- Override of STALL_STD; GATE_STD; TOP_ENABLE_CFG. -/
  stallStdOf   : Option Word
  gateStd      : Word
  topEnableCfg : Word
  /-- Overrides of EXIST(t), as SUMW words. -/
  existOf : List (Tree × List Word)
  /-- N_ECC(k) where it is not 0, ECC_CW, and the configured ECC limits boot writes (R373) where not 0. -/
  nEccOf    : List (Kind × Nat)
  eccCw     : Nat
  eccLimits : List ((Kind × Nat) × Word)
  /-- DIAG_REGS(k) where it is not empty, CAP_WORDS. -/
  diagRegsOf : List (Kind × List NodeReg)
  capWords   : Nat
  /-- Overrides of SNAP_LIST(l), SNAP_MAX, overrides of WARM_RESET_SET(l). -/
  snapListOf  : List (Nat × List Reg)
  snapMax     : Nat
  warmResetOf : List (Nat × List Reg)
  /-- RESET_VALUE(a) where it is not 0, by the register's key (`busAddr`: its address in the default map). -/
  resetValueOf : List (Nat × Word)
  /-- CRUMB_DEPTH, CAM_DEPTH, GANGED_DEPTH. -/
  crumbDepth  : Nat
  camDepth    : Nat
  gangedDepth : Nat
  /-- FORCED_GATE. -/
  forcedGate : GateExpr
  /-- REGMAP where it is not the map of spec/30_encoding.md, by register name (the register of instance 0). -/
  regMap : List (Reg × RegPlace)
deriving DecidableEq, Repr

/-- FREE VALUE (log 5). What an indexed DATA read answers when the ADDR register holds an index that is not below
the RAM's depth and names no entry: R47 gives the registers "an index below the RAM's depth" and no value beyond it. It is applied
to the key of the entry that would be read, so that two reads with nothing between them agree (R89). -/
opaque Config.entryBeyondDepth : Nat → Word

/-- FREE VALUE (log 5). Which entry of the RAM, if any, such an index names (a wrapped index, for one): applied to the
same key. -/
opaque Config.indexBeyondDepth : Nat → Option Nat

end Sys2Proof
end

