-- ==== Sys2Proof/Syntax.lean ====
section
/-! DEFINITION. The operations of the hardware: one constructor per row of spec/opcode_table.json (25 rows),
and the two interfaces on which they are presented (R110). -/

namespace Sys2Proof

/-- An operation. `inst` and `link` are the unsigned 12-bit fields of R144; `t` is the tree operand (R134). -/
inductive Instr where
  /-- SERVICE (R112, R180). -/
  | service
  /-- WALKFAM family, inst, tree (R113, R186 to R189). -/
  | walkXbar (inst : BitVec 12) (t : Tree)
  | walkPortgrp (inst : BitVec 12) (t : Tree)
  | walkLinkmgmt (inst : BitVec 12) (t : Tree)
  | walkMctrlf (inst : BitVec 12) (t : Tree)
  /-- HANDLE.kind inst, tree (R114, R232 to R245); for MCTRL `inst` is the link index. -/
  | handleRoute (inst : BitVec 12) (t : Tree)
  | handleIngress (inst : BitVec 12) (t : Tree)
  | handleEgress (inst : BitVec 12) (t : Tree)
  | handleTstate (inst : BitVec 12) (t : Tree)
  | handleSrctrack (inst : BitVec 12) (t : Tree)
  | handleTile (inst : BitVec 12) (t : Tree)
  | handleTileout (inst : BitVec 12) (t : Tree)
  | handleDl (inst : BitVec 12) (t : Tree)
  | handleTl (inst : BitVec 12) (t : Tree)
  | handleLmlink (inst : BitVec 12) (t : Tree)
  | handleLmcommon (inst : BitVec 12) (t : Tree)
  | handleMctrl (inst : BitVec 12) (t : Tree)
  | handlePci (inst : BitVec 12) (t : Tree)
  | handlePriv (inst : BitVec 12) (t : Tree)
  /-- SETFATAL link | NONE, device_wide (R115, R252); `none` is nolink = 1. -/
  | setfatal (link : Option (BitVec 12)) (dw : Bool)
  /-- QLINK link (R116, R256) and QDEV (R117, R257). -/
  | qlink (link : BitVec 12)
  | qdev
  /-- RSTDRAIN link_mask, forced (R118, R280); `masks` are the link-mask words, word 0 first. -/
  | rstdrain (forced : Bool) (masks : List Word)
  /-- RD32 and WR32 on the register bus (R120, R150, R151). -/
  | rd32 (addr : Word)
  | wr32 (addr : Word) (data : Word)
deriving DecidableEq, Repr

/-- What is presented on one of the two interfaces of R110: the words of a command, or one bus transaction
(address, read/write strobe, data; R120). -/
inductive Frame where
  | command (words : List Word)
  | bus (strobe : Bool) (addr data : Word)
deriving DecidableEq, Repr

end Sys2Proof
end

