-- ==== Sys2Proof/WellFormed.lean ====
section
/-! DEFINITION. Which operations have an encoding at all, whatever the configuration: what the fields of
R111 and R118 can carry and what R88 asks of a bus address. Which encoded operations a configuration accepts
(R139) is `Sys2Proof.Machine.admitted` (Machine/Operands.lean): it is tested by the machine, not by the codec. -/

namespace Sys2Proof

/-- Every offset is a multiple of 4 (R88). -/
def aligned (a : Word) : Bool := a.extractLsb' 0 2 == 0#2

/-- An operation with an encoding: RSTDRAIN's `nwords` fits the 8 bits of R118, a bus address is aligned (R88).
All other operands are held in types of their field's width. -/
def wellFormed : Instr → Bool
  | .service => true
  | .walkXbar _ _ => true
  | .walkPortgrp _ _ => true
  | .walkLinkmgmt _ _ => true
  | .walkMctrlf _ _ => true
  | .handleRoute _ _ => true
  | .handleIngress _ _ => true
  | .handleEgress _ _ => true
  | .handleTstate _ _ => true
  | .handleSrctrack _ _ => true
  | .handleTile _ _ => true
  | .handleTileout _ _ => true
  | .handleDl _ _ => true
  | .handleTl _ _ => true
  | .handleLmlink _ _ => true
  | .handleLmcommon _ _ => true
  | .handleMctrl _ _ => true
  | .handlePci _ _ => true
  | .handlePriv _ _ => true
  | .setfatal _ _ => true
  | .qlink _ => true
  | .qdev => true
  | .rstdrain _ masks => masks.length < 256
  | .rd32 a => aligned a
  | .wr32 a _ => aligned a

end Sys2Proof
end

