-- ==== Sys2Proof/Decode.lean ====
section
/-! DEFINITION. The codec of spec/30_encoding.md: the numeric codes (R132 to R138), the decoder, total on any
words and rejecting by name (R139, R140), the encoder, and the byte layout of R85.
Which decoded operations a configuration accepts (ranges, trees, existing nodes) is R139's other half and
stands in Machine/Operands.lean. -/

namespace Sys2Proof

/-! ## Numeric codes -/

/-- Kind codes of the nodes (R132). -/
def Kind.code : Kind → Nat
  | .route => 0x01 | .ingress => 0x02 | .egress => 0x03 | .tstate => 0x04 | .srctrack => 0x05
  | .tile => 0x06 | .tileout => 0x07 | .dl => 0x08 | .tl => 0x09 | .lmlink => 0x0A
  | .lmcommon => 0x0B | .mctrl => 0x0C | .pci => 0x0D | .priv => 0x0E

/-- The node kind with a code; `none` for the codes of R132 that are no node and for the unmapped ones. -/
def Kind.ofCode : Nat → Option Kind
  | 0x01 => some .route | 0x02 => some .ingress | 0x03 => some .egress | 0x04 => some .tstate
  | 0x05 => some .srctrack | 0x06 => some .tile | 0x07 => some .tileout | 0x08 => some .dl
  | 0x09 => some .tl | 0x0A => some .lmlink | 0x0B => some .lmcommon | 0x0C => some .mctrl
  | 0x0D => some .pci | 0x0E => some .priv
  | _ => none

/-- Family codes (R133). -/
def Family.code : Family → Nat
  | .xbar => 0 | .portgrp => 1 | .linkmgmt => 2 | .mctrlf => 3

/-- The family with a code (R133: the others are reserved). -/
def Family.ofCode : Nat → Option Family
  | 0 => some .xbar | 1 => some .portgrp | 2 => some .linkmgmt | 3 => some .mctrlf
  | _ => none

/-- Tree codes (R134). -/
def Tree.code : Tree → Nat
  | .fatal => 0 | .nonfatal => 1 | .correctable => 2

/-- The tree with a code (R134: 3 is reserved). -/
def Tree.ofCode : Nat → Option Tree
  | 0 => some .fatal | 1 => some .nonfatal | 2 => some .correctable
  | _ => none

/-- Severity codes (R136). -/
def Severity.code : Severity → Nat
  | .correctable => 0 | .nonFatal => 1 | .fatal => 2

/-- The severity of a tree (R136). -/
def Tree.severity : Tree → Severity
  | .fatal => .fatal | .nonfatal => .nonFatal | .correctable => .correctable

/-- DiagnosticKind codes (R138). -/
def DiagKind.code : DiagKind → Nat
  | .none => 0 | .rawBlock => 1 | .addressFault => 2 | .eccCounter => 3

/-- Codes of the ECC class (R138). -/
def EccTag.code : EccTag → Nat
  | .notEcc => 0 | .eccLimit _ => 1 | .eccDbe _ => 2

/-! ## Decoding -/

/-- Why a frame is no operation (R88, R139, R140, R141). -/
inductive DecodeError where
  /-- no word at all -/
  | empty
  /-- op 0x00 or 0x08 to 0xFF -/
  | reservedOp (op : BitVec 8)
  /-- a must-be-zero field is not 0 -/
  | mustBeZero (w : Word)
  /-- tree = 3 -/
  | reservedTree (w : Word)
  /-- WALKFAM with a code that is no family -/
  | notAFamily (code : Nat)
  /-- HANDLE with a code that is no node kind -/
  | notANodeKind (code : Nat)
  /-- nolink = 1 with link not 0 -/
  | nolinkWithLink (w : Word)
  /-- RSTDRAIN with fewer mask words than nwords (log 12) -/
  | truncated (w : Word)
  /-- a bus address that is not a multiple of 4 -/
  | unaligned (addr : Word)
deriving DecidableEq, Repr

/-- Field `op` of R111, bits 31:24. -/
def opField (w : Word) : BitVec 8 := w.extractLsb' 24 8
/-- Field `code` of format N, bits 23:18. -/
def codeField (w : Word) : BitVec 6 := w.extractLsb' 18 6
/-- Field `tree` of format N, bits 17:16. -/
def treeField (w : Word) : BitVec 2 := w.extractLsb' 16 2
/-- The must-be-zero bits 15:12 of format N. -/
def zeroFieldN (w : Word) : BitVec 4 := w.extractLsb' 12 4
/-- Fields `inst` and `link`, bits 11:0. -/
def instField (w : Word) : BitVec 12 := w.extractLsb' 0 12
/-- The flag of formats L and M, bit 23. -/
def flagField (w : Word) : Bool := w.getLsbD 23
/-- The must-be-zero bits 22:13 of format L. -/
def zeroFieldL (w : Word) : BitVec 10 := w.extractLsb' 13 10
/-- The must-be-zero bits 22:8 of format M. -/
def zeroFieldM (w : Word) : BitVec 15 := w.extractLsb' 8 15
/-- Field `nwords` of format M, bits 7:0. -/
def nwordsField (w : Word) : Nat := (w.extractLsb' 0 8).toNat

/-- The words a command occupies, from its first word: 1 + nwords for RSTDRAIN, 1 otherwise (R141). -/
def commandLength (w : Word) : Nat :=
  if opField w = 0x07#8 then 1 + nwordsField w else 1

/-- WALKFAM's constructor for a family. -/
def walkInstr (f : Family) (inst : BitVec 12) (t : Tree) : Instr :=
  match f with
  | .xbar => .walkXbar inst t
  | .portgrp => .walkPortgrp inst t
  | .linkmgmt => .walkLinkmgmt inst t
  | .mctrlf => .walkMctrlf inst t

/-- HANDLE's constructor for a node kind. -/
def handleInstr (k : Kind) (inst : BitVec 12) (t : Tree) : Instr :=
  match k with
  | .route => .handleRoute inst t
  | .ingress => .handleIngress inst t
  | .egress => .handleEgress inst t
  | .tstate => .handleTstate inst t
  | .srctrack => .handleSrctrack inst t
  | .tile => .handleTile inst t
  | .tileout => .handleTileout inst t
  | .dl => .handleDl inst t
  | .tl => .handleTl inst t
  | .lmlink => .handleLmlink inst t
  | .lmcommon => .handleLmcommon inst t
  | .mctrl => .handleMctrl inst t
  | .pci => .handlePci inst t
  | .priv => .handlePriv inst t

/-- Format Z: nothing but the operation code (R111). -/
def decodeZ (w : Word) (i : Instr) : Except DecodeError Instr :=
  if w.extractLsb' 0 24 = 0#24 then .ok i else .error (.mustBeZero w)

/-- Format N (R111): `mk` makes the operation from `code`, or rejects it. -/
def decodeN (w : Word) (mk : Nat → Except DecodeError (BitVec 12 → Tree → Instr)) : Except DecodeError Instr :=
  if zeroFieldN w ≠ 0#4 then .error (.mustBeZero w)
  else match Tree.ofCode (treeField w).toNat with
    | none => .error (.reservedTree w)
    | some t =>
      match mk (codeField w).toNat with
      | .error e => .error e
      | .ok f => .ok (f (instField w) t)

/-- SETFATAL, format L (R115). -/
def decodeSetfatal (w : Word) : Except DecodeError Instr :=
  if zeroFieldL w ≠ 0#10 then .error (.mustBeZero w)
  else if w.getLsbD 12 then
    if instField w = 0#12 then .ok (.setfatal none (flagField w)) else .error (.nolinkWithLink w)
  else .ok (.setfatal (some (instField w)) (flagField w))

/-- QLINK, format L with flag and nolink 0 (R116). -/
def decodeQlink (w : Word) : Except DecodeError Instr :=
  if w.extractLsb' 12 12 = 0#12 then .ok (.qlink (instField w)) else .error (.mustBeZero w)

/-- RSTDRAIN, format M (R118), with the words that follow its first. -/
def decodeRstdrain (w : Word) (rest : List Word) : Except DecodeError Instr :=
  if zeroFieldM w ≠ 0#15 then .error (.mustBeZero w)
  else if rest.length < nwordsField w then .error (.truncated w)
  else .ok (.rstdrain (flagField w) (rest.take (nwordsField w)))

/-- The operation the words of the command port start with (R111 to R118, R139, R140). -/
def decodeWords : List Word → Except DecodeError Instr
  | [] => .error .empty
  | w :: rest =>
    match (opField w).toNat with
    | 0x01 => decodeZ w .service
    | 0x02 => decodeN w (fun c => match Family.ofCode c with
        | some f => .ok (walkInstr f)
        | none => .error (.notAFamily c))
    | 0x03 => decodeN w (fun c => match Kind.ofCode c with
        | some k => .ok (handleInstr k)
        | none => .error (.notANodeKind c))
    | 0x04 => decodeSetfatal w
    | 0x05 => decodeQlink w
    | 0x06 => decodeZ w .qdev
    | 0x07 => decodeRstdrain w rest
    | _ => .error (.reservedOp (opField w))

/-- The words left on the command port after the command they start with (R141). -/
def wordsAfter : List Word → List Word
  | [] => []
  | w :: rest => (w :: rest).drop (commandLength w)

/-- A bus transaction (R120): strobe 0 is RD32, strobe 1 is WR32; the address is a multiple of 4 (R88). -/
def decodeBus (strobe : Bool) (addr data : Word) : Except DecodeError Instr :=
  if aligned addr then .ok (if strobe then .wr32 addr data else .rd32 addr)
  else .error (.unaligned addr)

/-- The operation a frame presents. -/
def decode : Frame → Except DecodeError Instr
  | .command ws => decodeWords ws
  | .bus strobe addr data => decodeBus strobe addr data

/-! ## Encoding -/

/-- A format-N word (R111). -/
def encodeN (op code : Nat) (t : Tree) (inst : BitVec 12) : Word :=
  BitVec.ofNat 8 op ++ BitVec.ofNat 6 code ++ BitVec.ofNat 2 t.code ++ 0#4 ++ inst

/-- WALKFAM (R113). -/
def encodeWalk (f : Family) (inst : BitVec 12) (t : Tree) : Frame := .command [encodeN 0x02 f.code t inst]

/-- HANDLE (R114). -/
def encodeHandle (k : Kind) (inst : BitVec 12) (t : Tree) : Frame := .command [encodeN 0x03 k.code t inst]

/-- The frame of an operation, written from the same tables as the decoder. -/
def encode : Instr → Frame
  | .service => .command [0x01000000#32]
  | .walkXbar inst t => encodeWalk .xbar inst t
  | .walkPortgrp inst t => encodeWalk .portgrp inst t
  | .walkLinkmgmt inst t => encodeWalk .linkmgmt inst t
  | .walkMctrlf inst t => encodeWalk .mctrlf inst t
  | .handleRoute inst t => encodeHandle .route inst t
  | .handleIngress inst t => encodeHandle .ingress inst t
  | .handleEgress inst t => encodeHandle .egress inst t
  | .handleTstate inst t => encodeHandle .tstate inst t
  | .handleSrctrack inst t => encodeHandle .srctrack inst t
  | .handleTile inst t => encodeHandle .tile inst t
  | .handleTileout inst t => encodeHandle .tileout inst t
  | .handleDl inst t => encodeHandle .dl inst t
  | .handleTl inst t => encodeHandle .tl inst t
  | .handleLmlink inst t => encodeHandle .lmlink inst t
  | .handleLmcommon inst t => encodeHandle .lmcommon inst t
  | .handleMctrl inst t => encodeHandle .mctrl inst t
  | .handlePci inst t => encodeHandle .pci inst t
  | .handlePriv inst t => encodeHandle .priv inst t
  | .setfatal none dw => .command [0x04#8 ++ BitVec.ofBool dw ++ 0#10 ++ 1#1 ++ 0#12]
  | .setfatal (some l) dw => .command [0x04#8 ++ BitVec.ofBool dw ++ 0#10 ++ 0#1 ++ l]
  | .qlink l => .command [0x05#8 ++ 0#12 ++ l]
  | .qdev => .command [0x06000000#32]
  | .rstdrain forced masks =>
    .command ((0x07#8 ++ BitVec.ofBool forced ++ 0#15 ++ BitVec.ofNat 8 masks.length) :: masks)
  | .rd32 a => .bus false a 0#32
  | .wr32 a v => .bus true a v

/-! ## Bytes (R85) and the opcode table's numbering -/

/-- The four bytes of a word, byte 0 = bits 7:0 first (R85). -/
def wordBytes (w : Word) : List Byte :=
  [w.extractLsb' 0 8, w.extractLsb' 8 8, w.extractLsb' 16 8, w.extractLsb' 24 8]

/-- The words of a run of bytes, four bytes a word, little-endian (R85); a last incomplete word is dropped. -/
def wordsOfBytes : List Byte → List Word
  | b0 :: b1 :: b2 :: b3 :: rest => (b3 ++ b2 ++ b1 ++ b0) :: wordsOfBytes rest
  | _ => []

/-- The first `n` bytes of a number, least significant first. -/
def bytesOfNat : Nat → Nat → List Byte
  | 0, _ => []
  | n + 1, w => BitVec.ofNat 8 w :: bytesOfNat n (w / 256)

/-- The frame of an instruction given as the opcode table numbers its bits (bit 0 the least significant of the
first word, later words counting on). The command port is tried first; bits that are no command word are a bus
transaction: the address word, then, where the row has more than 32 bits, the data word of a WR32 (R120; the
table gives RD32 and WR32 the same bits, and the strobe none: log 13). -/
def tableFrame (nbits w : Nat) : Frame :=
  let bytes := bytesOfNat 4 w
  let first := (wordsOfBytes bytes).headD 0#32
  let words := wordsOfBytes (bytesOfNat (4 * commandLength first) (w % 2 ^ nbits))
  match decodeWords words with
  | .ok _ => .command words
  | .error _ => .bus (decide (32 < nbits)) first (BitVec.ofNat 32 (w / 2 ^ 32))

end Sys2Proof

/-- The instruction the decoder reads from an opcode-table word: the bits are laid out as `tableFrame` lays them
out and given to `decode`. -/
def Sys2Proof.decodeTableWord (nbits w : Nat) : Option Sys2Proof.Instr :=
  match Sys2Proof.decode (Sys2Proof.tableFrame nbits w) with
  | .ok i => some i
  | .error _ => none
end

