-- ==== Sys2Proof/Machine/Memory.lean ====
section
/-! DEFINITION. Sparse storage, in one canonical form: a list of (key, value) pairs, the keys strictly rising,
no value equal to what an unlisted key reads as. Every indexed piece of state (the register space by the
register's key, the RAMs by entry, the per-link flags by link) is held in it.
`d` is what an unlisted key reads as. -/

namespace Sys2Proof.Machine

/-- Sparse storage. The smallest addressable unit of the register space is one whole 32-bit register (R84), so a
cell of it is (key of the register, register value). -/
abbrev Memory (α : Type) := List (Nat × α)

/-- What key `q` reads as. -/
def Memory.get {α : Type} (d : Nat → α) : Memory α → Nat → α
  | [], q => d q
  | (k, v) :: m, q => if q = k then v else Memory.get d m q

/-- Without key `k`. -/
def Memory.erase {α : Type} : Memory α → Nat → Memory α
  | [], _ => []
  | (k, v) :: m, q => if q = k then Memory.erase m q else (k, v) :: Memory.erase m q

/-- With `(k, v)` put before the first larger key. -/
def Memory.insert {α : Type} (k : Nat) (v : α) : Memory α → Memory α
  | [] => [(k, v)]
  | e :: m => if k < e.1 then (k, v) :: e :: m else e :: Memory.insert k v m

/-- Writing: a value equal to what an unlisted key reads as removes the entry. -/
def Memory.set {α : Type} [DecidableEq α] (d : Nat → α) (m : Memory α) (k : Nat) (v : α) : Memory α :=
  if v = d k then m.erase k else (m.erase k).insert k v

/-- The storage that holds the listed values and nothing else, in canonical form. -/
def Memory.ofList {α : Type} [DecidableEq α] (d : Nat → α) : List (Nat × α) → Memory α
  | [] => []
  | (k, v) :: l => (Memory.ofList d l).set d k v

/-- All keys above `k`, strictly rising. -/
def Memory.risingFrom {α : Type} : Nat → Memory α → Bool
  | _, [] => true
  | k, (k', _) :: m => decide (k < k') && Memory.risingFrom k' m

/-- The keys strictly rise. -/
def Memory.rising {α : Type} : Memory α → Bool
  | [] => true
  | (k, _) :: m => Memory.risingFrom k m

/-- No entry equals what an unlisted key reads as. -/
def Memory.noDefault {α : Type} [DecidableEq α] (d : Nat → α) : Memory α → Bool
  | [] => true
  | (k, v) :: m => decide (v ≠ d k) && Memory.noDefault d m

/-- The canonical form. -/
def Memory.wf {α : Type} [DecidableEq α] (d : Nat → α) (m : Memory α) : Bool :=
  Memory.rising m && Memory.noDefault d m

end Sys2Proof.Machine
end

