-- ==== Sys2Proof/Machine/RegMap.lean ====
section
/-! DEFINITION. The register map of spec/30_encoding.md: bus addresses (R120), offsets (R121 to R129), access
types, the defined bits (R130) and what a sub-block has (R25, R27, R35). It is REGMAP's default (R7); where a
configuration puts a register elsewhere (`busOf`) and which registers EXIST (`mapped`) stands in Machine/Params.lean. -/

namespace Sys2Proof.Machine

/-- Access types (spec/10_state.md, opening; R86, R87): `combinational` is the RO of R36 and R39, not storage;
`indexed` is the RW (indexed) of R47 and R51. -/
inductive Access where
  | ro | rw | w1c | wo | combinational | indexed
deriving DecidableEq, Repr

/-- Offsets of the node register set (R121, R122). -/
def nodeOffset : NodeReg → Nat
  | .errStatus => 0x000
  | .errFirst => 0x004
  | .reportEn .fatal => 0x008
  | .reportEn .nonfatal => 0x00C
  | .reportEn .correctable => 0x010
  | .containEn => 0x014
  | .errAddr => 0x018
  | .diagLog j => 0x020 + 4 * j
  | .eccCount u => 0x040 + 0x10 * u
  | .eccLimit u => 0x044 + 0x10 * u
  | .eccAddr u => 0x048 + 0x10 * u

/-- `{kind, inst, offset}` as a number (R120). -/
def packAddr (kind inst offset : Nat) : Nat := kind * 0x1000000 + inst * 0x1000 + offset

/-- Offset of a summary register word (R125). -/
def summaryOffset : Tree → Nat → Nat
  | .fatal, w => 0x400 + 4 * w
  | .nonfatal, w => 0x500 + 4 * w
  | .correctable, w => 0x600 + 4 * w

/-- The bus address of a register in the default map (R120 to R129). Every register has one, whatever REGMAP is: it is
the key the register's value is stored under (log 15). -/
def busAddr : Reg → Nat
  | .node k i r => packAddr k.code i (nodeOffset r)
  | .intrStatus m => packAddr 0x0C m 0x000
  | .intrStallEn m => packAddr 0x0C m 0x008
  | .ringCmd => packAddr 0x0E 0 0x080
  | .ringStatus => packAddr 0x0E 0 0x084
  | .topPending => packAddr 0x10 0 0x000
  | .topEnable => packAddr 0x10 0 0x004
  | .hostEoi => packAddr 0x10 0 0x008
  | .scratchDevice => packAddr 0x10 0 0x010
  | .scratchPort w => packAddr 0x10 0 (0x040 + 4 * w)
  | .summary t w => packAddr 0x10 0 (summaryOffset t w)
  | .portIntrCtrl l => packAddr 0x11 l 0x000
  | .lmIntrCtrl l => packAddr 0x11 l 0x004
  | .debugClear l => packAddr 0x11 l 0x008
  | .containLatch l => packAddr 0x11 l 0x00C
  | .tagpoolInit l => packAddr 0x11 l 0x010
  | .ramInitStatus l => packAddr 0x11 l 0x014
  | .crumbAddr l => packAddr 0x11 l 0x018
  | .crumbData l => packAddr 0x11 l 0x01C
  | .camAddr l => packAddr 0x11 l 0x020
  | .camData l => packAddr 0x11 l 0x024
  | .rstseqReq l => packAddr 0x11 l 0x028
  | .rstseqStatus l => packAddr 0x11 l 0x02C
  | .warmReset g => packAddr 0x12 g 0x000
  | .ctrlStop l => packAddr 0x13 l 0x000
  | .passthru l => packAddr 0x13 l 0x004
  | .routePolicy0 l => packAddr 0x13 l 0x008
  | .routePolicy1 l => packAddr 0x13 l 0x00C
  | .tblAddr l => packAddr 0x14 l 0x000
  | .tblData l => packAddr 0x14 l 0x004

/-- The register a node offset names, if any (R121, R122). -/
def nodeRegAt (o : Nat) : Option NodeReg :=
  if o = 0x000 then some .errStatus
  else if o = 0x004 then some .errFirst
  else if o = 0x008 then some (.reportEn .fatal)
  else if o = 0x00C then some (.reportEn .nonfatal)
  else if o = 0x010 then some (.reportEn .correctable)
  else if o = 0x014 then some .containEn
  else if o = 0x018 then some .errAddr
  else if 0x020 ≤ o ∧ o < 0x040 ∧ o % 4 = 0 then some (.diagLog ((o - 0x020) / 4))
  else if 0x040 ≤ o ∧ o < 0x080 ∧ o % 0x10 = 0 then some (.eccCount ((o - 0x040) / 0x10))
  else if 0x040 ≤ o ∧ o < 0x080 ∧ o % 0x10 = 4 then some (.eccLimit ((o - 0x040) / 0x10))
  else if 0x040 ≤ o ∧ o < 0x080 ∧ o % 0x10 = 8 then some (.eccAddr ((o - 0x040) / 0x10))
  else none

/-- The register at an offset of CTRL[0] (R125). -/
def ctrlRegAt (o : Nat) : Option Reg :=
  if o = 0x000 then some .topPending
  else if o = 0x004 then some .topEnable
  else if o = 0x008 then some .hostEoi
  else if o = 0x010 then some .scratchDevice
  else if 0x040 ≤ o ∧ o < 0x240 ∧ o % 4 = 0 then some (.scratchPort ((o - 0x040) / 4))
  else if 0x400 ≤ o ∧ o < 0x500 ∧ o % 4 = 0 then some (.summary .fatal ((o - 0x400) / 4))
  else if 0x500 ≤ o ∧ o < 0x600 ∧ o % 4 = 0 then some (.summary .nonfatal ((o - 0x500) / 4))
  else if 0x600 ≤ o ∧ o < 0x700 ∧ o % 4 = 0 then some (.summary .correctable ((o - 0x600) / 4))
  else none

/-- The register at an offset of LINKCTL[l] (R126). -/
def linkctlRegAt (l o : Nat) : Option Reg :=
  if o = 0x000 then some (.portIntrCtrl l)
  else if o = 0x004 then some (.lmIntrCtrl l)
  else if o = 0x008 then some (.debugClear l)
  else if o = 0x00C then some (.containLatch l)
  else if o = 0x010 then some (.tagpoolInit l)
  else if o = 0x014 then some (.ramInitStatus l)
  else if o = 0x018 then some (.crumbAddr l)
  else if o = 0x01C then some (.crumbData l)
  else if o = 0x020 then some (.camAddr l)
  else if o = 0x024 then some (.camData l)
  else if o = 0x028 then some (.rstseqReq l)
  else if o = 0x02C then some (.rstseqStatus l)
  else none

/-- The register at an offset of PORTCFG[l] (R128). -/
def portcfgRegAt (l o : Nat) : Option Reg :=
  if o = 0x000 then some (.ctrlStop l)
  else if o = 0x004 then some (.passthru l)
  else if o = 0x008 then some (.routePolicy0 l)
  else if o = 0x00C then some (.routePolicy1 l)
  else none

/-- The register a (kind code, instance, offset) triple names by R121 to R129 and R132, in range or not. -/
def regAt (kind inst offset : Nat) : Option Reg :=
  if kind = 0x0C then
    if offset = 0x000 then some (.intrStatus inst)
    else if offset = 0x008 then some (.intrStallEn inst)
    else none
  else if kind = 0x0E ∧ inst = 0 ∧ offset = 0x080 then some .ringCmd
  else if kind = 0x0E ∧ inst = 0 ∧ offset = 0x084 then some .ringStatus
  else if kind = 0x10 then (if inst = 0 then ctrlRegAt offset else none)
  else if kind = 0x11 then linkctlRegAt inst offset
  else if kind = 0x12 then (if offset = 0 then some (.warmReset inst) else none)
  else if kind = 0x13 then portcfgRegAt inst offset
  else if kind = 0x14 then
    if offset = 0x000 then some (.tblAddr inst)
    else if offset = 0x004 then some (.tblData inst)
    else none
  else match Kind.ofCode kind with
    | some k => (nodeRegAt offset).map (.node k inst)
    | none => none

/-- The register a 32-bit bus address names, in range or not (R120). -/
def regOfBus (a : Word) : Option Reg :=
  regAt (a.extractLsb' 24 8).toNat (a.extractLsb' 12 12).toNat (a.extractLsb' 0 12).toNat

/-- The instance of a register (R13, R120); 0 where its block has one instance only. -/
def instOf : Reg → Nat
  | .node _ i _ => i
  | .intrStatus m | .intrStallEn m => m
  | .portIntrCtrl l | .lmIntrCtrl l | .debugClear l | .containLatch l => l
  | .tagpoolInit l | .ramInitStatus l | .crumbAddr l | .crumbData l | .camAddr l | .camData l => l
  | .rstseqReq l | .rstseqStatus l => l
  | .warmReset g => g
  | .ctrlStop l | .passthru l | .routePolicy0 l | .routePolicy1 l => l
  | .tblAddr l | .tblData l => l
  | .ringCmd | .ringStatus | .topPending | .topEnable | .hostEoi | .scratchDevice | .scratchPort _ | .summary _ _ => 0

/-- The register of the same name at instance `i` (R13). -/
def atInst (i : Nat) : Reg → Reg
  | .node k _ r => .node k i r
  | .intrStatus _ => .intrStatus i
  | .intrStallEn _ => .intrStallEn i
  | .portIntrCtrl _ => .portIntrCtrl i
  | .lmIntrCtrl _ => .lmIntrCtrl i
  | .debugClear _ => .debugClear i
  | .containLatch _ => .containLatch i
  | .tagpoolInit _ => .tagpoolInit i
  | .ramInitStatus _ => .ramInitStatus i
  | .crumbAddr _ => .crumbAddr i
  | .crumbData _ => .crumbData i
  | .camAddr _ => .camAddr i
  | .camData _ => .camData i
  | .rstseqReq _ => .rstseqReq i
  | .rstseqStatus _ => .rstseqStatus i
  | .warmReset _ => .warmReset i
  | .ctrlStop _ => .ctrlStop i
  | .passthru _ => .passthru i
  | .routePolicy0 _ => .routePolicy0 i
  | .routePolicy1 _ => .routePolicy1 i
  | .tblAddr _ => .tblAddr i
  | .tblData _ => .tblData i
  | .ringCmd => .ringCmd
  | .ringStatus => .ringStatus
  | .topPending => .topPending
  | .topEnable => .topEnable
  | .hostEoi => .hostEoi
  | .scratchDevice => .scratchDevice
  | .scratchPort w => .scratchPort w
  | .summary t w => .summary t w

/-- A register's name (R13): the register of that name at instance 0. -/
def nameOf (r : Reg) : Reg := atInst 0 r

/-- The word whose bit `layout[j]` is bit `j` of `v`; a bit the layout does not list stays in its place (REGMAP's field
layouts, R7). -/
def spreadBits (layout : List Nat) (v : Word) : Word :=
  (List.range 32).foldl (fun acc j => if v.getLsbD j then acc ||| bit (layout.getD j j) else acc) 0#32

/-- The word whose bit `j` is bit `layout[j]` of `v`: the other direction. -/
def gatherBits (layout : List Nat) (v : Word) : Word :=
  (List.range 32).foldl (fun acc j => if v.getLsbD (layout.getD j j) then acc ||| bit j else acc) 0#32

/-- Access types (R121 to R129). -/
def access : Reg → Access
  | .node _ _ .errStatus => .w1c
  | .node _ _ .errFirst => .w1c
  | .node _ _ (.reportEn _) => .rw
  | .node _ _ .containEn => .rw
  | .node _ _ .errAddr => .ro
  | .node _ _ (.diagLog _) => .ro
  | .node _ _ (.eccCount _) => .rw
  | .node _ _ (.eccLimit _) => .rw
  | .node _ _ (.eccAddr _) => .ro
  | .intrStatus _ => .w1c
  | .intrStallEn _ => .rw
  | .ringCmd => .wo
  | .ringStatus => .ro
  | .topPending => .combinational
  | .topEnable => .rw
  | .hostEoi => .wo
  | .scratchDevice => .rw
  | .scratchPort _ => .rw
  | .summary _ _ => .combinational
  | .portIntrCtrl _ => .rw
  | .lmIntrCtrl _ => .rw
  | .debugClear _ => .rw
  | .containLatch _ => .w1c
  | .tagpoolInit _ => .wo
  | .ramInitStatus _ => .ro
  | .crumbAddr _ => .rw
  | .crumbData _ => .indexed
  | .camAddr _ => .rw
  | .camData _ => .indexed
  | .rstseqReq _ => .rw
  | .rstseqStatus _ => .ro
  | .warmReset _ => .rw
  | .ctrlStop _ => .rw
  | .passthru _ => .rw
  | .routePolicy0 _ => .rw
  | .routePolicy1 _ => .rw
  | .tblAddr _ => .rw
  | .tblData _ => .indexed

/-- The kinds of R27: those with a contain-enable, an ERR_ADDR and DIAG_LOG registers. -/
def hasFullSet : Kind → Bool
  | .route | .ingress | .egress | .tstate | .srctrack => true
  | .tile | .tileout => true
  | .dl | .tl | .lmlink | .lmcommon => true
  | .mctrl | .pci | .priv => false

/-- The registers whose reset value is 0 whatever RESET_VALUE says, by bus address (R72, R370): the two scratch
registers and the three handshake status registers. -/
def zeroAtReset (a : Nat) : Bool :=
  a == busAddr .scratchDevice || a == busAddr .ringStatus
    || (decide (packAddr 0x10 0 0x040 ≤ a) && decide (a < packAddr 0x10 0 0x240))
    || (a / 0x1000000 == 0x11 && (a % 0x1000 == 0x014 || a % 0x1000 == 0x02C))

end Sys2Proof.Machine
end

