-- ==== Sys2Proof/Machine/Params.lean ====
section
/-! DEFINITION. The functions of table P (spec/00_scope.md R7 to R10) over a configuration: derived sizes,
topology, the classification table, and the defaults of the parameters that have computed defaults. -/

namespace Sys2Proof.Machine

/-- The first value an association list gives a key. -/
def assoc {α β : Type} [DecidableEq α] (k : α) : List (α × β) → Option β
  | [] => none
  | (k', v) :: l => if k = k' then some v else assoc k l

/-! ## Sizes and topology (R7, R9, R10) -/

/-- N_PG. -/
def nPg (c : Config) : Nat := ceilDiv c.nLink c.pgSize
/-- N_LM. -/
def nLm (c : Config) : Nat := ceilDiv c.nLink c.lmSize
/-- N_MC = N_LM. -/
def nMc (c : Config) : Nat := nLm c
/-- N_ENG. -/
def nEng (c : Config) : Nat := nPg c + nLm c + nMc c + 1
/-- SUMW. -/
def sumw (c : Config) : Nat := ceilDiv (nEng c) 32
/-- LMW. -/
def lmw (c : Config) : Nat := ceilDiv c.nLink 32

/-- LINK_ENABLED(l), for the links there are. -/
def linkEnabled (c : Config) (l : Nat) : Bool := decide (l < c.nLink) && !c.disabledLinks.contains l

/-- Port group and local port of a link (R9). -/
def pg (c : Config) (l : Nat) : Nat := l / c.pgSize
def pl (c : Config) (l : Nat) : Nat := l % c.pgSize
/-- Link-management instance and local link (R9); the microcontroller of a link has the same instance. -/
def lm (c : Config) (l : Nat) : Nat := l / c.lmSize
def ll (c : Config) (l : Nat) : Nat := l % c.lmSize
def mc (c : Config) (l : Nat) : Nat := lm c l

/-- links_of_pg(g): the enabled links of a port group, ascending (R9). -/
def linksOfPg (c : Config) (g : Nat) : List Nat :=
  (List.range c.nLink).filter (fun l => linkEnabled c l && pg c l == g)

/-- links_of_lm(m): the enabled links of a link-management instance, ascending (R9). -/
def linksOfLm (c : Config) (m : Nat) : List Nat :=
  (List.range c.nLink).filter (fun l => linkEnabled c l && lm c l == m)

/-- How many instances of a kind there are (R21). -/
def instances (c : Config) : Kind → Nat
  | .route | .ingress | .egress | .tstate | .srctrack => c.nLink
  | .tile => c.nTile
  | .tileout => c.nTileout
  | .dl | .tl | .lmlink => c.nLink
  | .lmcommon => nLm c
  | .mctrl => nMc c
  | .pci | .priv => 1

/-- NODE_EXISTS(k, i): in range and not left out by the configuration (R7, R21). -/
def nodeExists (c : Config) (k : Kind) (i : Nat) : Bool :=
  decide (i < instances c k) && !c.absentNodes.contains (k, i)

/-- The family and instance of an engine (R10). -/
def engineOf (c : Config) (e : Nat) : Option (Family × Nat) :=
  if e < nPg c then some (.portgrp, e)
  else if e < nPg c + nLm c then some (.linkmgmt, e - nPg c)
  else if e < nPg c + nLm c + nMc c then some (.mctrlf, e - nPg c - nLm c)
  else if e = nEng c - 1 then some (.xbar, 0)
  else none

/-- The five port-family kinds, in the order of R187. -/
def portKinds : List Kind := [.route, .ingress, .egress, .tstate, .srctrack]

/-- The per-link kinds of a link-management engine, in the order of R188. -/
def lmKinds : List Kind := [.dl, .tl, .lmlink]

/-- The link-owned kinds (R231). -/
def linkKinds : List Kind := portKinds ++ lmKinds

/-- The three trees in walking order (R183). -/
def allTrees : List Tree := [.fatal, .nonfatal, .correctable]

/-- All node kinds. -/
def allKinds : List Kind :=
  [.route, .ingress, .egress, .tstate, .srctrack, .tile, .tileout, .dl, .tl, .lmlink, .lmcommon, .mctrl, .pci, .priv]

/-- The link a node belongs to, for the kinds with one owner link (R21, R231). -/
def ownerLink (k : Kind) (i : Nat) : Option Nat := if linkKinds.contains k then some i else none

/-- TREES(k) (R7): all three, except MCTRL = FATAL and NONFATAL, PCI = PRIV = FATAL. -/
def treesOfKind (c : Config) (k : Kind) : List Tree :=
  match assoc k c.treesOf with
  | some ts => ts
  | none =>
    match k with
    | .mctrl => [.fatal, .nonfatal]
    | .pci | .priv => [.fatal]
    | _ => allTrees

/-- The trees of a family (R144). -/
def treesOfFamily : Family → List Tree
  | .xbar | .portgrp | .linkmgmt => allTrees
  | .mctrlf => [.fatal, .nonfatal]

/-- The nodes of an engine, existing ones only (R164): the microcontroller's are not node registers and are not listed. -/
def engineNodes (c : Config) (f : Family) (i : Nat) : List (Kind × Nat) :=
  let all := match f with
    | .portgrp =>
      ((List.range c.nLink).filter (fun l => pg c l == i)).flatMap (fun l => portKinds.map (fun k => (k, l)))
    | .linkmgmt =>
      (.lmcommon, i) :: ((List.range c.nLink).filter (fun l => lm c l == i)).flatMap (fun l => lmKinds.map (fun k => (k, l)))
    | .xbar => (List.range c.nTile).map (fun j => (Kind.tile, j)) ++ (List.range c.nTileout).map (fun j => (Kind.tileout, j))
    | .mctrlf => []
  all.filter (fun n => nodeExists c n.1 n.2)

/-- An engine exists if one of its nodes does (R10, R374). -/
def engineExists (c : Config) (f : Family) (i : Nat) : Bool :=
  match f with
  | .mctrlf => nodeExists c .mctrl i
  | _ => !(engineNodes c f i).isEmpty

/-- EXIST(t) word `w` (R7): the configured mask, or bit e set iff engine e exists and t is in its family's trees. -/
def existMask (c : Config) (t : Tree) (w : Nat) : Word :=
  match assoc t c.existOf with
  | some ws => ws.getD w 0#32
  | none =>
    (List.range 32).foldl (fun acc j =>
      match engineOf c (32 * w + j) with
      | some (f, i) => if (treesOfFamily f).contains t && engineExists c f i then acc ||| bit j else acc
      | none => acc) 0#32

/-! ## The classification table and what is computed from it -/

/-- The table search behind `table`. -/
def findRow (k : Kind) (b : Nat) : List TableRow → Option Entry
  | [] => none
  | r :: rs => if r.kind = k ∧ r.bit = b then some r.entry else findRow k b rs

/-- TABLE(k, b) (R8). -/
def table (c : Config) (k : Kind) (b : Nat) : Option Entry := findRow k b c.table

/-- The bits of kind `k` whose entry satisfies a test, as a mask. -/
def maskWhere (c : Config) (k : Kind) (p : Entry → Bool) : Word :=
  c.table.foldl (fun acc r => if r.kind = k ∧ p r.entry then acc ||| bit r.bit else acc) 0#32

/-- ORDER(k) (R7, R17): ascending where the configuration gives no other. -/
def order (c : Config) (k : Kind) : List Nat := (assoc k c.orderOf).getD (List.range 32)

/-- EN_STD(k, t) (R7): the bits whose severity is the tree's. -/
def enStd (c : Config) (k : Kind) (t : Tree) : Word :=
  (assoc (k, t) c.enStdOf).getD (maskWhere c k (fun e => decide (e.sev = t.severity)))

/-- CONTAIN_STD(k) (R7). -/
def containStd (c : Config) (k : Kind) : Word := (assoc k c.containStdOf).getD (maskWhere c k (fun e => e.contain))

/-- STALL_STD (R7): the low LM_SIZE bits. -/
def stallStd (c : Config) : Word := c.stallStdOf.getD (lowMask c.lmSize)

/-- N_ECC(k) (R7). -/
def nEcc (c : Config) (k : Kind) : Nat := (assoc k c.nEccOf).getD 0

/-- The configured limit of an ECC unit (R373 step 1). -/
def eccLimitStd (c : Config) (k : Kind) (u : Nat) : Word := (assoc (k, u) c.eccLimits).getD 0#32

/-- DIAG_REGS(k) (R7). -/
def diagRegs (c : Config) (k : Kind) : List NodeReg := (assoc k c.diagRegsOf).getD []

/-- diagbits(k): the bits whose diagnostic is RawBlock (R215). -/
def diagBits (c : Config) (k : Kind) : Word := maskWhere c k (fun e => decide (e.diag = .rawBlock))

/-- limit_bit(k, u) and dbe_bit(k, u) (R166): the bit with that ECC tag, if the table has one. -/
def bitWithTag (c : Config) (k : Kind) (tag : EccTag) : Option Nat :=
  (c.table.find? (fun r => decide (r.kind = k) && decide (r.entry.ecc = tag))).map (fun r => r.bit)

/-- The mask of ECC_CW low bits (R30). -/
def eccMask (c : Config) : Word := lowMask c.eccCw

/-! ## What exists (R131) -/

/-- Whether a node of kind `k` has a register (R25 to R35, R121, R122): the full set, or the first three for PCI and PRIV.
R29 says DIAG_REGS(k) "says which of them kind k has", R121 maps DIAG_LOG0 to DIAG_LOG7 for each of the eleven kinds.
DESIGN CHOICE (log 40): all eight exist, and DIAG_REGS(k) lists the captured ones. -/
def hasReg (c : Config) (k : Kind) : NodeReg → Bool
  | .errStatus | .errFirst | .reportEn .fatal => decide (k ≠ .mctrl)
  | .reportEn .nonfatal | .reportEn .correctable => hasFullSet k
  | .containEn | .errAddr => hasFullSet k
  | .diagLog j => hasFullSet k && decide (j < 8)
  | .eccCount u | .eccLimit u | .eccAddr u => hasFullSet k && decide (u < nEcc c k)

/-- Whether a register is mapped (R121 to R129, R131). -/
def mapped (c : Config) : Reg → Bool
  | .node k i r => nodeExists c k i && hasReg c k r
  | .intrStatus m | .intrStallEn m => nodeExists c .mctrl m
  | .ringCmd | .ringStatus => nodeExists c .priv 0
  | .topPending | .topEnable | .hostEoi | .scratchDevice => true
  | .scratchPort w => decide (w < lmw c)
  | .summary _ w => decide (w < sumw c)
  | .portIntrCtrl l | .lmIntrCtrl l | .debugClear l | .containLatch l => decide (l < c.nLink)
  | .tagpoolInit l | .ramInitStatus l => decide (l < c.nLink)
  | .crumbAddr l | .crumbData l | .camAddr l | .camData l => decide (l < c.nLink)
  | .rstseqReq l | .rstseqStatus l => decide (l < c.nLink)
  | .warmReset g => decide (g < nPg c)
  | .ctrlStop l | .passthru l | .routePolicy0 l | .routePolicy1 l => decide (l < c.nLink)
  | .tblAddr l | .tblData l => decide (l < c.nLink)

/-- The row of REGMAP for a register's name, where it is not the default's (R7). -/
def placeOf (c : Config) (r : Reg) : Option RegPlace := assoc (nameOf r) c.regMap

/-- The bus address REGMAP gives a register (R13, R120). -/
def busOf (c : Config) (r : Reg) : Nat :=
  match placeOf c r with
  | some p => packAddr p.kind (instOf r) p.offset
  | none => busAddr r

/-- The register name REGMAP puts at a kind code and offset in place of the default map's. -/
def movedTo (kind offset : Nat) : List (Reg × RegPlace) → Option Reg
  | [] => none
  | (r, p) :: rows => if p.kind = kind ∧ p.offset = offset then some r else movedTo kind offset rows

/-- The register REGMAP names at a bus address, in range or not (R120 to R129, R132). -/
def regAtBus (c : Config) (a : Word) : Option Reg :=
  match movedTo (a.extractLsb' 24 8).toNat (a.extractLsb' 0 12).toNat c.regMap with
  | some r => some (atInst (a.extractLsb' 12 12).toNat r)
  | none => regOfBus a

/-- The mapped register a bus address names; `none` is "not a register" (R88, R131). -/
def mappedReg (c : Config) (a : Word) : Option Reg :=
  match regAtBus c a with
  | some r => if mapped c r && decide (busOf c r = a.toNat) then some r else none
  | none => none

/-- A register value as it stands on the register bus, its fields laid out as REGMAP says (R7). -/
def toBus (c : Config) (r : Reg) (v : Word) : Word :=
  match placeOf c r with
  | some p => if p.layout.isEmpty then v else spreadBits p.layout v
  | none => v

/-- The register value of a word on the register bus. -/
def fromBus (c : Config) (r : Reg) (v : Word) : Word :=
  match placeOf c r with
  | some p => if p.layout.isEmpty then v else gatherBits p.layout v
  | none => v

/-- `defined(a)` (R87, R130): the bits of a register that a field names. -/
def definedMask (c : Config) : Reg → Word
  | .node _ _ (.eccCount _) | .node _ _ (.eccLimit _) => eccMask c
  | .node _ _ .errStatus | .node _ _ .errFirst | .node _ _ (.reportEn _) => BitVec.allOnes 32
  | .node _ _ .containEn | .node _ _ .errAddr | .node _ _ (.diagLog _) | .node _ _ (.eccAddr _) => BitVec.allOnes 32
  | .intrStatus _ | .intrStallEn _ => lowMask c.lmSize
  | .ringCmd | .ringStatus => 0x1#32
  | .topPending | .topEnable => 0x7#32
  | .hostEoi => BitVec.allOnes 32
  | .scratchDevice => 0x1#32
  | .scratchPort _ => BitVec.allOnes 32
  | .summary _ _ => BitVec.allOnes 32
  | .portIntrCtrl _ | .lmIntrCtrl _ => 0x7#32
  | .debugClear _ | .containLatch _ | .tagpoolInit _ | .ramInitStatus _ => 0x1#32
  | .crumbAddr _ | .crumbData _ | .camAddr _ | .camData _ => BitVec.allOnes 32
  | .rstseqReq _ | .rstseqStatus _ => 0x1#32
  | .warmReset _ => lowMask c.pgSize
  | .ctrlStop _ => 0x3#32
  | .passthru _ | .routePolicy0 _ | .routePolicy1 _ => BitVec.allOnes 32
  | .tblAddr _ | .tblData _ => BitVec.allOnes 32

/-- RESET_VALUE (R7, R72) by register key. The scratch and handshake registers reset to 0 (log 14). -/
def resetValue (c : Config) (a : Nat) : Word :=
  match assoc a c.resetValueOf with
  | none => 0#32
  | some v => if zeroAtReset a then 0#32 else v

/-! ## The lists of the recovery (R291, R296) -/

/-- The default SNAP_LIST(l), 29 entries under the default N_ECC (R291): ECC_LIMIT[0] is listed for every port kind. -/
def defaultSnapList (l : Nat) : List Reg :=
  [.ctrlStop l, .passthru l, .routePolicy0 l, .routePolicy1 l]
    ++ portKinds.flatMap (fun k =>
      [.node k l (.reportEn .fatal), .node k l (.reportEn .nonfatal), .node k l (.reportEn .correctable), .node k l .containEn])
    ++ portKinds.map (fun k => .node k l (.eccLimit 0))

/-- SNAP_LIST(l) (R7, R287). -/
def snapList (c : Config) (l : Nat) : List Reg := (assoc l c.snapListOf).getD (defaultSnapList l)

/-- Every register of a node, in offset order. -/
def nodeRegs (c : Config) (k : Kind) (i : Nat) : List Reg :=
  let fixed : List NodeReg :=
    [.errStatus, .errFirst, .reportEn .fatal, .reportEn .nonfatal, .reportEn .correctable, .containEn, .errAddr]
  let units : List NodeReg := (List.range (nEcc c k)).flatMap (fun u => [.eccCount u, .eccLimit u, .eccAddr u])
  (fixed ++ (List.range 8).map NodeReg.diagLog ++ units).map (.node k i)

/-- The default WARM_RESET_SET(l) (R296): all of PORTCFG[l] and of the five port-family nodes of the link. -/
def defaultWarmResetSet (c : Config) (l : Nat) : List Reg :=
  [.ctrlStop l, .passthru l, .routePolicy0 l, .routePolicy1 l] ++ portKinds.flatMap (fun k => nodeRegs c k l)

/-- WARM_RESET_SET(l) (R7, R296). -/
def warmResetSet (c : Config) (l : Nat) : List Reg := (assoc l c.warmResetOf).getD (defaultWarmResetSet c l)

/-! ## Well-formed configurations (R7, R8, R374, U12) -/

/-- The bits of a kind with a table entry. -/
def declaredBits (c : Config) (k : Kind) : List Nat := (List.range 32).filter (fun b => (table c k b).isSome)

/-- Whether one list holds exactly the elements of another, in some order. -/
def permutes (xs ys : List Nat) : Bool :=
  decide xs.Nodup && xs.all (fun x => ys.contains x) && ys.all (fun y => xs.contains y)

/-- ORDER(k) is a permutation. Table P makes it one of 0..31, R374 one of the bits with TABLE entries; the two disagree
wherever a bit of the kind has no entry (table P's own default, ascending from 0, is of the first form) and
spec/90_conflicts.md does not choose. DESIGN CHOICE (log 35): either is accepted, and nothing else. -/
def orderWf (c : Config) (k : Kind) : Bool :=
  permutes (order c k) (List.range 32) || permutes (order c k) (declaredBits c k)

/-- A table row: an in-range bit of a kind, an ECC unit the kind has, an ECC tag under an EccCounter, and only
diagnostic registers the kind has (R8, R221, R374, R88). -/
def rowWf (c : Config) (r : TableRow) : Bool :=
  decide (r.bit < 32)
    && (match r.entry.ecc with
        | .notEcc => decide (r.entry.diag ≠ .eccCounter)
        | .eccLimit u | .eccDbe u => decide (u < nEcc c r.kind) && hasFullSet r.kind)
    && (decide (r.entry.diag ≠ .addressFault) || hasFullSet r.kind)

/-- At most one bit of a kind has a given ECC tag, and one row a given bit (R374). -/
def tableUnique (c : Config) : Bool :=
  decide ((c.table.map (fun r => (r.kind, r.bit))).Nodup)
    && decide (((c.table.filter (fun r => decide (r.entry.ecc ≠ .notEcc))).map (fun r => (r.kind, r.entry.ecc))).Nodup)

/-- The link a register is of, for R374's "registers of link l", which no rule enumerates. DESIGN CHOICE (log 43): those of
the nodes link `l` owns alone (R231), of LINKCTL, PORTCFG and GANGED; no register that links share. -/
def regOfLink (l : Nat) : Reg → Bool
  | .node k i _ => linkKinds.contains k && i == l
  | .portIntrCtrl i | .lmIntrCtrl i | .debugClear i | .containLatch i => i == l
  | .tagpoolInit i | .ramInitStatus i | .crumbAddr i | .crumbData i | .camAddr i | .camData i => i == l
  | .rstseqReq i | .rstseqStatus i => i == l
  | .ctrlStop i | .passthru i | .routePolicy0 i | .routePolicy1 i => i == l
  | .tblAddr i | .tblData i => i == l
  | _ => false

/-- SNAP_LIST(l): at most SNAP_MAX, no duplicate, only RW registers of the link (R374), mapped where the link can
pass Validate (log 24). Whether the DATA registers that R126 and R129 list as RW (indexed) count among the RW registers of
R374 the spec does not say. DESIGN CHOICE (log 42): they do not, and a configuration that lists one starts no run. -/
def snapWf (c : Config) (l : Nat) : Bool :=
  let L := snapList c l
  decide (L.length ≤ c.snapMax) && decide L.Nodup && L.all (fun r => decide (access r = .rw) && regOfLink l r)
    && (!(linkEnabled c l && linkKinds.all (fun k => nodeExists c k l)) || L.all (mapped c))

/-- EXIST(t) has no bit for an engine with no existing node (R374). -/
def existWf (c : Config) (t : Tree) : Bool :=
  (List.range (sumw c)).all (fun w => (setBits (existMask c t w)).all (fun j =>
    match engineOf c (32 * w + j) with
    | some (f, i) => engineExists c f i
    | none => false))

/-- The sizes of table P and the limits of R125; a RAM no deeper than a 32-bit index register can address (R47). -/
def sizesWf (c : Config) : Bool :=
  decide (c.crumbDepth ≤ 0x100000000 ∧ c.camDepth ≤ 0x100000000 ∧ c.gangedDepth ≤ 0x100000000) && decide (1 ≤ c.nLink ∧ c.nLink ≤ 4096) && decide (1 ≤ c.pgSize ∧ c.pgSize ≤ 32) && decide (1 ≤ c.lmSize ∧ c.lmSize ≤ 32)
    && decide (c.nTile ≤ 4096 ∧ c.nTileout ≤ 4096) && decide (1 ≤ c.eccCw ∧ c.eccCw ≤ 32)
    && decide (sumw c ≤ 64 ∧ lmw c ≤ 128) && allKinds.all (fun k => decide (nEcc c k ≤ 4))

/-- A kind is summarised only in trees it has an enable register for (R24 to R26, R88, R344): no agent of the spec
accesses an unmapped register. -/
def treesWf (c : Config) (k : Kind) : Bool :=
  (treesOfKind c k).all (fun t =>
    match k with
    | .mctrl => (treesOfFamily .mctrlf).contains t
    | _ => hasReg c k (.reportEn t))

/-- A row of REGMAP: a register name, a kind code and an offset that fit their fields (R120, R88), a layout that moves
the bits of a word about. -/
def placeWf (x : Reg × RegPlace) : Bool :=
  decide (nameOf x.1 = x.1) && decide (x.2.kind < 256 ∧ x.2.offset < 4096 ∧ x.2.offset % 4 = 0)
    && (x.2.layout.isEmpty || permutes x.2.layout (List.range 32))

/-- The default map has nothing mapped at the kind code and offset of a row, but what REGMAP moves away. -/
def placeFree (c : Config) (p : RegPlace) : Bool :=
  match regAt p.kind 0 p.offset with
  | some r => (placeOf c r).isSome || (List.range 4096).all (fun i => !mapped c (atInst i r))
  | none => true

/-- REGMAP gives every register one address and every address at most one register. -/
def regMapWf (c : Config) : Bool :=
  c.regMap.all placeWf && decide ((c.regMap.map (fun x => x.1)).Nodup)
    && decide ((c.regMap.map (fun x => (x.2.kind, x.2.offset))).Nodup) && c.regMap.all (fun x => placeFree c x.2)

/-- GATE_STD and TOP_ENABLE_CFG are of 3 bits (R7, R374). -/
def masksWf (c : Config) : Bool :=
  decide (c.gateStd &&& ~~~0x7#32 = 0#32) && decide (c.topEnableCfg &&& ~~~0x7#32 = 0#32)

/-- DIAG_REGS(k): at most 8, all of them registers the kind has (R7, R88). -/
def diagRegsWf (c : Config) (k : Kind) : Bool :=
  decide ((diagRegs c k).length ≤ 8) && (diagRegs c k).all (hasReg c k)

/-- The premises of R7, R8 and R374: a run starts only from a configuration that satisfies them (U12). R374 lists with them
that EN_STD(k, t) has only bits with TABLE entries, and calls the breach of it legal. DESIGN CHOICE (log 41): that one is
not asked for, and a configuration that breaks it starts a run. -/
def configWf (c : Config) : Bool :=
  sizesWf c && allKinds.all (treesWf c) && allKinds.all (orderWf c) && c.table.all (rowWf c) && tableUnique c
    && allKinds.all (diagRegsWf c) && (List.range c.nLink).all (snapWf c) && allTrees.all (existWf c) && masksWf c
    && regMapWf c

end Sys2Proof.Machine
end

