-- ==== Sys2Proof/Machine/Defaults.lean ====
section
/-! DEFINITION. The default configuration: the defaults of table P (spec/00_scope.md R7) with the classification
table TV-CFG of spec/95_test_vectors.md section 1, which table P names as TABLE's default. -/

namespace Sys2Proof.Machine

/-- A row without ECC class. -/
def row (k : Kind) (b : Nat) (sev : Severity) (contain dw : Bool) (d : DiagKind) : TableRow :=
  { kind := k, bit := b, entry := { sev := sev, contain := contain, deviceWide := dw, diag := d, ecc := .notEcc } }

/-- TABLE of TV-CFG. -/
def tvTable : List TableRow :=
  [ row .route 0 .fatal false false .none,
    row .route 1 .nonFatal true false .addressFault,
    row .route 2 .nonFatal false false .rawBlock,
    row .ingress 0 .fatal false false .none,
    row .ingress 1 .nonFatal false false .none,
    row .ingress 5 .fatal false true .none,
    row .egress 0 .fatal false false .none,
    { kind := .egress, bit := 2,
      entry := { sev := .correctable, contain := false, deviceWide := false, diag := .eccCounter, ecc := .eccLimit 0 } },
    { kind := .egress, bit := 3,
      entry := { sev := .fatal, contain := false, deviceWide := false, diag := .eccCounter, ecc := .eccDbe 0 } },
    row .tstate 0 .fatal true false .none,
    row .srctrack 0 .fatal false false .none,
    row .srctrack 1 .nonFatal false false .none,
    row .tile 0 .fatal false true .none,
    row .tileout 0 .fatal false true .none,
    row .dl 0 .fatal false false .none,
    row .dl 1 .nonFatal false false .none,
    row .tl 0 .fatal false false .none,
    row .tl 1 .nonFatal true false .none,
    row .lmlink 0 .fatal false false .none,
    row .lmlink 1 .nonFatal false false .none,
    row .lmcommon 0 .fatal false false .none,
    row .mctrl 0 .nonFatal false false .none,
    row .mctrl 1 .nonFatal false false .none,
    row .mctrl 2 .nonFatal false false .none,
    row .mctrl 3 .nonFatal false false .none,
    row .pci 0 .fatal false true .none,
    row .priv 0 .fatal false true .none ]

/-- DIAG_LOG0 to DIAG_LOG3, for the eleven kinds with the full node register set (table P). -/
def tvDiagRegs : List (Kind × List NodeReg) :=
  (allKinds.filter hasFullSet).map (fun k => (k, (List.range 4).map NodeReg.diagLog))

/-- The defaults of table P, with TV-CFG's TABLE. -/
def defaultConfig : Config where
  nLink := 8
  pgSize := 4
  lmSize := 4
  nTile := 2
  nTileout := 2
  disabledLinks := []
  absentNodes := []
  table := tvTable
  orderOf := []
  treesOf := []
  enStdOf := []
  containStdOf := []
  stallStdOf := none
  gateStd := 0x7#32
  topEnableCfg := 0x7#32
  existOf := []
  nEccOf := portKinds.map (fun k => (k, 1))
  eccCw := 8
  eccLimits := []
  diagRegsOf := tvDiagRegs
  capWords := 4
  snapListOf := []
  snapMax := 64
  warmResetOf := []
  resetValueOf := []
  crumbDepth := 4
  camDepth := 4
  gangedDepth := 4
  forcedGate := .always
  regMap := []

end Sys2Proof.Machine
end

