-- ==== Sys2Proof/Machine/State.lean ====
section
/-! DEFINITION. The state of the machine as plain data: every piece of state spec/10_state.md gives it (the
register space, the RAMs, the fault state, the sequencers' transient state, the mutex, the event history), the
configuration it runs under (R67), and, marked so, the model's own fields: the inputs that have not happened yet
and the outputs handed out. -/

namespace Sys2Proof.Machine

/-- No operation of this hardware raises a fault that stops the machine: "There is no other synchronous exception:
no access fault, no alignment fault, no privilege fault, no arithmetic fault, no breakpoint" (R335). The type is
empty, so a step never ends in a fault (safe: nothing is hidden behind one). -/
inductive Fault where
deriving DecidableEq, Repr

/-- Why the model refuses to give a step a meaning. -/
inductive Refusal where
  /-- Raised by `exec` for an operation of the opcode table that has no meaning yet; none is left. Safe: the run stops. -/
  | notModelled (mnemonic : String)
  /-- Raised by RD32 and WR32, and by a HOST access scheduled inside a command, for a bus address no row of the
  register map covers: "a model refuses the access (it has no meaning, and no agent of this spec ever issues one)"
  (R88, R131, U8). Safe: the run stops. -/
  | unmappedAccess (addr : Word)
  /-- Raised by the fetch of a bus transaction whose address is not a multiple of 4 (R88, U8). Safe: the run stops. -/
  | unalignedAccess (addr : Word)
  /-- Raised by `launch` for a configuration that breaks R7, R8 or R374: "`refuse` at launch: a run starts only from a
  configuration satisfying rule R374" (U12). Safe: there is no run. -/
  | illFormedConfig
deriving DecidableEq, Repr

/-! ## Values that occur in the state -/

/-- The three-valued Result (R330, R135). -/
inductive Result3 where
  | success | notFound | moreProcessingRequired
deriving DecidableEq, Repr

/-- Per-link recovery status (R137). -/
inductive LinkStatus where
  | ok | timeout | containLatchStuck | reRegistrationFailed | skippedInvalid | skippedNotForced
deriving DecidableEq, Repr

/-- The progress of RSTDRAIN on a link (R55). -/
inductive Phase where
  | idle | reset | restored | rearmed | failed | destroyed
deriving DecidableEq, Repr

/-- The mutex (R62). -/
inductive Lock where
  | free | wlk
  | rcv (l : Nat)
deriving DecidableEq, Repr

/-- The walker's sequencing position (R60): level TOP, L2, FAMILY or LEAF with the item being serviced (the top-level
bit 0, 1 or 2; the tree and engine; the node), and inside a LEAF the template step 1 to 8. At TOP and L2 the item is
`none` while the level's own register is read, before the first item (log 31). -/
inductive Cursor where
  | top (bit : Option Nat)
  | l2 (t : Tree) (word : Nat) (engine : Option Nat)
  | family (f : Family) (inst : Nat) (t : Tree)
  | leaf (k : Kind) (i : Nat) (t : Tree) (stp : Nat)
deriving DecidableEq, Repr

/-- The values one HANDLE holds while it runs (R58, R59): P, EN, M, CN, F, the accumulator U, the ECC units touched,
and was_faulted. All zero outside a HANDLE ("recreated on every dispatch pass; never persisted"). -/
structure LeafRegs where
  pending    : Word := 0#32
  enabled    : Word := 0#32
  mask       : Word := 0#32
  contain    : Word := 0#32
  first      : Word := 0#32
  unhandled  : Word := 0#32
  units      : List Nat := []
  wasFaulted : Bool := false
deriving DecidableEq, Repr

/-! ## The event history (R70, R71) -/

/-- The diagnostic payload of a report (R71, R220). -/
inductive Diagnostic where
  | none
  | rawBlock (words : List Word) (captured : Nat)
  | addressFault (valid : Bool) (addr : BitVec 31)
  | eccCounter (count : Word) (uncorrectable : Bool)
deriving DecidableEq, Repr

/-- One classified occurrence (R71, R220). -/
structure ErrorEvent where
  kind : Kind
  bit  : Nat
  inst : Nat
  link : Option Nat
  sev  : Severity
  diag : Diagnostic
deriving DecidableEq, Repr

/-- The notifications of R251. -/
inductive Notice where
  | portDown (l : Nat)
  | deviceDown
deriving DecidableEq, Repr

/-- The persistent-log call of R223: (kind, unit), link, address-valid, address, uncorrectable, count. -/
structure EccLogEvent where
  kind  : Kind
  unit  : Nat
  link  : Option Nat
  valid : Bool
  addr  : BitVec 31
  uncorrectable : Bool
  count : Word
deriving DecidableEq, Repr

/-- The collaborator calls of R6 that RSTDRAIN and boot make. -/
inductive ExtName where
  | unregisterLink
  /-- request_link_state(shutdown, sync) -/
  | requestShutdown
  | clearTransportState
  | registerLink
  | launchTraining
deriving DecidableEq, Repr

/-- The delays of R15; only the drain delay occurs (R292). Time itself is not modelled (R14, R395). -/
inductive Duration where
  | tDrain
deriving DecidableEq, Repr

/-- The log lines of R71 (`Log(msg)`): the message, as data. -/
inductive LogMsg where
  | invalidLink (l : Nat)
  | recoveryError (st : LinkStatus) (stp l : Nat)
  | privAckTimeout
  | trainingFailed
deriving DecidableEq, Repr

/-- The events of a sink whose failure is logged (R217). -/
inductive SinkEvent where
  | notify (n : Notice)
  | eccLog (e : EccLogEvent)
deriving DecidableEq, Repr

/-- `Result(cmd, value)` (R71): one for every command, and one for every internal HANDLE and WALKFAM
(spec/95_test_vectors.md P1). -/
inductive ResultEvent where
  | service (r : Result3)
  | walkfam (f : Family) (inst : Nat) (t : Tree) (r : Result3)
  | handle (k : Kind) (i : Nat) (t : Tree) (r : Result3)
  | setfatal
  | qlink (l : Nat) (v : Bool)
  | qdev (v : Bool)
  | rstdrain (failed : Bool) (sts : List (Nat × LinkStatus × Nat))
  /-- A refused command word (R139). R71 writes Result(cmd, value) and R139 only 'the Result': which cmd that of a word
  that is no command names is left open. DESIGN CHOICE (log 37): it names none. -/
  | refused
deriving DecidableEq, Repr

/-- The event kinds of R71. -/
inductive Event where
  | write (r : Reg) (v : Word)
  | report (e : ErrorEvent)
  | notify (n : Notice)
  | eccLog (e : EccLogEvent)
  | unhandled (k : Kind) (i : Nat) (t : Tree) (bits : Word)
  | sinkFailure (e : SinkEvent)
  | log (m : LogMsg)
  | extCall (n : ExtName) (l : Option Nat)
  | delay (d : Duration)
  | result (r : ResultEvent)
deriving DecidableEq, Repr

/-! ## Inputs (the model's own: what the other agents of R18 do, as data) -/

/-- The environment inputs of R14 that answer yes or no. -/
inductive EnvQuery where
  | rstseqAck (l : Nat) | raminitDone (l : Nat) | privAck
  | containStuck (l : Nat) | linkInReset (l : Nat) | registerOk (l : Nat)
  | trainingOk
  | sinkOk
deriving DecidableEq, Repr

/-- The answers the environment gives to one input, call by call: `script` to the next calls, `rest` to every
later one. Every finite sequence of answers is one of these (R14: "under no law"). -/
structure Oracle where
  script : List Bool
  rest   : Bool
deriving DecidableEq, Repr

/-- What an arrival puts into the diagnostic registers it does not describe (R168, U3): any values. `diagLog` gives
DIAG_LOG0, 1, … (a register past its end keeps its value, as does ERR_ADDR where `errAddr` is none); `eccAddr`
gives ECC_ADDR[u] of the units whose double-bit-error bit arrives (R166). -/
structure Draw where
  errAddr : Option Word := none
  diagLog : List Word := []
  eccAddr : List (Nat × Word) := []
deriving DecidableEq, Repr

/-- What the RAMs hold after a cold reset (R370, U5): any values, by entry key and by link. -/
structure RamDraw where
  crumb  : List (Nat × Word) := []
  cam    : List (Nat × Word) := []
  ganged : List (Nat × Word) := []
  clean  : List (Nat × Bool) := []
deriving DecidableEq, Repr

/-- One step of an agent other than the sequencer that is running (R18). -/
inductive Move where
  /-- SRC: fault conditions `bits` arrive at a node (R160). -/
  | arrive (k : Kind) (i : Nat) (bits : Word) (d : Draw)
  /-- SRC: a single-bit error of an ECC unit, with the address it leaves (R166). -/
  | eccTick (k : Kind) (i u : Nat) (addr : Word) (d : Draw)
  /-- SRC, the hardware responders of R167. -/
  | rstseqAck (l : Nat) | ramInitDone (l : Nat) | ringAck
  /-- EXT: traffic on a link, after which its tag pool is not clean (R52). -/
  | traffic (l : Nat)
  /-- HOST: a direct bus access (R81, R365, U11). -/
  | hostRd (addr : Word) | hostWr (addr data : Word)
  /-- HOST: the interrupt is delivered if the line is asserted (R345). -/
  | deliver
  /-- HOST: registration of a link at boot (R373 step 4). -/
  | registerLink (l : Nat)
  /-- WLK: the end of interrupt and the Result of a SERVICE whose pass has ended (R180). -/
  | walkerTail
  /-- RCV: the next step of a RSTDRAIN that has its links behind it and needs the mutex no more: step 15, then its Result
  (R281, R309). -/
  | rcvStep
  /-- The other sequencer takes up the next command of the command port (R313). While a RSTDRAIN is in flight and the mutex
  is free: WLK runs a walker command to its end (R281, R352). While WLK runs a command: RCV takes up a RSTDRAIN that
  needs no mutex, one of no link; any other waits at its `lock()`, and so stays where it is (R62). One that is refused is
  answered at any time (R334, log 39). -/
  | runNext
  /-- The environment: an input is fixed from here on (R143, ENV). -/
  | setEnv (q : EnvQuery) (b : Bool)
  /-- The two resets of R370 and R371; one inside a command ends the command. -/
  | coldReset (ram : RamDraw) | softReset
deriving DecidableEq, Repr

/-- What the step reads next: a frame HOST presents on one of the two interfaces (R110), or a step of another agent. -/
inductive Input where
  | frame (f : Frame)
  | move (m : Move)
deriving DecidableEq, Repr

/-! ## The state -/

/-- The hardware side: the register space (R20 to R51), the RAMs (R52), the host line's gate (R63), the cached ganged
table (R66), and what a responder has been asked and has not answered yet (R167). -/
structure Hardware where
  /-- The stored registers by key, their address in the default map (log 15); an unlisted address reads as RESET_VALUE. -/
  regs : Memory Word
  /-- CRUMB_RAM, CAM_RAM and GANGED_RAM by entry key (`ramKey`). -/
  crumbRam  : Memory Word
  camRam    : Memory Word
  gangedRam : Memory Word
  /-- tagpool_clean by link. -/
  tagpoolClean : Memory Bool
  /-- A request the reset sequencer, the RAM initialiser, the ring master has not answered (R46, R48, R35, R167). -/
  rstseqPending  : Memory Bool
  ramInitPending : Memory Bool
  ringPending    : Bool
  armed : Bool
  gangedCache : List Word
deriving DecidableEq, Repr

/-- The fault state (R53 to R56), by link. -/
structure FaultState where
  fatalOccurred : Memory Bool
  resetRequired : Bool
  phase         : Memory Phase
  registered    : Memory Bool
deriving DecidableEq, Repr

/-- What RCV owes once the links of a RSTDRAIN are behind it (R281, R309): step 15, until `launched`, then the Result with
the links' statuses. -/
structure RcvTail where
  sts      : List (Nat × LinkStatus × Nat)
  launched : Bool
deriving DecidableEq, Repr

/-- The sequencers' transient state (R58 to R65): the mutex, the walker's cursor, the values of the running HANDLE, the
capture buffer with its count, the recovery's position and snapshot, the Result of a SERVICE that has released the
mutex and not yet written the end of interrupt (R180), and what a RSTDRAIN owes after its last link (R281). -/
structure Sequencer where
  lock     : Lock := .free
  cursor   : Option Cursor := none
  leaf     : LeafRegs := {}
  cap      : List Word := []
  captured : Nat := 0
  rcvLink  : Option Nat := none
  rcvStep  : Option Nat := none
  snap     : List (Reg × Word) := []
  wlkTail  : Option Result3 := none
  rcvTail  : Option RcvTail := none
deriving DecidableEq, Repr

/-- The outside. MODEL'S OWN but for `history`, which is R70's H: `inbox` what HOST and the other agents do next;
`sched` the steps of other agents that fall before each register access of a running command, one list of moves an
access; `env` the environment's answers; `responses` the response words handed out, a list for each command (R119);
`readData` the values RD32 returned. -/
structure Outside where
  history   : List Event
  inbox     : List Input
  sched     : List (List Move)
  env       : Memory Oracle
  responses : List (List Word)
  readData  : List Word
deriving DecidableEq, Repr

structure State where
  /-- The configuration of the run (R67): no step changes it. -/
  cfg   : Config
  hw    : Hardware
  fault : FaultState
  seq   : Sequencer
  io    : Outside
deriving DecidableEq, Repr

/-- The hardware after a cold reset with the given RAM contents (R370). -/
def Hardware.afterReset (crumb cam ganged : Memory Word) (clean : Memory Bool) (cache : List Word) : Hardware where
  regs := []
  crumbRam := crumb
  camRam := cam
  gangedRam := ganged
  tagpoolClean := clean
  rstseqPending := []
  ramInitPending := []
  ringPending := false
  armed := false
  gangedCache := cache

/-- The fault state after a cold reset (R72, R370). -/
def FaultState.clear : FaultState where
  fatalOccurred := []
  resetRequired := false
  phase := []
  registered := []

/-- The machine right after a cold reset under the default configuration (R72, R370): every register at RESET_VALUE,
flags false, phases IDLE, nothing registered, the mutex FREE, not armed, H empty. The RAM contents (U5), the cached
ganged table (R66) and the model's own fields are named in the log (entries 2, 3 and 4). -/
def State.reset : State where
  cfg := defaultConfig
  hw := Hardware.afterReset [] [] [] [] []
  fault := FaultState.clear
  seq := {}
  io := { history := [], inbox := [], sched := [], env := [], responses := [], readData := [] }

end Sys2Proof.Machine
end

