-- ==== Sys2Proof/Machine/Ops.lean ====
section
/-! DEFINITION. The named operations over the state: registers and RAMs (spec/20_memory.md, R30 to R52), the
cascade that makes the combinational registers (R163 to R165), reading and writing one register with every side
effect R90 names (R150, R151), the fault flags, the resets (R370, R371), and what stands for taking an exception
and returning from it on this hardware: delivery of the host interrupt and the end of interrupt (R345, R355, R360). -/

namespace Sys2Proof.Machine

/-! ## Storage -/

/-- The stored value of a register, under its key; RESET_VALUE where nothing is stored. -/
def State.load (s : State) (r : Reg) : Word := s.hw.regs.get (resetValue s.cfg) (busAddr r)

/-- `r <- v`, a direct update of a stored register (R13). -/
def State.store (s : State) (r : Reg) (v : Word) : State :=
  { s with hw := { s.hw with regs := s.hw.regs.set (resetValue s.cfg) (busAddr r) v } }

/-- Every listed register takes RESET_VALUE (R296). -/
def State.resetRegs (s : State) : List Reg → State
  | [] => s
  | r :: rs => State.resetRegs (s.store r (resetValue s.cfg (busAddr r))) rs

/-- Every listed register becomes 0 (R300). -/
def State.zeroRegs (s : State) : List Reg → State
  | [] => s
  | r :: rs => State.zeroRegs (s.store r 0#32) rs

/-! ## Events and outputs -/

/-- `emit Ev` (R16): appends to H. -/
def State.emit (s : State) (e : Event) : State := { s with io := { s.io with history := s.io.history ++ [e] } }

/-- Response words on the command port (R110, R119). -/
def State.respond (s : State) (ws : List Word) : State :=
  { s with io := { s.io with responses := s.io.responses ++ [ws] } }

/-- The value an RD32 from HOST returns. -/
def State.answerRead (s : State) (v : Word) : State := { s with io := { s.io with readData := s.io.readData ++ [v] } }

def State.setInbox (s : State) (q : List Input) : State := { s with io := { s.io with inbox := q } }
def State.setSched (s : State) (q : List (List Move)) : State := { s with io := { s.io with sched := q } }

/-! ## Fault flags (R53 to R56) -/

def State.fatalOccurred (s : State) (l : Nat) : Bool := s.fault.fatalOccurred.get (fun _ => false) l
def State.setFatalOccurred (s : State) (l : Nat) (b : Bool) : State :=
  { s with fault := { s.fault with fatalOccurred := s.fault.fatalOccurred.set (fun _ => false) l b } }
def State.setResetRequired (s : State) (b : Bool) : State := { s with fault := { s.fault with resetRequired := b } }
def State.phase (s : State) (l : Nat) : Phase := s.fault.phase.get (fun _ => .idle) l
def State.setPhase (s : State) (l : Nat) (p : Phase) : State :=
  { s with fault := { s.fault with phase := s.fault.phase.set (fun _ => .idle) l p } }
def State.registered (s : State) (l : Nat) : Bool := s.fault.registered.get (fun _ => false) l
def State.setRegistered (s : State) (l : Nat) (b : Bool) : State :=
  { s with fault := { s.fault with registered := s.fault.registered.set (fun _ => false) l b } }

/-! ## Sequencer state (R58 to R65) -/

def State.setLock (s : State) (k : Lock) : State := { s with seq := { s.seq with lock := k } }
def State.setCursor (s : State) (c : Option Cursor) : State := { s with seq := { s.seq with cursor := c } }
def State.setLeaf (s : State) (r : LeafRegs) : State := { s with seq := { s.seq with leaf := r } }
/-- Bit `b` leaves the accumulator U (R216). -/
def State.recognise (s : State) (b : Nat) : State :=
  s.setLeaf { s.seq.leaf with unhandled := s.seq.leaf.unhandled &&& ~~~bit b }
/-- The ECC unit joins `units` (R211 step 4). -/
def State.touchUnit (s : State) (u : Nat) : State :=
  s.setLeaf { s.seq.leaf with units := if s.seq.leaf.units.contains u then s.seq.leaf.units else s.seq.leaf.units ++ [u] }
def State.clearCap (s : State) : State := { s with seq := { s.seq with cap := [], captured := 0 } }
/-- `CAP[captured] <- v ; captured <- captured + 1` (R215). -/
def State.pushCap (s : State) (v : Word) : State :=
  { s with seq := { s.seq with cap := s.seq.cap ++ [v], captured := s.seq.captured + 1 } }
def State.setRcvLink (s : State) (l : Option Nat) : State := { s with seq := { s.seq with rcvLink := l } }
def State.setRcvStep (s : State) (n : Option Nat) : State := { s with seq := { s.seq with rcvStep := n } }
def State.setSnap (s : State) (q : List (Reg × Word)) : State := { s with seq := { s.seq with snap := q } }
def State.setTail (s : State) (r : Option Result3) : State := { s with seq := { s.seq with wlkTail := r } }
def State.setRcvTail (s : State) (q : Option RcvTail) : State := { s with seq := { s.seq with rcvTail := q } }
/-- The links of a RSTDRAIN are behind it (R61, R281): RCV is at step 15, of no link, and owes it and the Result. -/
def State.oweTraining (s : State) (sts : List (Nat × LinkStatus × Nat)) : State :=
  ((s.setRcvLink none).setRcvStep (some 15)).setRcvTail (some { sts := sts, launched := false })

/-! ## RAMs (R47, R51, R52) -/

/-- The storage key of an entry: link and 32-bit index. -/
def ramKey (l idx : Nat) : Nat := l * 0x100000000 + idx

/-- The fixed depth of a RAM (R7). -/
def ramDepth (c : Config) : Ram → Nat
  | .crumb => c.crumbDepth
  | .cam => c.camDepth
  | .ganged => c.gangedDepth

def State.ramOf (s : State) : Ram → Memory Word
  | .crumb => s.hw.crumbRam
  | .cam => s.hw.camRam
  | .ganged => s.hw.gangedRam

def State.setRam (s : State) (m : Memory Word) : Ram → State
  | .crumb => { s with hw := { s.hw with crumbRam := m } }
  | .cam => { s with hw := { s.hw with camRam := m } }
  | .ganged => { s with hw := { s.hw with gangedRam := m } }

/-- RAM[l][idx]. -/
def State.ramEntry (s : State) (m : Ram) (l idx : Nat) : Word := (s.ramOf m).get (fun _ => 0#32) (ramKey l idx)

/-- The key the free values of log 5 are applied to. -/
def beyondKey : Ram → Nat → Nat → Nat
  | .crumb, l, idx => 4 * ramKey l idx
  | .cam, l, idx => 4 * ramKey l idx + 1
  | .ganged, l, idx => 4 * ramKey l idx + 2

/-- The entry an index names: the one at the index; for an index not below the depth a free choice of an entry of the
RAM, or none (log 5). -/
def ramIndex (c : Config) (m : Ram) (l idx : Nat) : Option Nat :=
  if idx < ramDepth c m then some idx
  else match Config.indexBeyondDepth (beyondKey m l idx) with
    | some i => if i < ramDepth c m then some i else none
    | none => none

/-- A read of an indexed DATA register (R47, R150); where the index names no entry, a free value (log 5). -/
def State.ramRead (s : State) (m : Ram) (l idx : Nat) : Word :=
  match ramIndex s.cfg m l idx with
  | some i => s.ramEntry m l i
  | none => Config.entryBeyondDepth (beyondKey m l idx)

/-- A write of an indexed DATA register (R47, R151). -/
def State.ramWrite (s : State) (m : Ram) (l idx : Nat) (v : Word) : State :=
  match ramIndex s.cfg m l idx with
  | some i => s.setRam ((s.ramOf m).set (fun _ => 0#32) (ramKey l i) v) m
  | none => s

def State.tagpoolClean (s : State) (l : Nat) : Bool := s.hw.tagpoolClean.get (fun _ => false) l
def State.setTagpoolClean (s : State) (l : Nat) (b : Bool) : State :=
  { s with hw := { s.hw with tagpoolClean := s.hw.tagpoolClean.set (fun _ => false) l b } }
def State.rstseqPending (s : State) (l : Nat) : Bool := s.hw.rstseqPending.get (fun _ => false) l
def State.setRstseqPending (s : State) (l : Nat) (b : Bool) : State :=
  { s with hw := { s.hw with rstseqPending := s.hw.rstseqPending.set (fun _ => false) l b } }
def State.ramInitPending (s : State) (l : Nat) : Bool := s.hw.ramInitPending.get (fun _ => false) l
def State.setRamInitPending (s : State) (l : Nat) (b : Bool) : State :=
  { s with hw := { s.hw with ramInitPending := s.hw.ramInitPending.set (fun _ => false) l b } }
def State.setRingPending (s : State) (b : Bool) : State := { s with hw := { s.hw with ringPending := b } }
def State.setArmed (s : State) (b : Bool) : State := { s with hw := { s.hw with armed := b } }

/-! ## The cascade (R163 to R165) -/

/-- The stored value of a register in its defined bits; undefined bits read 0 (R87). -/
def State.field (s : State) (r : Reg) : Word := s.load r &&& definedMask s.cfg r

/-- node_mask(n, t) = ERR_STATUS & REPORT_EN (R163). -/
def State.nodeMask (s : State) (k : Kind) (i : Nat) (t : Tree) : Word :=
  s.field (.node k i .errStatus) &&& s.field (.node k i (.reportEn t))

/-- gate(n, t) (R163). -/
def State.gate (s : State) (k : Kind) (i : Nat) (t : Tree) : Bool :=
  if portKinds.contains k then (s.field (.portIntrCtrl i)).getLsbD t.code
  else if lmKinds.contains k then (s.field (.lmIntrCtrl i)).getLsbD t.code
  else true

/-- contributes(n, t) (R163). -/
def State.contributes (s : State) (k : Kind) (i : Nat) (t : Tree) : Bool :=
  (treesOfKind s.cfg k).contains t && s.gate k i t && decide (s.nodeMask k i t ≠ 0#32)

/-- The microcontroller's summary bit, the same in the fatal and the non-fatal tree (R164, R344). -/
def State.mctrlAsserts (s : State) (m : Nat) (t : Tree) : Bool :=
  (treesOfFamily .mctrlf).contains t && nodeExists s.cfg .mctrl m
    && decide (s.field (.intrStatus m) &&& s.field (.intrStallEn m) ≠ 0#32)

/-- SUM_t bit e, by the engine's family and instance (R164). -/
def State.engineAsserts (s : State) (f : Family) (i : Nat) (t : Tree) : Bool :=
  match f with
  | .mctrlf => s.mctrlAsserts i t
  | _ => (engineNodes s.cfg f i).any (fun n => s.contributes n.1 n.2 t)

/-- SUM_t word w (R39, R164). -/
def State.summaryWord (s : State) (t : Tree) (w : Nat) : Word :=
  (List.range 32).foldl (fun acc j =>
    match engineOf s.cfg (32 * w + j) with
    | some (f, i) => if s.engineAsserts f i t then acc ||| bit j else acc
    | none => acc) 0#32

/-- TOP_PENDING bit 0 (R165): some bit of some summary word is 1. -/
def State.anySummary (s : State) : Bool :=
  allTrees.any (fun t => (List.range (sumw s.cfg)).any (fun w => decide (s.summaryWord t w ≠ 0#32)))

/-- TOP_PENDING bits 1 and 2 (R165, R342). -/
def State.directPending (s : State) (k : Kind) : Bool :=
  nodeExists s.cfg k 0 && decide (s.nodeMask k 0 .fatal ≠ 0#32)

/-- TOP_PENDING (R36, R165). -/
def State.topPending (s : State) : Word :=
  (if s.anySummary then bit 0 else 0#32) ||| (if s.directPending .pci then bit 1 else 0#32)
    ||| (if s.directPending .priv then bit 2 else 0#32)

/-- The host line (R63, R345). -/
def State.hostLine (s : State) : Bool :=
  s.hw.armed && decide (s.topPending &&& s.field .topEnable ≠ 0#32)

/-! ## Reading and writing one register (R150, R151, R86, R87, R90) -/

/-- The value RD32 returns for a mapped register (R150): a WO register reads 0, a combinational one follows its inputs,
an indexed DATA register reads the RAM at its ADDR register, any other reads its defined bits. -/
def readReg (s : State) (r : Reg) : Word :=
  match r with
  | .ringCmd => 0#32
  | .hostEoi => 0#32
  | .tagpoolInit _ => 0#32
  | .topPending => s.topPending
  | .summary t w => s.summaryWord t w
  | .crumbData l => s.ramRead .crumb l (s.field (.crumbAddr l)).toNat
  | .camData l => s.ramRead .cam l (s.field (.camAddr l)).toNat
  | .tblData l => s.ramRead .ganged l (s.field (.tblAddr l)).toNat
  | r => s.field r

/-- ERR_STATUS and ERR_FIRST of the existing port-family nodes of a link (R300). -/
def portStatusRegs (c : Config) (l : Nat) : List Reg :=
  (portKinds.filter (fun k => nodeExists c k l)).flatMap (fun k => [.node k l .errStatus, .node k l .errFirst])

/-- The warm reset of the ports whose WARM_RESET bits rise (R49, R296). -/
def State.warmResetPorts (s : State) (g : Nat) : List Nat → State
  | [] => s
  | p :: ps =>
    let l := g * s.cfg.pgSize + p
    State.warmResetPorts (if l < s.cfg.nLink then s.resetRegs (warmResetSet s.cfg l) else s) g ps

/-- The side effect of an RW write that stored `new` over `old` (R90): the debug-clear pulse and the warm reset act on
a rising bit (R296, R300), a reset-sequencer request on a written 1 (R298). -/
def State.rwEffect (s : State) (r : Reg) (old new : Word) : State :=
  match r with
  | .debugClear l => if new.getLsbD 0 && !old.getLsbD 0 then s.zeroRegs (portStatusRegs s.cfg l) else s
  | .warmReset g => s.warmResetPorts g (setBits (new &&& ~~~old))
  | .rstseqReq l => if new.getLsbD 0 then (s.store (.rstseqStatus l) 0#32).setRstseqPending l true else s
  | _ => s

/-- The side effect of a WO write (R90): the end of interrupt for any value (R38), the tag-pool zero-init and the
ring-master request for a written bit 0 (R46, R35, R245). -/
def State.woEffect (s : State) (r : Reg) (v : Word) : State :=
  match r with
  | .hostEoi => s.setArmed true
  | .tagpoolInit l => if v.getLsbD 0 then (s.store (.ramInitStatus l) 0#32).setRamInitPending l true else s
  | .ringCmd => if v.getLsbD 0 then (s.store .ringStatus 0#32).setRingPending true else s
  | _ => s

/-- The indexed DATA registers (R47, R51). -/
def State.indexedWrite (s : State) (r : Reg) (v : Word) : State :=
  match r with
  | .crumbData l => s.ramWrite .crumb l (s.field (.crumbAddr l)).toNat v
  | .camData l => s.ramWrite .cam l (s.field (.camAddr l)).toNat v
  | .tblData l => s.ramWrite .ganged l (s.field (.tblAddr l)).toNat v
  | _ => s

/-- What a WR32 does to the state but for its record in H (R151, R86, R87); `stuck` is `env.contain_stuck` where the
write would clear a contain latch (R302), false elsewhere. -/
def State.applyWrite (s : State) (r : Reg) (v : Word) (stuck : Bool) : State :=
  match access r with
  | .ro => s
  | .combinational => s
  | .w1c => if stuck then s else s.store r (s.field r &&& ~~~v)
  | .wo => s.woEffect r v
  | .rw => (s.store r (v &&& definedMask s.cfg r)).rwEffect r (s.field r) (v &&& definedMask s.cfg r)
  | .indexed => s.indexedWrite r v

/-! ## Entry to and return from the interrupt path (R345, R355, R360) -/

/-- The frame of a SERVICE command. -/
def serviceFrame : Frame := encode .service

/-- DELIVER, the entry (R345, R355): where the host line is asserted `armed` is cleared, nothing is saved, and HOST
issues SERVICE, which is what the command port is given next. Where the line is low there is no delivery. -/
def State.deliver (s : State) : State :=
  if s.hostLine then (s.setArmed false).setInbox (.frame serviceFrame :: s.io.inbox) else s

/-! ## Resets (R370, R371) -/

/-- Cold reset (R370): registers at RESET_VALUE, flags and phases cleared, LOCK FREE, not armed, H empty, the transient
state gone, the RAMs at the drawn values (U5). The configuration, the cached ganged table and the model's own inputs
and outputs are not the block's and stay. -/
def State.coldReset (s : State) (d : RamDraw) : State :=
  { s with
    hw := Hardware.afterReset (Memory.ofList (fun _ => 0#32) d.crumb) (Memory.ofList (fun _ => 0#32) d.cam)
      (Memory.ofList (fun _ => 0#32) d.ganged) (Memory.ofList (fun _ => false) d.clean) s.hw.gangedCache
    fault := FaultState.clear
    seq := {}
    io := { s.io with history := [] } }

/-- PORT_RESET_REQUIRED of a link, as the scratch register holds it (R41). -/
def State.portResetRequired (s : State) (l : Nat) : Bool := (s.field (.scratchPort (l / 32))).getLsbD (l % 32)

/-- Soft reset (R371): no register changes; the flags are reloaded from scratch, phases IDLE, nothing registered, LOCK
FREE, not armed, the transient state gone. -/
def State.softReset (s : State) : State :=
  { s with
    hw := { s.hw with armed := false }
    fault :=
      { fatalOccurred := Memory.ofList (fun _ => false) ((List.range s.cfg.nLink).map (fun l => (l, s.portResetRequired l)))
        resetRequired := (s.field .scratchDevice).getLsbD 0
        phase := []
        registered := [] }
    seq := {} }

/-! ## The start of a run (R67, R100, U12) -/

/-- A configuration, if it is one a run may start from (U12). -/
def checked (c : Config) (start : State) : Except Refusal State :=
  if configWf c then .ok start else .error .illFormedConfig

/-- The same registers and RAMs under another configuration: every register keeps the value it reads as, whatever
RESET_VALUE becomes. -/
def State.underConfig (s : State) (c : Config) : State :=
  let keys := s.hw.regs.map (fun x => x.1) ++ s.cfg.resetValueOf.map (fun x => x.1) ++ c.resetValueOf.map (fun x => x.1)
  { s with
    cfg := c
    hw := { s.hw with
      regs := Memory.ofList (resetValue c) (keys.map (fun a => (a, s.hw.regs.get (resetValue s.cfg) a))) } }

/-- A run that starts at a cold reset (R67, R100, R370): the machine after it under a configuration, with the cached
ganged table (R66) and the RAM contents (U5) given; refused where the configuration is ill-formed (U12). -/
def launch (c : Config) (cache : List Word) (d : RamDraw) : Except Refusal State :=
  checked c (({ State.reset with cfg := c, hw := { State.reset.hw with gangedCache := cache } } : State).coldReset d)

/-- A run that starts at a soft reset (R67, R100, R371): a change to the configuration takes effect, no register
changes, and the fault state is rebuilt from the scratch registers; refused where the configuration is ill-formed. -/
def relaunch (c : Config) (s : State) : Except Refusal State := checked c (s.underConfig c).softReset

/-- A run that starts at a cold reset of a running machine (R67, R100, R370). -/
def relaunchCold (c : Config) (d : RamDraw) (s : State) : Except Refusal State := checked c ((s.underConfig c).coldReset d)

end Sys2Proof.Machine
end

