-- ==== Sys2Proof/Machine/Source.lean ====
section
/-! DEFINITION. The steps of agent SRC (spec/40_register_access.md R160 to R169): a fault condition arrives, an ECC
counter ticks, a hardware responder answers. Values the spec leaves to a draw come with the step (`Draw`). -/

namespace Sys2Proof.Machine

/-- The links whose contain latch an arrival at a node can set (R162): the owner link, the enabled links of the
instance for LMCOMMON, none for a device-owned node. -/
def latchLinks (c : Config) (k : Kind) (i : Nat) : List Nat :=
  match k with
  | .lmcommon => linksOfLm c i
  | _ => (ownerLink k i).toList

/-- First latch (R161), with `p` the status before the arrival. -/
def State.latchFirst (s : State) (k : Kind) (i : Nat) (p e : Word) : State :=
  if p = 0#32 then s.store (.node k i .errFirst) (s.field (.node k i .errFirst) ||| e) else s

/-- `CONTAIN_LATCH[l] bit 0 <- 1` for every listed link (R162). -/
def State.setLatches (s : State) : List Nat → State
  | [] => s
  | l :: ls => State.setLatches (s.store (.containLatch l) 1#32) ls

/-- Contain latch (R162). -/
def State.latchContain (s : State) (k : Kind) (i : Nat) (e : Word) : State :=
  if hasReg s.cfg k .containEn = true ∧ e &&& s.field (.node k i .containEn) ≠ 0#32 then
    s.setLatches (latchLinks s.cfg k i)
  else s

/-- DIAG_LOG j, j+1, … take the drawn values (R29, R168). -/
def State.drawDiag (s : State) (k : Kind) (i : Nat) : Nat → List Word → State
  | _, [] => s
  | j, v :: vs => if j < 8 then State.drawDiag (s.store (.node k i (.diagLog j)) v) k i (j + 1) vs else s

/-- ECC_ADDR of the units whose double-bit-error bit is among the arriving bits takes the drawn value (R166). -/
def State.drawEccAddr (s : State) (k : Kind) (i : Nat) (e : Word) : List (Nat × Word) → State
  | [] => s
  | (u, v) :: ds =>
    let s' := match bitWithTag s.cfg k (.eccDbe u) with
      | some b => if e.getLsbD b && hasReg s.cfg k (.eccAddr u) then s.store (.node k i (.eccAddr u)) v else s
      | none => s
    State.drawEccAddr s' k i e ds

/-- Diagnostic registers on arrival (R168). -/
def State.drawDiagnostics (s : State) (k : Kind) (i : Nat) (e : Word) (d : Draw) : State :=
  if hasFullSet k then
    let s1 := match d.errAddr with
      | some v => s.store (.node k i .errAddr) v
      | none => s
    (s1.drawDiag k i 0 d.diagLog).drawEccAddr k i e d.eccAddr
  else s

/-- ARRIVE at a node that has ERR_STATUS (R160). -/
def State.arriveNode (s : State) (k : Kind) (i : Nat) (e : Word) (d : Draw) : State :=
  let p := s.field (.node k i .errStatus)
  (((s.latchFirst k i p e).latchContain k i e).drawDiagnostics k i e d).store (.node k i .errStatus) (p ||| e)

/-- ARRIVE at a microcontroller (R160): no first latch, no contain latch. -/
def State.arriveMctrl (s : State) (m : Nat) (e : Word) : State :=
  s.store (.intrStatus m) (s.field (.intrStatus m) ||| (e &&& lowMask s.cfg.lmSize))

/-- ARRIVE(n, E) (R160): E is a non-zero set of bits and n exists; otherwise there is no such step. -/
def State.arrive (s : State) (k : Kind) (i : Nat) (e : Word) (d : Draw) : State :=
  if e = 0#32 ∨ nodeExists s.cfg k i = false then s
  else if k = .mctrl then s.arriveMctrl i e
  else s.arriveNode k i e d

/-- ECCTICK(n, u) (R166): count modulo 2^ECC_CW, the victim's address as drawn, and the arrival of the limit bit where
the count has reached a limit that is not 0. Which bit arrives for a unit whose kind has no EccLimit(u) row in TABLE
(R374 allows none) is left open beside R31 and R166, whose limit_bit is then undefined. DESIGN CHOICE (log 36): none. -/
def State.eccTick (s : State) (k : Kind) (i u : Nat) (addr : Word) (d : Draw) : State :=
  if nodeExists s.cfg k i = true ∧ hasReg s.cfg k (.eccCount u) = true then
    let c := (s.field (.node k i (.eccCount u)) + 1#32) &&& eccMask s.cfg
    let s1 := (s.store (.node k i (.eccCount u)) c).store (.node k i (.eccAddr u)) addr
    let limit := s1.field (.node k i (.eccLimit u))
    if limit ≠ 0#32 ∧ limit ≤ c then
      match bitWithTag s.cfg k (.eccLimit u) with
      | some b => s1.arrive k i (bit b) d
      | none => s1
    else s1
  else s

/-- The reset sequencer acknowledges a request it has been given (R48, R167, R298). -/
def State.ackRstseq (s : State) (l : Nat) : State :=
  if s.rstseqPending l then (s.store (.rstseqStatus l) 1#32).setRstseqPending l false else s

/-- The RAM initialiser ends a zero-init it has been asked for (R46, R52, R167). -/
def State.finishRamInit (s : State) (l : Nat) : State :=
  if s.ramInitPending l then ((s.store (.ramInitStatus l) 1#32).setTagpoolClean l true).setRamInitPending l false else s

/-- The ring master acknowledges (R35, R167). -/
def State.ackRing (s : State) : State :=
  if s.hw.ringPending then (s.store .ringStatus 1#32).setRingPending false else s

end Sys2Proof.Machine
end

