-- ==== Sys2Proof/Machine/Flags.lean ====
section
/-! DEFINITION. The condition values of this hardware (R58: it has no arithmetic flags): the three-valued Result and
its aggregation (R190, R330), effective severity (R222), ECC precedence (R223), the storm-suppression condition
(R213), the named link states (R57) and FORCED_GATE (R282). -/

namespace Sys2Proof.Machine

/-- Result codes (R135). -/
def Result3.code : Result3 → Nat
  | .success => 0
  | .notFound => 1
  | .moreProcessingRequired => 2

/-- Recovery status codes (R137). -/
def LinkStatus.code : LinkStatus → Nat
  | .ok => 0
  | .timeout => 1
  | .containLatchStuck => 2
  | .reRegistrationFailed => 3
  | .skippedInvalid => 4
  | .skippedNotForced => 5

/-- Phase codes (R138). -/
def Phase.code : Phase → Nat
  | .idle => 0
  | .reset => 1
  | .restored => 2
  | .rearmed => 3
  | .failed => 4
  | .destroyed => 5

/-- The statuses that are RecoveryErrors (R310, R333); the two skips are not. -/
def LinkStatus.isError : LinkStatus → Bool
  | .timeout | .containLatchStuck | .reRegistrationFailed => true
  | .ok | .skippedInvalid | .skippedNotForced => false

/-- `agg` (R190). -/
def agg (rs : List Result3) : Result3 :=
  if rs.contains .moreProcessingRequired then .moreProcessingRequired
  else if rs.contains .success then .success
  else .notFound

/-- Effective severity of a table entry, with its bit of the contain-enable register (R222). -/
def effSev (e : Entry) (cn : Bool) : Severity := if e.contain && cn then .fatal else e.sev

/-- Whether a bit is suppressed by its unit's double-bit error (R223): it is the unit's limit bit, and the unit's DBE
bit is set in the raw pending value. -/
def dbeSuppresses (c : Config) (k : Kind) (e : Entry) (pending : Word) : Bool :=
  match e.ecc with
  | .eccLimit u =>
    match bitWithTag c k (.eccDbe u) with
    | some b => pending.getLsbD b
    | none => false
  | _ => false

/-- suppress_flag(n) (R213): the owner link's flag; all flags of the instance's enabled links for LMCOMMON; the device
flag for a device-owned node. For MCTRL `i` is the link index (R243). -/
def suppressFlag (s : State) (k : Kind) (i : Nat) : Bool :=
  match k with
  | .lmcommon => !(linksOfLm s.cfg i).isEmpty && (linksOfLm s.cfg i).all s.fatalOccurred
  | .mctrl => s.fatalOccurred i
  | _ =>
    match ownerLink k i with
    | some l => s.fatalOccurred l
    | none => s.fault.resetRequired

/-- targets(n) (R224): the owner link; the enabled links of the instance for LMCOMMON (fan-out); `none` otherwise. For
MCTRL `i` is the link index (R243). -/
def targets (c : Config) (k : Kind) (i : Nat) : List (Option Nat) :=
  match k with
  | .lmcommon => if (linksOfLm c i).isEmpty then [none] else (linksOfLm c i).map some
  | .mctrl => [some i]
  | _ => [ownerLink k i]

/-- The named link states (R57). -/
def inLinkState (s : State) (l : Nat) : LinkStateName → Bool
  | .normal => !s.fatalOccurred l && decide (s.phase l = .idle) && s.registered l
  | .faulted => s.fatalOccurred l && decide (s.phase l = .idle)
  | .contained => s.fatalOccurred l && decide (s.phase l = .idle) && (s.field (.containLatch l)).getLsbD 0
  | .reset => decide (s.phase l = .reset)
  | .restored => decide (s.phase l = .restored)
  | .rearmed => decide (s.phase l = .rearmed)
  | .recoveryFailed => decide (s.phase l = .failed)
  | .destroyed => decide (s.phase l = .destroyed)

/-- FREE VALUE (log 17). The predicates of the operand, the link, the hardware and the fault state that a configuration may
name by number (`GateExpr.custom`): R7 and R282 let FORCED_GATE be any. The sequencers' own state is no argument: where
the gate is asked it is always that of RECOVER's step 1. -/
opaque customGate : Nat → Bool → Nat → Hardware → FaultState → Bool

/-- What a condition of FORCED_GATE says of the operand, the link and the state (R282). -/
def gateHolds (s : State) (forced : Bool) (l : Nat) : GateExpr → Bool
  | .always => true
  | .forced => forced
  | .linkIs j => l == j
  | .inState j n => inLinkState s (j.getD l) n
  | .flagged j => s.fatalOccurred (j.getD l)
  | .registered j => s.registered (j.getD l)
  | .resetRequired => s.fault.resetRequired
  | .registerBit r b => (readReg s r).getLsbD b
  | .linkRegisterBit r b => (readReg s (atInst l r)).getLsbD b
  | .ramBit m j i b => (s.ramEntry m (j.getD l) i).getLsbD b
  | .tagpoolClean j => s.tagpoolClean (j.getD l)
  | .armed => s.hw.armed
  | .custom n => customGate n forced l s.hw s.fault
  | .not g => !gateHolds s forced l g
  | .and g h => gateHolds s forced l g && gateHolds s forced l h
  | .or g h => gateHolds s forced l g || gateHolds s forced l h

/-- FORCED_GATE(forced, l, state) (R282). -/
def forcedGate (s : State) (forced : Bool) (l : Nat) : Bool := gateHolds s forced l s.cfg.forcedGate

end Sys2Proof.Machine
end

