-- ==== Sys2Proof/Machine/Operands.lean ====
section
/-! DEFINITION. Operands (R144) and which decoded operations a configuration accepts (R139), and the response words
(R119). -/

namespace Sys2Proof.Machine

/-- The links word `j` of a mask names, ascending (R118, R144). -/
def linksOfWord (j : Nat) (w : Word) : List Nat := (setBits w).map (fun b => 32 * j + b)

/-- The link set of RSTDRAIN's mask words from word `j` on, ascending (R118, R144). -/
def linkSetFrom : Nat → List Word → List Nat
  | _, [] => []
  | j, w :: ws => linksOfWord j w ++ linkSetFrom (j + 1) ws

/-- The link set of RSTDRAIN (R144). -/
def linkSet (masks : List Word) : List Nat := linkSetFrom 0 masks

/-- WALKFAM's operands are in range (R139, R144). -/
def walkAdmitted (c : Config) (f : Family) (inst : Nat) (t : Tree) : Bool :=
  (treesOfFamily f).contains t && (match f with
    | .xbar => decide (inst = 0)
    | .portgrp => decide (inst < nPg c)
    | .linkmgmt => decide (inst < nLm c)
    | .mctrlf => decide (inst < nMc c))

/-- HANDLE's operands are in range and name a node that exists, in a tree of its kind (R139, R144); for MCTRL the
instance is a link index (R114). -/
def handleAdmitted (c : Config) (k : Kind) (inst : Nat) (t : Tree) : Bool :=
  (treesOfKind c k).contains t && (match k with
    | .mctrl => decide (inst < c.nLink) && nodeExists c .mctrl (mc c inst)
    | _ => nodeExists c k inst)

/-- R139's refusal conditions that depend on the configuration; the others are `decode`'s. Bus accesses are not
commands: an unmapped one is refused by the access itself (R88). -/
def admitted (c : Config) : Instr → Bool
  | .service => true
  | .walkXbar inst t => walkAdmitted c .xbar inst.toNat t
  | .walkPortgrp inst t => walkAdmitted c .portgrp inst.toNat t
  | .walkLinkmgmt inst t => walkAdmitted c .linkmgmt inst.toNat t
  | .walkMctrlf inst t => walkAdmitted c .mctrlf inst.toNat t
  | .handleRoute inst t => handleAdmitted c .route inst.toNat t
  | .handleIngress inst t => handleAdmitted c .ingress inst.toNat t
  | .handleEgress inst t => handleAdmitted c .egress inst.toNat t
  | .handleTstate inst t => handleAdmitted c .tstate inst.toNat t
  | .handleSrctrack inst t => handleAdmitted c .srctrack inst.toNat t
  | .handleTile inst t => handleAdmitted c .tile inst.toNat t
  | .handleTileout inst t => handleAdmitted c .tileout inst.toNat t
  | .handleDl inst t => handleAdmitted c .dl inst.toNat t
  | .handleTl inst t => handleAdmitted c .tl inst.toNat t
  | .handleLmlink inst t => handleAdmitted c .lmlink inst.toNat t
  | .handleLmcommon inst t => handleAdmitted c .lmcommon inst.toNat t
  | .handleMctrl inst t => handleAdmitted c .mctrl inst.toNat t
  | .handlePci inst t => handleAdmitted c .pci inst.toNat t
  | .handlePriv inst t => handleAdmitted c .priv inst.toNat t
  | .setfatal none _ => true
  | .setfatal (some l) _ => decide (l.toNat < c.nLink)
  | .qlink l => decide (l.toNat < c.nLink)
  | .qdev => true
  | .rstdrain _ masks => decide (masks.length = lmw c) && (linkSet masks).all (fun l => decide (l < c.nLink))
  | .rd32 _ => true
  | .wr32 _ _ => true

/-- Whether an operation begins by taking the mutex (R180, R210, R252, R256, R257, R281): every command but a RSTDRAIN
of no link; the bus accesses take none (R81). -/
def takesLock : Instr → Bool
  | .rstdrain _ masks => !(linkSet masks).isEmpty
  | .rd32 _ => false
  | .wr32 _ _ => false
  | _ => true

/-! ## Response words (R119) -/

/-- Status REFUSED. -/
def refusedWord : Word := 0xF0000000#32

/-- Response of SERVICE, WALKFAM, HANDLE: the Result code. -/
def resultWord (r : Result3) : Word := BitVec.ofNat 32 r.code

/-- Response of QLINK and QDEV: the flag in bit 0. -/
def flagWord (b : Bool) : Word := if b then 1#32 else 0#32

/-- A per-link word of RSTDRAIN: step in bits 27:20, status code in 19:16, link in 11:0. -/
def linkWord (l : Nat) (st : LinkStatus) (stp : Nat) : Word :=
  0#4 ++ BitVec.ofNat 8 stp ++ BitVec.ofNat 4 st.code ++ 0#4 ++ BitVec.ofNat 12 l

/-- Response of RSTDRAIN: word 0 with the number of links in bits 27:12 and `failed` in bit 0, then a word a link. -/
def rstdrainWords (failed : Bool) (sts : List (Nat × LinkStatus × Nat)) : List Word :=
  (0#4 ++ BitVec.ofNat 16 sts.length ++ 0#11 ++ BitVec.ofBool failed) :: sts.map (fun x => linkWord x.1 x.2.1 x.2.2)

end Sys2Proof.Machine
end

