-- ==== Sys2Proof/Machine/Sequence.lean ====
section
/-! DEFINITION. What the two sequencers WLK and RCV are made of (spec/00_scope.md R13 to R18): a sequencer action is
a run over the state that ends with a value, or stops. Between any two register accesses the other agents may
step (R18, R91): each access first takes one entry of the schedule in `io.sched`, a list of moves, and performs
them; an empty schedule is a run in which nobody else moves. Every interleaving of the other agents with a
command, at register-access granularity, is some schedule. -/

namespace Sys2Proof.Machine

/-- Why a sequencer action does not reach its end. -/
inductive Stop where
  /-- A reset fell inside the command: the command is gone, the state is the state after the reset (R370, R371). -/
  | reset
  /-- The mutex is held: the command has no step yet (R62, R192). -/
  | blocked
  /-- A HOST access scheduled inside the command has no meaning (R88). -/
  | refused (r : Refusal)
deriving DecidableEq, Repr

/-- A sequencer action. -/
abbrev Act (α : Type) := EStateM Stop State α

/-! ## The environment (R14) -/

/-- Storage key of an environment input. -/
def EnvQuery.key : EnvQuery → Nat
  | .rstseqAck l => 8 * l
  | .raminitDone l => 8 * l + 1
  | .privAck => 2
  | .containStuck l => 8 * l + 3
  | .linkInReset l => 8 * l + 4
  | .registerOk l => 8 * l + 5
  | .trainingOk => 6
  | .sinkOk => 7

/-- What an input answers where `io.env` lists nothing for it: favourably (log 4; no statement rests on it). -/
def favourable (key : Nat) : Oracle :=
  { script := [], rest := decide (key % 8 ≠ 3) && decide (key % 8 ≠ 4) }

/-- The environment's next answer to an input, and the state after it was given. -/
def State.ask (s : State) (q : EnvQuery) : Bool × State :=
  let o := s.io.env.get favourable q.key
  match o.script with
  | [] => (o.rest, s)
  | b :: bs =>
    (b, { s with io := { s.io with env := s.io.env.set favourable q.key { script := bs, rest := o.rest } } })

/-- `ENV input = value` (R143): fixes an input from here on. -/
def State.setEnv (s : State) (q : EnvQuery) (b : Bool) : State :=
  { s with io := { s.io with env := s.io.env.set favourable q.key { script := [], rest := b } } }

def askEnv (q : EnvQuery) : Act Bool := fun s => .ok (s.ask q).1 (s.ask q).2

/-! ## Events and one write -/

def emit (e : Event) : Act Unit := modify (fun s => s.emit e)

/-- Whether a write consults `env.contain_stuck`: a written 1 to CONTAIN_LATCH (R302). -/
def stuckQuery (r : Reg) (v : Word) : Option EnvQuery :=
  match r with
  | .containLatch l => if v.getLsbD 0 then some (.containStuck l) else none
  | _ => none

/-- WR32 of a mapped register (R151): recorded in H, then performed. -/
def writeReg (r : Reg) (v : Word) : Act Unit := do
  emit (.write r v)
  match stuckQuery r v with
  | some q => do
    let stuck ← askEnv q
    modify (fun s => s.applyWrite r v stuck)
  | none => modify (fun s => s.applyWrite r v false)

/-! ## The end of a SERVICE (R180, R191) -/

/-- Once the pass has released the mutex: the one HOST_EOI write, the Result, the response. -/
def completeTail : Act Unit := do
  match (← get).seq.wlkTail with
  | none => pure ()
  | some r => do
    writeReg .hostEoi 1#32
    modify (fun s => ((s.emit (.result (.service r))).setTail none).respond [resultWord r])

/-! ## The end of a RSTDRAIN (R281, R309, R310) -/

/-- `failed` (R310): some link ended in a RecoveryError. -/
def anyFailed (sts : List (Nat × LinkStatus × Nat)) : Bool := sts.any (fun x => x.2.1.isError)

/-- One step of a RSTDRAIN that has its links behind it, outside the mutex: step 15 (R309), then the Result. -/
def advanceRcv : Act Unit := do
  match (← get).seq.rcvTail with
  | none => pure ()
  | some q => do
    if q.launched then
      modify (fun s => (((s.setRcvTail none).setRcvStep none).emit (.result (.rstdrain (anyFailed q.sts) q.sts))).respond
        (rstdrainWords (anyFailed q.sts) q.sts))
    else
      modify (fun s => s.setRcvTail (some { q with launched := true }))
      emit (.extCall .launchTraining none)
      let ok ← askEnv .trainingOk
      if ok then pure () else emit (.log .trainingFailed)

/-- A refused command: response REFUSED and its Result, and nothing else (R139). -/
def refuseCommand (s : State) : State := (s.emit (.result .refused)).respond [refusedWord]

/-- What stays of a command submission once its first command is taken (R141). -/
def remaining (ws : List Word) : List Input :=
  match wordsAfter ws with
  | [] => []
  | w :: rest => [.frame (.command (w :: rest))]

/-- Where the submission at the head of the inbox starts with a command that is refused (R139): what is left of the inbox
without it. -/
def State.refusedHead (s : State) : Option (List Input) :=
  match s.io.inbox with
  | .frame (.command ws) :: later =>
    match decodeWords ws with
    | .ok i => if admitted s.cfg i then none else some (remaining ws ++ later)
    | .error .empty => none
    | .error _ => some (remaining ws ++ later)
  | _ => none

/-- A sequencer takes up the next command of the command port: one that is refused is answered, whatever the sequencers do
meanwhile and whoever holds the mutex, since it takes none and changes no state (R139, R334). The spec does not say when;
DESIGN CHOICE (log 39): at any access, as the schedule says. -/
def answerRefused (takeUp : Act Unit) : Act Unit := do
  match (← get).refusedHead with
  | some inbox => modify (fun s => refuseCommand (s.setInbox inbox))
  | none => takeUp

/-- RCV takes up a RSTDRAIN of no link, where none is in flight (at most one command per agent is, R313): it owes step 15 at
once. Any other waits at its `lock()`. -/
def takeUpRcv : Act Unit := do
  let s ← get
  match s.io.inbox with
  | .frame (.command ws) :: later =>
    match decodeWords ws with
    | .ok (.rstdrain _ masks) =>
      if s.seq.rcvLink = none ∧ s.seq.rcvTail = none ∧ (linkSet masks).isEmpty then
        modify (fun s => (s.setInbox (remaining ws ++ later)).oweTraining [])
      else pure ()
    | _ => pure ()
  | _ => pure ()

/-- RCV takes up the next command of the command port while WLK is at work (R313). -/
def startRcv : Act Unit := answerRefused takeUpRcv

/-! ## The moves of the other agents (R18) -/

/-- One step of another agent. -/
def applyMove : Move → Act Unit
  | .arrive k i e d => modify (fun s => s.arrive k i e d)
  | .eccTick k i u a d => modify (fun s => s.eccTick k i u a d)
  | .rstseqAck l => modify (fun s => s.ackRstseq l)
  | .ramInitDone l => modify (fun s => s.finishRamInit l)
  | .ringAck => modify (fun s => s.ackRing)
  | .traffic l => modify (fun s => s.setTagpoolClean l false)
  | .hostRd a => do
    match mappedReg (← get).cfg a with
    | some r => modify (fun s => s.answerRead (toBus s.cfg r (readReg s r)))
    | none => throw (.refused (.unmappedAccess a))
  | .hostWr a v => do
    match mappedReg (← get).cfg a with
    | some r => writeReg r (fromBus (← get).cfg r v)
    | none => throw (.refused (.unmappedAccess a))
  | .deliver => modify (fun s => s.deliver)
  | .registerLink l => modify (fun s => (s.emit (.extCall .registerLink (some l))).setRegistered l true)
  | .walkerTail => completeTail
  | .rcvStep => advanceRcv
  | .runNext => startRcv
  | .setEnv q b => modify (fun s => s.setEnv q b)
  | .coldReset d => do
    modify (fun s => s.coldReset d)
    throw .reset
  | .softReset => do
    modify (fun s => s.softReset)
    throw .reset

def applyMoves : List Move → Act Unit
  | [] => pure ()
  | m :: ms => do
    applyMove m
    applyMoves ms

/-- The moment before an access, in which other agents may step: one entry of the schedule is taken. -/
def tick : Act Unit := do
  match (← get).io.sched with
  | [] => pure ()
  | slot :: rest => do
    modify (fun s => s.setSched rest)
    applyMoves slot

/-! ## The accesses of a sequencer (R81, R91) -/

/-- `RD32(a)` (R150). -/
def rd (r : Reg) : Act Word := do
  tick
  return readReg (← get) r

/-- `WR32(a, v)` (R151). -/
def wr (r : Reg) (v : Word) : Act Unit := do
  tick
  writeReg r v

/-- A collaborator call (R6, R71). -/
def extCall (n : ExtName) (l : Option Nat) : Act Unit := do
  tick
  emit (.extCall n l)

/-- The writes of a list, in order. -/
def wrAll : List (Reg × Word) → Act Unit
  | [] => pure ()
  | (r, v) :: rest => do
    wr r v
    wrAll rest

/-- `poll(cond, T)` (R15): the condition, bit 0 of `r`, is read once; if it does not hold the environment decides, and
where it says yes the responder has answered and a later read sees it (R167). -/
def poll (r : Reg) (q : EnvQuery) (responder : State → State) : Act Bool := do
  let v ← rd r
  if v.getLsbD 0 then
    return true
  else
    let ok ← askEnv q
    if ok then
      modify responder
      return true
    else
      return false

/-- `emit Notify / EccLog`, and the downgraded failure of the forward (R217). -/
def forward (e : SinkEvent) : Act Unit := do
  emit (match e with
    | .notify n => .notify n
    | .eccLog l => .eccLog l)
  let ok ← askEnv .sinkOk
  if ok then pure () else emit (.sinkFailure e)

/-! ## The mutex (R62) -/

/-- `lock()`: a step only when LOCK = FREE. -/
def lock (k : Lock) : Act Unit := do
  if (← get).seq.lock = .free then modify (fun s => s.setLock k) else throw .blocked

/-- `unlock()`; the cursor exists only while the walker holds the mutex (R60). -/
def unlock : Act Unit := modify (fun s => (s.setLock .free).setCursor none)

def setCursor (c : Cursor) : Act Unit := modify (fun s => s.setCursor (some c))

/-- The walker takes up a command: a SERVICE that still owes its end of interrupt is finished first (at most one command
per agent is in flight, R313), then `lock()`. -/
def walkerBegin : Act Unit := do
  match (← get).seq.wlkTail with
  | none => pure ()
  | some _ => do
    tick
    completeTail
  lock .wlk

/-- The end of a command: its Result in H (R71), its response words (R119). -/
def finishCommand (e : ResultEvent) (ws : List Word) : Act Unit :=
  modify (fun s => (s.emit (.result e)).respond ws)

/-! ## Commands (R139, R334) -/

/-- The outcome of a sequencer action started in `s`: a blocked one has no step, a reset inside it leaves the state
after the reset. -/
def outcomeOf (s : State) (r : EStateM.Result Stop State Unit) : Host.Outcome State Fault Refusal :=
  match r with
  | .ok _ t => .next t
  | .error .reset t => .next t
  | .error .blocked _ => .next s
  | .error (.refused why) _ => .refused why

/-- A command with its program: refused by its operands (R139), or run. -/
def runCommand (i : Instr) (prog : Act Unit) (s : State) : Host.Outcome State Fault Refusal :=
  if admitted s.cfg i then outcomeOf s (prog s) else .next (refuseCommand s)

end Sys2Proof.Machine
end

