-- ==== Sys2Proof/Machine/FaultMark.lean ====
section
/-! DEFINITION. Family "fault state" (spec/43_fault_state.md): SETFATAL, QLINK, QDEV, and SETFATAL_core, the one
operation behind every marking (R251). -/

namespace Sys2Proof.Machine

/-- The link part of SETFATAL_core (R251): flag, persisted port-reset-required bit, one PortDown notification. -/
def markLink (l : Nat) : Act Unit := do
  if (← get).fatalOccurred l then pure ()
  else
    modify (fun s => s.setFatalOccurred l true)
    let v ← rd (.scratchPort (l / 32))
    wr (.scratchPort (l / 32)) (v ||| bit (l % 32))
    forward (.notify (.portDown l))

/-- The device part of SETFATAL_core (R251, R254). -/
def markDevice : Act Unit := do
  if (← get).fault.resetRequired then pure ()
  else
    modify (fun s => s.setResetRequired true)
    wr .scratchDevice 1#32
    forward (.notify .deviceDown)

/-- SETFATAL_core(tgt, dw) (R251). -/
def setfatalCore (tgt : Option Nat) (dw : Bool) : Act Unit := do
  match tgt with
  | some l => markLink l
  | none => pure ()
  if dw then markDevice else pure ()

/-- SETFATAL (R252). -/
def progSetfatal (link : Option (BitVec 12)) (dw : Bool) : Act Unit := do
  walkerBegin
  setfatalCore (link.map BitVec.toNat) dw
  unlock
  finishCommand .setfatal [0#32]

/-- QLINK (R256, R258): the flag, not the register. -/
def progQlink (link : BitVec 12) : Act Unit := do
  walkerBegin
  let v := (← get).fatalOccurred link.toNat
  unlock
  finishCommand (.qlink link.toNat v) [flagWord v]

/-- QDEV (R257, R258). -/
def progQdev : Act Unit := do
  walkerBegin
  let v := (← get).fault.resetRequired
  unlock
  finishCommand (.qdev v) [flagWord v]

def execSetfatal (link : Option (BitVec 12)) (dw : Bool) (s : State) : Host.Outcome State Fault Refusal :=
  runCommand (.setfatal link dw) (progSetfatal link dw) s

def execQlink (link : BitVec 12) (s : State) : Host.Outcome State Fault Refusal :=
  runCommand (.qlink link) (progQlink link) s

def execQdev (s : State) : Host.Outcome State Fault Refusal := runCommand .qdev progQdev s

end Sys2Proof.Machine
end

