-- ==== Sys2Proof/Machine/Leaf.lean ====
section
/-! DEFINITION. Family "leaf handlers" (spec/42_leaf_handler.md): the template of R211 once, its parts, the variants
of MCTRL (R243) and PRIV (R245), and one program and one meaning for each of the fourteen kinds. -/

namespace Sys2Proof.Machine

/-! ## The template's parts -/

/-- Step 3, capture (R215): registers past the buffer's capacity are not read. -/
def capture (k : Kind) (i : Nat) : List NodeReg → Act Unit
  | [] => pure ()
  | r :: rs => do
    if (← get).seq.captured < (← get).cfg.capWords then
      let v ← rd (.node k i r)
      modify (fun s => s.pushCap v)
      capture k i rs
    else capture k i rs

/-- `diagnostic(n, e)` (R221). -/
def diagnostic (k : Kind) (i : Nat) (e : Entry) : Act Diagnostic := do
  match e.diag with
  | .none => return .none
  | .rawBlock => return .rawBlock (← get).seq.cap (← get).seq.captured
  | .addressFault =>
    let a ← rd (.node k i .errAddr)
    return .addressFault (a.getLsbD 31) (a.extractLsb' 0 31)
  | .eccCounter =>
    match e.ecc with
    | .notEcc => return .none
    | .eccLimit u =>
      let c ← rd (.node k i (.eccCount u))
      return .eccCounter c false
    | .eccDbe u =>
      let c ← rd (.node k i (.eccCount u))
      return .eccCounter c true

/-- One Report per target, and a marking for a Fatal bit; a target `none` is always device-wide (R224). -/
def reportTo (k : Kind) (b i : Nat) (sev : Severity) (dw : Bool) (d : Diagnostic) : List (Option Nat) → Act Unit
  | [] => pure ()
  | tgt :: rest => do
    emit (.report { kind := k, bit := b, inst := i, link := tgt, sev := sev, diag := d })
    if sev = .fatal then setfatalCore tgt (dw || tgt.isNone) else pure ()
    reportTo k b i sev dw d rest

/-- The link of a persistent-log call (R223): the owner link, if the node has one. For MCTRL `i` is the link. -/
def logLink (k : Kind) (i : Nat) : Option Nat := if k = .mctrl then some i else ownerLink k i

/-- `ecc_log(n, e, d)` (R223). -/
def eccLog (k : Kind) (i u : Nat) (uncorrectable : Bool) (d : Diagnostic) : Act Unit := do
  let a ← rd (.node k i (.eccAddr u))
  match d with
  | .eccCounter c _ =>
    forward (.eccLog { kind := k, unit := u, link := logLink k i, valid := a.getLsbD 31, addr := a.extractLsb' 0 31,
                       uncorrectable := uncorrectable, count := c })
  | _ => do
    let c ← rd (.node k i (.eccCount u))
    forward (.eccLog { kind := k, unit := u, link := logLink k i, valid := a.getLsbD 31, addr := a.extractLsb' 0 31,
                       uncorrectable := uncorrectable, count := c })

/-- The ECC forward and the touched unit of a reported bit (R211, R223). -/
def logIfEcc (k : Kind) (i : Nat) (e : Entry) (d : Diagnostic) : Act Unit := do
  match e.ecc with
  | .notEcc => pure ()
  | .eccLimit u => do
    eccLog k i u false d
    modify (fun s => s.touchUnit u)
  | .eccDbe u => do
    eccLog k i u true d
    modify (fun s => s.touchUnit u)

/-- The ECC unit of an entry's tag joins `units`. -/
def touchUnitOf (e : Entry) (s : State) : State :=
  match e.ecc with
  | .notEcc => s
  | .eccLimit u => s.touchUnit u
  | .eccDbe u => s.touchUnit u

/-- Step 4 for one bit of the mask (R211, R216, R217, R222, R223). -/
def classifyBit (k : Kind) (i : Nat) (b : Nat) : Act Unit := do
  let s ← get
  match table s.cfg k b with
  | none => pure ()
  | some e => do
    if dbeSuppresses s.cfg k e s.seq.leaf.pending then
      modify (fun s => (touchUnitOf e s).recognise b)
    else
      let d ← diagnostic k i e
      reportTo k b i (effSev e (s.seq.leaf.contain.getLsbD b)) e.deviceWide d (targets s.cfg k i)
      logIfEcc k i e d
      modify (fun s => s.recognise b)

/-- Step 4: the set bits of the mask in the order of ORDER(k). -/
def classifyBits (k : Kind) (i : Nat) : List Nat → Act Unit
  | [] => pure ()
  | b :: bs => do
    if (← get).seq.leaf.mask.getLsbD b then classifyBit k i b else pure ()
    classifyBits k i bs

/-- Step 7 (R227): the counters of the touched units, ascending. -/
def zeroCounters (k : Kind) (i : Nat) : List Nat → Act Unit
  | [] => pure ()
  | u :: us => do
    wr (.node k i (.eccCount u)) 0#32
    zeroCounters k i us

/-- The touched units, ascending. -/
def unitsAscending (units : List Nat) : List Nat := (List.range 4).filter units.contains

/-- Step 8 (R219): the Unhandled event of the bits left in U, and the Result; `ok` is false where PRIV's poll timed out (R245). -/
def stepEight (k : Kind) (i : Nat) (t : Tree) (ok : Bool) : Act Result3 := do
  setCursor (.leaf k i t 8)
  let u := (← get).seq.leaf.unhandled
  if u = 0#32 then
    return (if ok then .success else .moreProcessingRequired)
  else
    emit (.unhandled k i t u)
    return .moreProcessingRequired

/-- PRIV's handshake between step 7 and step 8 (R245): true where the ring master acknowledged. -/
def privHandshake : Act Bool := do
  wr .ringCmd 1#32
  let ok ← poll .ringStatus .privAck State.ackRing
  if ok then return true
  else
    emit (.log .privAckTimeout)
    return false

/-! ## The template (R211) -/

/-- Steps 2 to 8, once the mask is not 0; `p`, `en` are P and EN of step 1, `cn` is CN and `wf` was_faulted. -/
def templateRest (k : Kind) (i : Nat) (t : Tree) (p en cn : Word) (wf : Bool) : Act Result3 := do
  let m := p &&& en
  setCursor (.leaf k i t 2)
  let f ← rd (.node k i .errFirst)
  modify (fun s => s.setLeaf { pending := p, enabled := en, mask := m, contain := cn, first := f, unhandled := m,
                               units := [], wasFaulted := wf })
  setCursor (.leaf k i t 3)
  let c := (← get).cfg
  if m &&& diagBits c k = 0#32 then pure () else capture k i (diagRegs c k)
  setCursor (.leaf k i t 4)
  classifyBits k i (order c k)
  setCursor (.leaf k i t 5)
  if wf then wr (.node k i (.reportEn t)) (en &&& ~~~m) else pure ()
  setCursor (.leaf k i t 6)
  wr (.node k i .errFirst) (f &&& m)
  wr (.node k i .errStatus) m
  setCursor (.leaf k i t 7)
  zeroCounters k i (unitsAscending (← get).seq.leaf.units)
  let ok ← if k = .priv then privHandshake else pure true
  stepEight k i t ok

/-- The template for every kind but MCTRL (R211). -/
def template (k : Kind) (i : Nat) (t : Tree) : Act Result3 := do
  setCursor (.leaf k i t 1)
  let p ← rd (.node k i .errStatus)
  let en ← rd (.node k i (.reportEn t))
  if p &&& en = 0#32 then return .notFound
  else
    let cn ← if hasFullSet k then rd (.node k i .containEn) else pure 0#32
    templateRest k i t p en cn (suppressFlag (← get) k i)

/-- Steps 4 to 8 of HANDLE.MCTRL (R243): no first latch, no capture, no contain-enable, no counter. -/
def mctrlRest (l : Nat) (t : Tree) (p en : Word) (wf : Bool) : Act Result3 := do
  let c := (← get).cfg
  let m := p &&& en
  modify (fun s => s.setLeaf { pending := p, enabled := en, mask := m, unhandled := m, wasFaulted := wf })
  setCursor (.leaf .mctrl l t 4)
  classifyBits .mctrl l (order c .mctrl)
  setCursor (.leaf .mctrl l t 5)
  if wf then wr (.intrStallEn (mc c l)) (en &&& ~~~m) else pure ()
  setCursor (.leaf .mctrl l t 6)
  wr (.intrStatus (mc c l)) m
  stepEight .mctrl l t true

/-- HANDLE.MCTRL (R243): the link-interrupt bit of link `l` in its microcontroller. -/
def mctrlTemplate (l : Nat) (t : Tree) : Act Result3 := do
  setCursor (.leaf .mctrl l t 1)
  let c := (← get).cfg
  let st ← rd (.intrStatus (mc c l))
  let en ← rd (.intrStallEn (mc c l))
  let p := st &&& bit (ll c l)
  if p &&& en = 0#32 then return .notFound
  else mctrlRest l t p en ((← get).fatalOccurred l)

/-- One HANDLE with its Result event (R211), the mutex being held; nothing of it is carried on (R59, R65). -/
def handle (k : Kind) (i : Nat) (t : Tree) : Act Result3 := do
  modify (fun s => (s.setLeaf {}).clearCap)
  let r ← if k = .mctrl then mctrlTemplate i t else template k i t
  modify (fun s => ((s.setLeaf {}).clearCap).emit (.result (.handle k i t r)))
  return r

/-- HANDLE on the command port (R210): the mutex around it, no end of interrupt. -/
def handleCommand (k : Kind) (i : Nat) (t : Tree) : Act Unit := do
  walkerBegin
  let r ← handle k i t
  unlock
  modify (fun s => s.respond [resultWord r])

/-! ## One program and one meaning per kind (R232 to R245) -/

/-- HANDLE.ROUTE (R232). -/
def progHandleRoute (inst : BitVec 12) (t : Tree) : Act Unit := handleCommand .route inst.toNat t
def execHandleRoute (inst : BitVec 12) (t : Tree) (s : State) : Host.Outcome State Fault Refusal :=
  runCommand (.handleRoute inst t) (progHandleRoute inst t) s

/-- HANDLE.INGRESS (R233). -/
def progHandleIngress (inst : BitVec 12) (t : Tree) : Act Unit := handleCommand .ingress inst.toNat t
def execHandleIngress (inst : BitVec 12) (t : Tree) (s : State) : Host.Outcome State Fault Refusal :=
  runCommand (.handleIngress inst t) (progHandleIngress inst t) s

/-- HANDLE.EGRESS (R234). -/
def progHandleEgress (inst : BitVec 12) (t : Tree) : Act Unit := handleCommand .egress inst.toNat t
def execHandleEgress (inst : BitVec 12) (t : Tree) (s : State) : Host.Outcome State Fault Refusal :=
  runCommand (.handleEgress inst t) (progHandleEgress inst t) s

/-- HANDLE.TSTATE (R235). -/
def progHandleTstate (inst : BitVec 12) (t : Tree) : Act Unit := handleCommand .tstate inst.toNat t
def execHandleTstate (inst : BitVec 12) (t : Tree) (s : State) : Host.Outcome State Fault Refusal :=
  runCommand (.handleTstate inst t) (progHandleTstate inst t) s

/-- HANDLE.SRCTRACK (R236). -/
def progHandleSrctrack (inst : BitVec 12) (t : Tree) : Act Unit := handleCommand .srctrack inst.toNat t
def execHandleSrctrack (inst : BitVec 12) (t : Tree) (s : State) : Host.Outcome State Fault Refusal :=
  runCommand (.handleSrctrack inst t) (progHandleSrctrack inst t) s

/-- HANDLE.TILE (R237). -/
def progHandleTile (inst : BitVec 12) (t : Tree) : Act Unit := handleCommand .tile inst.toNat t
def execHandleTile (inst : BitVec 12) (t : Tree) (s : State) : Host.Outcome State Fault Refusal :=
  runCommand (.handleTile inst t) (progHandleTile inst t) s

/-- HANDLE.TILEOUT (R238). -/
def progHandleTileout (inst : BitVec 12) (t : Tree) : Act Unit := handleCommand .tileout inst.toNat t
def execHandleTileout (inst : BitVec 12) (t : Tree) (s : State) : Host.Outcome State Fault Refusal :=
  runCommand (.handleTileout inst t) (progHandleTileout inst t) s

/-- HANDLE.DL (R239). -/
def progHandleDl (inst : BitVec 12) (t : Tree) : Act Unit := handleCommand .dl inst.toNat t
def execHandleDl (inst : BitVec 12) (t : Tree) (s : State) : Host.Outcome State Fault Refusal :=
  runCommand (.handleDl inst t) (progHandleDl inst t) s

/-- HANDLE.TL (R240). -/
def progHandleTl (inst : BitVec 12) (t : Tree) : Act Unit := handleCommand .tl inst.toNat t
def execHandleTl (inst : BitVec 12) (t : Tree) (s : State) : Host.Outcome State Fault Refusal :=
  runCommand (.handleTl inst t) (progHandleTl inst t) s

/-- HANDLE.LMLINK (R241). -/
def progHandleLmlink (inst : BitVec 12) (t : Tree) : Act Unit := handleCommand .lmlink inst.toNat t
def execHandleLmlink (inst : BitVec 12) (t : Tree) (s : State) : Host.Outcome State Fault Refusal :=
  runCommand (.handleLmlink inst t) (progHandleLmlink inst t) s

/-- HANDLE.LMCOMMON (R242). -/
def progHandleLmcommon (inst : BitVec 12) (t : Tree) : Act Unit := handleCommand .lmcommon inst.toNat t
def execHandleLmcommon (inst : BitVec 12) (t : Tree) (s : State) : Host.Outcome State Fault Refusal :=
  runCommand (.handleLmcommon inst t) (progHandleLmcommon inst t) s

/-- HANDLE.MCTRL (R243). -/
def progHandleMctrl (inst : BitVec 12) (t : Tree) : Act Unit := handleCommand .mctrl inst.toNat t
def execHandleMctrl (inst : BitVec 12) (t : Tree) (s : State) : Host.Outcome State Fault Refusal :=
  runCommand (.handleMctrl inst t) (progHandleMctrl inst t) s

/-- HANDLE.PCI (R244). -/
def progHandlePci (inst : BitVec 12) (t : Tree) : Act Unit := handleCommand .pci inst.toNat t
def execHandlePci (inst : BitVec 12) (t : Tree) (s : State) : Host.Outcome State Fault Refusal :=
  runCommand (.handlePci inst t) (progHandlePci inst t) s

/-- HANDLE.PRIV (R245). -/
def progHandlePriv (inst : BitVec 12) (t : Tree) : Act Unit := handleCommand .priv inst.toNat t
def execHandlePriv (inst : BitVec 12) (t : Tree) (s : State) : Host.Outcome State Fault Refusal :=
  runCommand (.handlePriv inst t) (progHandlePriv inst t) s

end Sys2Proof.Machine
end

