-- ==== Sys2Proof/Machine/Walk.lean ====
section
/-! DEFINITION. Family "tree walk" (spec/41_tree_walk.md): SERVICE with DISPATCH and SUMMARY, the four WALKFAM forms,
the end of interrupt. -/

namespace Sys2Proof.Machine

/-- The children a family handler invokes in a tree, in order (R186 to R189): every existing child node that is
summarised in the tree; of the links, the enabled ones. For MCTRLF the entries are link indices. -/
def children (c : Config) (f : Family) (inst : Nat) (t : Tree) : List (Kind × Nat) :=
  let all : List (Kind × Nat) := match f with
    | .xbar =>
      ((List.range c.nTile).map (fun j => (Kind.tile, j)) ++ (List.range c.nTileout).map (fun j => (Kind.tileout, j))).filter
        (fun n => nodeExists c n.1 n.2)
    | .portgrp =>
      ((linksOfPg c inst).flatMap (fun l => portKinds.map (fun k => (k, l)))).filter (fun n => nodeExists c n.1 n.2)
    | .linkmgmt =>
      ((Kind.lmcommon, inst) :: (linksOfLm c inst).flatMap (fun l => lmKinds.map (fun k => (k, l)))).filter
        (fun n => nodeExists c n.1 n.2)
    | .mctrlf => if nodeExists c .mctrl inst then (linksOfLm c inst).map (fun l => (Kind.mctrl, l)) else []
  all.filter (fun n => (treesOfKind c n.1).contains t)

/-- The children's HANDLEs, in order, with their Results. -/
def handleAll (t : Tree) : List (Kind × Nat) → Act (List Result3)
  | [] => return []
  | n :: ns => do
    let r ← handle n.1 n.2 t
    let rs ← handleAll t ns
    return r :: rs

/-- WALKFAM (R186 to R189), the mutex being held: it reads no register of its own. -/
def walkfam (f : Family) (inst : Nat) (t : Tree) : Act Result3 := do
  setCursor (.family f inst t)
  let rs ← handleAll t (children (← get).cfg f inst t)
  emit (.result (.walkfam f inst t (agg rs)))
  return agg rs

/-- The engines of the set bits of one masked summary word (R183). -/
def walkEngines (t : Tree) (w : Nat) : List Nat → Act (List Result3)
  | [] => return []
  | j :: js => do
    match engineOf (← get).cfg (32 * w + j) with
    | some (f, i) => do
      setCursor (.l2 t w (some (32 * w + j)))
      let r ← walkfam f i t
      let rs ← walkEngines t w js
      return r :: rs
    | none => walkEngines t w js

/-- The summary words of one tree, each read just before it is walked (R183). -/
def walkWords (t : Tree) : List Nat → Act (List Result3)
  | [] => return []
  | w :: ws => do
    setCursor (.l2 t w none)
    let v ← rd (.summary t w)
    let rs ← walkEngines t w (setBits (v &&& existMask (← get).cfg t w))
    let rest ← walkWords t ws
    return rs ++ rest

/-- The three trees in order (R183). -/
def walkTrees : List Tree → Act (List Result3)
  | [] => return []
  | t :: ts => do
    let rs ← walkWords t (List.range (sumw (← get).cfg))
    let rest ← walkTrees ts
    return rs ++ rest

/-- SUMMARY (R183). -/
def summary : Act Result3 := do
  return agg (← walkTrees allTrees)

/-- One bit of the masked top-level register (R181, R183 to R185): what it names is serviced where it is set. -/
def topItem (top : Word) (b : Nat) (service : Act Result3) : Act (List Result3) := do
  if top.getLsbD b then
    setCursor (.top (some b))
    let r ← service
    return [r]
  else return []

/-- DISPATCH (R181): TOP_PENDING is read once; the order is summary, PCI, priv ring. -/
def dispatch : Act Result3 := do
  setCursor (.top none)
  let v ← rd .topPending
  let top := v &&& (← get).cfg.topEnableCfg
  let a0 ← topItem top 0 summary
  let a1 ← topItem top 1 (handle .pci 0 .fatal)
  let a2 ← topItem top 2 (handle .priv 0 .fatal)
  return agg (a0 ++ a1 ++ a2)

/-- The pass of a SERVICE (R180): DISPATCH under the mutex; the end of interrupt is owed when it ends. -/
def servicePass : Act Unit := do
  walkerBegin
  let r ← dispatch
  unlock
  modify (fun s => s.setTail (some r))

/-- SERVICE (R180): the pass, then, the mutex released, the end of interrupt and the Result (R191). -/
def progService : Act Unit := do
  servicePass
  tick
  completeTail

/-- WALKFAM on the command port (R113, R365): the mutex around it, no end of interrupt. -/
def walkCommand (f : Family) (inst : Nat) (t : Tree) : Act Unit := do
  walkerBegin
  let r ← walkfam f inst t
  unlock
  modify (fun s => s.respond [resultWord r])

/-- WALKFAM XBAR (R186). -/
def progWalkXbar (inst : BitVec 12) (t : Tree) : Act Unit := walkCommand .xbar inst.toNat t
/-- WALKFAM PORTGRP (R187). -/
def progWalkPortgrp (inst : BitVec 12) (t : Tree) : Act Unit := walkCommand .portgrp inst.toNat t
/-- WALKFAM LINKMGMT (R188). -/
def progWalkLinkmgmt (inst : BitVec 12) (t : Tree) : Act Unit := walkCommand .linkmgmt inst.toNat t
/-- WALKFAM MCTRLF (R189). -/
def progWalkMctrlf (inst : BitVec 12) (t : Tree) : Act Unit := walkCommand .mctrlf inst.toNat t

def execService (s : State) : Host.Outcome State Fault Refusal := runCommand .service progService s
def execWalkXbar (inst : BitVec 12) (t : Tree) (s : State) : Host.Outcome State Fault Refusal :=
  runCommand (.walkXbar inst t) (progWalkXbar inst t) s
def execWalkPortgrp (inst : BitVec 12) (t : Tree) (s : State) : Host.Outcome State Fault Refusal :=
  runCommand (.walkPortgrp inst t) (progWalkPortgrp inst t) s
def execWalkLinkmgmt (inst : BitVec 12) (t : Tree) (s : State) : Host.Outcome State Fault Refusal :=
  runCommand (.walkLinkmgmt inst t) (progWalkLinkmgmt inst t) s
def execWalkMctrlf (inst : BitVec 12) (t : Tree) (s : State) : Host.Outcome State Fault Refusal :=
  runCommand (.walkMctrlf inst t) (progWalkMctrlf inst t) s

end Sys2Proof.Machine
end

