-- ==== Sys2Proof/Machine/Recovery.lean ====
section
/-! DEFINITION. Family "recovery" (spec/44_recovery.md): RSTDRAIN, its fifteen steps, its results, and what the walker
may do while it is in flight (R281, R313, R352). -/

namespace Sys2Proof.Machine

/-! ## The walker between two links (R281, R313) -/

/-- The program of a walker command (agent WLK, R18); `none` for what is none. A SERVICE taken up here owes its end of
interrupt, which a later `walkerTail` move or the walker's next command writes. -/
def walkerProgram : Instr → Option (Act Unit)
  | .service => some servicePass
  | .walkXbar inst t => some (progWalkXbar inst t)
  | .walkPortgrp inst t => some (progWalkPortgrp inst t)
  | .walkLinkmgmt inst t => some (progWalkLinkmgmt inst t)
  | .walkMctrlf inst t => some (progWalkMctrlf inst t)
  | .handleRoute inst t => some (progHandleRoute inst t)
  | .handleIngress inst t => some (progHandleIngress inst t)
  | .handleEgress inst t => some (progHandleEgress inst t)
  | .handleTstate inst t => some (progHandleTstate inst t)
  | .handleSrctrack inst t => some (progHandleSrctrack inst t)
  | .handleTile inst t => some (progHandleTile inst t)
  | .handleTileout inst t => some (progHandleTileout inst t)
  | .handleDl inst t => some (progHandleDl inst t)
  | .handleTl inst t => some (progHandleTl inst t)
  | .handleLmlink inst t => some (progHandleLmlink inst t)
  | .handleLmcommon inst t => some (progHandleLmcommon inst t)
  | .handleMctrl inst t => some (progHandleMctrl inst t)
  | .handlePci inst t => some (progHandlePci inst t)
  | .handlePriv inst t => some (progHandlePriv inst t)
  | .setfatal link dw => some (progSetfatal link dw)
  | .qlink link => some (progQlink link)
  | .qdev => some progQdev
  | .rstdrain _ _ => none
  | .rd32 _ => none
  | .wr32 _ _ => none

/-- The walker takes the mutex between two links of a batch (R281): the next command of the command port, if it is a
walker command and the mutex is free. -/
def takeUpWalker : Act Unit := do
  match (← get).io.inbox with
  | .frame (.command ws) :: rest =>
    match decodeWords ws with
    | .error _ => pure ()
    | .ok i =>
      match walkerProgram i with
      | none => pure ()
      | some prog => do
        if (← get).seq.lock = .free then
          modify (fun s => s.setInbox (remaining ws ++ rest))
          prog
        else pure ()
  | _ => pure ()

/-- WLK takes up the next command of the command port while RCV is at work (R313). -/
def runNextWalker : Act Unit := answerRefused takeUpWalker

/-- The moves of a moment in which RCV does not hold the mutex. -/
def applyWindowMoves : List Move → Act Unit
  | [] => pure ()
  | m :: ms => do
    if m = .runNext then runNextWalker else applyMove m
    applyWindowMoves ms

/-- A moment in which RCV does not hold the mutex: one entry of the schedule is taken. -/
def window : Act Unit := do
  match (← get).io.sched with
  | [] => pure ()
  | slot :: rest => do
    modify (fun s => s.setSched rest)
    applyWindowMoves slot

/-! ## The steps (R283 to R309) -/

def setStep (n : Nat) : Act Unit := modify (fun s => s.setRcvStep (some n))

/-- Step 1, Validate (R283): what makes a link one that RSTDRAIN can process. -/
def validLink (s : State) (l : Nat) : Bool :=
  linkEnabled s.cfg l && linkKinds.all (fun k => nodeExists s.cfg k l) && decide (s.phase l ≠ .destroyed)

/-- `raise X(step)` at step 8, 10 or 11 (R311, R312): logged, phase FAILED, the snapshot discarded, nothing rolled back. -/
def raiseAbort (st : LinkStatus) (stp l : Nat) : Act (LinkStatus × Nat) := do
  modify (fun s => ((s.emit (.log (.recoveryError st stp l))).setPhase l .failed).setSnap [])
  return (st, stp)

/-- Step 2, Unregister (R285). -/
def stepUnregister (l : Nat) : Act Unit := do
  setStep 2
  extCall .unregisterLink (some l)
  modify (fun s => (s.setRegistered l false).setPhase l .reset)

/-- Step 3, Quiesce (R286). -/
def stepQuiesce (l : Nat) : Act Unit := do
  setStep 3
  let inReset ← askEnv (.linkInReset l)
  if inReset then pure ()
  else
    extCall .requestShutdown (some l)
    extCall .clearTransportState (some l)

/-- SNAP <- SNAP ++ [(a, RD32(a))] for a list of registers (R287). -/
def snapshotRegs : List Reg → Act Unit
  | [] => pure ()
  | r :: rs => do
    let v ← rd r
    modify (fun s => s.setSnap (s.seq.snap ++ [(r, v)]))
    snapshotRegs rs

/-- Step 4, Snapshot (R287). -/
def stepSnapshot (l : Nat) : Act Unit := do
  setStep 4
  modify (fun s => s.setSnap [])
  snapshotRegs (snapList (← get).cfg l)

/-- Step 5, Stop traffic (R292, R293). -/
def stepStop (l : Nat) : Act Unit := do
  setStep 5
  let c ← rd (.ctrlStop l)
  wr (.ctrlStop l) (c ||| 0x3#32)
  emit (.delay .tDrain)

/-- Step 6, Disable interrupts (R294). -/
def stepMask (l : Nat) : Act Unit := do
  setStep 6
  wr (.portIntrCtrl l) 0#32
  wr (.lmIntrCtrl l) 0#32

/-- Step 7, Assert port warm-reset (R295). -/
def stepWarmReset (l : Nat) : Act Unit := do
  setStep 7
  let c := (← get).cfg
  let g ← rd (.warmReset (pg c l))
  wr (.warmReset (pg c l)) (g ||| bit (pl c l))

/-- Step 8, Reset sequencer handshake (R297): true where it was acknowledged. -/
def stepRstseq (l : Nat) : Act Bool := do
  setStep 8
  wr (.rstseqReq l) 1#32
  poll (.rstseqStatus l) (.rstseqAck l) (fun s => s.ackRstseq l)

/-- Step 9, De-assert, debug-clear pulse (R299). -/
def stepDeassert (l : Nat) : Act Unit := do
  setStep 9
  let c := (← get).cfg
  let g ← rd (.warmReset (pg c l))
  wr (.warmReset (pg c l)) (g &&& ~~~bit (pl c l))
  wr (.debugClear l) 1#32
  wr (.debugClear l) 0#32

/-- Step 10, Clear contain-and-drain latch (R301): true where it reads back cleared. -/
def stepContain (l : Nat) : Act Bool := do
  setStep 10
  wr (.containLatch l) 1#32
  let v ← rd (.containLatch l)
  return !v.getLsbD 0

/-- Zeroing an indexed RAM: an address write and a data write an entry (R303, R304). -/
def zeroRam (addr data : Reg) : List Nat → Act Unit
  | [] => pure ()
  | i :: is => do
    wr addr (BitVec.ofNat 32 i)
    wr data 0#32
    zeroRam addr data is

/-- Step 11, Re-initialize block RAMs (R303): true where the zero-init ended. -/
def stepRams (l : Nat) : Act Bool := do
  setStep 11
  wr (.tagpoolInit l) 1#32
  zeroRam (.crumbAddr l) (.crumbData l) (List.range (← get).cfg.crumbDepth)
  zeroRam (.camAddr l) (.camData l) (List.range (← get).cfg.camDepth)
  poll (.ramInitStatus l) (.raminitDone l) (fun s => s.finishRamInit l)

/-- Re-seeding GANGED_RAM[l] from the cached copy (R306, R66). -/
def seedGanged (l : Nat) : List Nat → Act Unit
  | [] => pure ()
  | i :: is => do
    wr (.tblAddr l) (BitVec.ofNat 32 i)
    wr (.tblData l) ((← get).hw.gangedCache.getD i 0#32)
    seedGanged l is

/-- Step 12, Restore (R306). -/
def stepRestore (l : Nat) : Act Unit := do
  setStep 12
  wrAll (← get).seq.snap
  seedGanged l (List.range (← get).cfg.gangedDepth)
  modify (fun s => (s.setSnap []).setPhase l .restored)

/-- The report-enable writes of step 13, in order (R307). -/
def rearmWrites (c : Config) (l : Nat) : List (Reg × Word) :=
  linkKinds.flatMap (fun k => allTrees.map (fun t => (Reg.node k l (.reportEn t), enStd c k t)))

/-- Step 13, Re-arm (R307). -/
def stepRearm (l : Nat) : Act Unit := do
  setStep 13
  wrAll (rearmWrites (← get).cfg l)
  wr (.portIntrCtrl l) (← get).cfg.gateStd
  wr (.lmIntrCtrl l) (← get).cfg.gateStd
  modify (fun s => s.setFatalOccurred l false)
  let v ← rd (.scratchPort (l / 32))
  wr (.scratchPort (l / 32)) (v &&& ~~~bit (l % 32))
  modify (fun s => s.setPhase l .rearmed)

/-- Step 14, Re-register (R308). -/
def stepRegister (l : Nat) : Act (LinkStatus × Nat) := do
  setStep 14
  extCall .registerLink (some l)
  let ok ← askEnv (.registerOk l)
  if ok then
    modify (fun s => (s.setRegistered l true).setPhase l .idle)
    return (.ok, 0)
  else
    modify (fun s => (s.setPhase l .destroyed).emit (.log (.recoveryError .reRegistrationFailed 14 l)))
    return (.reRegistrationFailed, 14)

/-- Steps 9 to 14, after the reset sequencer has acknowledged. -/
def recoverAfterReset (l : Nat) : Act (LinkStatus × Nat) := do
  stepDeassert l
  let cleared ← stepContain l
  if cleared then
    let done ← stepRams l
    if done then
      stepRestore l
      stepRearm l
      stepRegister l
    else raiseAbort .timeout 11 l
  else raiseAbort .containLatchStuck 10 l

/-- Steps 2 to 14 of a link that passed Validate. -/
def recoverValid (l : Nat) : Act (LinkStatus × Nat) := do
  stepUnregister l
  stepQuiesce l
  stepSnapshot l
  stepStop l
  stepMask l
  stepWarmReset l
  let acked ← stepRstseq l
  if acked then recoverAfterReset l else raiseAbort .timeout 8 l

/-- RECOVER(l, forced) (R281, R283): steps 1 to 14; the status and the failing step. -/
def recover (l : Nat) (forced : Bool) : Act (LinkStatus × Nat) := do
  setStep 1
  if forcedGate (← get) forced l then
    if validLink (← get) l then recoverValid l
    else
      emit (.log (.invalidLink l))
      return (.skippedInvalid, 0)
  else return (.skippedNotForced, 0)

/-- The links of the batch, ascending, each under the mutex (R281). RCV is at step 1 of the next link while it waits at
`lock()` (R61). -/
def recoverAll (forced : Bool) : List Nat → Act (List (Nat × LinkStatus × Nat))
  | [] => return []
  | l :: ls => do
    modify (fun s => (s.setRcvLink (some l)).setRcvStep (some 1))
    window
    lock (.rcv l)
    let st ← recover l forced
    unlock
    let sts ← recoverAll forced ls
    return (l, st) :: sts

/-- Step 15 and the Result of a RSTDRAIN whose links are behind it (R309, R310), outside the mutex: WLK may take up commands
before each and between them (R313), and may find that RCV has done them meanwhile (`rcvStep`). -/
def finishRcv : Act Unit := do
  window
  advanceRcv
  window
  advanceRcv

/-- RCV takes up a RSTDRAIN: what another still owes, step 15 or its Result, is done first. Nobody moves in between, so that
at most one command of RCV is in flight (R313); where others are to move there, the inbox has the owed steps as moves of
their own before the RSTDRAIN. -/
def rcvBegin : Act Unit := do
  advanceRcv
  advanceRcv

/-- RSTDRAIN (R281, R310). -/
def progRstdrain (forced : Bool) (masks : List Word) : Act Unit := do
  rcvBegin
  let sts ← recoverAll forced (linkSet masks)
  modify (fun s => s.oweTraining sts)
  finishRcv

def execRstdrain (forced : Bool) (masks : List Word) (s : State) : Host.Outcome State Fault Refusal :=
  runCommand (.rstdrain forced masks) (progRstdrain forced masks) s

end Sys2Proof.Machine
end

