-- ==== Sys2Proof/Machine/Bus.lean ====
section
/-! DEFINITION. Family "register bus" (spec/40_register_access.md R150, R151): RD32 and WR32 as HOST issues them, and
the boot sequence HOST performs with them (R373). -/

namespace Sys2Proof.Machine

/-- RD32 (R150): the value goes back on the bus; nothing else changes (R89). -/
def execRd32 (a : Word) (s : State) : Host.Outcome State Fault Refusal :=
  match mappedReg s.cfg a with
  | none => .refused (.unmappedAccess a)
  | some r => .next (s.answerRead (toBus s.cfg r (readReg s r)))

/-- WR32 (R151). -/
def execWr32 (a v : Word) (s : State) : Host.Outcome State Fault Refusal :=
  match mappedReg s.cfg a with
  | none => .refused (.unmappedAccess a)
  | some r => outcomeOf s (writeReg r (fromBus s.cfg r v) s)

/-! ## Boot (R373), as what HOST presents -/

/-- A WR32 of HOST. -/
def hostWrite (c : Config) (r : Reg) (v : Word) : Input := .frame (.bus true (BitVec.ofNat 32 (busOf c r)) (toBus c r v))

/-- Step 1 for one node. -/
def bootNode (c : Config) (k : Kind) (i : Nat) : List Input :=
  match k with
  | .mctrl => [hostWrite c (.intrStallEn i) (stallStd c)]
  | .pci | .priv => [hostWrite c (.node k i (.reportEn .fatal)) (enStd c k .fatal)]
  | _ =>
    hostWrite c (.node k i .containEn) (containStd c k)
      :: (List.range (nEcc c k)).map (fun u => hostWrite c (.node k i (.eccLimit u)) (eccLimitStd c k u))
      ++ (treesOfKind c k).map (fun t => hostWrite c (.node k i (.reportEn t)) (enStd c k t))

/-- The kinds in the order of step 1: the kinds with the full register set, then PCI and PRIV, then MCTRL. -/
def bootKinds : List Kind := allKinds.filter hasFullSet ++ [.pci, .priv, .mctrl]

/-- The existing nodes, in that order. -/
def bootNodes (c : Config) : List (Kind × Nat) :=
  (bootKinds.flatMap (fun k => (List.range (instances c k)).map (fun i => (k, i)))).filter (fun n => nodeExists c n.1 n.2)

/-- The enabled links. -/
def enabledLinks (c : Config) : List Nat := (List.range c.nLink).filter (linkEnabled c)

/-- Boot, in the order of R373; step 3 is the excluded control plane's. -/
def bootInputs (c : Config) : List Input :=
  (bootNodes c).flatMap (fun n => bootNode c n.1 n.2)
    ++ (enabledLinks c).flatMap (fun l => [hostWrite c (.portIntrCtrl l) c.gateStd, hostWrite c (.lmIntrCtrl l) c.gateStd])
    ++ (enabledLinks c).map (fun l => .move (.registerLink l))
    ++ [hostWrite c .topEnable c.topEnableCfg, hostWrite c .hostEoi 1#32]

end Sys2Proof.Machine
end

