-- ==== Sys2Proof/Machine/Dispatch.lean ====
section
/-! DEFINITION. The meaning of every operation, one arm a constructor. -/

namespace Sys2Proof.Machine

def exec (i : Instr) (s : State) : Host.Outcome State Fault Refusal :=
  match i with
  | .service => Sys2Proof.Machine.execService s
  | .walkXbar inst t => Sys2Proof.Machine.execWalkXbar inst t s
  | .walkPortgrp inst t => Sys2Proof.Machine.execWalkPortgrp inst t s
  | .walkLinkmgmt inst t => Sys2Proof.Machine.execWalkLinkmgmt inst t s
  | .walkMctrlf inst t => Sys2Proof.Machine.execWalkMctrlf inst t s
  | .handleRoute inst t => Sys2Proof.Machine.execHandleRoute inst t s
  | .handleIngress inst t => Sys2Proof.Machine.execHandleIngress inst t s
  | .handleEgress inst t => Sys2Proof.Machine.execHandleEgress inst t s
  | .handleTstate inst t => Sys2Proof.Machine.execHandleTstate inst t s
  | .handleSrctrack inst t => Sys2Proof.Machine.execHandleSrctrack inst t s
  | .handleTile inst t => Sys2Proof.Machine.execHandleTile inst t s
  | .handleTileout inst t => Sys2Proof.Machine.execHandleTileout inst t s
  | .handleDl inst t => Sys2Proof.Machine.execHandleDl inst t s
  | .handleTl inst t => Sys2Proof.Machine.execHandleTl inst t s
  | .handleLmlink inst t => Sys2Proof.Machine.execHandleLmlink inst t s
  | .handleLmcommon inst t => Sys2Proof.Machine.execHandleLmcommon inst t s
  | .handleMctrl inst t => Sys2Proof.Machine.execHandleMctrl inst t s
  | .handlePci inst t => Sys2Proof.Machine.execHandlePci inst t s
  | .handlePriv inst t => Sys2Proof.Machine.execHandlePriv inst t s
  | .setfatal link dw => Sys2Proof.Machine.execSetfatal link dw s
  | .qlink link => Sys2Proof.Machine.execQlink link s
  | .qdev => Sys2Proof.Machine.execQdev s
  | .rstdrain forced masks => Sys2Proof.Machine.execRstdrain forced masks s
  | .rd32 addr => Sys2Proof.Machine.execRd32 addr s
  | .wr32 addr data => Sys2Proof.Machine.execWr32 addr data s

end Sys2Proof.Machine
end

