-- ==== Sys2Proof/Machine/Fetch.lean ====
section
/-! DEFINITION. What a step reads: the next frame HOST presents on the command port or the register bus (R110), or a
step of another agent (R18). There is no program counter: control never leaves the fixed tree (R103), and an operation
is whatever HOST presents next. -/

namespace Sys2Proof.Machine

/-- What the next step is. -/
inductive Fetched where
  /-- Nothing is presented and nothing is owed: the block is idle (R370). -/
  | idle
  /-- A SERVICE still owes its end of interrupt (R180). -/
  | tail
  /-- A RSTDRAIN still owes step 15 or its Result (R281). -/
  | rcvTail
  /-- A step of another agent; the state without it. -/
  | move (m : Move) (s : State)
  /-- An operation, and the state it runs in: the inbox without it. -/
  | run (i : Instr) (s : State)
  /-- The operation has no step yet: the mutex is held (R62). -/
  | wait
  /-- A submission of no word: nothing is presented; the state without it. -/
  | empty (s : State)
  /-- A command word that is no operation (R139), and the state without it. -/
  | refuseWord (s : State)
  /-- A bus transaction that is none (R88). -/
  | badBus (addr : Word)
deriving DecidableEq, Repr

/-- Whether an operation can begin: it takes no mutex, or the mutex is free, or it is refused before taking it. -/
def canBegin (s : State) (i : Instr) : Bool :=
  decide (s.seq.lock = .free) || !takesLock i || !admitted s.cfg i

/-- The command a submission starts with. -/
def fetchCommand (s : State) (ws : List Word) (rest : List Input) : Fetched :=
  match decodeWords ws with
  | .ok i => if canBegin s i then .run i (s.setInbox (remaining ws ++ rest)) else .wait
  | .error .empty => .empty (s.setInbox rest)
  | .error _ => .refuseWord (s.setInbox (remaining ws ++ rest))

/-- The bus transaction presented. -/
def fetchBus (s : State) (strobe : Bool) (addr data : Word) (rest : List Input) : Fetched :=
  match decodeBus strobe addr data with
  | .ok i => .run i (s.setInbox rest)
  | .error _ => .badBus addr

/-- What the next step is. -/
def fetch (s : State) : Fetched :=
  match s.io.inbox with
  | [] =>
    if s.seq.wlkTail.isSome then .tail else if s.seq.rcvTail.isSome then .rcvTail else .idle
  | .move m :: rest => .move m (s.setInbox rest)
  | .frame (.command ws) :: rest => fetchCommand s ws rest
  | .frame (.bus strobe addr data) :: rest => fetchBus s strobe addr data rest

/-- The step of what was fetched. -/
def stepOf (s : State) : Fetched → Host.Outcome State Fault Refusal
  | .idle => .next s
  | .tail => outcomeOf s (completeTail s)
  | .rcvTail => outcomeOf s (advanceRcv s)
  | .move m s' => outcomeOf s (applyMove m s')
  | .run i s' => exec i s'
  | .wait => .next s
  | .empty s' => .next s'
  | .refuseWord s' => .next (refuseCommand s')
  | .badBus addr => .refused (.unalignedAccess addr)

/-- The frame of an opcode-table word, presented next. -/
def presentTableWord (s : State) (nbits w : Nat) : State := s.setInbox (.frame (tableFrame nbits w) :: s.io.inbox)

end Sys2Proof.Machine
end

