-- ==== Sys2Proof/Machine/Step.lean ====
section
/-! DEFINITION. One step of the machine, and how an instruction is placed where the step reads it. -/

namespace Sys2Proof.Machine

/-- One step: the next operation HOST presents, run to its end with what the schedule puts between its accesses, or
one step of another agent. -/
def step (s : State) : Host.Outcome State Fault Refusal := stepOf s (fetch s)

/-- `s` with the opcode-table word presented as the next frame. -/
def State.withFetchWord (s : State) (nbits w : Nat) : State := presentTableWord s nbits w

end Sys2Proof.Machine
end

