-- ==== Sys2Proof/Safety.lean ====
section
/-! DEFINITION. What the claims are stated in: the read of one register cell by its key, the canonical form of
all stored state, a state between two operations, a run of one command in which no other agent moves, the clean
entry of R73, and what may change. -/

namespace Sys2Proof.Machine

/-! ## One cell of the register space -/

/-- The stored value under a register key (a register's address in the default map): the model's read of one cell (every
cell is one 32-bit register, R84). -/
def State.cellAt (s : State) (a : Nat) : Word := s.hw.regs.get (resetValue s.cfg) a

/-- Every register cell but the listed registers' reads as before. -/
def SameCellsBut (rs : List Reg) (s t : State) : Prop := ∀ a : Nat, a ∉ rs.map busAddr → t.cellAt a = s.cellAt a

/-- All hardware state but the register cells is as before: the RAMs, the tag pools, what the responders have been
asked, `armed`, the cached ganged table. -/
def SameHardwareButCells (s t : State) : Prop := t.hw = { s.hw with regs := t.hw.regs }

/-! ## Canonical form -/

/-- Every sparse store is in canonical form. -/
def State.memWf (s : State) : Bool :=
  s.hw.regs.wf (resetValue s.cfg)
    && s.hw.crumbRam.wf (fun _ => 0#32) && s.hw.camRam.wf (fun _ => 0#32) && s.hw.gangedRam.wf (fun _ => 0#32)
    && s.hw.tagpoolClean.wf (fun _ => false) && s.hw.rstseqPending.wf (fun _ => false)
    && s.hw.ramInitPending.wf (fun _ => false)
    && s.fault.fatalOccurred.wf (fun _ => false) && s.fault.phase.wf (fun _ => Phase.idle)
    && s.fault.registered.wf (fun _ => false)
    && s.io.env.wf favourable

/-! ## Between two operations -/

/-- Nothing is in flight but, perhaps, the end of interrupt of a SERVICE and the step 15 and Result of a RSTDRAIN: the
mutex is free (R62), the cursor has no value (R60), nor has the recovery's position unless it is at step 15 (R61), the
values of a HANDLE and the capture buffer are gone (R59, R65), the snapshot is empty (R64). -/
def State.atRest (s : State) : Prop :=
  s.seq = { wlkTail := s.seq.wlkTail, rcvTail := s.seq.rcvTail, rcvStep := s.seq.rcvTail.map (fun _ => 15) }

/-- The invariant every step keeps: canonical stores, and nothing in flight between two operations. -/
def Inv (s : State) : Prop := s.memWf = true ∧ s.atRest

/-! ## Runs of one command alone -/

/-- No other agent moves during the next command, no SERVICE owes its end of interrupt, the mutex is free. -/
def Quiet (s : State) : Prop := s.io.sched = [] ∧ s.seq.wlkTail = none ∧ s.seq.lock = .free

/-- Whether an operation is a command of the walker (R18): everything but RSTDRAIN and the two bus accesses. -/
def isWalkerCommand : Instr → Bool
  | .rstdrain _ _ => false
  | .rd32 _ => false
  | .wr32 _ _ => false
  | _ => true

/-! ## What a HANDLE finds (R163, R211, R243) -/

/-- The status register a HANDLE of kind `k` reads and clears; for MCTRL `i` is the link index (R243). -/
def statusReg (c : Config) (k : Kind) (i : Nat) : Reg :=
  if k = .mctrl then .intrStatus (mc c i) else .node k i .errStatus

/-- The enable register of a HANDLE in a tree. -/
def enableReg (c : Config) (k : Kind) (i : Nat) (t : Tree) : Reg :=
  if k = .mctrl then .intrStallEn (mc c i) else .node k i (.reportEn t)

/-- The instance whose status register that is. -/
def statusNode (c : Config) (k : Kind) (i : Nat) : Nat := if k = .mctrl then mc c i else i

/-- A schedule in which one step of another agent falls before the access number `n` of a command (from 0), and no other
step does. -/
def onlyBefore (n : Nat) (m : Move) : List (List Move) := List.replicate n [] ++ [[m]]

/-- P, the pending bits a HANDLE reads. -/
def State.pendingOf (s : State) (k : Kind) (i : Nat) : Word :=
  if k = .mctrl then s.field (statusReg s.cfg k i) &&& bit (ll s.cfg i) else s.field (statusReg s.cfg k i)

/-- M = P & EN, the bits a HANDLE finds to service. -/
def State.maskOf (s : State) (k : Kind) (i : Nat) (t : Tree) : Word :=
  s.pendingOf k i &&& s.field (enableReg s.cfg k i t)

/-- The bits of a mask that no classification rule recognises (R8, R216): what is left in U at step 8. -/
def unrecognised (c : Config) (k : Kind) (m : Word) : Word :=
  (List.range 32).foldl (fun acc b => if m.getLsbD b && (table c k b).isNone then acc ||| bit b else acc) 0#32

/-- Whether a HANDLE services a bit of ECC unit `u` (R223, R227): it is then among the units whose counter is zeroed. -/
def touches (c : Config) (k : Kind) (m : Word) (u : Nat) : Bool :=
  (List.range 32).any (fun b => m.getLsbD b && (match table c k b with
    | some e => decide (e.ecc = .eccLimit u) || decide (e.ecc = .eccDbe u)
    | none => false))

/-- The registers a HANDLE may write besides the status register: the first latch, the tree's enable, the counters of
its ECC units, the scratch registers of a marking, and the ring handshake (R211, R245, R251). -/
def handleWrites (c : Config) (k : Kind) (i : Nat) (t : Tree) : List Reg :=
  [statusReg c k i, enableReg c k i t, .scratchDevice] ++ (List.range (lmw c)).map Reg.scratchPort
    ++ (if k = .mctrl then [] else .node k i .errFirst :: (List.range 4).map (fun u => .node k i (.eccCount u)))
    ++ (if k = .priv then [.ringStatus] else [])

/-- A Report (R71, R220). -/
def reportEvent (k : Kind) (b i : Nat) (link : Option Nat) (sev : Severity) (d : Diagnostic) : Event :=
  .report { kind := k, bit := b, inst := i, link := link, sev := sev, diag := d }

/-- Whether bit `b` of a node is reported, given P (R216, R223): it has an entry and its unit's double-bit error does not
suppress it. -/
def reportable (c : Config) (k : Kind) (p : Word) (b : Nat) : Option Entry :=
  match table c k b with
  | none => none
  | some e => if dbeSuppresses c k e p then none else some e

/-- Whether a report of this severity, device-wide or not, marks link `j` through one of the targets. -/
def marksLink (sev : Severity) (tgts : List (Option Nat)) (j : Nat) : Bool :=
  decide (sev = .fatal) && tgts.contains (some j)

/-- Whether it marks the device (R224: a target `none` is always device-wide). -/
def marksDevice (sev : Severity) (dw : Bool) (tgts : List (Option Nat)) : Bool :=
  decide (sev = .fatal) && tgts.any (fun tgt => dw || tgt.isNone)

/-! ## What a HANDLE does (R211 to R229, R243, R245) -/

/-- The contain-enable a HANDLE reads (R211 step 1); a kind without one has none. -/
def State.containOf (s : State) (k : Kind) (i : Nat) : Word :=
  if hasFullSet k then s.field (.node k i .containEn) else 0#32

/-- The words of the capture buffer once step 3 is done for mask `m` (R215); HANDLE.MCTRL has no capture (R243). -/
def State.captureOf (s : State) (k : Kind) (i : Nat) (m : Word) : List Word :=
  if k = .mctrl ∨ m &&& diagBits s.cfg k = 0#32 then []
  else ((diagRegs s.cfg k).take s.cfg.capWords).map (fun r => s.field (.node k i r))

/-- The diagnostic payload of a bit with entry `e` (R221), `cap` being the capture buffer. -/
def State.diagnosticOf (s : State) (k : Kind) (i : Nat) (cap : List Word) (e : Entry) : Diagnostic :=
  match e.diag with
  | .none => .none
  | .rawBlock => .rawBlock cap cap.length
  | .addressFault =>
    .addressFault ((s.field (.node k i .errAddr)).getLsbD 31) ((s.field (.node k i .errAddr)).extractLsb' 0 31)
  | .eccCounter =>
    match e.ecc with
    | .notEcc => .none
    | .eccLimit u => .eccCounter (s.field (.node k i (.eccCount u))) false
    | .eccDbe u => .eccCounter (s.field (.node k i (.eccCount u))) true

/-- The persistent-log call of a unit (R223). -/
def State.eccLogOf (s : State) (k : Kind) (i u : Nat) (uncorrectable : Bool) : Event :=
  .eccLog { kind := k, unit := u, link := logLink k i, valid := (s.field (.node k i (.eccAddr u))).getLsbD 31,
            addr := (s.field (.node k i (.eccAddr u))).extractLsb' 0 31, uncorrectable := uncorrectable,
            count := s.field (.node k i (.eccCount u)) }

/-- The persistent-log calls of a bit with entry `e`: one where it has an ECC tag (R223). -/
def State.eccLogsOf (s : State) (k : Kind) (i : Nat) (e : Entry) : List Event :=
  match e.ecc with
  | .notEcc => []
  | .eccLimit u => [s.eccLogOf k i u false]
  | .eccDbe u => [s.eccLogOf k i u true]

/-- The reports and log calls of one set bit of the mask, given P, CN and the capture buffer (R216, R220 to R224). -/
def State.bitEvents (s : State) (k : Kind) (i : Nat) (p cn : Word) (cap : List Word) (b : Nat) : List Event :=
  match reportable s.cfg k p b with
  | none => []
  | some e =>
    (targets s.cfg k i).map (fun tgt => reportEvent k b i tgt (effSev e (cn.getLsbD b)) (s.diagnosticOf k i cap e))
      ++ s.eccLogsOf k i e

/-- Reports and persistent-log calls. -/
def isClassified : Event → Bool
  | .report _ => true
  | .eccLog _ => true
  | _ => false

/-- The reports and log calls of a HANDLE, in order: the set bits of the mask in ORDER(k) (R216, R17). -/
def State.expectedEvents (s : State) (k : Kind) (i : Nat) (t : Tree) : List Event :=
  ((order s.cfg k).filter (fun b => (s.maskOf k i t).getLsbD b)).flatMap
    (s.bitEvents k i (s.pendingOf k i) (s.containOf k i) (s.captureOf k i (s.maskOf k i t)))

/-- The events a HANDLE may put into H before its own writes: reports, notifications, log calls, failures of a sink,
writes of a scratch register. -/
def markEvent : Event → Prop
  | .report _ => True
  | .notify _ => True
  | .eccLog _ => True
  | .sinkFailure _ => True
  | .write .scratchDevice _ => True
  | .write (.scratchPort _) _ => True
  | _ => False

/-- Whether one of the set bits of the mask marks link `j` (R224). -/
def State.handleMarksLink (s : State) (k : Kind) (i : Nat) (t : Tree) (j : Nat) : Prop :=
  ∃ b, (s.maskOf k i t).getLsbD b = true ∧ ∃ e, reportable s.cfg k (s.pendingOf k i) b = some e
    ∧ marksLink (effSev e ((s.containOf k i).getLsbD b)) (targets s.cfg k i) j = true

/-- Whether one of the set bits of the mask marks the device (R224, R253). -/
def State.handleMarksDevice (s : State) (k : Kind) (i : Nat) (t : Tree) : Prop :=
  ∃ b, (s.maskOf k i t).getLsbD b = true ∧ ∃ e, reportable s.cfg k (s.pendingOf k i) b = some e
    ∧ marksDevice (effSev e ((s.containOf k i).getLsbD b)) e.deviceWide (targets s.cfg k i) = true

/-- Whether PRIV's handshake is acknowledged (R245); the other kinds have none. -/
def State.handshakeOk (s : State) (k : Kind) : Bool := if k = .priv then (s.ask .privAck).1 else true

/-- The writes and lines a HANDLE puts into H after classification, in order: the suppression write, the first latch,
the status, the counters of the touched units, PRIV's handshake, the unhandled bits (R213, R225 to R227, R245, R219). -/
def State.handleTail (s : State) (k : Kind) (i : Nat) (t : Tree) : List Event :=
  let m := s.maskOf k i t
  (if suppressFlag s k i then [.write (enableReg s.cfg k i t) (s.field (enableReg s.cfg k i t) &&& ~~~m)] else [])
    ++ (if k = .mctrl then [] else [.write (.node k i .errFirst) (s.field (.node k i .errFirst) &&& m)])
    ++ [.write (statusReg s.cfg k i) m]
    ++ (if k = .mctrl then []
        else ((List.range 4).filter (touches s.cfg k m)).map (fun u => .write (.node k i (.eccCount u)) 0#32))
    ++ (if k = .priv then .write .ringCmd 1#32 :: (if s.handshakeOk k then [] else [.log .privAckTimeout]) else [])
    ++ (if unrecognised s.cfg k m = 0#32 then [] else [.unhandled k i t (unrecognised s.cfg k m)])

/-- The Result of a HANDLE that found something (R219, R245). -/
def State.handleResult (s : State) (k : Kind) (i : Nat) (t : Tree) : Result3 :=
  if unrecognised s.cfg k (s.maskOf k i t) = 0#32 ∧ s.handshakeOk k = true then .success else .moreProcessingRequired

/-- What a HANDLE that found a pending, enabled bit leaves in the registers and the fault state. -/
structure Serviced (s : State) (k : Kind) (i : Nat) (t : Tree) (u : State) : Prop where
  cfg : u.cfg = s.cfg
  status : u.field (statusReg s.cfg k i) = s.field (statusReg s.cfg k i) &&& ~~~s.maskOf k i t
  enable : u.field (enableReg s.cfg k i t) =
    if suppressFlag s k i then s.field (enableReg s.cfg k i t) &&& ~~~s.maskOf k i t else s.field (enableReg s.cfg k i t)
  first : k ≠ .mctrl → u.field (.node k i .errFirst) = s.field (.node k i .errFirst) &&& ~~~s.maskOf k i t
  counters : k ≠ .mctrl → ∀ v, hasReg s.cfg k (.eccCount v) = true → u.field (.node k i (.eccCount v)) =
    if touches s.cfg k (s.maskOf k i t) v then 0#32 else s.field (.node k i (.eccCount v))
  cells : SameCellsBut (handleWrites s.cfg k i t) s u
  hardware : u.hw = { s.hw with regs := u.hw.regs, ringPending := u.hw.ringPending }
  ring : k ≠ .priv → u.hw.ringPending = s.hw.ringPending
  links : ∀ j, u.fatalOccurred j = true ↔ s.fatalOccurred j = true ∨ s.handleMarksLink k i t j
  device : u.fault.resetRequired = true ↔ s.fault.resetRequired = true ∨ s.handleMarksDevice k i t
  phase : u.fault.phase = s.fault.phase
  registered : u.fault.registered = s.fault.registered

/-- How often an event stands in H. -/
def State.occurrences (s : State) (e : Event) : Nat := s.io.history.count e

/-- The links and the device that became faulted between `s` and `u` are recorded and announced, once (R251, R41): a bit
of SCRATCH_PORT is set exactly if it was or its link became faulted, SCRATCH_DEVICE likewise, and PortDown and
DeviceDown came once for each that did and not at all for the others. -/
structure MarkingsRecorded (s u : State) : Prop where
  ports : ∀ w b, w < lmw s.cfg → b < 32 → ((u.field (.scratchPort w)).getLsbD b = true ↔
    (s.field (.scratchPort w)).getLsbD b = true
      ∨ (s.fatalOccurred (32 * w + b) = false ∧ u.fatalOccurred (32 * w + b) = true))
  device : u.field .scratchDevice =
    if s.fault.resetRequired = false ∧ u.fault.resetRequired = true then 1#32 else s.field .scratchDevice
  portNotices : ∀ l, u.occurrences (.notify (.portDown l)) = s.occurrences (.notify (.portDown l))
    + (if s.fatalOccurred l = false ∧ u.fatalOccurred l = true then 1 else 0)
  deviceNotices : u.occurrences (.notify .deviceDown) = s.occurrences (.notify .deviceDown)
    + (if s.fault.resetRequired = false ∧ u.fault.resetRequired = true then 1 else 0)

/-! ## What a completed recovery leaves (R306 to R308, R315) -/

/-- The registers of link `l` that the recovery itself writes after the restore (R306, R307). -/
def rearmedRegs (l : Nat) : List Reg :=
  [.tblAddr l, .portIntrCtrl l, .lmIntrCtrl l]
    ++ linkKinds.flatMap (fun k => allTrees.map (fun t => .node k l (.reportEn t)))

/-- Every register a recovery of link `l` can change (R285 to R308, R316). -/
def recoveryWrites (c : Config) (l : Nat) : List Reg :=
  [.ctrlStop l, .portIntrCtrl l, .lmIntrCtrl l, .warmReset (pg c l), .rstseqReq l, .rstseqStatus l, .debugClear l,
      .containLatch l, .ramInitStatus l, .crumbAddr l, .camAddr l, .tblAddr l, .scratchPort (l / 32)]
    ++ snapList c l ++ warmResetSet c l
    ++ portKinds.flatMap (fun k => [.node k l .errStatus, .node k l .errFirst])
    ++ linkKinds.flatMap (fun k => allTrees.map (fun t => .node k l (.reportEn t)))

/-- Link `l` of `s` has been recovered in `u`. -/
structure Recovered (s : State) (l : Nat) (u : State) : Prop where
  flags : ∀ j, u.fatalOccurred j = if j = l then false else s.fatalOccurred j
  device : u.fault.resetRequired = s.fault.resetRequired
  phases : ∀ j, u.phase j = if j = l then .idle else s.phase j
  registrations : ∀ j, u.registered j = if j = l then true else s.registered j
  persisted : (u.field (.scratchPort (l / 32))).getLsbD (l % 32) = false
  enables : ∀ k ∈ linkKinds, ∀ t, u.field (.node k l (.reportEn t)) = enStd s.cfg k t
  gates : u.field (.portIntrCtrl l) = s.cfg.gateStd &&& 0x7#32 ∧ u.field (.lmIntrCtrl l) = s.cfg.gateStd &&& 0x7#32
  latch : (u.field (.containLatch l)).getLsbD 0 = false
  restored : ∀ r ∈ snapList s.cfg l, r ∉ rearmedRegs l → u.field r = s.field r
  crumb : ∀ i, i < s.cfg.crumbDepth → u.ramEntry .crumb l i = 0#32
  cam : ∀ i, i < s.cfg.camDepth → u.ramEntry .cam l i = 0#32
  ganged : ∀ i, i < s.cfg.gangedDepth → u.ramEntry .ganged l i = s.hw.gangedCache.getD i 0#32
  otherRams : ∀ m l' i, l' ≠ l → i < 0x100000000 → u.ramEntry m l' i = s.ramEntry m l' i
  clean : u.tagpoolClean l = true

/-- The events of steps 2 to 14 of a recovery of link `l` that ends Ok, in order (R285 to R308, R318); `g` and `v` are the
values that steps 9 and 13 write back to WARM_RESET and SCRATCH_PORT. -/
def State.recoveryEvents (s : State) (l : Nat) (g v : Word) : List Event :=
  let c := s.cfg
  [.extCall .unregisterLink (some l)]
    ++ (if (s.ask (.linkInReset l)).1 then [] else [.extCall .requestShutdown (some l), .extCall .clearTransportState (some l)])
    ++ [.write (.ctrlStop l) (s.field (.ctrlStop l) ||| 0x3#32), .delay .tDrain,
        .write (.portIntrCtrl l) 0#32, .write (.lmIntrCtrl l) 0#32,
        .write (.warmReset (pg c l)) (s.field (.warmReset (pg c l)) ||| bit (pl c l)), .write (.rstseqReq l) 1#32,
        .write (.warmReset (pg c l)) g, .write (.debugClear l) 1#32, .write (.debugClear l) 0#32,
        .write (.containLatch l) 1#32, .write (.tagpoolInit l) 1#32]
    ++ (List.range c.crumbDepth).flatMap (fun i => [.write (.crumbAddr l) (BitVec.ofNat 32 i), .write (.crumbData l) 0#32])
    ++ (List.range c.camDepth).flatMap (fun i => [.write (.camAddr l) (BitVec.ofNat 32 i), .write (.camData l) 0#32])
    ++ (snapList c l).map (fun r => .write r (s.field r))
    ++ (List.range c.gangedDepth).flatMap (fun i =>
        [.write (.tblAddr l) (BitVec.ofNat 32 i), .write (.tblData l) (s.hw.gangedCache.getD i 0#32)])
    ++ linkKinds.flatMap (fun k => allTrees.map (fun t => .write (.node k l (.reportEn t)) (enStd c k t)))
    ++ [.write (.portIntrCtrl l) c.gateStd, .write (.lmIntrCtrl l) c.gateStd, .write (.scratchPort (l / 32)) v,
        .extCall .registerLink (some l)]

/-- The environment answers this link's recovery favourably (R297, R302, R305, R308). -/
structure Favours (s : State) (l : Nat) : Prop where
  sequencer : (s.ask (.rstseqAck l)).1 = true
  latch : (s.ask (.containStuck l)).1 = false
  rams : (s.ask (.raminitDone l)).1 = true
  register : (s.ask (.registerOk l)).1 = true

/-! ## What an abandoned recovery leaves (R312) -/

/-- The environment does not hold link `l`'s recovery up before `stp`, one of the steps that can fail (R297, R301, R303,
R308), and does at it. -/
def stopsAt (s : State) (l : Nat) : Nat → Prop
  | 8 => (s.ask (.rstseqAck l)).1 = false
  | 10 => (s.ask (.rstseqAck l)).1 = true ∧ (s.ask (.containStuck l)).1 = true
      ∧ (s.field (.containLatch l)).getLsbD 0 = true
  | 11 => (s.ask (.rstseqAck l)).1 = true ∧ (s.ask (.containStuck l)).1 = false ∧ (s.ask (.raminitDone l)).1 = false
  | 14 => (s.ask (.rstseqAck l)).1 = true ∧ (s.ask (.containStuck l)).1 = false ∧ (s.ask (.raminitDone l)).1 = true
      ∧ (s.ask (.registerOk l)).1 = false
  | _ => False

/-- The failure of a step (R311). -/
def failureAt (stp : Nat) : LinkStatus :=
  if stp = 10 then .containLatchStuck else if stp = 14 then .reRegistrationFailed else .timeout

/-- The registers of a recovery that are written after the warm reset of step 7 and up to an abort at step 11 (R297 to
R303). -/
def writtenAfterWarmReset (c : Config) (l : Nat) : List Reg :=
  [.warmReset (pg c l), .rstseqReq l, .rstseqStatus l, .debugClear l, .containLatch l, .ramInitStatus l, .crumbAddr l,
      .camAddr l] ++ portStatusRegs c l

/-- What the registers hold after an abort at step 8, 10 or 11 (R312): the gates are 0, the warm-reset bit is still asserted
after step 8 alone, SCRATCH_PORT is as it was, and where the bit was not held before, what the warm reset reached and no
later step wrote is at RESET_VALUE. -/
structure AbortedRegisters (s : State) (l stp : Nat) (u : State) : Prop where
  gates : u.field (.portIntrCtrl l) = 0#32 ∧ u.field (.lmIntrCtrl l) = 0#32
  warm : (u.field (.warmReset (pg s.cfg l))).getLsbD (pl s.cfg l) = decide (stp = 8)
  scratch : ∀ w, w < lmw s.cfg → busAddr (.scratchPort w) ∉ (warmResetSet s.cfg l).map busAddr →
    u.field (.scratchPort w) = s.field (.scratchPort w)
  reset : (s.field (.warmReset (pg s.cfg l))).getLsbD (pl s.cfg l) = false → ∀ r ∈ warmResetSet s.cfg l,
    busAddr r ∉ (writtenAfterWarmReset s.cfg l).map busAddr → u.cellAt (busAddr r) = resetValue s.cfg (busAddr r)

/-- What they hold after ReRegistrationFailed (R308): the link's hardware is fully re-armed. -/
structure RearmedRegisters (s : State) (l : Nat) (u : State) : Prop where
  gates : u.field (.portIntrCtrl l) = s.cfg.gateStd &&& 0x7#32 ∧ u.field (.lmIntrCtrl l) = s.cfg.gateStd &&& 0x7#32
  enables : ∀ k ∈ linkKinds, ∀ t, u.field (.node k l (.reportEn t)) = enStd s.cfg k t
  persisted : (u.field (.scratchPort (l / 32))).getLsbD (l % 32) = false

/-! ## Clean entry (R73) -/

/-- The report-enables and the contain-enable of a node hold their operating values. -/
def nodeAtOperatingValues (s : State) (k : Kind) (i : Nat) : Prop :=
  (∀ t ∈ treesOfKind s.cfg k, hasReg s.cfg k (.reportEn t) = true → s.field (.node k i (.reportEn t)) = enStd s.cfg k t)
    ∧ (hasReg s.cfg k .containEn = true → s.field (.node k i .containEn) = containStd s.cfg k)

/-- The state after boot (R73). -/
structure CleanEntry (s : State) : Prop where
  nodes : ∀ k i, k ≠ .mctrl → nodeExists s.cfg k i = true → nodeAtOperatingValues s k i
  stall : ∀ m, nodeExists s.cfg .mctrl m = true → s.field (.intrStallEn m) = stallStd s.cfg &&& lowMask s.cfg.lmSize
  gates : ∀ l, linkEnabled s.cfg l = true →
    s.field (.portIntrCtrl l) = s.cfg.gateStd &&& 0x7#32 ∧ s.field (.lmIntrCtrl l) = s.cfg.gateStd &&& 0x7#32
  top : s.field .topEnable = s.cfg.topEnableCfg &&& 0x7#32
  links : ∀ l, linkEnabled s.cfg l = true → s.registered l = true
  line : s.hw.armed = true
  mutex : s.seq.lock = .free

/-! ## What a walk answers (R186 to R190) -/

/-- The Result of a family handler's child, from the state the family handler starts in. -/
def State.childResult (s : State) (t : Tree) (n : Kind × Nat) : Result3 :=
  if s.maskOf n.1 n.2 t = 0#32 then .notFound else s.handleResult n.1 n.2 t

/-- The Results of the HANDLEs recorded in a list of events, in order. -/
def handleResults (es : List Event) : List (Kind × Nat × Tree × Result3) :=
  es.filterMap (fun e => match e with
    | .result (.handle k i t r) => some (k, i, t, r)
    | _ => none)

/-- Whether an event is a write of HOST_EOI. -/
def isEoiWrite : Event → Bool
  | .write .hostEoi _ => true
  | _ => false

/-- Whether an event is a write of a node register. -/
def isNodeWrite : Event → Bool
  | .write (.node _ _ _) _ => true
  | _ => false

/-- Whether an event is a write of a microcontroller's register. -/
def isMctrlWrite : Event → Bool
  | .write (.intrStatus _) _ => true
  | .write (.intrStallEn _) _ => true
  | _ => false

/-- Whether an event is the failure of a sink. -/
def isSinkFailure : Event → Bool
  | .sinkFailure _ => true
  | _ => false

/-- The registers that let a pending bit report: the report-enables and the stall-enables. -/
def isReportEnable : Reg → Bool
  | .node _ _ (.reportEn _) => true
  | .intrStallEn _ => true
  | _ => false

/-- The registers a pass of the walker can write besides HOST_EOI: status, first latch, enables and counters of nodes, the
scratch registers of a marking, RING_STATUS (R211, R243, R245, R251). -/
def isWalkerWritten : Reg → Bool
  | .node _ _ .errStatus => true
  | .node _ _ .errFirst => true
  | .node _ _ (.reportEn _) => true
  | .node _ _ (.eccCount _) => true
  | .intrStatus _ => true
  | .intrStallEn _ => true
  | .ringStatus => true
  | .scratchDevice => true
  | .scratchPort _ => true
  | _ => false

/-- The links of the reports of bit `b` in a list of events, in order. -/
def reportLinks (b : Nat) (es : List Event) : List (Option Nat) :=
  es.filterMap (fun e => match e with
    | .report ev => if ev.bit = b then some ev.link else none
    | _ => none)

/-- How many words a command has (R141). -/
def encodedLength : Instr → Nat
  | .rstdrain _ masks => 1 + masks.length
  | _ => 1

/-! ## What a marking does (R251) -/

/-- The events of SETFATAL's link part, failures of the sink apart. -/
def State.linkMarkEvents (s : State) : Option Nat → List Event
  | none => []
  | some l =>
    if s.fatalOccurred l then []
    else [.write (.scratchPort (l / 32)) (s.field (.scratchPort (l / 32)) ||| bit (l % 32)), .notify (.portDown l)]

/-- The events of its device part. -/
def State.deviceMarkEvents (s : State) (dw : Bool) : List Event :=
  if dw = true ∧ s.fault.resetRequired = false then [.write .scratchDevice 1#32, .notify .deviceDown] else []

/-- The registers SETFATAL writes. -/
def State.markCells (s : State) (link : Option Nat) (dw : Bool) : List Reg :=
  (if dw = true ∧ s.fault.resetRequired = false then [.scratchDevice] else [])
    ++ (match link with
        | some l => if s.fatalOccurred l then [] else [.scratchPort (l / 32)]
        | none => [])

/-! ## What a SERVICE owes (R180, R191) -/

/-- The state once the end of interrupt owed for a SERVICE with Result `r` has come: written once, the interrupt armed, the
Result in H, the response handed out. -/
def State.tailDone (s : State) (r : Result3) : State :=
  { s with
    hw := { s.hw with armed := true }
    seq := { s.seq with wlkTail := none }
    io := { s.io with
      history := s.io.history ++ [.write .hostEoi 1#32, .result (.service r)]
      responses := s.io.responses ++ [[resultWord r]] } }

/-! ## What a SERVICE invokes (R181 to R185) -/

/-- The state after a command that runs alone; the state itself where the command has no next state. -/
def State.after (s : State) (i : Instr) : State :=
  match exec i s with
  | .next u => u
  | _ => s

/-- The HANDLEs invoked so far, each a node and a tree, and the state they lead to. -/
abbrev Calls := List (Kind × Nat × Tree) × State

/-- One WALKFAM more (R183): the HANDLEs of the children, in order. -/
def Calls.walk (x : Calls) (f : Family) (i : Nat) (t : Tree) : Calls :=
  (x.1 ++ (children x.2.cfg f i t).map (fun n => (n.1, n.2, t)), x.2.after (walkInstr f (BitVec.ofNat 12 i) t))

/-- One HANDLE more (R184, R185). -/
def Calls.handle (x : Calls) (k : Kind) (t : Tree) : Calls := (x.1 ++ [(k, 0, t)], x.2.after (handleInstr k 0#12 t))

/-- One summary word more (R183): read, masked with EXIST, the engine of every bit set in it walked, ascending. -/
def Calls.word (t : Tree) (x : Calls) (w : Nat) : Calls :=
  (setBits (readReg x.2 (.summary t w) &&& existMask x.2.cfg t w)).foldl
    (fun y j => match engineOf y.2.cfg (32 * w + j) with
      | some (f, i) => y.walk f i t
      | none => y) x

/-- SUMMARY (R183): the three trees in order, the words of each ascending. -/
def Calls.summary (x : Calls) : Calls :=
  allTrees.foldl (fun y t => (List.range (sumw y.2.cfg)).foldl (Calls.word t) y) x

/-- DISPATCH (R181): the top-level register is read once and masked; its bits in order: SUMMARY, PCI, PRIV. -/
def State.serviceCalls (s : State) : Calls :=
  let top := readReg s .topPending &&& s.cfg.topEnableCfg
  let x : Calls := if top.getLsbD 0 then Calls.summary ([], s) else ([], s)
  let y : Calls := if top.getLsbD 1 then x.handle .pci .fatal else x
  if top.getLsbD 2 then y.handle .priv .fatal else y

/-! ## Refused command words (R139) -/

/-- The conditions of R139 on a format-N word for WALKFAM, its family and tree being given by their codes. -/
def walkRefused (c : Config) (w : Word) : Prop :=
  w.extractLsb' 12 4 ≠ 0#4
    ∨ ¬∃ f t, (w.extractLsb' 18 6).toNat = f.code ∧ (w.extractLsb' 16 2).toNat = t.code ∧ t ∈ treesOfFamily f
        ∧ (w.extractLsb' 0 12).toNat < (match f with
            | .xbar => 1
            | .portgrp => nPg c
            | .linkmgmt => nLm c
            | .mctrlf => nMc c)

/-- The same for HANDLE; MCTRL's instance is a link index (R114). -/
def handleRefused (c : Config) (w : Word) : Prop :=
  w.extractLsb' 12 4 ≠ 0#4
    ∨ ¬∃ k t, (w.extractLsb' 18 6).toNat = k.code ∧ (w.extractLsb' 16 2).toNat = t.code ∧ t ∈ treesOfKind c k
        ∧ (if k = .mctrl then (w.extractLsb' 0 12).toNat < c.nLink
              ∧ nodeExists c .mctrl ((w.extractLsb' 0 12).toNat / c.lmSize) = true
            else nodeExists c k (w.extractLsb' 0 12).toNat = true)

/-- The same for SETFATAL: bits 22:13 must be 0; a link index in range, or nolink with link 0. -/
def setfatalRefused (c : Config) (w : Word) : Prop :=
  w.extractLsb' 13 10 ≠ 0#10
    ∨ (if w.getLsbD 12 then w.extractLsb' 0 12 ≠ 0#12 else c.nLink ≤ (w.extractLsb' 0 12).toNat)

/-- The same for RSTDRAIN, `rest` being the words after its first: bits 22:8 must be 0, nwords is LMW, the mask words
are there (log 12), no mask bit is at or above N_LINK. -/
def rstdrainRefused (c : Config) (w : Word) (rest : List Word) : Prop :=
  w.extractLsb' 8 15 ≠ 0#15 ∨ (w.extractLsb' 0 8).toNat ≠ lmw c ∨ rest.length < lmw c
    ∨ ∃ j b, j < lmw c ∧ b < 32 ∧ (rest.getD j 0#32).getLsbD b = true ∧ c.nLink ≤ 32 * j + b

/-- R139, bit by bit: when a command word, followed by the words of `rest`, is refused. -/
def mustRefuse (c : Config) (w : Word) (rest : List Word) : Prop :=
  match (w.extractLsb' 24 8).toNat with
  | 0x01 => w.extractLsb' 0 24 ≠ 0#24
  | 0x02 => walkRefused c w
  | 0x03 => handleRefused c w
  | 0x04 => setfatalRefused c w
  | 0x05 => w.extractLsb' 12 12 ≠ 0#12 ∨ c.nLink ≤ (w.extractLsb' 0 12).toNat
  | 0x06 => w.extractLsb' 0 24 ≠ 0#24
  | 0x07 => rstdrainRefused c w rest
  | _ => True

/-! ## The hardware side (R160 to R169) -/

/-- The links whose contain latch an arrival can set (R162, R231): the owner link, or the enabled links of the
instance. -/
def ownsLatch (c : Config) (k : Kind) (i l : Nat) : Prop :=
  (ownerLink k i = some l) ∨ (k = .lmcommon ∧ l ∈ linksOfLm c i)

/-- The registers an arrival at a node can change: status, first latch, the diagnostic registers, the contain latches. -/
def arrivalWrites (c : Config) (k : Kind) (i : Nat) : List Reg :=
  [.node k i .errStatus, .node k i .errFirst, .node k i .errAddr]
    ++ (List.range 8).map (fun j => .node k i (.diagLog j)) ++ (List.range 4).map (fun u => .node k i (.eccAddr u))
    ++ (latchLinks c k i).map Reg.containLatch

/-- The steps of agent SRC (R18, R160, R166, R167); a responder answers for a link there is. -/
def isSourceMove (c : Config) : Move → Prop
  | .arrive _ _ _ _ => True
  | .eccTick _ _ _ _ _ => True
  | .rstseqAck l => l < c.nLink
  | .ramInitDone l => l < c.nLink
  | .ringAck => True
  | _ => False

/-- Whether a node belongs to an engine (R164). -/
def ofEngine (c : Config) (f : Family) (e : Nat) (k : Kind) (i : Nat) : Prop :=
  match f with
  | .portgrp => k ∈ portKinds ∧ i / c.pgSize = e
  | .linkmgmt => (k = .lmcommon ∧ i = e) ∨ (k ∈ lmKinds ∧ i / c.lmSize = e)
  | .xbar => k = .tile ∨ k = .tileout
  | .mctrlf => False

end Sys2Proof.Machine
end

