-- ==== Sys2Proof/Certificates/Slice0/Obligations.lean ====
section
/-! DEFINITION. The statements for the provers, in the order of the spec's files: encoding (30), register access and
the hardware side (40), the tree walk (41), the leaf handlers (42), the fault state (43), the recovery (44), entry
and return (60), reset and boot (70), and the machine as a whole. -/

section

open Sys2Proof Sys2Proof.Machine

/-! ## Encoding (spec/30_encoding.md) -/

/-- Decoding the encoding of a well-formed operation gives it back, for every operand value (R111 to R118, R120). -/
def Obligations.DecodeOfEncode : Prop := ∀ i : Instr, wellFormed i = true → decode (encode i) = .ok i

/-- R141: on the command port an operation is decoded from its own words, whatever follows them, and what follows is
left: one word for every command, 1 + nwords for RSTDRAIN. -/
def Obligations.CommandsAreReadInSequence : Prop :=
  ∀ (i : Instr) (ws rest : List Word), wellFormed i = true → encode i = .command ws →
    decodeWords (ws ++ rest) = .ok i ∧ wordsAfter (ws ++ rest) = rest
      ∧ ws.length = encodedLength i

/-- Words that decode are the encoding of what they decode to: no bit of a command word is ignored. -/
def Obligations.EncodeOfDecode : Prop :=
  ∀ (ws : List Word) (i : Instr), decodeWords ws = .ok i →
    wellFormed i = true ∧ encode i = .command (ws.take (commandLength (ws.headD 0#32)))

/-- Words written out from the tables of R111 to R118 and R132 to R134 decode to what they stand for (sanity). -/
def Obligations.WrittenOutWordsDecode : Prop :=
  decodeWords [0x01000000#32] = .ok .service
    ∧ decodeWords [0x02000000#32] = .ok (.walkXbar 0#12 .fatal)
    ∧ decodeWords [0x02090001#32] = .ok (.walkLinkmgmt 1#12 .nonfatal)
    ∧ decodeWords [0x03040003#32] = .ok (.handleRoute 3#12 .fatal)
    ∧ decodeWords [0x030E0003#32] = .ok (.handleEgress 3#12 .correctable)
    ∧ decodeWords [0x04001000#32] = .ok (.setfatal none false)
    ∧ decodeWords [0x05000003#32] = .ok (.qlink 3#12)
    ∧ decodeWords [0x07800001#32, 0x00000008#32] = .ok (.rstdrain true [0x8#32])
    ∧ decodeBus false 0x01003000#32 0#32 = .ok (.rd32 0x01003000#32)
    ∧ decodeBus true 0x10000008#32 1#32 = .ok (.wr32 0x10000008#32 1#32)

/-- R139, both ways: the words at the head of the command port are refused exactly under the conditions the rule
lists (`mustRefuse`, bit by bit) and, the model's choice (log 12), where a RSTDRAIN is short of mask words; a refusal answers
REFUSED, puts one Result into H and changes nothing else. -/
def Obligations.RefusedExactlyWhenTheRuleSays : Prop :=
  ∀ (s : State) (w : Word) (rest : List Word) (later : List Input), s.io.inbox = .frame (.command (w :: rest)) :: later →
    (mustRefuse s.cfg w rest → step s = .next { s with io := { s.io with
        history := s.io.history ++ [.result .refused]
        responses := s.io.responses ++ [[0xF0000000#32]]
        inbox := remaining (w :: rest) ++ later } })
      ∧ (¬mustRefuse s.cfg w rest → ∃ i, decodeWords (w :: rest) = .ok i ∧ admitted s.cfg i = true)

/-- R120 to R131, with R7's REGMAP: under a well-formed configuration a register is mapped exactly where the map puts it:
the address of a mapped register names it, and an address that names a register is that register's. Without an entry of
REGMAP the address is the one of R120 to R129; and a field layout loses no bit. -/
def Obligations.RegisterMapRoundTrip : Prop :=
  ∀ c : Config, configWf c = true →
    (∀ r : Reg, mapped c r = true → busOf c r < 2 ^ 32 ∧ mappedReg c (BitVec.ofNat 32 (busOf c r)) = some r)
      ∧ (∀ (a : Word) (r : Reg), mappedReg c a = some r → mapped c r = true ∧ busOf c r = a.toNat ∧ aligned a = true)
      ∧ (c.regMap = [] → ∀ r : Reg, busOf c r = busAddr r)
      ∧ (∀ (r : Reg) (v : Word), fromBus c r (toBus c r v) = v ∧ toBus c r (fromBus c r v) = v)

/-! ## The register bus (spec/20_memory.md, spec/40_register_access.md section 1) -/

/-- R150, R89: RD32 of a mapped register completes, hands the value back (its fields laid out as REGMAP says, log 15) and
changes nothing else; a WO register reads 0, a combinational one its inputs, an indexed DATA register the RAM at its ADDR
register, any other its stored value in its defined bits. An unmapped address is refused. -/
def Obligations.ReadReturnsTheRegister : Prop :=
  ∀ (s : State) (a : Word),
    (mappedReg s.cfg a = none → exec (.rd32 a) s = .refused (.unmappedAccess a))
      ∧ ∀ r, mappedReg s.cfg a = some r →
        ∃ v, exec (.rd32 a) s = .next { s with io := { s.io with readData := s.io.readData ++ [toBus s.cfg r v] } }
          ∧ (access r = .wo → v = 0#32)
          ∧ (r = .topPending → v = s.topPending)
          ∧ (∀ t w, r = .summary t w → v = s.summaryWord t w)
          ∧ (∀ l, r = .crumbData l → (s.field (.crumbAddr l)).toNat < s.cfg.crumbDepth →
              v = s.ramEntry .crumb l (s.field (.crumbAddr l)).toNat)
          ∧ (∀ l, r = .camData l → (s.field (.camAddr l)).toNat < s.cfg.camDepth →
              v = s.ramEntry .cam l (s.field (.camAddr l)).toNat)
          ∧ (∀ l, r = .tblData l → (s.field (.tblAddr l)).toNat < s.cfg.gangedDepth →
              v = s.ramEntry .ganged l (s.field (.tblAddr l)).toNat)
          ∧ (access r = .ro ∨ access r = .rw ∨ access r = .w1c → v = s.cellAt (busAddr r) &&& definedMask s.cfg r)

/-- R151: WR32 completes on every mapped register and puts exactly one Write into H, of the value in the register's own
layout (log 15); it changes no flag of the fault state, no sequencer state, no input and no output. An unmapped address is
refused. -/
def Obligations.WriteCompletesAndIsRecorded : Prop :=
  ∀ (s : State) (a v : Word),
    (mappedReg s.cfg a = none → exec (.wr32 a v) s = .refused (.unmappedAccess a))
      ∧ ∀ r, mappedReg s.cfg a = some r →
        ∃ t, exec (.wr32 a v) s = .next t ∧ t.cfg = s.cfg ∧ t.fault = s.fault ∧ t.seq = s.seq
          ∧ t.io = { s.io with history := s.io.history ++ [.write r (fromBus s.cfg r v)], env := t.io.env }
          ∧ ((∀ l, r ≠ .containLatch l) → t.io.env = s.io.env)

/-- R86: writing a write-one-to-clear register clears the written ones and keeps the rest, and no other register
changes (the contain latch, which may refuse, is `ContainLatchWrite`). -/
def Obligations.WriteOneToClear : Prop :=
  ∀ (s : State) (a w v : Word) (r : Reg), configWf s.cfg = true → mappedReg s.cfg a = some r →
    v = fromBus s.cfg r w → access r = .w1c →
    (∀ l, r ≠ .containLatch l) →
    ∃ t, exec (.wr32 a w) s = .next t ∧ t.field r = s.field r &&& ~~~v ∧ SameCellsBut [r] s t ∧ SameHardwareButCells s t
      ∧ t.fault = s.fault ∧ t.seq = s.seq ∧ t.io = { s.io with history := s.io.history ++ [.write r v] }

/-- R302, R45: a written 1 clears the contain latch unless the environment holds it; a written 0 leaves it and asks
nothing. -/
def Obligations.ContainLatchWrite : Prop :=
  ∀ (s : State) (a w v : Word) (l : Nat), configWf s.cfg = true → mappedReg s.cfg a = some (.containLatch l) →
    v = fromBus s.cfg (.containLatch l) w →
    ∃ t, exec (.wr32 a w) s = .next t
      ∧ ((t.field (.containLatch l)).getLsbD 0
          = ((s.field (.containLatch l)).getLsbD 0 && !(v.getLsbD 0 && !(s.ask (.containStuck l)).1)))
      ∧ SameCellsBut [.containLatch l] s t ∧ SameHardwareButCells s t ∧ t.fault = s.fault ∧ t.seq = s.seq
      ∧ (v.getLsbD 0 = false → t.io.env = s.io.env)
      ∧ t.io = { s.io with history := s.io.history ++ [.write (.containLatch l) v], env := t.io.env }

/-- R87: writing an RW register stores the value in the defined bits and changes no other register (DEBUG_CLEAR,
WARM_RESET and RSTSEQ_REQ, which do more, have statements of their own). For CRUMB_ADDR, CAM_ADDR, TBL_ADDR and the bits of
SCRATCH_PORT of links at or above N_LINK that all 32 bits are defined is the model's choice (log 22). -/
def Obligations.PlainWriteStores : Prop :=
  ∀ (s : State) (a w v : Word) (r : Reg), configWf s.cfg = true → mappedReg s.cfg a = some r →
    v = fromBus s.cfg r w → access r = .rw →
    (∀ l, r ≠ .debugClear l) → (∀ g, r ≠ .warmReset g) → (∀ l, r ≠ .rstseqReq l) →
    ∃ t, exec (.wr32 a w) s = .next t ∧ t.field r = v &&& definedMask s.cfg r ∧ SameCellsBut [r] s t
      ∧ SameHardwareButCells s t ∧ t.fault = s.fault ∧ t.seq = s.seq
      ∧ t.io = { s.io with history := s.io.history ++ [.write r v] }

/-- R87: a write to an RO register, combinational ones among them, is recorded and changes nothing. -/
def Obligations.ReadOnlyWriteIsIgnored : Prop :=
  ∀ (s : State) (a v : Word) (r : Reg), mappedReg s.cfg a = some r → access r = .ro ∨ access r = .combinational →
    exec (.wr32 a v) s = .next { s with io := { s.io with history := s.io.history ++ [.write r (fromBus s.cfg r v)] } }

/-- R38: a write of any value to HOST_EOI arms the host interrupt, and does nothing else. -/
def Obligations.EoiWriteArms : Prop :=
  ∀ (s : State) (a v : Word), mappedReg s.cfg a = some .hostEoi →
    exec (.wr32 a v) s = .next { s with
      hw := { s.hw with armed := true }
      io := { s.io with history := s.io.history ++ [.write .hostEoi (fromBus s.cfg .hostEoi v)] } }

/-- R298: a write of RSTSEQ_REQ stores bit 0; with bit 0 = 1 it clears RSTSEQ_STATUS and lets the reset sequencer
answer (the pending request is the model's field, log 16); with bit 0 = 0 it only stores. -/
def Obligations.ResetSequencerRequest : Prop :=
  ∀ (s : State) (a w v : Word) (l : Nat), configWf s.cfg = true → mappedReg s.cfg a = some (.rstseqReq l) →
    v = fromBus s.cfg (.rstseqReq l) w →
    ∃ t, exec (.wr32 a w) s = .next t ∧ t.field (.rstseqReq l) = v &&& 1#32
      ∧ (v.getLsbD 0 = true → t.field (.rstseqStatus l) = 0#32 ∧ t.rstseqPending l = true)
      ∧ (v.getLsbD 0 = false → SameCellsBut [.rstseqReq l] s t ∧ SameHardwareButCells s t)
      ∧ (∀ j, j ≠ l → t.rstseqPending j = s.rstseqPending j)
      ∧ SameCellsBut [.rstseqReq l, .rstseqStatus l] s t ∧ t.fault = s.fault ∧ t.seq = s.seq
      ∧ t.hw = { s.hw with regs := t.hw.regs, rstseqPending := t.hw.rstseqPending }

/-- R46, R35, R245: the triggers of the two WO request registers clear the status they wait for and let the responder
answer (the pending requests are the model's fields, log 16); a written bit 0 of 0 requests nothing. -/
def Obligations.RequestTriggers : Prop :=
  ∀ (s : State) (a w v : Word), configWf s.cfg = true →
    (∀ l, mappedReg s.cfg a = some (.tagpoolInit l) → v = fromBus s.cfg (.tagpoolInit l) w →
      ∃ t, exec (.wr32 a w) s = .next t
        ∧ (v.getLsbD 0 = true → t.field (.ramInitStatus l) = 0#32 ∧ t.ramInitPending l = true
            ∧ SameCellsBut [.ramInitStatus l] s t
            ∧ t.hw = { s.hw with regs := t.hw.regs, ramInitPending := t.hw.ramInitPending }
            ∧ ∀ j, j ≠ l → t.ramInitPending j = s.ramInitPending j)
        ∧ (v.getLsbD 0 = false → t.hw = s.hw)
        ∧ t.fault = s.fault ∧ t.seq = s.seq)
    ∧ (mappedReg s.cfg a = some .ringCmd → v = fromBus s.cfg .ringCmd w →
      ∃ t, exec (.wr32 a w) s = .next t
        ∧ (v.getLsbD 0 = true → t.field .ringStatus = 0#32 ∧ t.hw.ringPending = true
            ∧ SameCellsBut [.ringStatus] s t ∧ t.hw = { s.hw with regs := t.hw.regs, ringPending := true })
        ∧ (v.getLsbD 0 = false → t.hw = s.hw)
        ∧ t.fault = s.fault ∧ t.seq = s.seq)

/-- R296, R49: a write of WARM_RESET stores the bits of the group's ports; every port whose bit rises has every register of
its WARM_RESET_SET at RESET_VALUE afterwards, and no other register changes; a bit that stays resets nothing. -/
def Obligations.WarmResetWrite : Prop :=
  ∀ (s : State) (a w v : Word) (g : Nat), configWf s.cfg = true → mappedReg s.cfg a = some (.warmReset g) →
    v = fromBus s.cfg (.warmReset g) w →
    (∀ l, l < s.cfg.nLink → busAddr (.warmReset g) ∉ (warmResetSet s.cfg l).map busAddr) →
    ∃ t, exec (.wr32 a w) s = .next t ∧ t.field (.warmReset g) = v &&& lowMask s.cfg.pgSize
      ∧ (∀ p r, p < s.cfg.pgSize → g * s.cfg.pgSize + p < s.cfg.nLink → v.getLsbD p = true →
          (s.field (.warmReset g)).getLsbD p = false → r ∈ warmResetSet s.cfg (g * s.cfg.pgSize + p) →
          t.cellAt (busAddr r) = resetValue s.cfg (busAddr r))
      ∧ (∀ b : Nat, b ≠ busAddr (.warmReset g) →
          (∀ p, p < s.cfg.pgSize → g * s.cfg.pgSize + p < s.cfg.nLink → v.getLsbD p = true →
            (s.field (.warmReset g)).getLsbD p = false →
            b ∉ (warmResetSet s.cfg (g * s.cfg.pgSize + p)).map busAddr) →
          t.cellAt b = s.cellAt b)
      ∧ SameHardwareButCells s t ∧ t.fault = s.fault ∧ t.seq = s.seq

/-- R300: a write that takes DEBUG_CLEAR bit 0 from 0 to 1 makes ERR_STATUS and ERR_FIRST of the link's existing
port-family nodes 0; any other write of it only stores. In H there
is the Write of DEBUG_CLEAR alone. -/
def Obligations.DebugClearWrite : Prop :=
  ∀ (s : State) (a w v : Word) (l : Nat), configWf s.cfg = true → mappedReg s.cfg a = some (.debugClear l) →
    v = fromBus s.cfg (.debugClear l) w →
    ∃ t, exec (.wr32 a w) s = .next t ∧ t.field (.debugClear l) = v &&& 1#32
      ∧ (v.getLsbD 0 = true → (s.field (.debugClear l)).getLsbD 0 = false →
          ∀ k ∈ portKinds, nodeExists s.cfg k l = true →
            t.field (.node k l .errStatus) = 0#32 ∧ t.field (.node k l .errFirst) = 0#32)
      ∧ (¬(v.getLsbD 0 = true ∧ (s.field (.debugClear l)).getLsbD 0 = false) → SameCellsBut [.debugClear l] s t)
      ∧ SameCellsBut (.debugClear l :: portKinds.flatMap (fun k => [.node k l .errStatus, .node k l .errFirst])) s t
      ∧ SameHardwareButCells s t ∧ t.fault = s.fault ∧ t.seq = s.seq
      ∧ t.io = { s.io with history := s.io.history ++ [.write (.debugClear l) v] }

/-- R47, R51, R304: a write of an indexed DATA register stores at the index its ADDR register holds and leaves the index
(no auto-increment); a read of it then returns the value; every other entry of every RAM, and every register, is as
before. -/
def Obligations.IndexedWriteThenRead : Prop :=
  ∀ (s : State) (a w v : Word) (m : Ram) (l : Nat) (ad da : Reg), configWf s.cfg = true → mappedReg s.cfg a = some da →
    v = fromBus s.cfg da w →
    ((m, ad, da) = (.crumb, .crumbAddr l, .crumbData l) ∨ (m, ad, da) = (.cam, .camAddr l, .camData l)
      ∨ (m, ad, da) = (.ganged, .tblAddr l, .tblData l)) →
    (s.field ad).toNat < ramDepth s.cfg m →
    ∃ t, exec (.wr32 a w) s = .next t ∧ t.ramEntry m l (s.field ad).toNat = v ∧ (∀ b, t.cellAt b = s.cellAt b)
      ∧ (∀ m' l' i, i < 0x100000000 → (m', l', i) ≠ (m, l, (s.field ad).toNat) → t.ramEntry m' l' i = s.ramEntry m' l' i)
      ∧ t.fault = s.fault ∧ t.seq = s.seq
      ∧ exec (.rd32 a) t = .next { t with io := { t.io with readData := t.io.readData ++ [toBus t.cfg da v] } }

/-! ## The hardware side (spec/40_register_access.md section 2) -/

/-- R160, R161, R162: the arrival of fault conditions at a node sets them in the status, puts them into the first latch
if the status was 0, sets the contain latches of the node's links if one is contain-enabled, and changes no register but
these and the diagnostic ones. -/
def Obligations.ArrivalAtANode : Prop :=
  ∀ (s : State) (k : Kind) (i : Nat) (e : Word) (d : Draw) (later : List Input), configWf s.cfg = true →
    s.io.inbox = .move (.arrive k i e d) :: later → nodeExists s.cfg k i = true → k ≠ .mctrl → e ≠ 0#32 →
    ∃ t, step s = .next t
      ∧ t.field (.node k i .errStatus) = s.field (.node k i .errStatus) ||| e
      ∧ t.field (.node k i .errFirst)
          = (if s.field (.node k i .errStatus) = 0#32 then s.field (.node k i .errFirst) ||| e
             else s.field (.node k i .errFirst))
      ∧ (∀ l, ownsLatch s.cfg k i l → (t.field (.containLatch l)).getLsbD 0
          = ((s.field (.containLatch l)).getLsbD 0 || decide (e &&& s.field (.node k i .containEn) ≠ 0#32)))
      ∧ SameCellsBut (arrivalWrites s.cfg k i) s t ∧ SameHardwareButCells s t ∧ t.fault = s.fault ∧ t.seq = s.seq
      ∧ t.io = { s.io with inbox := later }

/-- R160 for a microcontroller: the link-interrupt bits are set, nothing else changes. -/
def Obligations.ArrivalAtAMicrocontroller : Prop :=
  ∀ (s : State) (m : Nat) (e : Word) (d : Draw) (later : List Input), configWf s.cfg = true →
    s.io.inbox = .move (.arrive .mctrl m e d) :: later → nodeExists s.cfg .mctrl m = true → e ≠ 0#32 →
    ∃ t, step s = .next t
      ∧ t.field (.intrStatus m) = s.field (.intrStatus m) ||| (e &&& lowMask s.cfg.lmSize)
      ∧ SameCellsBut [.intrStatus m] s t ∧ SameHardwareButCells s t ∧ t.fault = s.fault ∧ t.seq = s.seq
      ∧ t.io = { s.io with inbox := later }

/-- R166: a tick counts modulo 2^ECC_CW and raises the unit's limit bit where the count reaches a limit that is not 0.
That a unit without an EccLimit row in TABLE raises nothing (the last clause on ERR_STATUS) is the model's choice (log
36). -/
def Obligations.EccTickCounts : Prop :=
  ∀ (s : State) (k : Kind) (i u : Nat) (addr : Word) (d : Draw) (later : List Input), configWf s.cfg = true →
    s.io.inbox = .move (.eccTick k i u addr d) :: later → nodeExists s.cfg k i = true →
    hasReg s.cfg k (.eccCount u) = true →
    ∃ t, step s = .next t
      ∧ (t.field (.node k i (.eccCount u))).toNat = ((s.field (.node k i (.eccCount u))).toNat + 1) % 2 ^ s.cfg.eccCw
      ∧ (∀ b e, table s.cfg k b = some e → e.ecc = .eccLimit u →
          t.field (.node k i .errStatus) = s.field (.node k i .errStatus)
            ||| (if s.field (.node k i (.eccLimit u)) ≠ 0#32
                    ∧ s.field (.node k i (.eccLimit u)) ≤ t.field (.node k i (.eccCount u)) then bit b else 0#32))
      ∧ ((∀ b e, table s.cfg k b = some e → e.ecc ≠ .eccLimit u) →
          t.field (.node k i .errStatus) = s.field (.node k i .errStatus))
      ∧ SameCellsBut (.node k i (.eccCount u) :: arrivalWrites s.cfg k i) s t ∧ SameHardwareButCells s t
      ∧ t.fault = s.fault ∧ t.seq = s.seq

/-- R169: no step of the hardware sources clears a write-one-to-clear bit, changes an RW register other than an ECC
counter, or touches the fault state, the mutex or `armed`. -/
def Obligations.SourcesNeverClear : Prop :=
  ∀ (s t : State) (m : Move) (later : List Input), configWf s.cfg = true → s.io.inbox = .move m :: later →
    isSourceMove s.cfg m → step s = .next t →
    (∀ r, mapped s.cfg r = true → access r = .w1c → s.field r &&& ~~~t.field r = 0#32)
      ∧ (∀ r, mapped s.cfg r = true → access r = .rw → (∀ k i u, r ≠ .node k i (.eccCount u)) → t.field r = s.field r)
      ∧ t.fault = s.fault ∧ t.seq = s.seq ∧ t.hw.armed = s.hw.armed

/-- R167: a responder sets its status bit once it has been asked (log 16), and the RAM initialiser leaves the tag pool clean. -/
def Obligations.RespondersAnswerRequests : Prop :=
  ∀ (s : State) (l : Nat) (later : List Input), configWf s.cfg = true → l < s.cfg.nLink →
    (s.io.inbox = .move (.rstseqAck l) :: later → s.rstseqPending l = true →
      ∃ t, step s = .next t ∧ t.field (.rstseqStatus l) = 1#32 ∧ t.rstseqPending l = false
        ∧ SameCellsBut [.rstseqStatus l] s t)
    ∧ (s.io.inbox = .move (.ramInitDone l) :: later → s.ramInitPending l = true →
      ∃ t, step s = .next t ∧ t.field (.ramInitStatus l) = 1#32 ∧ t.tagpoolClean l = true ∧ t.ramInitPending l = false
        ∧ SameCellsBut [.ramInitStatus l] s t)
    ∧ (s.io.inbox = .move .ringAck :: later → s.hw.ringPending = true →
      ∃ t, step s = .next t ∧ t.field .ringStatus = 1#32 ∧ t.hw.ringPending = false
        ∧ SameCellsBut [.ringStatus] s t)

/-- R163, R164: bit j of word w of a summary register is 1 exactly if engine 32w + j is a microcontroller, in the fatal or
the non-fatal tree, with an enabled link-interrupt pending, or some existing node of the engine that is summarised in the
tree has its gate open and an enabled bit pending. -/
def Obligations.SummaryBitsFollowTheNodes : Prop :=
  ∀ (s : State) (t : Tree) (w j : Nat), j < 32 →
    ((readReg s (.summary t w)).getLsbD j = true ↔
      ∃ f e, engineOf s.cfg (32 * w + j) = some (f, e) ∧
        ((f = .mctrlf ∧ t ≠ .correctable ∧ nodeExists s.cfg .mctrl e = true
            ∧ s.field (.intrStatus e) &&& s.field (.intrStallEn e) ≠ 0#32)
          ∨ ∃ k i, ofEngine s.cfg f e k i ∧ nodeExists s.cfg k i = true ∧ t ∈ treesOfKind s.cfg k
            ∧ (k ∈ portKinds → (s.field (.portIntrCtrl i)).getLsbD t.code = true)
            ∧ (k ∈ lmKinds → (s.field (.lmIntrCtrl i)).getLsbD t.code = true)
            ∧ s.field (.node k i .errStatus) &&& s.field (.node k i (.reportEn t)) ≠ 0#32))

/-- R165: TOP_PENDING is bit 0 for the summaries, bit 1 for PCI, bit 2 for the priv ring, and nothing else; the host line
is `armed` with a bit of TOP_PENDING & TOP_ENABLE. -/
def Obligations.TopPendingBits : Prop :=
  ∀ (s : State) (b : Nat),
    (s.hostLine = true ↔ s.hw.armed = true ∧ readReg s .topPending &&& readReg s .topEnable ≠ 0#32)
    ∧ ((readReg s .topPending).getLsbD b = true ↔
      (b = 0 ∧ ∃ t w, w < sumw s.cfg ∧ readReg s (.summary t w) ≠ 0#32)
        ∨ (b = 1 ∧ nodeExists s.cfg .pci 0 = true
            ∧ s.field (.node .pci 0 .errStatus) &&& s.field (.node .pci 0 (.reportEn .fatal)) ≠ 0#32)
        ∨ (b = 2 ∧ nodeExists s.cfg .priv 0 = true
            ∧ s.field (.node .priv 0 .errStatus) &&& s.field (.node .priv 0 (.reportEn .fatal)) ≠ 0#32))

/-! ## The tree walk (spec/41_tree_walk.md) -/

/-- R182: SERVICE with nothing pending writes HOST_EOI and nothing else, answers NotFound and re-arms the interrupt. -/
def Obligations.ServiceWithNothingPending : Prop :=
  ∀ s : State, Quiet s → readReg s .topPending &&& s.cfg.topEnableCfg = 0#32 →
    exec .service s = .next { s with
      hw := { s.hw with armed := true }
      seq := { s.seq with cursor := none }
      io := { s.io with
        history := s.io.history ++ [.write .hostEoi 1#32, .result (.service .notFound)]
        responses := s.io.responses ++ [[1#32]] } }

/-- R191, R180, R360: SERVICE completes; HOST_EOI is written exactly once and last, whatever the Result; the interrupt is
armed, the mutex free, and the Result is the aggregate of the Results of the HANDLEs of the pass (R190). No RAM, phase
or registration changes, and no register but those a HANDLE writes (`isWalkerWritten`). R181, R183 to R185: the HANDLEs it
invokes are those of `serviceCalls`: with bit 0 of TOP_PENDING & TOP_ENABLE_CFG set, the children of every engine whose bit
is set in SUM_t & EXIST(t), the trees and words in order, each word read when its turn comes; with bit 1, PCI; with bit 2,
PRIV (read once, at the start); and what they do together is what the same WALKFAM and HANDLE commands do one after the
other. A SERVICE that was taken up while RCV was between two links ends its pass and owes the end of interrupt: that
it is held in `wlkTail` is the model's choice (log 20). It comes once, arming the interrupt, with the Result and the response,
as a step of WLK, in the idle block, or before the walker's next command. -/
def Obligations.ServiceEndsWithOneEoi : Prop :=
  (∀ s : State, Quiet s →
    ∃ u es, exec .service s = .next u
      ∧ u.io.history = s.io.history ++ es
          ++ [.write .hostEoi 1#32, .result (.service (agg ((handleResults es).map (fun x => x.2.2.2))))]
      ∧ (∀ e ∈ es, isEoiWrite e = false)
      ∧ u.io.responses = s.io.responses ++ [[resultWord (agg ((handleResults es).map (fun x => x.2.2.2)))]]
      ∧ u.hw.armed = true ∧ u.seq.lock = .free ∧ u.seq.wlkTail = none ∧ u.seq.cursor = none
      ∧ u.cfg = s.cfg ∧ u.io.inbox = s.io.inbox ∧ u.io.readData = s.io.readData
      ∧ u.hw = { s.hw with regs := u.hw.regs, ringPending := u.hw.ringPending, armed := true }
      ∧ u.fault.phase = s.fault.phase ∧ u.fault.registered = s.fault.registered
      ∧ (configWf s.cfg = true → ∀ a : Nat,
          (∀ r, mapped s.cfg r = true → isWalkerWritten r = true → busAddr r ≠ a) → u.cellAt a = s.cellAt a)
      ∧ (configWf s.cfg = true →
          ((readReg s .topPending &&& s.cfg.topEnableCfg).getLsbD 1 = true → handleAdmitted s.cfg .pci 0 .fatal = true) →
          ((readReg s .topPending &&& s.cfg.topEnableCfg).getLsbD 2 = true → handleAdmitted s.cfg .priv 0 .fatal = true) →
          (handleResults es).map (fun x => (x.1, x.2.1, x.2.2.1)) = s.serviceCalls.1
            ∧ s.serviceCalls.2.io.history = s.io.history ++ es
            ∧ u.hw = { s.serviceCalls.2.hw with armed := true } ∧ u.fault = s.serviceCalls.2.fault))
  ∧ (∀ (s : State) (r : Result3), s.seq.wlkTail = some r →
    (∀ later, s.io.inbox = .move .walkerTail :: later →
        step s = .next { s.tailDone r with io := { (s.tailDone r).io with inbox := later } })
      ∧ (s.io.inbox = [] → step s = .next (s.tailDone r))
      ∧ (∀ i, s.io.sched = [] → s.seq.lock = .free → isWalkerCommand i = true → admitted s.cfg i = true →
          exec i s = exec i (s.tailDone r)))

/-- R186 to R189, R190: WALKFAM of a family (walkXbar, walkPortgrp, walkLinkmgmt, walkMctrlf) completes. It invokes the
HANDLE of every child in order, each with the Result that follows from the state it starts in; it answers their
aggregate; afterwards no child has an enabled bit pending in the tree; it writes no end of interrupt, and no register but
those its children's HANDLEs write. -/
def Obligations.WalkServicesEveryChild : Prop :=
  ∀ (s : State) (f : Family) (inst : BitVec 12) (t : Tree), configWf s.cfg = true → Quiet s →
    walkAdmitted s.cfg f inst.toNat t = true →
    ∃ u es, exec (walkInstr f inst t) s = .next u
      ∧ (∀ n ∈ children s.cfg f inst.toNat t, u.maskOf n.1 n.2 t = 0#32)
      ∧ handleResults es = (children s.cfg f inst.toNat t).map (fun n => (n.1, n.2, t, s.childResult t n))
      ∧ u.io.history = s.io.history ++ es
          ++ [.result (.walkfam f inst.toNat t (agg ((children s.cfg f inst.toNat t).map (s.childResult t))))]
      ∧ u.io.responses
          = s.io.responses ++ [[resultWord (agg ((children s.cfg f inst.toNat t).map (s.childResult t)))]]
      ∧ (∀ e ∈ es, isEoiWrite e = false)
      ∧ SameCellsBut ((children s.cfg f inst.toNat t).flatMap (fun n => handleWrites s.cfg n.1 n.2 t)) s u
      ∧ SameHardwareButCells s u ∧ u.fault.phase = s.fault.phase ∧ u.fault.registered = s.fault.registered
      ∧ u.seq.lock = .free ∧ u.cfg = s.cfg ∧ u.io.inbox = s.io.inbox ∧ u.io.readData = s.io.readData

/-- R190: MoreProcessingRequired over Success over NotFound; and aggregating per level equals aggregating all leaves. -/
def Obligations.AggregationIsFlat : Prop :=
  (∀ rs : List Result3,
    (.moreProcessingRequired ∈ rs → agg rs = .moreProcessingRequired)
      ∧ (.moreProcessingRequired ∉ rs → .success ∈ rs → agg rs = .success)
      ∧ (.moreProcessingRequired ∉ rs → .success ∉ rs → agg rs = .notFound))
    ∧ (∀ rss : List (List Result3), agg (rss.map agg) = agg rss.flatten)
    ∧ (∀ rs rs' : List Result3, rs.Perm rs' → agg rs = agg rs')

/-- R62, R192, R313: while one sequencer holds the mutex, a command of the other that takes it waits. Scheduled moments in
which that other is to take up the command at the head of the inbox, any number of them, leave it there and change nothing,
and so does its `lock()`; with the mutex free, WLK takes its command up there and runs it. That a RSTDRAIN waiting at its
`lock()` stays in the inbox and has set nothing is the model's choice (log 38): R281 sets rcv_link before `lock()`. The
moments are those of the schedule (log 7). -/
def Obligations.HeldMutexMakesCommandsWait : Prop :=
  ∀ (s : State) (ws : List Word) (i : Instr) (later : List Input) (n : Nat) (rest : List (List Move)),
    s.io.inbox = .frame (.command ws) :: later → decodeWords ws = .ok i → admitted s.cfg i = true →
    s.io.sched = List.replicate n .runNext :: rest →
    (s.seq.lock ≠ .free → (isWalkerCommand i = true ∨ ∃ forced masks, i = .rstdrain forced masks ∧ linkSet masks ≠ []) →
      tick s = .ok () { s with io := { s.io with sched := rest } }
        ∧ window s = .ok () { s with io := { s.io with sched := rest } }
        ∧ ∀ k, lock k s = .error .blocked s)
    ∧ (s.seq.lock = .free → isWalkerCommand i = true → n = 1 →
      ∃ prog, walkerProgram i = some prog
        ∧ window s = prog { s with io := { s.io with sched := rest, inbox := remaining ws ++ later } })

/-! ## The leaf handlers (spec/42_leaf_handler.md) -/

/-- R212: a HANDLE (of any of the fourteen kinds, handleRoute to handlePriv) that finds no enabled bit pending answers
NotFound, writes nothing and puts nothing but its Result into H.
Where a port's warm-reset bit is held, what its registers read is the model's choice (log 9). -/
def Obligations.HandleFindsNothing : Prop :=
  ∀ (s : State) (k : Kind) (i : BitVec 12) (t : Tree), Quiet s → handleAdmitted s.cfg k i.toNat t = true →
    s.maskOf k i.toNat t = 0#32 →
    exec (handleInstr k i t) s = .next { s with
      seq := { s.seq with cursor := none, leaf := {}, cap := [], captured := 0 }
      io := { s.io with
        history := s.io.history ++ [.result (.handle k i.toNat t .notFound)]
        responses := s.io.responses ++ [[1#32]] } }

/-- R211, R213, R222 to R227, R243, R245: a HANDLE (handleRoute, handleIngress, handleEgress, handleTstate,
handleSrctrack, handleTile, handleTileout, handleDl, handleTl, handleLmlink, handleLmcommon, handleMctrl, handlePci,
handlePriv) that finds an enabled bit pending completes and leaves what `Serviced` says: the mask cleared from status
and first latch, the enable reduced by the mask if the link was faulted, the counters of its ECC units zeroed, every
other register as before, the links and the device marked that a fatal bit names, each persisted in its scratch bit and
announced once if it was not marked before and else not at all (`MarkingsRecorded`); its Result is Success exactly if every
bit was recognised and PRIV's handshake, if any, was acknowledged.
Where a port's warm-reset bit is held, what its registers read is the model's choice (log 9). -/
def Obligations.HandleServicesTheMask : Prop :=
  ∀ (s : State) (k : Kind) (i : BitVec 12) (t : Tree), configWf s.cfg = true → Quiet s →
    handleAdmitted s.cfg k i.toNat t = true → s.maskOf k i.toNat t ≠ 0#32 →
    ∃ u, exec (handleInstr k i t) s = .next u ∧ Serviced s k i.toNat t u ∧ MarkingsRecorded s u
      ∧ u.io.responses = s.io.responses ++ [[resultWord (s.handleResult k i.toNat t)]]
      ∧ u.seq = { s.seq with cursor := none, leaf := {}, cap := [], captured := 0 }
      ∧ u.io.inbox = s.io.inbox ∧ u.io.readData = s.io.readData

/-- R216, R217, R220 to R224: the reports and persistent-log calls of a HANDLE are those of the set bits of the mask, in
ORDER(k): one report a target with its effective severity and diagnostic, one log call for an ECC bit, none for a limit
bit whose double-bit error is pending, none for a bit without an entry. Which link a log call carries where the node has no
one owner link (LMCOMMON: none) is the model's reading of R223 (`logLink`, log 23).
Where a port's warm-reset bit is held, what its registers read is the model's choice (log 9). -/
def Obligations.HandleReportsTheBits : Prop :=
  ∀ (s : State) (k : Kind) (i : BitVec 12) (t : Tree), configWf s.cfg = true → Quiet s →
    handleAdmitted s.cfg k i.toNat t = true → s.maskOf k i.toNat t ≠ 0#32 →
    ∃ u es, exec (handleInstr k i t) s = .next u ∧ u.io.history = s.io.history ++ es
      ∧ es.filter isClassified = s.expectedEvents k i.toNat t

/-- R94, R95, R96, R243: the writes of a HANDLE to registers of its node come in this order and are no others: the
report-enable if the link was faulted, ERR_FIRST, ERR_STATUS, the counters of the serviced ECC units; of HANDLE.MCTRL to its
microcontroller: INTR_STALL_EN if the link was faulted, then INTR_STATUS.
Where a port's warm-reset bit is held, what its registers read is the model's choice (log 9). -/
def Obligations.HandleWriteOrder : Prop :=
  ∀ (s : State) (k : Kind) (i : BitVec 12) (t : Tree), configWf s.cfg = true → Quiet s →
    handleAdmitted s.cfg k i.toNat t = true → s.maskOf k i.toNat t ≠ 0#32 →
    ∃ u es, exec (handleInstr k i t) s = .next u ∧ u.io.history = s.io.history ++ es
      ∧ (k = .mctrl → es.filter isMctrlWrite
        = (if suppressFlag s .mctrl i.toNat then
             [.write (.intrStallEn (mc s.cfg i.toNat))
               (s.field (.intrStallEn (mc s.cfg i.toNat)) &&& ~~~s.maskOf .mctrl i.toNat t)] else [])
          ++ [.write (.intrStatus (mc s.cfg i.toNat)) (s.maskOf .mctrl i.toNat t)])
      ∧ (k ≠ .mctrl → es.filter isNodeWrite
        = (if suppressFlag s k i.toNat then
             [.write (.node k i.toNat (.reportEn t))
               (s.field (.node k i.toNat (.reportEn t)) &&& ~~~s.maskOf k i.toNat t)] else [])
          ++ [.write (.node k i.toNat .errFirst) (s.field (.node k i.toNat .errFirst) &&& s.maskOf k i.toNat t),
              .write (.node k i.toNat .errStatus) (s.maskOf k i.toNat t)]
          ++ ((List.range 4).filter (touches s.cfg k (s.maskOf k i.toNat t))).map
              (fun u => .write (.node k i.toNat (.eccCount u)) 0#32))

/-- R228: every bit a HANDLE found is reported, or is a limit bit with its unit's double-bit error pending, or is named
in an Unhandled event, and then the Result is MoreProcessingRequired. R380, R381: a fault condition that arrives after the
HANDLE has read the status (access 0) survives: a bit of it outside the mask is pending afterwards whenever it came, and a
bit inside the mask either merged with the pending one the HANDLE serviced or, arriving after the status write, is pending
afterwards (where the HANDLE has fewer accesses than the schedule, the arrival is still to come). Where a port's warm-reset
bit is held, what its registers read is the model's choice (log 9). -/
def Obligations.NoBitIsDropped : Prop :=
  (∀ (s : State) (k : Kind) (i : BitVec 12) (t : Tree) (b : Nat), configWf s.cfg = true → Quiet s →
    handleAdmitted s.cfg k i.toNat t = true → (s.maskOf k i.toNat t).getLsbD b = true →
    ∃ u es, exec (handleInstr k i t) s = .next u ∧ u.io.history = s.io.history ++ es
      ∧ ((∃ ev, .report ev ∈ es ∧ ev.kind = k ∧ ev.bit = b ∧ ev.inst = i.toNat)
        ∨ (∃ e unit d, table s.cfg k b = some e ∧ e.ecc = .eccLimit unit
            ∧ bitWithTag s.cfg k (.eccDbe unit) = some d ∧ (s.pendingOf k i.toNat).getLsbD d = true)
        ∨ (∃ bits, .unhandled k i.toNat t bits ∈ es ∧ bits.getLsbD b = true
            ∧ u.io.responses = s.io.responses ++ [[2#32]])))
  ∧ (∀ (s : State) (k : Kind) (i : BitVec 12) (t : Tree) (n : Nat) (e : Word) (d : Draw), configWf s.cfg = true →
    s.seq.lock = .free → s.seq.wlkTail = none → handleAdmitted s.cfg k i.toNat t = true → 1 ≤ n →
    s.io.sched = onlyBefore n (.arrive k (statusNode s.cfg k i.toNat) e d) →
    ∃ u, exec (handleInstr k i t) s = .next u
      ∧ ((u.io.sched ≠ []
            ∧ u.field (statusReg s.cfg k i.toNat) = s.field (statusReg s.cfg k i.toNat) &&& ~~~s.maskOf k i.toNat t)
        ∨ (u.io.sched = [] ∧ ∃ late : Word,
            (late = e &&& definedMask s.cfg (statusReg s.cfg k i.toNat)
              ∨ late = e &&& definedMask s.cfg (statusReg s.cfg k i.toNat) &&& ~~~s.maskOf k i.toNat t)
            ∧ u.field (statusReg s.cfg k i.toNat)
                = s.field (statusReg s.cfg k i.toNat) &&& ~~~s.maskOf k i.toNat t ||| late)))

/-- R229: a second call of the handler, with no hardware activity between, finds nothing.
Where a port's warm-reset bit is held, what its registers read is the model's choice (log 9). -/
def Obligations.SecondHandleFindsNothing : Prop :=
  ∀ (s u : State) (k : Kind) (i : BitVec 12) (t : Tree), configWf s.cfg = true → Quiet s →
    handleAdmitted s.cfg k i.toNat t = true → exec (handleInstr k i t) s = .next u →
    ∃ v, exec (handleInstr k i t) u = .next v ∧ v.hw = u.hw ∧ v.fault = u.fault
      ∧ v.io = { u.io with
          history := u.io.history ++ [.result (.handle k i.toNat t .notFound)]
          responses := u.io.responses ++ [[1#32]] }

/-- R344, R243: the microcontroller's summary bit is the same in the fatal and the non-fatal tree and 0 in the
correctable one, and the link-interrupt that one tree's HANDLE has serviced is not found by the other tree's. -/
def Obligations.LinkInterruptServedOnceInBothTrees : Prop :=
  (∀ (s : State) (m w j : Nat), j < 32 → engineOf s.cfg (32 * w + j) = some (.mctrlf, m) →
    (readReg s (.summary .fatal w)).getLsbD j = (readReg s (.summary .nonfatal w)).getLsbD j
      ∧ (readReg s (.summary .correctable w)).getLsbD j = false)
  ∧ (∀ (s u : State) (l : BitVec 12) (t t' : Tree), configWf s.cfg = true → Quiet s →
    handleAdmitted s.cfg .mctrl l.toNat t = true → handleAdmitted s.cfg .mctrl l.toNat t' = true →
    exec (.handleMctrl l t) s = .next u →
    ∃ v, exec (.handleMctrl l t') u = .next v ∧ v.hw = u.hw ∧ v.fault = u.fault
      ∧ v.io.responses = u.io.responses ++ [[1#32]])

/-- R222, R253: a bit that is contained in the table and in the contain-enable register is reported Fatal, whatever its
nominal severity and the tree, and marks its link.
Where a port's warm-reset bit is held, what its registers read is the model's choice (log 9). -/
def Obligations.ContainedBitIsFatal : Prop :=
  ∀ (s : State) (k : Kind) (i : BitVec 12) (t : Tree) (b : Nat) (e : Entry), configWf s.cfg = true → Quiet s →
    handleAdmitted s.cfg k i.toNat t = true → (s.maskOf k i.toNat t).getLsbD b = true →
    reportable s.cfg k (s.pendingOf k i.toNat) b = some e → e.contain = true → hasFullSet k = true →
    (s.field (.node k i.toNat .containEn)).getLsbD b = true →
    ∃ u es, exec (handleInstr k i t) s = .next u ∧ u.io.history = s.io.history ++ es
      ∧ (∃ ev, .report ev ∈ es ∧ ev.kind = k ∧ ev.bit = b ∧ ev.inst = i.toNat ∧ ev.sev = .fatal)
      ∧ (∀ l, ownerLink k i.toNat = some l → u.fatalOccurred l = true)

/-- R223 (Scenario B): with its unit's double-bit-error bit set in the pending value, a limit bit is not reported and not
logged; it is cleared all the same, and its counter zeroed.
Where a port's warm-reset bit is held, what its registers read is the model's choice (log 9). -/
def Obligations.DoubleBitErrorSuppressesTheLimit : Prop :=
  ∀ (s : State) (k : Kind) (i : BitVec 12) (t : Tree) (b d unit : Nat) (e : Entry), configWf s.cfg = true → Quiet s →
    k ≠ .mctrl → handleAdmitted s.cfg k i.toNat t = true → (s.maskOf k i.toNat t).getLsbD b = true →
    table s.cfg k b = some e → e.ecc = .eccLimit unit → bitWithTag s.cfg k (.eccDbe unit) = some d →
    (s.pendingOf k i.toNat).getLsbD d = true →
    ∃ u es, exec (handleInstr k i t) s = .next u ∧ u.io.history = s.io.history ++ es
      ∧ (∀ ev, .report ev ∈ es → ev.bit ≠ b)
      ∧ (∀ x, .eccLog x ∈ es → x.unit = unit → x.uncorrectable = true)
      ∧ (u.field (.node k i.toNat .errStatus)).getLsbD b = false
      ∧ u.field (.node k i.toNat (.eccCount unit)) = 0#32

/-- R242, R224: a recognised bit of the common part of a link-management instance is reported once for every enabled link
of the instance, and a Fatal one marks each of them. -/
def Obligations.CommonFaultFansOut : Prop :=
  ∀ (s : State) (m : BitVec 12) (t : Tree) (b : Nat) (e : Entry), configWf s.cfg = true → Quiet s →
    handleAdmitted s.cfg .lmcommon m.toNat t = true → (s.maskOf .lmcommon m.toNat t).getLsbD b = true →
    reportable s.cfg .lmcommon (s.pendingOf .lmcommon m.toNat) b = some e →
    ∃ u es, exec (.handleLmcommon m t) s = .next u ∧ u.io.history = s.io.history ++ es
      ∧ (linksOfLm s.cfg m.toNat ≠ [] →
          reportLinks b es = (linksOfLm s.cfg m.toNat).map some)
      ∧ (e.sev = .fatal → ∀ l ∈ linksOfLm s.cfg m.toNat, u.fatalOccurred l = true)

/-- R245: HANDLE.PRIV, when it finds something, asks the ring master after its writes; without the acknowledgement the
Result is MoreProcessingRequired and the timeout is logged. The pending request (`ringPending`) is the model's field (log
16), and that a yes of the environment leaves RING_STATUS at 1 is its reading of R167 and R245 (log 10). -/
def Obligations.PrivRingHandshake : Prop :=
  ∀ (s : State) (t : Tree), configWf s.cfg = true → Quiet s → handleAdmitted s.cfg .priv 0 t = true →
    s.maskOf .priv 0 t ≠ 0#32 →
    ∃ u es, exec (.handlePriv 0#12 t) s = .next u ∧ u.io.history = s.io.history ++ es
      ∧ .write .ringCmd 1#32 ∈ es
      ∧ (.log .privAckTimeout ∈ es ↔ (s.ask .privAck).1 = false)
      ∧ ((s.ask .privAck).1 = true → u.field .ringStatus = 1#32 ∧ u.hw.ringPending = false)
      ∧ ((s.ask .privAck).1 = false → u.field .ringStatus = 0#32 ∧ u.hw.ringPending = true
          ∧ u.io.responses = s.io.responses ++ [[2#32]])

/-! ## The fault state (spec/43_fault_state.md) -/

/-- R251, R252: SETFATAL marks the link and the device. A link not yet faulted gets its flag, its bit of SCRATCH_PORT and
one PortDown notification; a device-wide fault not yet recorded gets the flag, SCRATCH_DEVICE and one DeviceDown
notification; what is already recorded gets nothing; nothing else changes. -/
def Obligations.SetfatalMarksOnce : Prop :=
  ∀ (s : State) (link : Option (BitVec 12)) (dw : Bool), configWf s.cfg = true → Quiet s →
    admitted s.cfg (.setfatal link dw) = true →
    ∃ u es, exec (.setfatal link dw) s = .next u ∧ u.io.history = s.io.history ++ es ++ [.result .setfatal]
      ∧ es.filter (fun e => !isSinkFailure e) = s.linkMarkEvents (link.map BitVec.toNat) ++ s.deviceMarkEvents dw
      ∧ (∀ l, u.fatalOccurred l = (s.fatalOccurred l || decide (link.map BitVec.toNat = some l)))
      ∧ u.fault.resetRequired = (s.fault.resetRequired || dw)
      ∧ (∀ l, link = some l → s.fatalOccurred l.toNat = false →
          u.field (.scratchPort (l.toNat / 32)) = s.field (.scratchPort (l.toNat / 32)) ||| bit (l.toNat % 32))
      ∧ (dw = true → s.fault.resetRequired = false → u.field .scratchDevice = 1#32)
      ∧ SameCellsBut (s.markCells (link.map BitVec.toNat) dw) s u
      ∧ SameHardwareButCells s u ∧ u.fault.phase = s.fault.phase ∧ u.fault.registered = s.fault.registered
      ∧ u.seq = { s.seq with cursor := none } ∧ u.io.responses = s.io.responses ++ [[0#32]]

/-- R256: QLINK answers the link's flag in bit 0 of the response and changes nothing; for a link index not below N_LINK
it is refused. -/
def Obligations.QlinkAnswersTheFlag : Prop :=
  ∀ (s : State) (l : BitVec 12), Quiet s →
    (l.toNat < s.cfg.nLink → exec (.qlink l) s = .next { s with
      seq := { s.seq with cursor := none }
      io := { s.io with
        history := s.io.history ++ [.result (.qlink l.toNat (s.fatalOccurred l.toNat))]
        responses := s.io.responses ++ [[if s.fatalOccurred l.toNat then 1#32 else 0#32]] } })
    ∧ (s.cfg.nLink ≤ l.toNat → exec (.qlink l) s = .next { s with
      io := { s.io with
        history := s.io.history ++ [.result .refused]
        responses := s.io.responses ++ [[0xF0000000#32]] } })

/-- R257: QDEV answers the device flag and changes nothing. -/
def Obligations.QdevAnswersTheFlag : Prop :=
  ∀ s : State, Quiet s →
    exec .qdev s = .next { s with
      seq := { s.seq with cursor := none }
      io := { s.io with
        history := s.io.history ++ [.result (.qdev s.fault.resetRequired)]
        responses := s.io.responses ++ [[if s.fault.resetRequired then 1#32 else 0#32]] } }

/-- R258: a HOST write to SCRATCH_PORT or SCRATCH_DEVICE changes no flag, so neither what QLINK nor what QDEV returns; a
soft reset then reloads the flags from what was written (R371). -/
def Obligations.FlagsReloadOnlyAtSoftReset : Prop :=
  (∀ (s : State) (a v : Word) (w : Nat), configWf s.cfg = true → mappedReg s.cfg a = some (.scratchPort w) →
    ∃ t, exec (.wr32 a v) s = .next t ∧ (∀ l, t.fatalOccurred l = s.fatalOccurred l)
      ∧ t.fault.resetRequired = s.fault.resetRequired
      ∧ ∀ l, l < s.cfg.nLink → l / 32 = w →
          t.softReset.fatalOccurred l = (fromBus s.cfg (.scratchPort w) v).getLsbD (l % 32))
  ∧ (∀ (s : State) (a v : Word), mappedReg s.cfg a = some .scratchDevice →
    ∃ t, exec (.wr32 a v) s = .next t ∧ (∀ l, t.fatalOccurred l = s.fatalOccurred l)
      ∧ t.fault.resetRequired = s.fault.resetRequired
      ∧ t.softReset.fault.resetRequired = (fromBus s.cfg .scratchDevice v).getLsbD 0)

/-- R262, R225: no walker command sets a bit of a report-enable or stall-enable register. -/
def Obligations.WalkerOnlyRemovesEnables : Prop :=
  ∀ (i : Instr) (s u : State), configWf s.cfg = true → Quiet s → isWalkerCommand i = true → exec i s = .next u →
    ∀ r, mapped s.cfg r = true → isReportEnable r = true → u.field r &&& ~~~s.field r = 0#32

/-- R260, R255, R251: no walker command clears a fault flag, and none changes a link's phase or registration; every link and
the device that it newly marks are persisted in their scratch bits and announced once, and no other is. -/
def Obligations.WalkerNeverClearsAFlag : Prop :=
  ∀ (i : Instr) (s u : State), configWf s.cfg = true → Quiet s → isWalkerCommand i = true → exec i s = .next u →
    (∀ l, s.fatalOccurred l = true → u.fatalOccurred l = true)
      ∧ (s.fault.resetRequired = true → u.fault.resetRequired = true)
      ∧ u.fault.phase = s.fault.phase ∧ u.fault.registered = s.fault.registered
      ∧ MarkingsRecorded s u

/-! ## The recovery (spec/44_recovery.md) -/

/-- R281, R309, R313: a RSTDRAIN of no link performs step 15 only, and takes no mutex. What a RSTDRAIN owes once its links are
behind it (the model's field, log 38) is two steps of RCV, whoever holds the mutex: step 15, then the Result. -/
def Obligations.RstdrainOfNoLink : Prop :=
  (∀ (s : State) (forced : Bool) (masks : List Word), s.io.sched = [] → s.seq.rcvTail = none →
    admitted s.cfg (.rstdrain forced masks) = true → linkSet masks = [] →
    ∃ u, exec (.rstdrain forced masks) s = .next u ∧ u.hw = s.hw ∧ u.fault = s.fault
      ∧ u.seq = { s.seq with rcvLink := none, rcvStep := none }
      ∧ u.io = { s.io with
          history := s.io.history ++ [.extCall .launchTraining none]
            ++ (if (s.ask .trainingOk).1 then [] else [.log .trainingFailed]) ++ [.result (.rstdrain false [])]
          responses := s.io.responses ++ [[0#32]]
          env := u.io.env })
  ∧ (∀ (s : State) (q : RcvTail) (later : List Input), s.io.inbox = .move .rcvStep :: later → s.seq.rcvTail = some q →
    (q.launched = false → ∃ t, step s = .next t ∧ t.hw = s.hw ∧ t.fault = s.fault
      ∧ t.seq = { s.seq with rcvTail := some { q with launched := true } }
      ∧ t.io = { s.io with
          history := s.io.history ++ [.extCall .launchTraining none]
            ++ (if (s.ask .trainingOk).1 then [] else [.log .trainingFailed])
          inbox := later
          env := t.io.env })
    ∧ (q.launched = true → ∃ t, step s = .next t ∧ t.hw = s.hw ∧ t.fault = s.fault
      ∧ t.seq = { s.seq with rcvTail := none, rcvStep := none }
      ∧ t.io = { s.io with
          history := s.io.history ++ [.result (.rstdrain (q.sts.any (fun x => x.2.1.isError)) q.sts)]
          inbox := later
          responses := s.io.responses ++ [rstdrainWords (q.sts.any (fun x => x.2.1.isError)) q.sts] }))

/-- R281, R310, R314, R119: RSTDRAIN completes whatever the environment answers, with one status a requested link, in
ascending order, and `failed` set exactly if one is a RecoveryError; the mutex is free afterwards. No link that is not
requested changes, no flag is set, and no register but those of the requested links' recoveries changes. R313:
what an earlier RSTDRAIN still owes (`rcvTail`, log 38) is done before this one begins, so that no Result is lost. -/
def Obligations.RstdrainAlwaysCompletes : Prop :=
  (∀ (s : State) (forced : Bool) (masks : List Word), Quiet s → s.seq.rcvTail = none →
    admitted s.cfg (.rstdrain forced masks) = true →
    ∃ (u : State) (sts : List (Nat × LinkStatus × Nat)), exec (.rstdrain forced masks) s = .next u
      ∧ sts.map (fun x => x.1) = linkSet masks
      ∧ (linkSet masks).Pairwise (· < ·)
      ∧ (∀ l, l ∈ linkSet masks ↔ (masks.getD (l / 32) 0#32).getLsbD (l % 32) = true)
      ∧ u.io.responses = s.io.responses ++ [rstdrainWords (sts.any (fun x => x.2.1.isError)) sts]
      ∧ (∃ es, u.io.history
          = s.io.history ++ es ++ [.result (.rstdrain (sts.any (fun x => x.2.1.isError)) sts)])
      ∧ u.seq.lock = .free ∧ u.seq.rcvLink = none ∧ u.seq.rcvStep = none ∧ u.seq.rcvTail = none ∧ u.cfg = s.cfg
      ∧ (∀ j, j ∉ linkSet masks → u.fatalOccurred j = s.fatalOccurred j ∧ u.phase j = s.phase j
          ∧ u.registered j = s.registered j)
      ∧ (∀ j, u.fatalOccurred j = true → s.fatalOccurred j = true) ∧ u.fault.resetRequired = s.fault.resetRequired
      ∧ (configWf s.cfg = true → u.hw.armed = s.hw.armed
          ∧ (∀ a : Nat, (∀ l ∈ linkSet masks, a ∉ (recoveryWrites s.cfg l).map busAddr) → u.cellAt a = s.cellAt a)
          ∧ (∀ j, j ∉ linkSet masks → u.tagpoolClean j = s.tagpoolClean j
              ∧ ∀ m i, i < 0x100000000 → u.ramEntry m j i = s.ramEntry m j i)))
  ∧ (∀ (s : State) (forced : Bool) (masks : List Word) (q : RcvTail), Quiet s → s.seq.rcvTail = some q →
    admitted s.cfg (.rstdrain forced masks) = true →
    ∃ t es, exec (.rstdrain forced masks) s = exec (.rstdrain forced masks) t ∧ t.hw = s.hw ∧ t.fault = s.fault
      ∧ t.seq = { s.seq with rcvTail := none, rcvStep := none }
      ∧ t.io = { s.io with
          history := s.io.history ++ es
            ++ [.result (.rstdrain (q.sts.any (fun x => x.2.1.isError)) q.sts)]
          responses := s.io.responses ++ [rstdrainWords (q.sts.any (fun x => x.2.1.isError)) q.sts]
          env := t.io.env }
      ∧ es = (if q.launched then []
          else .extCall .launchTraining none :: (if (s.ask .trainingOk).1 then [] else [.log .trainingFailed])))

/-- R315, R305 to R308: the recovery of one link whose environment answers favourably ends Ok: the flag and its persisted
copy cleared, phase IDLE, registered, report-enables and gates at their operating values, the contain latch clear, every
other snapshotted register at its value from before, the RAMs zeroed or re-seeded, other links as before (`Recovered`); the
other links' bits of SCRATCH_PORT and WARM_RESET, and every register but the link's own, are as before. R285, R286,
R292, R293, R308, R318, R384, R385: H gains exactly the events of the fifteen steps, in their order (`recoveryEvents`).
Where the link's warm-reset bit is held at 1 already, the values snapshotted are the model's choice (log 9);
so is the 0 re-seeded for an entry the cached ganged table does not have (log 3). -/
def Obligations.RstdrainRecoversALink : Prop :=
  ∀ (s : State) (forced : Bool) (masks : List Word) (l : Nat), configWf s.cfg = true → Quiet s → s.seq.rcvTail = none →
    admitted s.cfg (.rstdrain forced masks) = true → linkSet masks = [l] → forcedGate s forced l = true →
    validLink s l = true → Favours s l →
    ∃ u, exec (.rstdrain forced masks) s = .next u ∧ Recovered s l u
      ∧ u.io.responses = s.io.responses ++ [[0x00001000#32, BitVec.ofNat 32 l]]
      ∧ u.seq.lock = .free ∧ u.seq.snap = []
      ∧ (u.field (.warmReset (pg s.cfg l))).getLsbD (pl s.cfg l) = false
      ∧ (∀ r ∈ [Reg.scratchPort (l / 32), .warmReset (pg s.cfg l)], busAddr r ∉ (warmResetSet s.cfg l).map busAddr →
          ∀ b, b ≠ (if r = .scratchPort (l / 32) then l % 32 else pl s.cfg l) →
            (u.field r).getLsbD b = (s.field r).getLsbD b)
      ∧ (∀ a : Nat, a ∉ (recoveryWrites s.cfg l).map busAddr → u.cellAt a = s.cellAt a)
      ∧ ∃ g v, u.io.history = s.io.history ++ s.recoveryEvents l g v ++ [.extCall .launchTraining none]
            ++ (if (s.ask .trainingOk).1 then [] else [.log .trainingFailed]) ++ [.result (.rstdrain false [(l, .ok, 0)])]
          ∧ (busAddr (.warmReset (pg s.cfg l)) ∉ (warmResetSet s.cfg l).map busAddr →
              g = s.field (.warmReset (pg s.cfg l)) &&& ~~~bit (pl s.cfg l))
          ∧ (busAddr (.scratchPort (l / 32)) ∉ (warmResetSet s.cfg l).map busAddr →
              v = s.field (.scratchPort (l / 32)) &&& ~~~bit (l % 32))

/-- R316: in a batch of two, the second link's recovery succeeds whatever happens to the first (FORCED_GATE excluding
nothing for the second link, R282's default). -/
def Obligations.FaultIsolationInABatch : Prop :=
  ∀ (s : State) (forced : Bool) (masks : List Word) (l₁ l₂ : Nat), configWf s.cfg = true → Quiet s → s.seq.rcvTail = none →
    admitted s.cfg (.rstdrain forced masks) = true → linkSet masks = [l₁, l₂] →
    (∀ u : State, u.cfg = s.cfg → forcedGate u forced l₂ = true) → validLink s l₂ = true → Favours s l₂ →
    ∃ u st stp, exec (.rstdrain forced masks) s = .next u
      ∧ u.io.responses
          = s.io.responses ++ [rstdrainWords st.isError [(l₁, st, stp), (l₂, .ok, 0)]]
      ∧ u.fatalOccurred l₂ = false ∧ u.phase l₂ = .idle ∧ u.registered l₂ = true
      ∧ (∀ k ∈ linkKinds, ∀ t, u.field (.node k l₂ (.reportEn t)) = enStd s.cfg k t)

/-- R283, R282: a link that FORCED_GATE excludes, or that fails Validate, is skipped: no register, no flag and no phase
changes, the status is SkippedNotForced or SkippedInvalid, `failed` is not set, and what is logged of the link is the one
line of an invalid link. -/
def Obligations.RstdrainSkips : Prop :=
  ∀ (s : State) (forced : Bool) (masks : List Word) (l : Nat), configWf s.cfg = true → Quiet s → s.seq.rcvTail = none →
    admitted s.cfg (.rstdrain forced masks) = true → linkSet masks = [l] →
    (forcedGate s forced l = false →
      ∃ u es, exec (.rstdrain forced masks) s = .next u ∧ u.hw = s.hw ∧ u.fault = s.fault
        ∧ u.io.history = s.io.history ++ es ∧ (∀ j, .log (.invalidLink j) ∉ es)
        ∧ u.io.responses = s.io.responses ++ [[0x00001000#32, 0x00050000#32 ||| BitVec.ofNat 32 l]])
    ∧ (forcedGate s forced l = true → validLink s l = false →
      ∃ u es, exec (.rstdrain forced masks) s = .next u ∧ u.hw = s.hw ∧ u.fault = s.fault
        ∧ u.io.history = s.io.history ++ .log (.invalidLink l) :: es ∧ (∀ j, .log (.invalidLink j) ∉ es)
        ∧ u.io.responses = s.io.responses ++ [[0x00001000#32, 0x00040000#32 ||| BitVec.ofNat 32 l]])

/-- R297, R301, R303, R308, R311, R312: where the reset sequencer does not acknowledge (step 8), the contain latch does not
clear (step 10), the RAM initialiser does not end (step 11) or the registration fails (step 14), the link's recovery ends
there in Timeout, ContainLatchStuck, Timeout or ReRegistrationFailed, which is logged, and nothing is rolled back. After
step 8, 10 or 11: phase FAILED, unregistered, the flag as it was, the registers as `AbortedRegisters` says. After step 14:
phase DESTROYED, unregistered, the flag cleared, the registers re-armed. Other links' fault state is as before. -/
def Obligations.SequencerTimeoutLeavesTheLinkDown : Prop :=
  ∀ (s : State) (forced : Bool) (masks : List Word) (l stp : Nat), configWf s.cfg = true → Quiet s →
    s.seq.rcvTail = none → admitted s.cfg (.rstdrain forced masks) = true → linkSet masks = [l] →
    forcedGate s forced l = true → validLink s l = true → stopsAt s l stp →
    (∀ r ∈ [Reg.warmReset (pg s.cfg l), .portIntrCtrl l, .lmIntrCtrl l, .containLatch l],
      busAddr r ∉ (warmResetSet s.cfg l).map busAddr) →
    ∃ u es, exec (.rstdrain forced masks) s = .next u ∧ u.io.history = s.io.history ++ es
      ∧ .log (.recoveryError (failureAt stp) stp l) ∈ es
      ∧ u.io.responses = s.io.responses ++ [[0x00001001#32,
          (if stp = 8 then 0x00810000#32 else if stp = 10 then 0x00A20000#32 else if stp = 11 then 0x00B10000#32
            else 0x00E30000#32) ||| BitVec.ofNat 32 l]]
      ∧ (∀ j, u.phase j = if j = l then (if stp = 14 then .destroyed else .failed) else s.phase j)
      ∧ (∀ j, u.registered j = if j = l then false else s.registered j)
      ∧ (∀ j, u.fatalOccurred j = if stp = 14 ∧ j = l then false else s.fatalOccurred j)
      ∧ u.fault.resetRequired = s.fault.resetRequired
      ∧ (stp ≠ 14 → AbortedRegisters s l stp u) ∧ (stp = 14 → RearmedRegisters s l u)
      ∧ u.seq.snap = [] ∧ u.seq.lock = .free

/-! ## Entry and return (spec/60_exceptions.md) -/

/-- R345, R355: while the host line is asserted, delivery clears `armed`, saves nothing, and SERVICE is the next operation
(the model's reading of 'HOST issues SERVICE', log 21);
while it is not, there is no delivery. -/
def Obligations.DeliveryIssuesService : Prop :=
  ∀ (s : State) (later : List Input), s.io.inbox = .move .deliver :: later →
    (s.hw.armed = true ∧ readReg s .topPending &&& readReg s .topEnable ≠ 0#32 →
      ∃ t, step s = .next t
        ∧ t = { s with hw := { s.hw with armed := false }, io := { s.io with inbox := .frame (.command [0x01000000#32]) :: later } }
        ∧ (s.seq.lock = .free → step t = exec .service { t with io := { t.io with inbox := later } }))
    ∧ (¬(s.hw.armed = true ∧ readReg s .topPending &&& readReg s .topEnable ≠ 0#32) →
      step s = .next { s with io := { s.io with inbox := later } })

/-! ## Reset and boot (spec/70_reset_and_hazards.md) -/

/-- R370: a cold reset leaves every register at RESET_VALUE, every flag false, every phase IDLE, nothing registered, the
mutex free, the interrupt not armed, the transient state gone and H empty. The scratch and handshake registers are 0
(R72; under a RESET_VALUE other than 0 there, the model's reading, log 14). -/
def Obligations.ColdResetState : Prop :=
  ∀ (s : State) (d : RamDraw) (later : List Input), s.io.inbox = .move (.coldReset d) :: later →
    ∃ t, step s = .next t ∧ (∀ a, t.cellAt a = resetValue s.cfg a)
      ∧ t.cellAt (busAddr .ringStatus) = 0#32
      ∧ (∀ l, l < 4096 → t.cellAt (busAddr (.rstseqStatus l)) = 0#32 ∧ t.cellAt (busAddr (.ramInitStatus l)) = 0#32)
      ∧ t.cellAt (busAddr .scratchDevice) = 0#32 ∧ (∀ w, w < 128 → t.cellAt (busAddr (.scratchPort w)) = 0#32)
      ∧ (∀ l, t.fatalOccurred l = false ∧ t.phase l = .idle ∧ t.registered l = false)
      ∧ t.fault.resetRequired = false ∧ t.hw.armed = false ∧ t.seq = {} ∧ t.io.history = [] ∧ t.cfg = s.cfg

/-- R371: a soft reset changes no register and no RAM, reloads the flags from the scratch registers, and leaves phases
IDLE, nothing registered, the mutex free, the interrupt not armed. -/
def Obligations.SoftResetState : Prop :=
  ∀ (s : State) (later : List Input), s.io.inbox = .move .softReset :: later →
    ∃ t, step s = .next t ∧ t.hw = { s.hw with armed := false }
      ∧ (∀ l, l < s.cfg.nLink → t.fatalOccurred l = (s.field (.scratchPort (l / 32))).getLsbD (l % 32))
      ∧ t.fault.resetRequired = (s.field .scratchDevice).getLsbD 0
      ∧ (∀ l, t.phase l = .idle ∧ t.registered l = false) ∧ t.seq = {} ∧ t.io.history = s.io.history ∧ t.cfg = s.cfg

/-- R373, R73: boot (the inputs of log 1), presented to any machine at rest with a well-formed configuration, ends in the clean entry. -/
def Obligations.BootReachesCleanEntry : Prop :=
  ∀ s : State, configWf s.cfg = true → s.seq.lock = .free → s.io.inbox = bootInputs s.cfg →
    ∃ u, Host.Core.run Sys2Proof.core (bootInputs s.cfg).length s = .next u ∧ CleanEntry u

/-! ## The machine -/

/-- A step runs the operation that the frame at the head of the inbox decodes to, in the state without that frame: a
command whose mutex is free or not taken, or a bus transaction. -/
def Obligations.StepRunsTheDecodedOperation : Prop :=
  (∀ (s : State) (ws : List Word) (later : List Input) (i : Instr), s.io.inbox = .frame (.command ws) :: later →
    decodeWords ws = .ok i → (s.seq.lock = .free ∨ takesLock i = false ∨ admitted s.cfg i = false) →
    step s = exec i { s with io := { s.io with inbox := remaining ws ++ later } })
  ∧ (∀ (s : State) (strobe : Bool) (a v : Word) (later : List Input) (i : Instr),
    s.io.inbox = .frame (.bus strobe a v) :: later → decodeBus strobe a v = .ok i →
    step s = exec i { s with io := { s.io with inbox := later } })
  ∧ (∀ (s : State) (strobe : Bool) (a v : Word) (later : List Input),
    s.io.inbox = .frame (.bus strobe a v) :: later → aligned a = false → step s = .refused (.unalignedAccess a))

/-- The state after reset is canonical (the model's storage form, log 4) and at rest. -/
def Obligations.ResetHasTheInvariant : Prop := Inv State.reset

/-- Every step, under every schedule of the other agents and every answer of the environment, keeps the canonical form of
all stored state (the model's form, log 4), ends with nothing in flight, and keeps the configuration (R67, R100). -/
def Obligations.StepKeepsTheInvariant : Prop := ∀ s t : State, Inv s → step s = .next t → Inv t ∧ t.cfg = s.cfg

end
end

