-- ==== Sys2Proof/Laws/Memory.lean ====
section
/-! SUPPORT. Laws of the sparse storage: a read after a write, and that every operation keeps the canonical form. -/

namespace Sys2Proof.Machine

variable {α : Type}

@[simp] theorem Memory.get_nil (d : Nat → α) (q : Nat) : Memory.get d [] q = d q := rfl

theorem Memory.get_cons (d : Nat → α) (k : Nat) (v : α) (m : Memory α) (q : Nat) :
    Memory.get d ((k, v) :: m) q = if q = k then v else Memory.get d m q := rfl

/-- Erasing a key makes it read as unlisted and leaves every other key alone. -/
theorem Memory.get_erase (d : Nat → α) (m : Memory α) (k q : Nat) :
    Memory.get d (Memory.erase m k) q = if q = k then d k else Memory.get d m q := by
  induction m with
  | nil => by_cases h : q = k <;> simp [Memory.erase, h]
  | cons p m ih =>
    obtain ⟨k', v⟩ := p
    by_cases h : k = k' <;> by_cases h' : q = k' <;> by_cases h'' : q = k <;>
      simp_all [Memory.erase, Memory.get]

/-- The key is not listed. -/
def Memory.lacks (k : Nat) (m : Memory α) : Prop := ∀ p ∈ m, p.1 ≠ k

theorem Memory.lacks_erase (k : Nat) (m : Memory α) : Memory.lacks k (Memory.erase m k) := by
  induction m with
  | nil => intro p h; cases h
  | cons p m ih =>
    unfold Memory.erase
    split
    · exact ih
    · rename_i h
      intro q hq
      rcases List.mem_cons.mp hq with rfl | hq
      · exact fun e => h e.symm
      · exact ih q hq

/-- Inserting an unlisted key makes it read as the value and leaves every other key alone. -/
theorem Memory.get_insert (d : Nat → α) (m : Memory α) {k : Nat} (hl : Memory.lacks k m) (v : α) (q : Nat) :
    Memory.get d (Memory.insert k v m) q = if q = k then v else Memory.get d m q := by
  induction m with
  | nil => simp [Memory.insert, Memory.get]
  | cons p m ih =>
    obtain ⟨k', v'⟩ := p
    have hk : k' ≠ k := hl (k', v') (by simp)
    have ih := ih (fun q hq => hl q (by simp [hq]))
    unfold Memory.insert
    split
    · rfl
    · simp only [Memory.get, ih]
      by_cases h' : q = k'
      · subst h'; simp [hk]
      · simp [h']

variable [DecidableEq α]

/-- What a write does to every key (no premise: the canonical form is not needed). -/
theorem Memory.get_set (d : Nat → α) (m : Memory α) (k : Nat) (v : α) (q : Nat) :
    Memory.get d (Memory.set d m k v) q = if q = k then v else Memory.get d m q := by
  unfold Memory.set
  by_cases h : v = d k
  · rw [if_pos h, Memory.get_erase]; simp [h]
  · rw [if_neg h, Memory.get_insert d _ (Memory.lacks_erase k m), Memory.get_erase]; by_cases h' : q = k <;> simp [h']

@[simp] theorem Memory.get_set_same (d : Nat → α) (m : Memory α) (k : Nat) (v : α) :
    Memory.get d (Memory.set d m k v) k = v := by simp [Memory.get_set]

theorem Memory.get_set_other (d : Nat → α) (m : Memory α) {k q : Nat} (v : α) (h : q ≠ k) :
    Memory.get d (Memory.set d m k v) q = Memory.get d m q := by simp [Memory.get_set, h]

/-! ## The canonical form is kept -/

omit [DecidableEq α] in
theorem Memory.risingFrom_mono {j k : Nat} (h : j ≤ k) {m : Memory α} (hm : Memory.risingFrom k m = true) :
    Memory.risingFrom j m = true := by
  cases m with
  | nil => rfl
  | cons p m =>
    simp only [Memory.risingFrom, Bool.and_eq_true, decide_eq_true_eq] at hm ⊢
    exact ⟨by omega, hm.2⟩

omit [DecidableEq α] in
theorem Memory.risingFrom_erase {j : Nat} (k : Nat) {m : Memory α} (hm : Memory.risingFrom j m = true) :
    Memory.risingFrom j (Memory.erase m k) = true := by
  induction m generalizing j with
  | nil => rfl
  | cons p m ih =>
    simp only [Memory.risingFrom, Bool.and_eq_true, decide_eq_true_eq] at hm
    unfold Memory.erase
    split
    · exact ih (Memory.risingFrom_mono (by omega) hm.2)
    · simp only [Memory.risingFrom, Bool.and_eq_true, decide_eq_true_eq]
      exact ⟨hm.1, ih hm.2⟩

omit [DecidableEq α] in
theorem Memory.rising_erase (k : Nat) {m : Memory α} (hm : Memory.rising m = true) :
    Memory.rising (Memory.erase m k) = true := by
  induction m with
  | nil => rfl
  | cons p m ih =>
    unfold Memory.erase
    split
    · refine ih ?_
      cases m with
      | nil => rfl
      | cons q m =>
        simp only [Memory.rising, Memory.risingFrom, Bool.and_eq_true] at hm ⊢
        exact hm.2
    · exact Memory.risingFrom_erase k hm

omit [DecidableEq α] in
theorem Memory.risingFrom_insert {j k : Nat} (v : α) {m : Memory α} (hj : j < k) (hl : Memory.lacks k m)
    (hm : Memory.risingFrom j m = true) : Memory.risingFrom j (Memory.insert k v m) = true := by
  induction m generalizing j with
  | nil => simpa [Memory.insert, Memory.risingFrom] using hj
  | cons p m ih =>
    simp only [Memory.risingFrom, Bool.and_eq_true, decide_eq_true_eq] at hm
    have hk : p.1 ≠ k := hl p (by simp)
    unfold Memory.insert
    split
    · rename_i h
      simp only [Memory.risingFrom, Bool.and_eq_true, decide_eq_true_eq]
      exact ⟨hj, h, hm.2⟩
    · rename_i h
      simp only [Memory.risingFrom, Bool.and_eq_true, decide_eq_true_eq]
      exact ⟨hm.1, ih (by omega) (fun q hq => hl q (by simp [hq])) hm.2⟩

omit [DecidableEq α] in
theorem Memory.rising_insert (k : Nat) (v : α) {m : Memory α} (hl : Memory.lacks k m) (hm : Memory.rising m = true) :
    Memory.rising (Memory.insert k v m) = true := by
  cases m with
  | nil => rfl
  | cons p m =>
    have hk : p.1 ≠ k := hl p (by simp)
    unfold Memory.insert
    split
    · rename_i h
      simp only [Memory.rising, Memory.risingFrom, Bool.and_eq_true, decide_eq_true_eq]
      exact ⟨h, hm⟩
    · rename_i h
      exact Memory.risingFrom_insert v (by omega) (fun q hq => hl q (by simp [hq])) hm

theorem Memory.noDefault_erase (d : Nat → α) (k : Nat) {m : Memory α} (hm : Memory.noDefault d m = true) :
    Memory.noDefault d (Memory.erase m k) = true := by
  induction m with
  | nil => rfl
  | cons p m ih =>
    simp only [Memory.noDefault, Bool.and_eq_true] at hm
    unfold Memory.erase
    split
    · exact ih hm.2
    · simp only [Memory.noDefault, Bool.and_eq_true]
      exact ⟨hm.1, ih hm.2⟩

theorem Memory.noDefault_insert (d : Nat → α) {k : Nat} {v : α} (hv : v ≠ d k) {m : Memory α}
    (hm : Memory.noDefault d m = true) : Memory.noDefault d (Memory.insert k v m) = true := by
  induction m with
  | nil => simpa [Memory.insert, Memory.noDefault] using hv
  | cons p m ih =>
    unfold Memory.insert
    split
    · simp only [Memory.noDefault, Bool.and_eq_true, decide_eq_true_eq] at hm ⊢
      exact ⟨hv, hm⟩
    · simp only [Memory.noDefault, Bool.and_eq_true] at hm ⊢
      exact ⟨hm.1, ih hm.2⟩

/-- Erasing keeps the canonical form. -/
theorem Memory.wf_erase (d : Nat → α) (k : Nat) {m : Memory α} (hm : Memory.wf d m = true) :
    Memory.wf d (Memory.erase m k) = true := by
  simp only [Memory.wf, Bool.and_eq_true] at hm ⊢
  exact ⟨Memory.rising_erase k hm.1, Memory.noDefault_erase d k hm.2⟩

/-- Writing keeps the canonical form. -/
theorem Memory.wf_set (d : Nat → α) (k : Nat) (v : α) {m : Memory α} (hm : Memory.wf d m = true) :
    Memory.wf d (Memory.set d m k v) = true := by
  unfold Memory.set
  split
  · exact Memory.wf_erase d k hm
  · rename_i hv
    simp only [Memory.wf, Bool.and_eq_true] at hm ⊢
    exact ⟨Memory.rising_insert k v (Memory.lacks_erase k m) (Memory.rising_erase k hm.1),
      Memory.noDefault_insert d hv (Memory.noDefault_erase d k hm.2)⟩

/-- Building from a list gives the canonical form. -/
theorem Memory.wf_ofList (d : Nat → α) (l : List (Nat × α)) : Memory.wf d (Memory.ofList d l) = true := by
  induction l with
  | nil => rfl
  | cons p l ih => exact Memory.wf_set d p.1 p.2 ih

/-- The storage of a function's values at some keys reads as the function there, and as nothing listed elsewhere. -/
theorem Memory.get_ofList_map (d f : Nat → α) (keys : List Nat) (q : Nat) :
    Memory.get d (Memory.ofList d (keys.map (fun k => (k, f k)))) q = if q ∈ keys then f q else d q := by
  induction keys with
  | nil => rfl
  | cons k keys ih =>
    rw [List.map_cons, Memory.ofList, Memory.get_set, ih]
    by_cases h : q = k
    · subst h; simp
    · simp [h]

@[simp] theorem Memory.wf_nil (d : Nat → α) : Memory.wf d ([] : Memory α) = true := rfl

end Sys2Proof.Machine
end

