-- ==== Sys2Proof/Laws/State.lean ====
section
/-! SUPPORT. One lemma per field per update of the state, each true by unfolding, so that no later proof unfolds a
record update; then what the accessors read after an update. -/

namespace Sys2Proof.Machine

variable (s : State)

/-! ## emit -/

@[simp] theorem State.emit_cfg (e : Event) : (s.emit e).cfg = s.cfg := rfl
@[simp] theorem State.emit_hw (e : Event) : (s.emit e).hw = s.hw := rfl
@[simp] theorem State.emit_fault (e : Event) : (s.emit e).fault = s.fault := rfl
@[simp] theorem State.emit_seq (e : Event) : (s.emit e).seq = s.seq := rfl
@[simp] theorem State.emit_io_history (e : Event) : (s.emit e).io.history = s.io.history ++ [e] := rfl
@[simp] theorem State.emit_io_inbox (e : Event) : (s.emit e).io.inbox = s.io.inbox := rfl
@[simp] theorem State.emit_io_sched (e : Event) : (s.emit e).io.sched = s.io.sched := rfl
@[simp] theorem State.emit_io_env (e : Event) : (s.emit e).io.env = s.io.env := rfl
@[simp] theorem State.emit_io_responses (e : Event) : (s.emit e).io.responses = s.io.responses := rfl
@[simp] theorem State.emit_io_readData (e : Event) : (s.emit e).io.readData = s.io.readData := rfl
@[simp] theorem State.emit_read_load (e : Event) (r : Reg) : (s.emit e).load r = s.load r := rfl
@[simp] theorem State.emit_read_field (e : Event) (r : Reg) : (s.emit e).field r = s.field r := rfl
@[simp] theorem State.emit_read_cellAt (e : Event) (a : Nat) : (s.emit e).cellAt a = s.cellAt a := rfl
@[simp] theorem State.emit_read_fatalOccurred (e : Event) (j : Nat) : (s.emit e).fatalOccurred j = s.fatalOccurred j := rfl
@[simp] theorem State.emit_read_phase (e : Event) (j : Nat) : (s.emit e).phase j = s.phase j := rfl
@[simp] theorem State.emit_read_registered (e : Event) (j : Nat) : (s.emit e).registered j = s.registered j := rfl

/-! ## respond -/

@[simp] theorem State.respond_cfg (ws : List Word) : (s.respond ws).cfg = s.cfg := rfl
@[simp] theorem State.respond_hw (ws : List Word) : (s.respond ws).hw = s.hw := rfl
@[simp] theorem State.respond_fault (ws : List Word) : (s.respond ws).fault = s.fault := rfl
@[simp] theorem State.respond_seq (ws : List Word) : (s.respond ws).seq = s.seq := rfl
@[simp] theorem State.respond_io_history (ws : List Word) : (s.respond ws).io.history = s.io.history := rfl
@[simp] theorem State.respond_io_inbox (ws : List Word) : (s.respond ws).io.inbox = s.io.inbox := rfl
@[simp] theorem State.respond_io_sched (ws : List Word) : (s.respond ws).io.sched = s.io.sched := rfl
@[simp] theorem State.respond_io_env (ws : List Word) : (s.respond ws).io.env = s.io.env := rfl
@[simp] theorem State.respond_io_responses (ws : List Word) : (s.respond ws).io.responses = s.io.responses ++ [ws] := rfl
@[simp] theorem State.respond_io_readData (ws : List Word) : (s.respond ws).io.readData = s.io.readData := rfl
@[simp] theorem State.respond_read_load (ws : List Word) (r : Reg) : (s.respond ws).load r = s.load r := rfl
@[simp] theorem State.respond_read_field (ws : List Word) (r : Reg) : (s.respond ws).field r = s.field r := rfl
@[simp] theorem State.respond_read_cellAt (ws : List Word) (a : Nat) : (s.respond ws).cellAt a = s.cellAt a := rfl
@[simp] theorem State.respond_read_fatalOccurred (ws : List Word) (j : Nat) : (s.respond ws).fatalOccurred j = s.fatalOccurred j := rfl
@[simp] theorem State.respond_read_phase (ws : List Word) (j : Nat) : (s.respond ws).phase j = s.phase j := rfl
@[simp] theorem State.respond_read_registered (ws : List Word) (j : Nat) : (s.respond ws).registered j = s.registered j := rfl

/-! ## answerRead -/

@[simp] theorem State.answerRead_cfg (v : Word) : (s.answerRead v).cfg = s.cfg := rfl
@[simp] theorem State.answerRead_hw (v : Word) : (s.answerRead v).hw = s.hw := rfl
@[simp] theorem State.answerRead_fault (v : Word) : (s.answerRead v).fault = s.fault := rfl
@[simp] theorem State.answerRead_seq (v : Word) : (s.answerRead v).seq = s.seq := rfl
@[simp] theorem State.answerRead_io_history (v : Word) : (s.answerRead v).io.history = s.io.history := rfl
@[simp] theorem State.answerRead_io_inbox (v : Word) : (s.answerRead v).io.inbox = s.io.inbox := rfl
@[simp] theorem State.answerRead_io_sched (v : Word) : (s.answerRead v).io.sched = s.io.sched := rfl
@[simp] theorem State.answerRead_io_env (v : Word) : (s.answerRead v).io.env = s.io.env := rfl
@[simp] theorem State.answerRead_io_responses (v : Word) : (s.answerRead v).io.responses = s.io.responses := rfl
@[simp] theorem State.answerRead_io_readData (v : Word) : (s.answerRead v).io.readData = s.io.readData ++ [v] := rfl
@[simp] theorem State.answerRead_read_load (v : Word) (r : Reg) : (s.answerRead v).load r = s.load r := rfl
@[simp] theorem State.answerRead_read_field (v : Word) (r : Reg) : (s.answerRead v).field r = s.field r := rfl
@[simp] theorem State.answerRead_read_cellAt (v : Word) (a : Nat) : (s.answerRead v).cellAt a = s.cellAt a := rfl
@[simp] theorem State.answerRead_read_fatalOccurred (v : Word) (j : Nat) : (s.answerRead v).fatalOccurred j = s.fatalOccurred j := rfl
@[simp] theorem State.answerRead_read_phase (v : Word) (j : Nat) : (s.answerRead v).phase j = s.phase j := rfl
@[simp] theorem State.answerRead_read_registered (v : Word) (j : Nat) : (s.answerRead v).registered j = s.registered j := rfl

/-! ## setInbox -/

@[simp] theorem State.setInbox_cfg (q : List Input) : (s.setInbox q).cfg = s.cfg := rfl
@[simp] theorem State.setInbox_hw (q : List Input) : (s.setInbox q).hw = s.hw := rfl
@[simp] theorem State.setInbox_fault (q : List Input) : (s.setInbox q).fault = s.fault := rfl
@[simp] theorem State.setInbox_seq (q : List Input) : (s.setInbox q).seq = s.seq := rfl
@[simp] theorem State.setInbox_io_history (q : List Input) : (s.setInbox q).io.history = s.io.history := rfl
@[simp] theorem State.setInbox_io_inbox (q : List Input) : (s.setInbox q).io.inbox = q := rfl
@[simp] theorem State.setInbox_io_sched (q : List Input) : (s.setInbox q).io.sched = s.io.sched := rfl
@[simp] theorem State.setInbox_io_env (q : List Input) : (s.setInbox q).io.env = s.io.env := rfl
@[simp] theorem State.setInbox_io_responses (q : List Input) : (s.setInbox q).io.responses = s.io.responses := rfl
@[simp] theorem State.setInbox_io_readData (q : List Input) : (s.setInbox q).io.readData = s.io.readData := rfl
@[simp] theorem State.setInbox_read_load (q : List Input) (r : Reg) : (s.setInbox q).load r = s.load r := rfl
@[simp] theorem State.setInbox_read_field (q : List Input) (r : Reg) : (s.setInbox q).field r = s.field r := rfl
@[simp] theorem State.setInbox_read_cellAt (q : List Input) (a : Nat) : (s.setInbox q).cellAt a = s.cellAt a := rfl
@[simp] theorem State.setInbox_read_fatalOccurred (q : List Input) (j : Nat) : (s.setInbox q).fatalOccurred j = s.fatalOccurred j := rfl
@[simp] theorem State.setInbox_read_phase (q : List Input) (j : Nat) : (s.setInbox q).phase j = s.phase j := rfl
@[simp] theorem State.setInbox_read_registered (q : List Input) (j : Nat) : (s.setInbox q).registered j = s.registered j := rfl

/-! ## setSched -/

@[simp] theorem State.setSched_cfg (q : List (List Move)) : (s.setSched q).cfg = s.cfg := rfl
@[simp] theorem State.setSched_hw (q : List (List Move)) : (s.setSched q).hw = s.hw := rfl
@[simp] theorem State.setSched_fault (q : List (List Move)) : (s.setSched q).fault = s.fault := rfl
@[simp] theorem State.setSched_seq (q : List (List Move)) : (s.setSched q).seq = s.seq := rfl
@[simp] theorem State.setSched_io_history (q : List (List Move)) : (s.setSched q).io.history = s.io.history := rfl
@[simp] theorem State.setSched_io_inbox (q : List (List Move)) : (s.setSched q).io.inbox = s.io.inbox := rfl
@[simp] theorem State.setSched_io_sched (q : List (List Move)) : (s.setSched q).io.sched = q := rfl
@[simp] theorem State.setSched_io_env (q : List (List Move)) : (s.setSched q).io.env = s.io.env := rfl
@[simp] theorem State.setSched_io_responses (q : List (List Move)) : (s.setSched q).io.responses = s.io.responses := rfl
@[simp] theorem State.setSched_io_readData (q : List (List Move)) : (s.setSched q).io.readData = s.io.readData := rfl
@[simp] theorem State.setSched_read_load (q : List (List Move)) (r : Reg) : (s.setSched q).load r = s.load r := rfl
@[simp] theorem State.setSched_read_field (q : List (List Move)) (r : Reg) : (s.setSched q).field r = s.field r := rfl
@[simp] theorem State.setSched_read_cellAt (q : List (List Move)) (a : Nat) : (s.setSched q).cellAt a = s.cellAt a := rfl
@[simp] theorem State.setSched_read_fatalOccurred (q : List (List Move)) (j : Nat) : (s.setSched q).fatalOccurred j = s.fatalOccurred j := rfl
@[simp] theorem State.setSched_read_phase (q : List (List Move)) (j : Nat) : (s.setSched q).phase j = s.phase j := rfl
@[simp] theorem State.setSched_read_registered (q : List (List Move)) (j : Nat) : (s.setSched q).registered j = s.registered j := rfl

/-! ## setFatalOccurred -/

@[simp] theorem State.setFatalOccurred_cfg (l : Nat) (b : Bool) : (s.setFatalOccurred l b).cfg = s.cfg := rfl
@[simp] theorem State.setFatalOccurred_hw (l : Nat) (b : Bool) : (s.setFatalOccurred l b).hw = s.hw := rfl
@[simp] theorem State.setFatalOccurred_seq (l : Nat) (b : Bool) : (s.setFatalOccurred l b).seq = s.seq := rfl
@[simp] theorem State.setFatalOccurred_io (l : Nat) (b : Bool) : (s.setFatalOccurred l b).io = s.io := rfl
@[simp] theorem State.setFatalOccurred_fault_fatalOccurred (l : Nat) (b : Bool) : (s.setFatalOccurred l b).fault.fatalOccurred = s.fault.fatalOccurred.set (fun _ => false) l b := rfl
@[simp] theorem State.setFatalOccurred_fault_resetRequired (l : Nat) (b : Bool) : (s.setFatalOccurred l b).fault.resetRequired = s.fault.resetRequired := rfl
@[simp] theorem State.setFatalOccurred_fault_phase (l : Nat) (b : Bool) : (s.setFatalOccurred l b).fault.phase = s.fault.phase := rfl
@[simp] theorem State.setFatalOccurred_fault_registered (l : Nat) (b : Bool) : (s.setFatalOccurred l b).fault.registered = s.fault.registered := rfl
@[simp] theorem State.setFatalOccurred_read_load (l : Nat) (b : Bool) (r : Reg) : (s.setFatalOccurred l b).load r = s.load r := rfl
@[simp] theorem State.setFatalOccurred_read_field (l : Nat) (b : Bool) (r : Reg) : (s.setFatalOccurred l b).field r = s.field r := rfl
@[simp] theorem State.setFatalOccurred_read_cellAt (l : Nat) (b : Bool) (a : Nat) : (s.setFatalOccurred l b).cellAt a = s.cellAt a := rfl
@[simp] theorem State.setFatalOccurred_read_phase (l : Nat) (b : Bool) (j : Nat) : (s.setFatalOccurred l b).phase j = s.phase j := rfl
@[simp] theorem State.setFatalOccurred_read_registered (l : Nat) (b : Bool) (j : Nat) : (s.setFatalOccurred l b).registered j = s.registered j := rfl

/-! ## setResetRequired -/

@[simp] theorem State.setResetRequired_cfg (b : Bool) : (s.setResetRequired b).cfg = s.cfg := rfl
@[simp] theorem State.setResetRequired_hw (b : Bool) : (s.setResetRequired b).hw = s.hw := rfl
@[simp] theorem State.setResetRequired_seq (b : Bool) : (s.setResetRequired b).seq = s.seq := rfl
@[simp] theorem State.setResetRequired_io (b : Bool) : (s.setResetRequired b).io = s.io := rfl
@[simp] theorem State.setResetRequired_fault_fatalOccurred (b : Bool) : (s.setResetRequired b).fault.fatalOccurred = s.fault.fatalOccurred := rfl
@[simp] theorem State.setResetRequired_fault_resetRequired (b : Bool) : (s.setResetRequired b).fault.resetRequired = b := rfl
@[simp] theorem State.setResetRequired_fault_phase (b : Bool) : (s.setResetRequired b).fault.phase = s.fault.phase := rfl
@[simp] theorem State.setResetRequired_fault_registered (b : Bool) : (s.setResetRequired b).fault.registered = s.fault.registered := rfl
@[simp] theorem State.setResetRequired_read_load (b : Bool) (r : Reg) : (s.setResetRequired b).load r = s.load r := rfl
@[simp] theorem State.setResetRequired_read_field (b : Bool) (r : Reg) : (s.setResetRequired b).field r = s.field r := rfl
@[simp] theorem State.setResetRequired_read_cellAt (b : Bool) (a : Nat) : (s.setResetRequired b).cellAt a = s.cellAt a := rfl
@[simp] theorem State.setResetRequired_read_fatalOccurred (b : Bool) (j : Nat) : (s.setResetRequired b).fatalOccurred j = s.fatalOccurred j := rfl
@[simp] theorem State.setResetRequired_read_phase (b : Bool) (j : Nat) : (s.setResetRequired b).phase j = s.phase j := rfl
@[simp] theorem State.setResetRequired_read_registered (b : Bool) (j : Nat) : (s.setResetRequired b).registered j = s.registered j := rfl

/-! ## setPhase -/

@[simp] theorem State.setPhase_cfg (l : Nat) (p : Phase) : (s.setPhase l p).cfg = s.cfg := rfl
@[simp] theorem State.setPhase_hw (l : Nat) (p : Phase) : (s.setPhase l p).hw = s.hw := rfl
@[simp] theorem State.setPhase_seq (l : Nat) (p : Phase) : (s.setPhase l p).seq = s.seq := rfl
@[simp] theorem State.setPhase_io (l : Nat) (p : Phase) : (s.setPhase l p).io = s.io := rfl
@[simp] theorem State.setPhase_fault_fatalOccurred (l : Nat) (p : Phase) : (s.setPhase l p).fault.fatalOccurred = s.fault.fatalOccurred := rfl
@[simp] theorem State.setPhase_fault_resetRequired (l : Nat) (p : Phase) : (s.setPhase l p).fault.resetRequired = s.fault.resetRequired := rfl
@[simp] theorem State.setPhase_fault_phase (l : Nat) (p : Phase) : (s.setPhase l p).fault.phase = s.fault.phase.set (fun _ => .idle) l p := rfl
@[simp] theorem State.setPhase_fault_registered (l : Nat) (p : Phase) : (s.setPhase l p).fault.registered = s.fault.registered := rfl
@[simp] theorem State.setPhase_read_load (l : Nat) (p : Phase) (r : Reg) : (s.setPhase l p).load r = s.load r := rfl
@[simp] theorem State.setPhase_read_field (l : Nat) (p : Phase) (r : Reg) : (s.setPhase l p).field r = s.field r := rfl
@[simp] theorem State.setPhase_read_cellAt (l : Nat) (p : Phase) (a : Nat) : (s.setPhase l p).cellAt a = s.cellAt a := rfl
@[simp] theorem State.setPhase_read_fatalOccurred (l : Nat) (p : Phase) (j : Nat) : (s.setPhase l p).fatalOccurred j = s.fatalOccurred j := rfl
@[simp] theorem State.setPhase_read_registered (l : Nat) (p : Phase) (j : Nat) : (s.setPhase l p).registered j = s.registered j := rfl

/-! ## setRegistered -/

@[simp] theorem State.setRegistered_cfg (l : Nat) (b : Bool) : (s.setRegistered l b).cfg = s.cfg := rfl
@[simp] theorem State.setRegistered_hw (l : Nat) (b : Bool) : (s.setRegistered l b).hw = s.hw := rfl
@[simp] theorem State.setRegistered_seq (l : Nat) (b : Bool) : (s.setRegistered l b).seq = s.seq := rfl
@[simp] theorem State.setRegistered_io (l : Nat) (b : Bool) : (s.setRegistered l b).io = s.io := rfl
@[simp] theorem State.setRegistered_fault_fatalOccurred (l : Nat) (b : Bool) : (s.setRegistered l b).fault.fatalOccurred = s.fault.fatalOccurred := rfl
@[simp] theorem State.setRegistered_fault_resetRequired (l : Nat) (b : Bool) : (s.setRegistered l b).fault.resetRequired = s.fault.resetRequired := rfl
@[simp] theorem State.setRegistered_fault_phase (l : Nat) (b : Bool) : (s.setRegistered l b).fault.phase = s.fault.phase := rfl
@[simp] theorem State.setRegistered_fault_registered (l : Nat) (b : Bool) : (s.setRegistered l b).fault.registered = s.fault.registered.set (fun _ => false) l b := rfl
@[simp] theorem State.setRegistered_read_load (l : Nat) (b : Bool) (r : Reg) : (s.setRegistered l b).load r = s.load r := rfl
@[simp] theorem State.setRegistered_read_field (l : Nat) (b : Bool) (r : Reg) : (s.setRegistered l b).field r = s.field r := rfl
@[simp] theorem State.setRegistered_read_cellAt (l : Nat) (b : Bool) (a : Nat) : (s.setRegistered l b).cellAt a = s.cellAt a := rfl
@[simp] theorem State.setRegistered_read_fatalOccurred (l : Nat) (b : Bool) (j : Nat) : (s.setRegistered l b).fatalOccurred j = s.fatalOccurred j := rfl
@[simp] theorem State.setRegistered_read_phase (l : Nat) (b : Bool) (j : Nat) : (s.setRegistered l b).phase j = s.phase j := rfl

/-! ## setLock -/

@[simp] theorem State.setLock_cfg (k : Lock) : (s.setLock k).cfg = s.cfg := rfl
@[simp] theorem State.setLock_hw (k : Lock) : (s.setLock k).hw = s.hw := rfl
@[simp] theorem State.setLock_fault (k : Lock) : (s.setLock k).fault = s.fault := rfl
@[simp] theorem State.setLock_io (k : Lock) : (s.setLock k).io = s.io := rfl
@[simp] theorem State.setLock_seq_lock (k : Lock) : (s.setLock k).seq.lock = k := rfl
@[simp] theorem State.setLock_seq_cursor (k : Lock) : (s.setLock k).seq.cursor = s.seq.cursor := rfl
@[simp] theorem State.setLock_seq_leaf (k : Lock) : (s.setLock k).seq.leaf = s.seq.leaf := rfl
@[simp] theorem State.setLock_seq_cap (k : Lock) : (s.setLock k).seq.cap = s.seq.cap := rfl
@[simp] theorem State.setLock_seq_captured (k : Lock) : (s.setLock k).seq.captured = s.seq.captured := rfl
@[simp] theorem State.setLock_seq_rcvLink (k : Lock) : (s.setLock k).seq.rcvLink = s.seq.rcvLink := rfl
@[simp] theorem State.setLock_seq_rcvStep (k : Lock) : (s.setLock k).seq.rcvStep = s.seq.rcvStep := rfl
@[simp] theorem State.setLock_seq_snap (k : Lock) : (s.setLock k).seq.snap = s.seq.snap := rfl
@[simp] theorem State.setLock_seq_wlkTail (k : Lock) : (s.setLock k).seq.wlkTail = s.seq.wlkTail := rfl
@[simp] theorem State.setLock_seq_rcvTail (k : Lock) : (s.setLock k).seq.rcvTail = s.seq.rcvTail := rfl
@[simp] theorem State.setLock_read_load (k : Lock) (r : Reg) : (s.setLock k).load r = s.load r := rfl
@[simp] theorem State.setLock_read_field (k : Lock) (r : Reg) : (s.setLock k).field r = s.field r := rfl
@[simp] theorem State.setLock_read_cellAt (k : Lock) (a : Nat) : (s.setLock k).cellAt a = s.cellAt a := rfl
@[simp] theorem State.setLock_read_fatalOccurred (k : Lock) (j : Nat) : (s.setLock k).fatalOccurred j = s.fatalOccurred j := rfl
@[simp] theorem State.setLock_read_phase (k : Lock) (j : Nat) : (s.setLock k).phase j = s.phase j := rfl
@[simp] theorem State.setLock_read_registered (k : Lock) (j : Nat) : (s.setLock k).registered j = s.registered j := rfl

/-! ## setCursor -/

@[simp] theorem State.setCursor_cfg (c : Option Cursor) : (s.setCursor c).cfg = s.cfg := rfl
@[simp] theorem State.setCursor_hw (c : Option Cursor) : (s.setCursor c).hw = s.hw := rfl
@[simp] theorem State.setCursor_fault (c : Option Cursor) : (s.setCursor c).fault = s.fault := rfl
@[simp] theorem State.setCursor_io (c : Option Cursor) : (s.setCursor c).io = s.io := rfl
@[simp] theorem State.setCursor_seq_lock (c : Option Cursor) : (s.setCursor c).seq.lock = s.seq.lock := rfl
@[simp] theorem State.setCursor_seq_cursor (c : Option Cursor) : (s.setCursor c).seq.cursor = c := rfl
@[simp] theorem State.setCursor_seq_leaf (c : Option Cursor) : (s.setCursor c).seq.leaf = s.seq.leaf := rfl
@[simp] theorem State.setCursor_seq_cap (c : Option Cursor) : (s.setCursor c).seq.cap = s.seq.cap := rfl
@[simp] theorem State.setCursor_seq_captured (c : Option Cursor) : (s.setCursor c).seq.captured = s.seq.captured := rfl
@[simp] theorem State.setCursor_seq_rcvLink (c : Option Cursor) : (s.setCursor c).seq.rcvLink = s.seq.rcvLink := rfl
@[simp] theorem State.setCursor_seq_rcvStep (c : Option Cursor) : (s.setCursor c).seq.rcvStep = s.seq.rcvStep := rfl
@[simp] theorem State.setCursor_seq_snap (c : Option Cursor) : (s.setCursor c).seq.snap = s.seq.snap := rfl
@[simp] theorem State.setCursor_seq_wlkTail (c : Option Cursor) : (s.setCursor c).seq.wlkTail = s.seq.wlkTail := rfl
@[simp] theorem State.setCursor_seq_rcvTail (c : Option Cursor) : (s.setCursor c).seq.rcvTail = s.seq.rcvTail := rfl
@[simp] theorem State.setCursor_read_load (c : Option Cursor) (r : Reg) : (s.setCursor c).load r = s.load r := rfl
@[simp] theorem State.setCursor_read_field (c : Option Cursor) (r : Reg) : (s.setCursor c).field r = s.field r := rfl
@[simp] theorem State.setCursor_read_cellAt (c : Option Cursor) (a : Nat) : (s.setCursor c).cellAt a = s.cellAt a := rfl
@[simp] theorem State.setCursor_read_fatalOccurred (c : Option Cursor) (j : Nat) : (s.setCursor c).fatalOccurred j = s.fatalOccurred j := rfl
@[simp] theorem State.setCursor_read_phase (c : Option Cursor) (j : Nat) : (s.setCursor c).phase j = s.phase j := rfl
@[simp] theorem State.setCursor_read_registered (c : Option Cursor) (j : Nat) : (s.setCursor c).registered j = s.registered j := rfl

/-! ## setLeaf -/

@[simp] theorem State.setLeaf_cfg (q : LeafRegs) : (s.setLeaf q).cfg = s.cfg := rfl
@[simp] theorem State.setLeaf_hw (q : LeafRegs) : (s.setLeaf q).hw = s.hw := rfl
@[simp] theorem State.setLeaf_fault (q : LeafRegs) : (s.setLeaf q).fault = s.fault := rfl
@[simp] theorem State.setLeaf_io (q : LeafRegs) : (s.setLeaf q).io = s.io := rfl
@[simp] theorem State.setLeaf_seq_lock (q : LeafRegs) : (s.setLeaf q).seq.lock = s.seq.lock := rfl
@[simp] theorem State.setLeaf_seq_cursor (q : LeafRegs) : (s.setLeaf q).seq.cursor = s.seq.cursor := rfl
@[simp] theorem State.setLeaf_seq_leaf (q : LeafRegs) : (s.setLeaf q).seq.leaf = q := rfl
@[simp] theorem State.setLeaf_seq_cap (q : LeafRegs) : (s.setLeaf q).seq.cap = s.seq.cap := rfl
@[simp] theorem State.setLeaf_seq_captured (q : LeafRegs) : (s.setLeaf q).seq.captured = s.seq.captured := rfl
@[simp] theorem State.setLeaf_seq_rcvLink (q : LeafRegs) : (s.setLeaf q).seq.rcvLink = s.seq.rcvLink := rfl
@[simp] theorem State.setLeaf_seq_rcvStep (q : LeafRegs) : (s.setLeaf q).seq.rcvStep = s.seq.rcvStep := rfl
@[simp] theorem State.setLeaf_seq_snap (q : LeafRegs) : (s.setLeaf q).seq.snap = s.seq.snap := rfl
@[simp] theorem State.setLeaf_seq_wlkTail (q : LeafRegs) : (s.setLeaf q).seq.wlkTail = s.seq.wlkTail := rfl
@[simp] theorem State.setLeaf_seq_rcvTail (q : LeafRegs) : (s.setLeaf q).seq.rcvTail = s.seq.rcvTail := rfl
@[simp] theorem State.setLeaf_read_load (q : LeafRegs) (r : Reg) : (s.setLeaf q).load r = s.load r := rfl
@[simp] theorem State.setLeaf_read_field (q : LeafRegs) (r : Reg) : (s.setLeaf q).field r = s.field r := rfl
@[simp] theorem State.setLeaf_read_cellAt (q : LeafRegs) (a : Nat) : (s.setLeaf q).cellAt a = s.cellAt a := rfl
@[simp] theorem State.setLeaf_read_fatalOccurred (q : LeafRegs) (j : Nat) : (s.setLeaf q).fatalOccurred j = s.fatalOccurred j := rfl
@[simp] theorem State.setLeaf_read_phase (q : LeafRegs) (j : Nat) : (s.setLeaf q).phase j = s.phase j := rfl
@[simp] theorem State.setLeaf_read_registered (q : LeafRegs) (j : Nat) : (s.setLeaf q).registered j = s.registered j := rfl

/-! ## clearCap -/

@[simp] theorem State.clearCap_cfg : s.clearCap.cfg = s.cfg := rfl
@[simp] theorem State.clearCap_hw : s.clearCap.hw = s.hw := rfl
@[simp] theorem State.clearCap_fault : s.clearCap.fault = s.fault := rfl
@[simp] theorem State.clearCap_io : s.clearCap.io = s.io := rfl
@[simp] theorem State.clearCap_seq_lock : s.clearCap.seq.lock = s.seq.lock := rfl
@[simp] theorem State.clearCap_seq_cursor : s.clearCap.seq.cursor = s.seq.cursor := rfl
@[simp] theorem State.clearCap_seq_leaf : s.clearCap.seq.leaf = s.seq.leaf := rfl
@[simp] theorem State.clearCap_seq_cap : s.clearCap.seq.cap = [] := rfl
@[simp] theorem State.clearCap_seq_captured : s.clearCap.seq.captured = 0 := rfl
@[simp] theorem State.clearCap_seq_rcvLink : s.clearCap.seq.rcvLink = s.seq.rcvLink := rfl
@[simp] theorem State.clearCap_seq_rcvStep : s.clearCap.seq.rcvStep = s.seq.rcvStep := rfl
@[simp] theorem State.clearCap_seq_snap : s.clearCap.seq.snap = s.seq.snap := rfl
@[simp] theorem State.clearCap_seq_wlkTail : s.clearCap.seq.wlkTail = s.seq.wlkTail := rfl
@[simp] theorem State.clearCap_seq_rcvTail : s.clearCap.seq.rcvTail = s.seq.rcvTail := rfl
@[simp] theorem State.clearCap_read_load (r : Reg) : s.clearCap.load r = s.load r := rfl
@[simp] theorem State.clearCap_read_field (r : Reg) : s.clearCap.field r = s.field r := rfl
@[simp] theorem State.clearCap_read_cellAt (a : Nat) : s.clearCap.cellAt a = s.cellAt a := rfl
@[simp] theorem State.clearCap_read_fatalOccurred (j : Nat) : s.clearCap.fatalOccurred j = s.fatalOccurred j := rfl
@[simp] theorem State.clearCap_read_phase (j : Nat) : s.clearCap.phase j = s.phase j := rfl
@[simp] theorem State.clearCap_read_registered (j : Nat) : s.clearCap.registered j = s.registered j := rfl

/-! ## pushCap -/

@[simp] theorem State.pushCap_cfg (v : Word) : (s.pushCap v).cfg = s.cfg := rfl
@[simp] theorem State.pushCap_hw (v : Word) : (s.pushCap v).hw = s.hw := rfl
@[simp] theorem State.pushCap_fault (v : Word) : (s.pushCap v).fault = s.fault := rfl
@[simp] theorem State.pushCap_io (v : Word) : (s.pushCap v).io = s.io := rfl
@[simp] theorem State.pushCap_seq_lock (v : Word) : (s.pushCap v).seq.lock = s.seq.lock := rfl
@[simp] theorem State.pushCap_seq_cursor (v : Word) : (s.pushCap v).seq.cursor = s.seq.cursor := rfl
@[simp] theorem State.pushCap_seq_leaf (v : Word) : (s.pushCap v).seq.leaf = s.seq.leaf := rfl
@[simp] theorem State.pushCap_seq_cap (v : Word) : (s.pushCap v).seq.cap = s.seq.cap ++ [v] := rfl
@[simp] theorem State.pushCap_seq_captured (v : Word) : (s.pushCap v).seq.captured = s.seq.captured + 1 := rfl
@[simp] theorem State.pushCap_seq_rcvLink (v : Word) : (s.pushCap v).seq.rcvLink = s.seq.rcvLink := rfl
@[simp] theorem State.pushCap_seq_rcvStep (v : Word) : (s.pushCap v).seq.rcvStep = s.seq.rcvStep := rfl
@[simp] theorem State.pushCap_seq_snap (v : Word) : (s.pushCap v).seq.snap = s.seq.snap := rfl
@[simp] theorem State.pushCap_seq_wlkTail (v : Word) : (s.pushCap v).seq.wlkTail = s.seq.wlkTail := rfl
@[simp] theorem State.pushCap_seq_rcvTail (v : Word) : (s.pushCap v).seq.rcvTail = s.seq.rcvTail := rfl
@[simp] theorem State.pushCap_read_load (v : Word) (r : Reg) : (s.pushCap v).load r = s.load r := rfl
@[simp] theorem State.pushCap_read_field (v : Word) (r : Reg) : (s.pushCap v).field r = s.field r := rfl
@[simp] theorem State.pushCap_read_cellAt (v : Word) (a : Nat) : (s.pushCap v).cellAt a = s.cellAt a := rfl
@[simp] theorem State.pushCap_read_fatalOccurred (v : Word) (j : Nat) : (s.pushCap v).fatalOccurred j = s.fatalOccurred j := rfl
@[simp] theorem State.pushCap_read_phase (v : Word) (j : Nat) : (s.pushCap v).phase j = s.phase j := rfl
@[simp] theorem State.pushCap_read_registered (v : Word) (j : Nat) : (s.pushCap v).registered j = s.registered j := rfl

/-! ## setRcvLink -/

@[simp] theorem State.setRcvLink_cfg (l : Option Nat) : (s.setRcvLink l).cfg = s.cfg := rfl
@[simp] theorem State.setRcvLink_hw (l : Option Nat) : (s.setRcvLink l).hw = s.hw := rfl
@[simp] theorem State.setRcvLink_fault (l : Option Nat) : (s.setRcvLink l).fault = s.fault := rfl
@[simp] theorem State.setRcvLink_io (l : Option Nat) : (s.setRcvLink l).io = s.io := rfl
@[simp] theorem State.setRcvLink_seq_lock (l : Option Nat) : (s.setRcvLink l).seq.lock = s.seq.lock := rfl
@[simp] theorem State.setRcvLink_seq_cursor (l : Option Nat) : (s.setRcvLink l).seq.cursor = s.seq.cursor := rfl
@[simp] theorem State.setRcvLink_seq_leaf (l : Option Nat) : (s.setRcvLink l).seq.leaf = s.seq.leaf := rfl
@[simp] theorem State.setRcvLink_seq_cap (l : Option Nat) : (s.setRcvLink l).seq.cap = s.seq.cap := rfl
@[simp] theorem State.setRcvLink_seq_captured (l : Option Nat) : (s.setRcvLink l).seq.captured = s.seq.captured := rfl
@[simp] theorem State.setRcvLink_seq_rcvLink (l : Option Nat) : (s.setRcvLink l).seq.rcvLink = l := rfl
@[simp] theorem State.setRcvLink_seq_rcvStep (l : Option Nat) : (s.setRcvLink l).seq.rcvStep = s.seq.rcvStep := rfl
@[simp] theorem State.setRcvLink_seq_snap (l : Option Nat) : (s.setRcvLink l).seq.snap = s.seq.snap := rfl
@[simp] theorem State.setRcvLink_seq_wlkTail (l : Option Nat) : (s.setRcvLink l).seq.wlkTail = s.seq.wlkTail := rfl
@[simp] theorem State.setRcvLink_seq_rcvTail (l : Option Nat) : (s.setRcvLink l).seq.rcvTail = s.seq.rcvTail := rfl
@[simp] theorem State.setRcvLink_read_load (l : Option Nat) (r : Reg) : (s.setRcvLink l).load r = s.load r := rfl
@[simp] theorem State.setRcvLink_read_field (l : Option Nat) (r : Reg) : (s.setRcvLink l).field r = s.field r := rfl
@[simp] theorem State.setRcvLink_read_cellAt (l : Option Nat) (a : Nat) : (s.setRcvLink l).cellAt a = s.cellAt a := rfl
@[simp] theorem State.setRcvLink_read_fatalOccurred (l : Option Nat) (j : Nat) : (s.setRcvLink l).fatalOccurred j = s.fatalOccurred j := rfl
@[simp] theorem State.setRcvLink_read_phase (l : Option Nat) (j : Nat) : (s.setRcvLink l).phase j = s.phase j := rfl
@[simp] theorem State.setRcvLink_read_registered (l : Option Nat) (j : Nat) : (s.setRcvLink l).registered j = s.registered j := rfl

/-! ## setRcvStep -/

@[simp] theorem State.setRcvStep_cfg (n : Option Nat) : (s.setRcvStep n).cfg = s.cfg := rfl
@[simp] theorem State.setRcvStep_hw (n : Option Nat) : (s.setRcvStep n).hw = s.hw := rfl
@[simp] theorem State.setRcvStep_fault (n : Option Nat) : (s.setRcvStep n).fault = s.fault := rfl
@[simp] theorem State.setRcvStep_io (n : Option Nat) : (s.setRcvStep n).io = s.io := rfl
@[simp] theorem State.setRcvStep_seq_lock (n : Option Nat) : (s.setRcvStep n).seq.lock = s.seq.lock := rfl
@[simp] theorem State.setRcvStep_seq_cursor (n : Option Nat) : (s.setRcvStep n).seq.cursor = s.seq.cursor := rfl
@[simp] theorem State.setRcvStep_seq_leaf (n : Option Nat) : (s.setRcvStep n).seq.leaf = s.seq.leaf := rfl
@[simp] theorem State.setRcvStep_seq_cap (n : Option Nat) : (s.setRcvStep n).seq.cap = s.seq.cap := rfl
@[simp] theorem State.setRcvStep_seq_captured (n : Option Nat) : (s.setRcvStep n).seq.captured = s.seq.captured := rfl
@[simp] theorem State.setRcvStep_seq_rcvLink (n : Option Nat) : (s.setRcvStep n).seq.rcvLink = s.seq.rcvLink := rfl
@[simp] theorem State.setRcvStep_seq_rcvStep (n : Option Nat) : (s.setRcvStep n).seq.rcvStep = n := rfl
@[simp] theorem State.setRcvStep_seq_snap (n : Option Nat) : (s.setRcvStep n).seq.snap = s.seq.snap := rfl
@[simp] theorem State.setRcvStep_seq_wlkTail (n : Option Nat) : (s.setRcvStep n).seq.wlkTail = s.seq.wlkTail := rfl
@[simp] theorem State.setRcvStep_seq_rcvTail (n : Option Nat) : (s.setRcvStep n).seq.rcvTail = s.seq.rcvTail := rfl
@[simp] theorem State.setRcvStep_read_load (n : Option Nat) (r : Reg) : (s.setRcvStep n).load r = s.load r := rfl
@[simp] theorem State.setRcvStep_read_field (n : Option Nat) (r : Reg) : (s.setRcvStep n).field r = s.field r := rfl
@[simp] theorem State.setRcvStep_read_cellAt (n : Option Nat) (a : Nat) : (s.setRcvStep n).cellAt a = s.cellAt a := rfl
@[simp] theorem State.setRcvStep_read_fatalOccurred (n : Option Nat) (j : Nat) : (s.setRcvStep n).fatalOccurred j = s.fatalOccurred j := rfl
@[simp] theorem State.setRcvStep_read_phase (n : Option Nat) (j : Nat) : (s.setRcvStep n).phase j = s.phase j := rfl
@[simp] theorem State.setRcvStep_read_registered (n : Option Nat) (j : Nat) : (s.setRcvStep n).registered j = s.registered j := rfl

/-! ## setSnap -/

@[simp] theorem State.setSnap_cfg (q : List (Reg × Word)) : (s.setSnap q).cfg = s.cfg := rfl
@[simp] theorem State.setSnap_hw (q : List (Reg × Word)) : (s.setSnap q).hw = s.hw := rfl
@[simp] theorem State.setSnap_fault (q : List (Reg × Word)) : (s.setSnap q).fault = s.fault := rfl
@[simp] theorem State.setSnap_io (q : List (Reg × Word)) : (s.setSnap q).io = s.io := rfl
@[simp] theorem State.setSnap_seq_lock (q : List (Reg × Word)) : (s.setSnap q).seq.lock = s.seq.lock := rfl
@[simp] theorem State.setSnap_seq_cursor (q : List (Reg × Word)) : (s.setSnap q).seq.cursor = s.seq.cursor := rfl
@[simp] theorem State.setSnap_seq_leaf (q : List (Reg × Word)) : (s.setSnap q).seq.leaf = s.seq.leaf := rfl
@[simp] theorem State.setSnap_seq_cap (q : List (Reg × Word)) : (s.setSnap q).seq.cap = s.seq.cap := rfl
@[simp] theorem State.setSnap_seq_captured (q : List (Reg × Word)) : (s.setSnap q).seq.captured = s.seq.captured := rfl
@[simp] theorem State.setSnap_seq_rcvLink (q : List (Reg × Word)) : (s.setSnap q).seq.rcvLink = s.seq.rcvLink := rfl
@[simp] theorem State.setSnap_seq_rcvStep (q : List (Reg × Word)) : (s.setSnap q).seq.rcvStep = s.seq.rcvStep := rfl
@[simp] theorem State.setSnap_seq_snap (q : List (Reg × Word)) : (s.setSnap q).seq.snap = q := rfl
@[simp] theorem State.setSnap_seq_wlkTail (q : List (Reg × Word)) : (s.setSnap q).seq.wlkTail = s.seq.wlkTail := rfl
@[simp] theorem State.setSnap_seq_rcvTail (q : List (Reg × Word)) : (s.setSnap q).seq.rcvTail = s.seq.rcvTail := rfl
@[simp] theorem State.setSnap_read_load (q : List (Reg × Word)) (r : Reg) : (s.setSnap q).load r = s.load r := rfl
@[simp] theorem State.setSnap_read_field (q : List (Reg × Word)) (r : Reg) : (s.setSnap q).field r = s.field r := rfl
@[simp] theorem State.setSnap_read_cellAt (q : List (Reg × Word)) (a : Nat) : (s.setSnap q).cellAt a = s.cellAt a := rfl
@[simp] theorem State.setSnap_read_fatalOccurred (q : List (Reg × Word)) (j : Nat) : (s.setSnap q).fatalOccurred j = s.fatalOccurred j := rfl
@[simp] theorem State.setSnap_read_phase (q : List (Reg × Word)) (j : Nat) : (s.setSnap q).phase j = s.phase j := rfl
@[simp] theorem State.setSnap_read_registered (q : List (Reg × Word)) (j : Nat) : (s.setSnap q).registered j = s.registered j := rfl

/-! ## setTail -/

@[simp] theorem State.setTail_cfg (q : Option Result3) : (s.setTail q).cfg = s.cfg := rfl
@[simp] theorem State.setTail_hw (q : Option Result3) : (s.setTail q).hw = s.hw := rfl
@[simp] theorem State.setTail_fault (q : Option Result3) : (s.setTail q).fault = s.fault := rfl
@[simp] theorem State.setTail_io (q : Option Result3) : (s.setTail q).io = s.io := rfl
@[simp] theorem State.setTail_seq_lock (q : Option Result3) : (s.setTail q).seq.lock = s.seq.lock := rfl
@[simp] theorem State.setTail_seq_cursor (q : Option Result3) : (s.setTail q).seq.cursor = s.seq.cursor := rfl
@[simp] theorem State.setTail_seq_leaf (q : Option Result3) : (s.setTail q).seq.leaf = s.seq.leaf := rfl
@[simp] theorem State.setTail_seq_cap (q : Option Result3) : (s.setTail q).seq.cap = s.seq.cap := rfl
@[simp] theorem State.setTail_seq_captured (q : Option Result3) : (s.setTail q).seq.captured = s.seq.captured := rfl
@[simp] theorem State.setTail_seq_rcvLink (q : Option Result3) : (s.setTail q).seq.rcvLink = s.seq.rcvLink := rfl
@[simp] theorem State.setTail_seq_rcvStep (q : Option Result3) : (s.setTail q).seq.rcvStep = s.seq.rcvStep := rfl
@[simp] theorem State.setTail_seq_snap (q : Option Result3) : (s.setTail q).seq.snap = s.seq.snap := rfl
@[simp] theorem State.setTail_seq_wlkTail (q : Option Result3) : (s.setTail q).seq.wlkTail = q := rfl
@[simp] theorem State.setTail_seq_rcvTail (q : Option Result3) : (s.setTail q).seq.rcvTail = s.seq.rcvTail := rfl
@[simp] theorem State.setTail_read_load (q : Option Result3) (r : Reg) : (s.setTail q).load r = s.load r := rfl
@[simp] theorem State.setTail_read_field (q : Option Result3) (r : Reg) : (s.setTail q).field r = s.field r := rfl
@[simp] theorem State.setTail_read_cellAt (q : Option Result3) (a : Nat) : (s.setTail q).cellAt a = s.cellAt a := rfl
@[simp] theorem State.setTail_read_fatalOccurred (q : Option Result3) (j : Nat) : (s.setTail q).fatalOccurred j = s.fatalOccurred j := rfl
@[simp] theorem State.setTail_read_phase (q : Option Result3) (j : Nat) : (s.setTail q).phase j = s.phase j := rfl
@[simp] theorem State.setTail_read_registered (q : Option Result3) (j : Nat) : (s.setTail q).registered j = s.registered j := rfl

/-! ## setRcvTail -/

@[simp] theorem State.setRcvTail_cfg (q : Option RcvTail) : (s.setRcvTail q).cfg = s.cfg := rfl
@[simp] theorem State.setRcvTail_hw (q : Option RcvTail) : (s.setRcvTail q).hw = s.hw := rfl
@[simp] theorem State.setRcvTail_fault (q : Option RcvTail) : (s.setRcvTail q).fault = s.fault := rfl
@[simp] theorem State.setRcvTail_io (q : Option RcvTail) : (s.setRcvTail q).io = s.io := rfl
@[simp] theorem State.setRcvTail_seq_lock (q : Option RcvTail) : (s.setRcvTail q).seq.lock = s.seq.lock := rfl
@[simp] theorem State.setRcvTail_seq_cursor (q : Option RcvTail) : (s.setRcvTail q).seq.cursor = s.seq.cursor := rfl
@[simp] theorem State.setRcvTail_seq_leaf (q : Option RcvTail) : (s.setRcvTail q).seq.leaf = s.seq.leaf := rfl
@[simp] theorem State.setRcvTail_seq_cap (q : Option RcvTail) : (s.setRcvTail q).seq.cap = s.seq.cap := rfl
@[simp] theorem State.setRcvTail_seq_captured (q : Option RcvTail) : (s.setRcvTail q).seq.captured = s.seq.captured := rfl
@[simp] theorem State.setRcvTail_seq_rcvLink (q : Option RcvTail) : (s.setRcvTail q).seq.rcvLink = s.seq.rcvLink := rfl
@[simp] theorem State.setRcvTail_seq_rcvStep (q : Option RcvTail) : (s.setRcvTail q).seq.rcvStep = s.seq.rcvStep := rfl
@[simp] theorem State.setRcvTail_seq_snap (q : Option RcvTail) : (s.setRcvTail q).seq.snap = s.seq.snap := rfl
@[simp] theorem State.setRcvTail_seq_wlkTail (q : Option RcvTail) : (s.setRcvTail q).seq.wlkTail = s.seq.wlkTail := rfl
@[simp] theorem State.setRcvTail_seq_rcvTail (q : Option RcvTail) : (s.setRcvTail q).seq.rcvTail = q := rfl
@[simp] theorem State.setRcvTail_read_load (q : Option RcvTail) (r : Reg) : (s.setRcvTail q).load r = s.load r := rfl
@[simp] theorem State.setRcvTail_read_field (q : Option RcvTail) (r : Reg) : (s.setRcvTail q).field r = s.field r := rfl
@[simp] theorem State.setRcvTail_read_cellAt (q : Option RcvTail) (a : Nat) : (s.setRcvTail q).cellAt a = s.cellAt a := rfl
@[simp] theorem State.setRcvTail_read_fatalOccurred (q : Option RcvTail) (j : Nat) : (s.setRcvTail q).fatalOccurred j = s.fatalOccurred j := rfl
@[simp] theorem State.setRcvTail_read_phase (q : Option RcvTail) (j : Nat) : (s.setRcvTail q).phase j = s.phase j := rfl
@[simp] theorem State.setRcvTail_read_registered (q : Option RcvTail) (j : Nat) : (s.setRcvTail q).registered j = s.registered j := rfl

/-! ## oweTraining -/

variable (sts : List (Nat × LinkStatus × Nat))

@[simp] theorem State.oweTraining_cfg : (s.oweTraining sts).cfg = s.cfg := rfl
@[simp] theorem State.oweTraining_hw : (s.oweTraining sts).hw = s.hw := rfl
@[simp] theorem State.oweTraining_fault : (s.oweTraining sts).fault = s.fault := rfl
@[simp] theorem State.oweTraining_io : (s.oweTraining sts).io = s.io := rfl
@[simp] theorem State.oweTraining_seq : (s.oweTraining sts).seq
    = { s.seq with rcvLink := none, rcvStep := some 15, rcvTail := some { sts := sts, launched := false } } := rfl

/-! ## setTagpoolClean -/

@[simp] theorem State.setTagpoolClean_cfg (l : Nat) (b : Bool) : (s.setTagpoolClean l b).cfg = s.cfg := rfl
@[simp] theorem State.setTagpoolClean_fault (l : Nat) (b : Bool) : (s.setTagpoolClean l b).fault = s.fault := rfl
@[simp] theorem State.setTagpoolClean_seq (l : Nat) (b : Bool) : (s.setTagpoolClean l b).seq = s.seq := rfl
@[simp] theorem State.setTagpoolClean_io (l : Nat) (b : Bool) : (s.setTagpoolClean l b).io = s.io := rfl
@[simp] theorem State.setTagpoolClean_hw_regs (l : Nat) (b : Bool) : (s.setTagpoolClean l b).hw.regs = s.hw.regs := rfl
@[simp] theorem State.setTagpoolClean_hw_crumbRam (l : Nat) (b : Bool) : (s.setTagpoolClean l b).hw.crumbRam = s.hw.crumbRam := rfl
@[simp] theorem State.setTagpoolClean_hw_camRam (l : Nat) (b : Bool) : (s.setTagpoolClean l b).hw.camRam = s.hw.camRam := rfl
@[simp] theorem State.setTagpoolClean_hw_gangedRam (l : Nat) (b : Bool) : (s.setTagpoolClean l b).hw.gangedRam = s.hw.gangedRam := rfl
@[simp] theorem State.setTagpoolClean_hw_tagpoolClean (l : Nat) (b : Bool) : (s.setTagpoolClean l b).hw.tagpoolClean = s.hw.tagpoolClean.set (fun _ => false) l b := rfl
@[simp] theorem State.setTagpoolClean_hw_rstseqPending (l : Nat) (b : Bool) : (s.setTagpoolClean l b).hw.rstseqPending = s.hw.rstseqPending := rfl
@[simp] theorem State.setTagpoolClean_hw_ramInitPending (l : Nat) (b : Bool) : (s.setTagpoolClean l b).hw.ramInitPending = s.hw.ramInitPending := rfl
@[simp] theorem State.setTagpoolClean_hw_ringPending (l : Nat) (b : Bool) : (s.setTagpoolClean l b).hw.ringPending = s.hw.ringPending := rfl
@[simp] theorem State.setTagpoolClean_hw_armed (l : Nat) (b : Bool) : (s.setTagpoolClean l b).hw.armed = s.hw.armed := rfl
@[simp] theorem State.setTagpoolClean_hw_gangedCache (l : Nat) (b : Bool) : (s.setTagpoolClean l b).hw.gangedCache = s.hw.gangedCache := rfl
@[simp] theorem State.setTagpoolClean_read_load (l : Nat) (b : Bool) (r : Reg) : (s.setTagpoolClean l b).load r = s.load r := rfl
@[simp] theorem State.setTagpoolClean_read_field (l : Nat) (b : Bool) (r : Reg) : (s.setTagpoolClean l b).field r = s.field r := rfl
@[simp] theorem State.setTagpoolClean_read_cellAt (l : Nat) (b : Bool) (a : Nat) : (s.setTagpoolClean l b).cellAt a = s.cellAt a := rfl
@[simp] theorem State.setTagpoolClean_read_fatalOccurred (l : Nat) (b : Bool) (j : Nat) : (s.setTagpoolClean l b).fatalOccurred j = s.fatalOccurred j := rfl
@[simp] theorem State.setTagpoolClean_read_phase (l : Nat) (b : Bool) (j : Nat) : (s.setTagpoolClean l b).phase j = s.phase j := rfl
@[simp] theorem State.setTagpoolClean_read_registered (l : Nat) (b : Bool) (j : Nat) : (s.setTagpoolClean l b).registered j = s.registered j := rfl

/-! ## setRstseqPending -/

@[simp] theorem State.setRstseqPending_cfg (l : Nat) (b : Bool) : (s.setRstseqPending l b).cfg = s.cfg := rfl
@[simp] theorem State.setRstseqPending_fault (l : Nat) (b : Bool) : (s.setRstseqPending l b).fault = s.fault := rfl
@[simp] theorem State.setRstseqPending_seq (l : Nat) (b : Bool) : (s.setRstseqPending l b).seq = s.seq := rfl
@[simp] theorem State.setRstseqPending_io (l : Nat) (b : Bool) : (s.setRstseqPending l b).io = s.io := rfl
@[simp] theorem State.setRstseqPending_hw_regs (l : Nat) (b : Bool) : (s.setRstseqPending l b).hw.regs = s.hw.regs := rfl
@[simp] theorem State.setRstseqPending_hw_crumbRam (l : Nat) (b : Bool) : (s.setRstseqPending l b).hw.crumbRam = s.hw.crumbRam := rfl
@[simp] theorem State.setRstseqPending_hw_camRam (l : Nat) (b : Bool) : (s.setRstseqPending l b).hw.camRam = s.hw.camRam := rfl
@[simp] theorem State.setRstseqPending_hw_gangedRam (l : Nat) (b : Bool) : (s.setRstseqPending l b).hw.gangedRam = s.hw.gangedRam := rfl
@[simp] theorem State.setRstseqPending_hw_tagpoolClean (l : Nat) (b : Bool) : (s.setRstseqPending l b).hw.tagpoolClean = s.hw.tagpoolClean := rfl
@[simp] theorem State.setRstseqPending_hw_rstseqPending (l : Nat) (b : Bool) : (s.setRstseqPending l b).hw.rstseqPending = s.hw.rstseqPending.set (fun _ => false) l b := rfl
@[simp] theorem State.setRstseqPending_hw_ramInitPending (l : Nat) (b : Bool) : (s.setRstseqPending l b).hw.ramInitPending = s.hw.ramInitPending := rfl
@[simp] theorem State.setRstseqPending_hw_ringPending (l : Nat) (b : Bool) : (s.setRstseqPending l b).hw.ringPending = s.hw.ringPending := rfl
@[simp] theorem State.setRstseqPending_hw_armed (l : Nat) (b : Bool) : (s.setRstseqPending l b).hw.armed = s.hw.armed := rfl
@[simp] theorem State.setRstseqPending_hw_gangedCache (l : Nat) (b : Bool) : (s.setRstseqPending l b).hw.gangedCache = s.hw.gangedCache := rfl
@[simp] theorem State.setRstseqPending_read_load (l : Nat) (b : Bool) (r : Reg) : (s.setRstseqPending l b).load r = s.load r := rfl
@[simp] theorem State.setRstseqPending_read_field (l : Nat) (b : Bool) (r : Reg) : (s.setRstseqPending l b).field r = s.field r := rfl
@[simp] theorem State.setRstseqPending_read_cellAt (l : Nat) (b : Bool) (a : Nat) : (s.setRstseqPending l b).cellAt a = s.cellAt a := rfl
@[simp] theorem State.setRstseqPending_read_fatalOccurred (l : Nat) (b : Bool) (j : Nat) : (s.setRstseqPending l b).fatalOccurred j = s.fatalOccurred j := rfl
@[simp] theorem State.setRstseqPending_read_phase (l : Nat) (b : Bool) (j : Nat) : (s.setRstseqPending l b).phase j = s.phase j := rfl
@[simp] theorem State.setRstseqPending_read_registered (l : Nat) (b : Bool) (j : Nat) : (s.setRstseqPending l b).registered j = s.registered j := rfl

/-! ## setRamInitPending -/

@[simp] theorem State.setRamInitPending_cfg (l : Nat) (b : Bool) : (s.setRamInitPending l b).cfg = s.cfg := rfl
@[simp] theorem State.setRamInitPending_fault (l : Nat) (b : Bool) : (s.setRamInitPending l b).fault = s.fault := rfl
@[simp] theorem State.setRamInitPending_seq (l : Nat) (b : Bool) : (s.setRamInitPending l b).seq = s.seq := rfl
@[simp] theorem State.setRamInitPending_io (l : Nat) (b : Bool) : (s.setRamInitPending l b).io = s.io := rfl
@[simp] theorem State.setRamInitPending_hw_regs (l : Nat) (b : Bool) : (s.setRamInitPending l b).hw.regs = s.hw.regs := rfl
@[simp] theorem State.setRamInitPending_hw_crumbRam (l : Nat) (b : Bool) : (s.setRamInitPending l b).hw.crumbRam = s.hw.crumbRam := rfl
@[simp] theorem State.setRamInitPending_hw_camRam (l : Nat) (b : Bool) : (s.setRamInitPending l b).hw.camRam = s.hw.camRam := rfl
@[simp] theorem State.setRamInitPending_hw_gangedRam (l : Nat) (b : Bool) : (s.setRamInitPending l b).hw.gangedRam = s.hw.gangedRam := rfl
@[simp] theorem State.setRamInitPending_hw_tagpoolClean (l : Nat) (b : Bool) : (s.setRamInitPending l b).hw.tagpoolClean = s.hw.tagpoolClean := rfl
@[simp] theorem State.setRamInitPending_hw_rstseqPending (l : Nat) (b : Bool) : (s.setRamInitPending l b).hw.rstseqPending = s.hw.rstseqPending := rfl
@[simp] theorem State.setRamInitPending_hw_ramInitPending (l : Nat) (b : Bool) : (s.setRamInitPending l b).hw.ramInitPending = s.hw.ramInitPending.set (fun _ => false) l b := rfl
@[simp] theorem State.setRamInitPending_hw_ringPending (l : Nat) (b : Bool) : (s.setRamInitPending l b).hw.ringPending = s.hw.ringPending := rfl
@[simp] theorem State.setRamInitPending_hw_armed (l : Nat) (b : Bool) : (s.setRamInitPending l b).hw.armed = s.hw.armed := rfl
@[simp] theorem State.setRamInitPending_hw_gangedCache (l : Nat) (b : Bool) : (s.setRamInitPending l b).hw.gangedCache = s.hw.gangedCache := rfl
@[simp] theorem State.setRamInitPending_read_load (l : Nat) (b : Bool) (r : Reg) : (s.setRamInitPending l b).load r = s.load r := rfl
@[simp] theorem State.setRamInitPending_read_field (l : Nat) (b : Bool) (r : Reg) : (s.setRamInitPending l b).field r = s.field r := rfl
@[simp] theorem State.setRamInitPending_read_cellAt (l : Nat) (b : Bool) (a : Nat) : (s.setRamInitPending l b).cellAt a = s.cellAt a := rfl
@[simp] theorem State.setRamInitPending_read_fatalOccurred (l : Nat) (b : Bool) (j : Nat) : (s.setRamInitPending l b).fatalOccurred j = s.fatalOccurred j := rfl
@[simp] theorem State.setRamInitPending_read_phase (l : Nat) (b : Bool) (j : Nat) : (s.setRamInitPending l b).phase j = s.phase j := rfl
@[simp] theorem State.setRamInitPending_read_registered (l : Nat) (b : Bool) (j : Nat) : (s.setRamInitPending l b).registered j = s.registered j := rfl

/-! ## setRingPending -/

@[simp] theorem State.setRingPending_cfg (b : Bool) : (s.setRingPending b).cfg = s.cfg := rfl
@[simp] theorem State.setRingPending_fault (b : Bool) : (s.setRingPending b).fault = s.fault := rfl
@[simp] theorem State.setRingPending_seq (b : Bool) : (s.setRingPending b).seq = s.seq := rfl
@[simp] theorem State.setRingPending_io (b : Bool) : (s.setRingPending b).io = s.io := rfl
@[simp] theorem State.setRingPending_hw_regs (b : Bool) : (s.setRingPending b).hw.regs = s.hw.regs := rfl
@[simp] theorem State.setRingPending_hw_crumbRam (b : Bool) : (s.setRingPending b).hw.crumbRam = s.hw.crumbRam := rfl
@[simp] theorem State.setRingPending_hw_camRam (b : Bool) : (s.setRingPending b).hw.camRam = s.hw.camRam := rfl
@[simp] theorem State.setRingPending_hw_gangedRam (b : Bool) : (s.setRingPending b).hw.gangedRam = s.hw.gangedRam := rfl
@[simp] theorem State.setRingPending_hw_tagpoolClean (b : Bool) : (s.setRingPending b).hw.tagpoolClean = s.hw.tagpoolClean := rfl
@[simp] theorem State.setRingPending_hw_rstseqPending (b : Bool) : (s.setRingPending b).hw.rstseqPending = s.hw.rstseqPending := rfl
@[simp] theorem State.setRingPending_hw_ramInitPending (b : Bool) : (s.setRingPending b).hw.ramInitPending = s.hw.ramInitPending := rfl
@[simp] theorem State.setRingPending_hw_ringPending (b : Bool) : (s.setRingPending b).hw.ringPending = b := rfl
@[simp] theorem State.setRingPending_hw_armed (b : Bool) : (s.setRingPending b).hw.armed = s.hw.armed := rfl
@[simp] theorem State.setRingPending_hw_gangedCache (b : Bool) : (s.setRingPending b).hw.gangedCache = s.hw.gangedCache := rfl
@[simp] theorem State.setRingPending_read_load (b : Bool) (r : Reg) : (s.setRingPending b).load r = s.load r := rfl
@[simp] theorem State.setRingPending_read_field (b : Bool) (r : Reg) : (s.setRingPending b).field r = s.field r := rfl
@[simp] theorem State.setRingPending_read_cellAt (b : Bool) (a : Nat) : (s.setRingPending b).cellAt a = s.cellAt a := rfl
@[simp] theorem State.setRingPending_read_fatalOccurred (b : Bool) (j : Nat) : (s.setRingPending b).fatalOccurred j = s.fatalOccurred j := rfl
@[simp] theorem State.setRingPending_read_phase (b : Bool) (j : Nat) : (s.setRingPending b).phase j = s.phase j := rfl
@[simp] theorem State.setRingPending_read_registered (b : Bool) (j : Nat) : (s.setRingPending b).registered j = s.registered j := rfl

/-! ## setArmed -/

@[simp] theorem State.setArmed_cfg (b : Bool) : (s.setArmed b).cfg = s.cfg := rfl
@[simp] theorem State.setArmed_fault (b : Bool) : (s.setArmed b).fault = s.fault := rfl
@[simp] theorem State.setArmed_seq (b : Bool) : (s.setArmed b).seq = s.seq := rfl
@[simp] theorem State.setArmed_io (b : Bool) : (s.setArmed b).io = s.io := rfl
@[simp] theorem State.setArmed_hw_regs (b : Bool) : (s.setArmed b).hw.regs = s.hw.regs := rfl
@[simp] theorem State.setArmed_hw_crumbRam (b : Bool) : (s.setArmed b).hw.crumbRam = s.hw.crumbRam := rfl
@[simp] theorem State.setArmed_hw_camRam (b : Bool) : (s.setArmed b).hw.camRam = s.hw.camRam := rfl
@[simp] theorem State.setArmed_hw_gangedRam (b : Bool) : (s.setArmed b).hw.gangedRam = s.hw.gangedRam := rfl
@[simp] theorem State.setArmed_hw_tagpoolClean (b : Bool) : (s.setArmed b).hw.tagpoolClean = s.hw.tagpoolClean := rfl
@[simp] theorem State.setArmed_hw_rstseqPending (b : Bool) : (s.setArmed b).hw.rstseqPending = s.hw.rstseqPending := rfl
@[simp] theorem State.setArmed_hw_ramInitPending (b : Bool) : (s.setArmed b).hw.ramInitPending = s.hw.ramInitPending := rfl
@[simp] theorem State.setArmed_hw_ringPending (b : Bool) : (s.setArmed b).hw.ringPending = s.hw.ringPending := rfl
@[simp] theorem State.setArmed_hw_armed (b : Bool) : (s.setArmed b).hw.armed = b := rfl
@[simp] theorem State.setArmed_hw_gangedCache (b : Bool) : (s.setArmed b).hw.gangedCache = s.hw.gangedCache := rfl
@[simp] theorem State.setArmed_read_load (b : Bool) (r : Reg) : (s.setArmed b).load r = s.load r := rfl
@[simp] theorem State.setArmed_read_field (b : Bool) (r : Reg) : (s.setArmed b).field r = s.field r := rfl
@[simp] theorem State.setArmed_read_cellAt (b : Bool) (a : Nat) : (s.setArmed b).cellAt a = s.cellAt a := rfl
@[simp] theorem State.setArmed_read_fatalOccurred (b : Bool) (j : Nat) : (s.setArmed b).fatalOccurred j = s.fatalOccurred j := rfl
@[simp] theorem State.setArmed_read_phase (b : Bool) (j : Nat) : (s.setArmed b).phase j = s.phase j := rfl
@[simp] theorem State.setArmed_read_registered (b : Bool) (j : Nat) : (s.setArmed b).registered j = s.registered j := rfl

/-! ## store -/

@[simp] theorem State.store_cfg (r : Reg) (v : Word) : (s.store r v).cfg = s.cfg := rfl
@[simp] theorem State.store_fault (r : Reg) (v : Word) : (s.store r v).fault = s.fault := rfl
@[simp] theorem State.store_seq (r : Reg) (v : Word) : (s.store r v).seq = s.seq := rfl
@[simp] theorem State.store_io (r : Reg) (v : Word) : (s.store r v).io = s.io := rfl
@[simp] theorem State.store_hw_regs (r : Reg) (v : Word) : (s.store r v).hw.regs = s.hw.regs.set (resetValue s.cfg) (busAddr r) v := rfl
@[simp] theorem State.store_hw_crumbRam (r : Reg) (v : Word) : (s.store r v).hw.crumbRam = s.hw.crumbRam := rfl
@[simp] theorem State.store_hw_camRam (r : Reg) (v : Word) : (s.store r v).hw.camRam = s.hw.camRam := rfl
@[simp] theorem State.store_hw_gangedRam (r : Reg) (v : Word) : (s.store r v).hw.gangedRam = s.hw.gangedRam := rfl
@[simp] theorem State.store_hw_tagpoolClean (r : Reg) (v : Word) : (s.store r v).hw.tagpoolClean = s.hw.tagpoolClean := rfl
@[simp] theorem State.store_hw_rstseqPending (r : Reg) (v : Word) : (s.store r v).hw.rstseqPending = s.hw.rstseqPending := rfl
@[simp] theorem State.store_hw_ramInitPending (r : Reg) (v : Word) : (s.store r v).hw.ramInitPending = s.hw.ramInitPending := rfl
@[simp] theorem State.store_hw_ringPending (r : Reg) (v : Word) : (s.store r v).hw.ringPending = s.hw.ringPending := rfl
@[simp] theorem State.store_hw_armed (r : Reg) (v : Word) : (s.store r v).hw.armed = s.hw.armed := rfl
@[simp] theorem State.store_hw_gangedCache (r : Reg) (v : Word) : (s.store r v).hw.gangedCache = s.hw.gangedCache := rfl
@[simp] theorem State.store_read_fatalOccurred (r : Reg) (v : Word) (j : Nat) : (s.store r v).fatalOccurred j = s.fatalOccurred j := rfl
@[simp] theorem State.store_read_phase (r : Reg) (v : Word) (j : Nat) : (s.store r v).phase j = s.phase j := rfl
@[simp] theorem State.store_read_registered (r : Reg) (v : Word) (j : Nat) : (s.store r v).registered j = s.registered j := rfl

/-! ## What the accessors read after their own update -/

theorem State.setFatalOccurred_read (l j : Nat) (b : Bool) :
    (s.setFatalOccurred l b).fatalOccurred j = if j = l then b else s.fatalOccurred j := by
  simp [State.fatalOccurred, Memory.get_set]

theorem State.setPhase_read (l j : Nat) (p : Phase) : (s.setPhase l p).phase j = if j = l then p else s.phase j := by
  simp [State.phase, Memory.get_set]

theorem State.setRegistered_read (l j : Nat) (b : Bool) :
    (s.setRegistered l b).registered j = if j = l then b else s.registered j := by
  simp [State.registered, Memory.get_set]

theorem State.setTagpoolClean_read (l j : Nat) (b : Bool) :
    (s.setTagpoolClean l b).tagpoolClean j = if j = l then b else s.tagpoolClean j := by
  simp [State.tagpoolClean, Memory.get_set]

theorem State.setRstseqPending_read (l j : Nat) (b : Bool) :
    (s.setRstseqPending l b).rstseqPending j = if j = l then b else s.rstseqPending j := by
  simp [State.rstseqPending, Memory.get_set]

theorem State.setRamInitPending_read (l j : Nat) (b : Bool) :
    (s.setRamInitPending l b).ramInitPending j = if j = l then b else s.ramInitPending j := by
  simp [State.ramInitPending, Memory.get_set]

/-- One cell of the register space after a store. -/
theorem State.store_cellAt (r : Reg) (v : Word) (a : Nat) :
    (s.store r v).cellAt a = if a = busAddr r then v else s.cellAt a := by
  simp [State.cellAt, Memory.get_set]

theorem State.load_eq_cellAt (r : Reg) : s.load r = s.cellAt (busAddr r) := rfl

theorem State.field_eq (r : Reg) : s.field r = s.load r &&& definedMask s.cfg r := rfl

@[simp] theorem State.store_load_same (r : Reg) (v : Word) : (s.store r v).load r = v := by
  simp [State.load]

theorem State.store_load_other {r r' : Reg} (v : Word) (h : busAddr r' ≠ busAddr r) :
    (s.store r v).load r' = s.load r' := by
  simp [State.load, Memory.get_set, h]

@[simp] theorem State.store_field_same (r : Reg) (v : Word) :
    (s.store r v).field r = v &&& definedMask s.cfg r := by
  simp [State.field]

theorem State.store_field_other {r r' : Reg} (v : Word) (h : busAddr r' ≠ busAddr r) :
    (s.store r v).field r' = s.field r' := by
  simp [State.field, State.store_load_other s v h]

/-- An index below the depth names its own entry. -/
theorem ramIndex_of_lt {c : Config} {m : Ram} {l i : Nat} (h : i < ramDepth c m) : ramIndex c m l i = some i := if_pos h

end Sys2Proof.Machine
end

