-- ==== Sys2Proof/Laws/Addr.lean ====
section
/-! SUPPORT. The register map is faithful: two registers of the map have two bus addresses (R120 to R131), so a store
to one leaves the others alone. -/

namespace Sys2Proof.Machine

/-- The offset registers of a node that fit the map of R121 and R122. -/
def nodeFits : NodeReg → Bool
  | .diagLog j => decide (j < 8)
  | .eccCount u => decide (u < 4)
  | .eccLimit u => decide (u < 4)
  | .eccAddr u => decide (u < 4)
  | _ => true

/-- A register whose indices fit the fields of the bus address (R120) and the limits of R121, R122 and R125. -/
def fits : Reg → Bool
  | .node k i r => decide (k ≠ .mctrl) && decide (i < 4096) && nodeFits r
  | .intrStatus i => decide (i < 4096)
  | .intrStallEn i => decide (i < 4096)
  | .ringCmd => true
  | .ringStatus => true
  | .topPending => true
  | .topEnable => true
  | .hostEoi => true
  | .scratchDevice => true
  | .scratchPort w => decide (w < 128)
  | .summary _ w => decide (w < 64)
  | .portIntrCtrl i => decide (i < 4096)
  | .lmIntrCtrl i => decide (i < 4096)
  | .debugClear i => decide (i < 4096)
  | .containLatch i => decide (i < 4096)
  | .tagpoolInit i => decide (i < 4096)
  | .ramInitStatus i => decide (i < 4096)
  | .crumbAddr i => decide (i < 4096)
  | .crumbData i => decide (i < 4096)
  | .camAddr i => decide (i < 4096)
  | .camData i => decide (i < 4096)
  | .rstseqReq i => decide (i < 4096)
  | .rstseqStatus i => decide (i < 4096)
  | .warmReset i => decide (i < 4096)
  | .ctrlStop i => decide (i < 4096)
  | .passthru i => decide (i < 4096)
  | .routePolicy0 i => decide (i < 4096)
  | .routePolicy1 i => decide (i < 4096)
  | .tblAddr i => decide (i < 4096)
  | .tblData i => decide (i < 4096)

/-- The register a bus address names, as a number (R120). -/
def regOfNat (a : Nat) : Option Reg := regAt (a / 0x1000000) (a / 0x1000 % 0x1000) (a % 0x1000)

theorem regOfNat_packAddr {k i o : Nat} (hi : i < 4096) (ho : o < 4096) :
    regOfNat (packAddr k i o) = regAt k i o := by
  unfold regOfNat packAddr
  congr 1 <;> omega

theorem nodeOffset_lt {r : NodeReg} (h : nodeFits r = true) : nodeOffset r < 0x80 := by
  cases r with
  | reportEn t => cases t <;> simp [nodeOffset]
  | diagLog j => simp only [nodeFits, decide_eq_true_eq] at h; simp only [nodeOffset]; omega
  | eccCount j => simp only [nodeFits, decide_eq_true_eq] at h; simp only [nodeOffset]; omega
  | eccLimit j => simp only [nodeFits, decide_eq_true_eq] at h; simp only [nodeOffset]; omega
  | eccAddr j => simp only [nodeFits, decide_eq_true_eq] at h; simp only [nodeOffset]; omega
  | _ => simp [nodeOffset]

theorem nodeRegAt_nodeOffset {r : NodeReg} (h : nodeFits r = true) : nodeRegAt (nodeOffset r) = some r := by
  cases r with
  | reportEn t => cases t <;> rfl
  | diagLog j =>
    simp only [nodeFits, decide_eq_true_eq] at h
    interval_cases j <;> rfl
  | eccCount j =>
    simp only [nodeFits, decide_eq_true_eq] at h
    interval_cases j <;> rfl
  | eccLimit j =>
    simp only [nodeFits, decide_eq_true_eq] at h
    interval_cases j <;> rfl
  | eccAddr j =>
    simp only [nodeFits, decide_eq_true_eq] at h
    interval_cases j <;> rfl
  | _ => rfl

theorem regAt_node {k : Kind} (i : Nat) {r : NodeReg} (hk : k ≠ .mctrl) (h : nodeFits r = true) :
    regAt k.code i (nodeOffset r) = some (.node k i r) := by
  have ho := nodeOffset_lt h
  have hn := nodeRegAt_nodeOffset h
  have h80 : nodeOffset r ≠ 0x80 := by omega
  have h84 : nodeOffset r ≠ 0x84 := by omega
  cases k <;> simp_all [regAt, Kind.code, Kind.ofCode]

/-- Offsets of CTRL[0] at or above the four single registers (R125). -/
theorem ctrlRegAt_words {o : Nat} (h : 0x040 ≤ o) : ctrlRegAt o =
    (if o < 0x240 ∧ o % 4 = 0 then some (.scratchPort ((o - 0x040) / 4))
     else if 0x400 ≤ o ∧ o < 0x500 ∧ o % 4 = 0 then some (.summary .fatal ((o - 0x400) / 4))
     else if 0x500 ≤ o ∧ o < 0x600 ∧ o % 4 = 0 then some (.summary .nonfatal ((o - 0x500) / 4))
     else if 0x600 ≤ o ∧ o < 0x700 ∧ o % 4 = 0 then some (.summary .correctable ((o - 0x600) / 4))
     else none) := by
  have single : o ≠ 0x000 ∧ o ≠ 0x004 ∧ o ≠ 0x008 ∧ o ≠ 0x010 := by omega
  simp [ctrlRegAt, single, h]

theorem ctrlRegAt_scratchPort {w : Nat} (h : w < 128) : ctrlRegAt (0x040 + 4 * w) = some (.scratchPort w) := by
  rw [ctrlRegAt_words (by omega), if_pos ⟨by omega, by omega⟩]
  congr 2; omega

theorem ctrlRegAt_summary (t : Tree) {w : Nat} (h : w < 64) : ctrlRegAt (summaryOffset t w) = some (.summary t w) := by
  have base : ∃ o, o = 4 * w ∧ o < 0x100 ∧ o % 4 = 0 ∧ o / 4 = w := ⟨4 * w, by omega⟩
  obtain ⟨o, ho, hlt, hmul, hdiv⟩ := base
  rw [ctrlRegAt_words (by cases t <;> simp [summaryOffset] <;> omega)]
  cases t <;> simp only [summaryOffset, ← ho] <;> split_ifs <;> first | omega | simp [hdiv]

theorem summaryOffset_lt (t : Tree) {w : Nat} (h : w < 64) : summaryOffset t w < 4096 := by
  cases t <;> simp only [summaryOffset] <;> omega

/-- The map reads back the register from its address. -/
theorem regOfNat_busAddr {r : Reg} (h : fits r = true) : regOfNat (busAddr r) = some r := by
  cases r with
  | node k i r =>
    simp only [fits, Bool.and_eq_true, decide_eq_true_eq] at h
    rw [busAddr, regOfNat_packAddr h.1.2 (by have := nodeOffset_lt h.2; omega), regAt_node i h.1.1 h.2]
  | scratchPort w =>
    simp only [fits, decide_eq_true_eq] at h
    rw [busAddr, regOfNat_packAddr (by omega) (by omega)]
    simp [regAt, ctrlRegAt_scratchPort h]
  | summary t w =>
    simp only [fits, decide_eq_true_eq] at h
    rw [busAddr, regOfNat_packAddr (by omega) (summaryOffset_lt t h)]
    simp [regAt, ctrlRegAt_summary t h]
  | _ =>
    simp only [fits, decide_eq_true_eq] at h
    rw [busAddr, regOfNat_packAddr (by omega) (by omega)]
    simp [regAt, linkctlRegAt, portcfgRegAt, ctrlRegAt]

/-- Two registers that fit the map have two addresses. -/
theorem busAddr_ne {r r' : Reg} (h : fits r = true) (h' : fits r' = true) (hne : r' ≠ r) : busAddr r' ≠ busAddr r := by
  intro e
  have h1 := regOfNat_busAddr h
  rw [← e, regOfNat_busAddr h'] at h1
  exact hne (Option.some.inj h1)

/-- What a store does to every register that fits the map. -/
theorem State.store_load (s : State) {r r' : Reg} (v : Word) (h : fits r = true) (h' : fits r' = true) :
    (s.store r v).load r' = if r' = r then v else s.load r' := by
  by_cases e : r' = r
  · subst e; simp
  · rw [State.store_load_other s v (busAddr_ne h h' e), if_neg e]

theorem State.store_field (s : State) {r r' : Reg} (v : Word) (h : fits r = true) (h' : fits r' = true) :
    (s.store r v).field r' = if r' = r then v &&& definedMask s.cfg r else s.field r' := by
  by_cases e : r' = r
  · subst e; simp
  · rw [State.store_field_other s v (busAddr_ne h h' e), if_neg e]

/-! ## The registers of a well-formed configuration fit -/

theorem ceilDiv_le (a : Nat) {b : Nat} (hb : 1 ≤ b) : ceilDiv a b ≤ a := by
  unfold ceilDiv
  rcases Nat.eq_zero_or_pos a with h | h
  · subst h; rw [Nat.zero_add, Nat.div_eq_of_lt (by omega)]
  · have : a ≤ a * b := Nat.le_mul_of_pos_right a (by omega)
    exact (Nat.div_le_iff_le_mul_add_pred (by omega)).mpr (by rw [Nat.mul_comm b a]; omega)

/-- The conditions of a well-formed configuration (R7, R8, R374), one by one. -/
structure ConfigWf (c : Config) : Prop where
  sizes : sizesWf c = true
  trees : ∀ k ∈ allKinds, treesWf c k = true
  orders : ∀ k ∈ allKinds, orderWf c k = true
  rows : ∀ r ∈ c.table, rowWf c r = true
  unique : tableUnique c = true
  diagnostics : ∀ k ∈ allKinds, diagRegsWf c k = true
  snapshots : ∀ l < c.nLink, snapWf c l = true
  engines : ∀ t ∈ allTrees, existWf c t = true
  masks : masksWf c = true
  map : regMapWf c = true

theorem configWf_parts {c : Config} (h : configWf c = true) : ConfigWf c := by
  simp only [configWf, Bool.and_eq_true, List.all_eq_true, List.mem_range] at h
  exact { sizes := h.1.1.1.1.1.1.1.1.1, trees := h.1.1.1.1.1.1.1.1.2, orders := h.1.1.1.1.1.1.1.2, rows := h.1.1.1.1.1.1.2,
          unique := h.1.1.1.1.1.2, diagnostics := h.1.1.1.1.2, snapshots := h.1.1.1.2, engines := h.1.1.2, masks := h.1.2,
          map := h.2 }

/-- The sizes of a well-formed configuration (table P, R125), one by one. -/
structure Sized (c : Config) : Prop where
  links : 1 ≤ c.nLink ∧ c.nLink ≤ 4096
  ports : 1 ≤ c.pgSize ∧ c.pgSize ≤ 32
  locals : 1 ≤ c.lmSize ∧ c.lmSize ≤ 32
  tiles : c.nTile ≤ 4096 ∧ c.nTileout ≤ 4096
  counter : 1 ≤ c.eccCw ∧ c.eccCw ≤ 32
  words : sumw c ≤ 64 ∧ lmw c ≤ 128
  units : ∀ k, nEcc c k ≤ 4
  rams : ∀ m, ramDepth c m ≤ 0x100000000

theorem configWf_sizes {c : Config} (h : configWf c = true) : Sized c := by
  have z := (configWf_parts h).sizes
  simp only [sizesWf, Bool.and_eq_true, decide_eq_true_eq, List.all_eq_true] at z
  exact { links := z.1.1.1.1.1.1.2, ports := z.1.1.1.1.1.2, locals := z.1.1.1.1.2, tiles := z.1.1.1.2, counter := z.1.1.2,
          words := z.1.2, units := fun k => z.2 k (by cases k <;> simp [allKinds]),
          rams := fun m => by have deep := z.1.1.1.1.1.1.1; cases m <;> simp only [ramDepth] <;> omega }

theorem instances_le {c : Config} (h : configWf c = true) (k : Kind) : instances c k ≤ 4096 := by
  have z := configWf_sizes h
  have hlinks := z.links.2
  have htiles := z.tiles
  have hl : nLm c ≤ 4096 := le_trans (ceilDiv_le _ z.locals.1) hlinks
  cases k <;> simp only [instances, nMc] <;> omega

theorem nodeExists_lt {c : Config} (h : configWf c = true) {k : Kind} {i : Nat} (hn : nodeExists c k i = true) :
    i < 4096 := by
  simp only [nodeExists, Bool.and_eq_true, decide_eq_true_eq] at hn
  exact lt_of_lt_of_le hn.1 (instances_le h k)

theorem hasReg_fits {c : Config} (h : configWf c = true) {k : Kind} {r : NodeReg} (hr : hasReg c k r = true) :
    k ≠ .mctrl ∧ nodeFits r = true := by
  have hk := (configWf_sizes h).units k
  cases r with
  | reportEn t => cases t <;> cases k <;> simp_all [hasReg, hasFullSet, nodeFits]
  | eccCount u =>
    simp only [hasReg, Bool.and_eq_true, decide_eq_true_eq] at hr
    exact ⟨by rintro rfl; simp [hasFullSet] at hr, by simp only [nodeFits, decide_eq_true_eq]; omega⟩
  | eccLimit u =>
    simp only [hasReg, Bool.and_eq_true, decide_eq_true_eq] at hr
    exact ⟨by rintro rfl; simp [hasFullSet] at hr, by simp only [nodeFits, decide_eq_true_eq]; omega⟩
  | eccAddr u =>
    simp only [hasReg, Bool.and_eq_true, decide_eq_true_eq] at hr
    exact ⟨by rintro rfl; simp [hasFullSet] at hr, by simp only [nodeFits, decide_eq_true_eq]; omega⟩
  | _ => cases k <;> simp_all [hasReg, hasFullSet, nodeFits]

/-- A mapped register of a well-formed configuration fits the map. -/
theorem mapped_fits {c : Config} (h : configWf c = true) {r : Reg} (hm : mapped c r = true) : fits r = true := by
  have z := configWf_sizes h
  have hlinks := z.links.2
  have hwords := z.words
  have hp : nPg c ≤ 4096 := le_trans (ceilDiv_le _ z.ports.1) hlinks
  cases r with
  | node k i r =>
    simp only [mapped, Bool.and_eq_true] at hm
    obtain ⟨a, b⟩ := hasReg_fits h hm.2
    simp [fits, a, b, nodeExists_lt h hm.1]
  | intrStatus m => simpa [fits] using nodeExists_lt h hm
  | intrStallEn m => simpa [fits] using nodeExists_lt h hm
  | ringCmd => rfl
  | ringStatus => rfl
  | _ => simp only [mapped, decide_eq_true_eq] at hm; simp only [fits, decide_eq_true_eq]; try omega

end Sys2Proof.Machine
end

