-- ==== Sys2Proof/Laws/Act.lean ====
section
/-! SUPPORT. How sequencer actions compose: what `bind` does, what each primitive does when no other agent moves
(`s.io.sched = []`), and two ways to reason about an action without running it: `Does R` (every outcome, under every
schedule) and `Quietly R` (with no other agent moving it ends with a value). -/

namespace Sys2Proof.Machine

variable {α β : Type}

/-! ## Running a bind -/

theorem Act.bind_apply (x : Act α) (f : α → Act β) (s : State) :
    (x >>= f) s = match x s with
      | .ok a t => f a t
      | .error e t => .error e t := by
  change EStateM.bind x f s = _
  unfold EStateM.bind
  cases x s <;> rfl

theorem Act.bind_of_ok {x : Act α} {f : α → Act β} {s t : State} {a : α} (h : x s = .ok a t) :
    (x >>= f) s = f a t := by rw [Act.bind_apply, h]

theorem Act.bind_of_error {x : Act α} {f : α → Act β} {s t : State} {e : Stop} (h : x s = .error e t) :
    (x >>= f) s = .error e t := by rw [Act.bind_apply, h]

@[simp] theorem Act.pure_apply (a : α) (s : State) : (pure a : Act α) s = .ok a s := rfl

@[simp] theorem Act.get_bind (f : State → Act β) (s : State) : ((get : Act State) >>= f) s = f s s := rfl

@[simp] theorem Act.modify_apply (g : State → State) (s : State) : (modify g : Act PUnit) s = .ok ⟨⟩ (g s) := rfl

@[simp] theorem Act.modify_bind (g : State → State) (f : PUnit → Act β) (s : State) :
    ((modify g : Act PUnit) >>= f) s = f ⟨⟩ (g s) := rfl

@[simp] theorem Act.pure_bind (a : α) (f : α → Act β) (s : State) : ((pure a : Act α) >>= f) s = f a s := rfl

@[simp] theorem Act.throw_apply (e : Stop) (s : State) : (throw e : Act α) s = .error e s := rfl

@[simp] theorem emit_apply (e : Event) (s : State) : emit e s = .ok () (s.emit e) := rfl

@[simp] theorem askEnv_apply (q : EnvQuery) (s : State) : askEnv q s = .ok (s.ask q).1 (s.ask q).2 := rfl

@[simp] theorem unlock_apply (s : State) : unlock s = .ok () ((s.setLock .free).setCursor none) := rfl

@[simp] theorem setCursor_apply (c : Cursor) (s : State) : setCursor c s = .ok () (s.setCursor (some c)) := rfl

@[simp] theorem setStep_apply (n : Nat) (s : State) : setStep n s = .ok () (s.setRcvStep (some n)) := rfl

@[simp] theorem finishCommand_apply (e : ResultEvent) (ws : List Word) (s : State) :
    finishCommand e ws s = .ok () ((s.emit (.result e)).respond ws) := rfl

/-! ## The environment -/

theorem State.ask_nil {s : State} {q : EnvQuery} (h : (s.io.env.get favourable q.key).script = []) :
    s.ask q = ((s.io.env.get favourable q.key).rest, s) := by
  simp only [State.ask, h]

theorem State.ask_cons {s : State} {q : EnvQuery} {b : Bool} {bs : List Bool}
    (h : (s.io.env.get favourable q.key).script = b :: bs) :
    s.ask q = (b, { s with io := { s.io with env := (s.io.env.set favourable q.key
        ⟨bs, (s.io.env.get favourable q.key).rest⟩) } }) := by
  simp only [State.ask, h]

/-- Asking an input changes what is left of its script and nothing else. -/
theorem State.ask_snd (s : State) (q : EnvQuery) : ∃ env, (s.ask q).2 = { s with io := { s.io with env := env } } := by
  cases h : (s.io.env.get favourable q.key).script with
  | nil => exact ⟨s.io.env, by rw [State.ask_nil h]⟩
  | cons b bs => exact ⟨_, by rw [State.ask_cons h]⟩

@[simp] theorem State.ask_cfg (s : State) (q : EnvQuery) : (s.ask q).2.cfg = s.cfg := by
  obtain ⟨e, h⟩ := s.ask_snd q; rw [h]
@[simp] theorem State.ask_hw (s : State) (q : EnvQuery) : (s.ask q).2.hw = s.hw := by
  obtain ⟨e, h⟩ := s.ask_snd q; rw [h]
@[simp] theorem State.ask_fault (s : State) (q : EnvQuery) : (s.ask q).2.fault = s.fault := by
  obtain ⟨e, h⟩ := s.ask_snd q; rw [h]
@[simp] theorem State.ask_seq (s : State) (q : EnvQuery) : (s.ask q).2.seq = s.seq := by
  obtain ⟨e, h⟩ := s.ask_snd q; rw [h]
@[simp] theorem State.ask_io_history (s : State) (q : EnvQuery) : (s.ask q).2.io.history = s.io.history := by
  obtain ⟨e, h⟩ := s.ask_snd q; rw [h]
@[simp] theorem State.ask_io_inbox (s : State) (q : EnvQuery) : (s.ask q).2.io.inbox = s.io.inbox := by
  obtain ⟨e, h⟩ := s.ask_snd q; rw [h]
@[simp] theorem State.ask_io_sched (s : State) (q : EnvQuery) : (s.ask q).2.io.sched = s.io.sched := by
  obtain ⟨e, h⟩ := s.ask_snd q; rw [h]
@[simp] theorem State.ask_io_responses (s : State) (q : EnvQuery) : (s.ask q).2.io.responses = s.io.responses := by
  obtain ⟨e, h⟩ := s.ask_snd q; rw [h]
@[simp] theorem State.ask_io_readData (s : State) (q : EnvQuery) : (s.ask q).2.io.readData = s.io.readData := by
  obtain ⟨e, h⟩ := s.ask_snd q; rw [h]
@[simp] theorem State.ask_read_load (s : State) (q : EnvQuery) (r : Reg) : (s.ask q).2.load r = s.load r := by
  obtain ⟨e, h⟩ := s.ask_snd q; rw [h]; rfl
@[simp] theorem State.ask_read_field (s : State) (q : EnvQuery) (r : Reg) : (s.ask q).2.field r = s.field r := by
  obtain ⟨e, h⟩ := s.ask_snd q; rw [h]; rfl
@[simp] theorem State.ask_read_cellAt (s : State) (q : EnvQuery) (a : Nat) : (s.ask q).2.cellAt a = s.cellAt a := by
  obtain ⟨e, h⟩ := s.ask_snd q; rw [h]; rfl
@[simp] theorem State.ask_read_fatalOccurred (s : State) (q : EnvQuery) (l : Nat) :
    (s.ask q).2.fatalOccurred l = s.fatalOccurred l := by
  obtain ⟨e, h⟩ := s.ask_snd q; rw [h]; rfl
@[simp] theorem State.ask_read_phase (s : State) (q : EnvQuery) (l : Nat) : (s.ask q).2.phase l = s.phase l := by
  obtain ⟨e, h⟩ := s.ask_snd q; rw [h]; rfl
@[simp] theorem State.ask_read_registered (s : State) (q : EnvQuery) (l : Nat) :
    (s.ask q).2.registered l = s.registered l := by
  obtain ⟨e, h⟩ := s.ask_snd q; rw [h]; rfl

/-- The keys of the environment's inputs do not meet. -/
theorem EnvQuery.key_inj {p q : EnvQuery} (h : p.key = q.key) : p = q := by
  cases p <;> cases q <;> simp only [EnvQuery.key] at h <;> first | rfl | omega | (congr 1; omega)

/-- The next answer is the head of the script, or the standing answer. -/
theorem State.ask_fst (s : State) (q : EnvQuery) : (s.ask q).1 =
    (s.io.env.get favourable q.key).script.head?.getD (s.io.env.get favourable q.key).rest := by
  cases h : (s.io.env.get favourable q.key).script with
  | nil => rw [State.ask_nil h]; rfl
  | cons b bs => rw [State.ask_cons h]; rfl

/-- Asking one input leaves the next answer of every other. -/
theorem State.ask_other (s : State) {p q : EnvQuery} (h : p ≠ q) : ((s.ask q).2.ask p).1 = (s.ask p).1 := by
  have hk : p.key ≠ q.key := fun e => h (EnvQuery.key_inj e)
  have hg : (s.ask q).2.io.env.get favourable p.key = s.io.env.get favourable p.key := by
    cases h : (s.io.env.get favourable q.key).script with
    | nil => rw [State.ask_nil h]
    | cons b bs => rw [State.ask_cons h]; simp [Memory.get_set, hk]
  rw [State.ask_fst, State.ask_fst, hg]

/-- An answer depends on the listed answers only. -/
theorem State.ask_congr {s t : State} (h : t.io.env = s.io.env) (q : EnvQuery) : (t.ask q).1 = (s.ask q).1 := by
  rw [State.ask_fst, State.ask_fst, h]

/-! ## Accesses with no other agent moving -/

theorem tick_quiet {s : State} (h : s.io.sched = []) : tick s = .ok () s := by
  unfold tick
  rw [Act.get_bind, h]
  rfl

theorem rd_quiet {s : State} (h : s.io.sched = []) (r : Reg) : rd r s = .ok (readReg s r) s := by
  unfold rd
  rw [Act.bind_of_ok (tick_quiet h)]
  rfl

/-- A write is recorded in H and performed; only a contain latch asks the environment (R151, R302). -/
theorem writeReg_apply (r : Reg) (v : Word) (s : State) :
    writeReg r v s = match stuckQuery r v with
      | some q => .ok () (((s.emit (.write r v)).ask q).2.applyWrite r v ((s.emit (.write r v)).ask q).1)
      | none => .ok () ((s.emit (.write r v)).applyWrite r v false) := by
  unfold writeReg
  rw [Act.bind_of_ok (emit_apply _ s)]
  cases stuckQuery r v <;> rfl

theorem writeReg_plain {r : Reg} {v : Word} (h : stuckQuery r v = none) (s : State) :
    writeReg r v s = .ok () ((s.emit (.write r v)).applyWrite r v false) := by rw [writeReg_apply, h]

theorem wr_quiet {s : State} (h : s.io.sched = []) {r : Reg} {v : Word} (hq : stuckQuery r v = none) :
    wr r v s = .ok () ((s.emit (.write r v)).applyWrite r v false) := by
  unfold wr
  rw [Act.bind_of_ok (tick_quiet h), writeReg_plain hq]

theorem extCall_quiet {s : State} (h : s.io.sched = []) (n : ExtName) (l : Option Nat) :
    extCall n l s = .ok () (s.emit (.extCall n l)) := by
  unfold extCall
  rw [Act.bind_of_ok (tick_quiet h)]
  rfl

theorem lock_free {s : State} (h : s.seq.lock = .free) (k : Lock) : lock k s = .ok () (s.setLock k) := by
  unfold lock
  rw [Act.get_bind, if_pos h]
  rfl

theorem lock_held {s : State} (h : s.seq.lock ≠ .free) (k : Lock) : lock k s = .error .blocked s := by
  unfold lock
  rw [Act.get_bind, if_neg h]
  rfl

theorem walkerBegin_quiet {s : State} (h : Quiet s) : walkerBegin s = .ok () (s.setLock .wlk) := by
  unfold walkerBegin
  rw [Act.get_bind, h.2.1]
  exact lock_free h.2.2 .wlk

theorem window_quiet {s : State} (h : s.io.sched = []) : window s = .ok () s := by
  unfold window
  rw [Act.get_bind, h]
  rfl

/-- A command whose operands are in range runs its program (R139). -/
theorem runCommand_admitted {i : Instr} {s : State} (h : admitted s.cfg i = true) (prog : Act Unit) :
    runCommand i prog s = outcomeOf s (prog s) := by
  unfold runCommand; rw [if_pos h]

/-- A command whose operands are out of range is refused (R139). -/
theorem runCommand_refused {i : Instr} {s : State} (h : admitted s.cfg i = false) (prog : Act Unit) :
    runCommand i prog s = .next (refuseCommand s) := by
  unfold runCommand; simp [h]

/-! ## Every outcome -/

/-- The state an action ends in, whether with a value or stopped. -/
def finalState : EStateM.Result Stop State α → State
  | .ok _ t => t
  | .error _ t => t

/-- Every outcome of the action, from every state and under every schedule, is related to the start. -/
def Does (R : State → State → Prop) (x : Act α) : Prop := ∀ s, R s (finalState (x s))

/-- A relation that actions can be chained along. -/
structure Chains (R : State → State → Prop) : Prop where
  refl : ∀ s, R s s
  trans : ∀ {s t u}, R s t → R t u → R s u

theorem Does.pure {R} (hR : Chains R) (a : α) : Does R (pure a : Act α) := fun s => hR.refl s

theorem Does.throw {R} (hR : Chains R) (e : Stop) : Does R (throw e : Act α) := fun s => hR.refl s

theorem Does.bind {R} (hR : Chains R) {x : Act α} {f : α → Act β} (hx : Does R x) (hf : ∀ a, Does R (f a)) :
    Does R (x >>= f) := by
  intro s
  have h := hx s
  rw [Act.bind_apply]
  cases hxs : x s with
  | ok a t =>
    rw [hxs] at h
    exact hR.trans h (hf a t)
  | error e t =>
    rw [hxs] at h
    exact h

theorem Does.get_bind {R} {f : State → Act β} (hf : ∀ s, R s (finalState (f s s))) : Does R ((get : Act State) >>= f) :=
  fun s => hf s

theorem Does.modify {R} {g : State → State} (hg : ∀ s, R s (g s)) : Does R (modify g : Act PUnit) := fun s => hg s

theorem Does.emit {R} {e : Event} (h : ∀ s, R s (s.emit e)) : Does R (emit e) := fun s => h s

theorem Does.ite {R} {c : Prop} [Decidable c] {x y : Act α} (hx : Does R x) (hy : Does R y) :
    Does R (if c then x else y) := by
  split
  · exact hx
  · exact hy

/-! ## Actions alone -/

/-- No other agent moves, and the configuration is `c`. -/
def Alone (c : Config) (s : State) : Prop := s.io.sched = [] ∧ s.cfg = c

/-- With no other agent moving the action ends with a value, in a state related to the start, and still nobody moves. -/
def Quietly (c : Config) (R : State → State → Prop) (x : Act α) : Prop :=
  ∀ s, Alone c s → ∃ a t, x s = .ok a t ∧ Alone c t ∧ R s t

theorem Quietly.pure {c R} (hR : Chains R) (a : α) : Quietly c R (pure a : Act α) :=
  fun s h => ⟨a, s, rfl, h, hR.refl s⟩

theorem Quietly.bind {c R} (hR : Chains R) {x : Act α} {f : α → Act β} (hx : Quietly c R x)
    (hf : ∀ a, Quietly c R (f a)) : Quietly c R (x >>= f) := by
  intro s hs
  obtain ⟨a, t, e, ht, r⟩ := hx s hs
  obtain ⟨b, u, e', hu, r'⟩ := hf a t ht
  exact ⟨b, u, by rw [Act.bind_of_ok e, e'], hu, hR.trans r r'⟩

theorem Quietly.get_bind {c R} {f : State → Act β}
    (hf : ∀ s, Alone c s → ∃ a t, f s s = .ok a t ∧ Alone c t ∧ R s t) :
    Quietly c R ((get : Act State) >>= f) := fun s h => hf s h

theorem Quietly.modify {c R} {g : State → State} (hg : ∀ s, Alone c s → R s (g s))
    (ha : ∀ s, Alone c s → Alone c (g s)) : Quietly c R (modify g : Act PUnit) :=
  fun s h => ⟨_, _, rfl, ha s h, hg s h⟩

theorem Quietly.emit {c R} {e : Event} (h : ∀ s, R s (s.emit e)) : Quietly c R (emit e) :=
  fun s hs => ⟨_, _, rfl, hs, h s⟩

theorem Quietly.askEnv {c R} {q : EnvQuery} (h : ∀ s, R s (s.ask q).2) : Quietly c R (askEnv q) :=
  fun s hs => ⟨_, _, rfl, ⟨by rw [State.ask_io_sched, hs.1], by rw [State.ask_cfg, hs.2]⟩, h s⟩

theorem Quietly.setCursor {c R} {q : Cursor} (h : ∀ s, R s (s.setCursor (some q))) : Quietly c R (setCursor q) :=
  fun s hs => ⟨_, _, rfl, hs, h s⟩

theorem Quietly.rd {c R} (hR : Chains R) (r : Reg) : Quietly c R (rd r) :=
  fun s hs => ⟨_, _, rd_quiet hs.1 r, hs, hR.refl s⟩

theorem Quietly.ite {c R} {p : Prop} [Decidable p] {x y : Act α} (hx : Quietly c R x) (hy : Quietly c R y) :
    Quietly c R (if p then x else y) := by
  split
  · exact hx
  · exact hy

theorem Quietly.mono {c} {R S : State → State → Prop} (h : ∀ s t, R s t → S s t) {x : Act α} (hx : Quietly c R x) :
    Quietly c S x := by
  intro s hs
  obtain ⟨a, t, e, ht, r⟩ := hx s hs
  exact ⟨a, t, e, ht, h s t r⟩

end Sys2Proof.Machine
end

