-- ==== Sys2Proof/Laws/Mark.lean ====
section
/-! SUPPORT. What classification may do (R216 to R224) and what a marking may do (R251), with no other agent moving:
`Marks` is the frame of everything a HANDLE does between its reads and its own writes. -/

namespace Sys2Proof.Machine

/-- The cells a marking may write: the scratch registers (R40, R41). -/
def scratchCell (c : Config) (a : Nat) : Prop := a = busAddr .scratchDevice ∨ ∃ w, w < lmw c ∧ a = busAddr (.scratchPort w)

/-- The frame of classification and marking; `L` says what becomes of the values of the HANDLE. -/
structure MarksWith (L : LeafRegs → LeafRegs → Prop) (s t : State) : Prop where
  cfg : t.cfg = s.cfg := by rfl
  cells : ∀ a, ¬ scratchCell s.cfg a → t.cellAt a = s.cellAt a := by exact fun _ _ => rfl
  hw : t.hw = { s.hw with regs := t.hw.regs } := by rfl
  fatal : ∀ l, s.fatalOccurred l = true → t.fatalOccurred l = true := by exact fun _ h => h
  device : s.fault.resetRequired = true → t.fault.resetRequired = true := by exact id
  phase : t.fault.phase = s.fault.phase := by rfl
  registered : t.fault.registered = s.fault.registered := by rfl
  seq : t.seq = { s.seq with leaf := t.seq.leaf } := by rfl
  leaf : L s.seq.leaf t.seq.leaf := by rfl
  inbox : t.io.inbox = s.io.inbox := by rfl
  responses : t.io.responses = s.io.responses := by rfl
  readData : t.io.readData = s.io.readData := by rfl
  env : ∀ q, q ≠ .sinkOk → (t.ask q).1 = (s.ask q).1 := by exact fun q _ => State.ask_congr (by rfl) q
  history : ∃ es, t.io.history = s.io.history ++ es ∧ ∀ e ∈ es, markEvent e := by exact ⟨[], by simp, by simp⟩

/-- The frame of one report with its marking: the values of the HANDLE stay. -/
abbrev Marks : State → State → Prop := MarksWith (fun p q => q = p)

/-- The frame of step 4: of the values of the HANDLE only U and the touched units change. -/
abbrev Classifies : State → State → Prop :=
  MarksWith (fun p q => q = { p with unhandled := q.unhandled, units := q.units })

theorem MarksWith.chains {L} (hr : ∀ p, L p p) (ht : ∀ {p q r}, L p q → L q r → L p r) : Chains (MarksWith L) where
  refl s := { leaf := hr _ }
  trans {s t u} h k := by
    refine ⟨by rw [k.cfg, h.cfg], ?_, ?_, fun l x => k.fatal l (h.fatal l x), fun x => k.device (h.device x),
      by rw [k.phase, h.phase], by rw [k.registered, h.registered], ?_, ht h.leaf k.leaf, by rw [k.inbox, h.inbox],
      by rw [k.responses, h.responses], by rw [k.readData, h.readData],
      fun q hq => by rw [k.env q hq, h.env q hq], ?_⟩
    · intro a ha
      rw [k.cells a (by rw [h.cfg]; exact ha), h.cells a ha]
    · rw [k.hw, h.hw]
    · rw [k.seq, h.seq]
    · obtain ⟨es, e1, m1⟩ := h.history
      obtain ⟨fs, e2, m2⟩ := k.history
      refine ⟨es ++ fs, by rw [e2, e1, List.append_assoc], ?_⟩
      intro e he
      rcases List.mem_append.mp he with he | he
      · exact m1 e he
      · exact m2 e he

theorem Marks.chains : Chains Marks := MarksWith.chains (fun _ => rfl) (fun h k => by rw [k, h])

theorem Classifies.chains : Chains Classifies := MarksWith.chains (fun _ => rfl) (fun h k => by rw [k, h])

theorem Marks.classifies {s t : State} (h : Marks s t) : Classifies s t :=
  ⟨h.cfg, h.cells, h.hw, h.fatal, h.device, h.phase, h.registered, h.seq, by rw [h.leaf], h.inbox, h.responses, h.readData,
    h.env, h.history⟩

/-- An update of H by one classification event is within the frame. -/
theorem Marks.emit (s : State) {e : Event} (h : markEvent e) : Marks s (s.emit e) :=
  { history := ⟨[e], rfl, by simpa using h⟩ }

theorem Marks.ask (s : State) : Marks s (s.ask .sinkOk).2 := by
  have ho : ∀ q, q ≠ .sinkOk → ((s.ask .sinkOk).2.ask q).1 = (s.ask q).1 := fun q hq => State.ask_other s hq
  obtain ⟨env, h⟩ := s.ask_snd .sinkOk
  rw [h] at ho ⊢
  exact { env := ho }

theorem Marks.setFatal (s : State) (l : Nat) : Marks s (s.setFatalOccurred l true) := by
  refine { fatal := ?_ }
  intro j h
  rw [State.setFatalOccurred_read]
  split
  · rfl
  · exact h

theorem Marks.setDevice (s : State) : Marks s (s.setResetRequired true) :=
  { device := fun _ => rfl }

theorem Marks.store (s : State) (r : Reg) (v : Word) (h : scratchCell s.cfg (busAddr r)) : Marks s (s.store r v) := by
  refine { cells := ?_ }
  intro a ha
  rw [State.store_cellAt, if_neg]
  rintro rfl
  exact ha h

theorem Classifies.setLeaf (s : State) (u : Word) (us : List Nat) :
    Classifies s (s.setLeaf { s.seq.leaf with unhandled := u, units := us }) :=
  {}

theorem Classifies.recognise (s : State) (b : Nat) : Classifies s (s.recognise b) := Classifies.setLeaf s _ _

theorem Classifies.touchUnit (s : State) (u : Nat) : Classifies s (s.touchUnit u) :=
  Classifies.setLeaf s s.seq.leaf.unhandled _

theorem Alone.emit {c : Config} {s : State} (h : Alone c s) (e : Event) : Alone c (s.emit e) := h
theorem Alone.ask {c : Config} {s : State} (h : Alone c s) (q : EnvQuery) : Alone c (s.ask q).2 :=
  ⟨by rw [State.ask_io_sched, h.1], by rw [State.ask_cfg, h.2]⟩

/-! ## Forwards and markings (R217, R251) -/

theorem forward_quietly (c : Config) (e : SinkEvent) : Quietly c Marks (forward e) := by
  unfold forward
  refine Quietly.bind Marks.chains (Quietly.emit fun s => Marks.emit s ?_) (fun _ => ?_)
  · cases e <;> trivial
  · refine Quietly.bind Marks.chains (Quietly.askEnv fun s => Marks.ask s) (fun ok => ?_)
    exact Quietly.ite (Quietly.pure Marks.chains _) (Quietly.emit fun s => Marks.emit s trivial)

/-- What a write of an RW register without a side effect does. -/
theorem wr_store {s : State} (h : s.io.sched = []) {r : Reg} {v : Word} (hq : stuckQuery r v = none)
    (ha : access r = .rw) (he : ∀ t old new, State.rwEffect t r old new = t) :
    wr r v s = .ok () ((s.emit (.write r v)).store r (v &&& definedMask s.cfg r)) := by
  rw [wr_quiet h hq]
  simp only [State.applyWrite, ha, he]
  rfl

theorem wr_scratch_quietly (c : Config) {r : Reg} (hs : scratchCell c (busAddr r))
    (hr : r = .scratchDevice ∨ ∃ w, r = .scratchPort w) (v : Word) : Quietly c Marks (wr r v) := by
  intro s h
  refine ⟨(), _, wr_store h.1 ?_ ?_ ?_, h, ?_⟩
  · rcases hr with rfl | ⟨w, rfl⟩ <;> rfl
  · rcases hr with rfl | ⟨w, rfl⟩ <;> rfl
  · rcases hr with rfl | ⟨w, rfl⟩ <;> intros <;> rfl
  · refine Marks.chains.trans (Marks.emit s ?_) (Marks.store _ r _ ?_)
    · rcases hr with rfl | ⟨w, rfl⟩ <;> trivial
    · rw [State.emit_cfg, h.2]; exact hs

theorem div_lt_lmw {c : Config} {l : Nat} (h : l < c.nLink) : l / 32 < lmw c := by
  unfold lmw ceilDiv
  omega

theorem markLink_quietly {c : Config} {l : Nat} (h : l < c.nLink) : Quietly c Marks (markLink l) := by
  unfold markLink
  refine Quietly.get_bind (fun s hs => ?_)
  split
  · exact ⟨(), s, rfl, hs, Marks.chains.refl s⟩
  · refine Quietly.bind Marks.chains (x := modify _) (Quietly.modify (fun s _ => Marks.setFatal s l) (fun s h => h))
      (fun _ => ?_) s hs
    refine Quietly.bind Marks.chains (Quietly.rd Marks.chains _) (fun v => ?_)
    refine Quietly.bind Marks.chains (wr_scratch_quietly c (.inr ⟨l / 32, div_lt_lmw h, rfl⟩) (.inr ⟨_, rfl⟩) _) (fun _ => ?_)
    exact forward_quietly c _

theorem markDevice_quietly (c : Config) : Quietly c Marks markDevice := by
  unfold markDevice
  refine Quietly.get_bind (fun s hs => ?_)
  split
  · exact ⟨(), s, rfl, hs, Marks.chains.refl s⟩
  · refine Quietly.bind Marks.chains (x := modify _) (Quietly.modify (fun s _ => Marks.setDevice s) (fun s h => h))
      (fun _ => ?_) s hs
    exact Quietly.bind Marks.chains (wr_scratch_quietly c (.inl rfl) (.inl rfl) _) (fun _ => forward_quietly c _)

/-- SETFATAL_core stays within the frame, for links there are (R251). -/
theorem setfatalCore_quietly {c : Config} {tgt : Option Nat} (h : ∀ l, tgt = some l → l < c.nLink) (dw : Bool) :
    Quietly c Marks (setfatalCore tgt dw) := by
  unfold setfatalCore
  cases tgt with
  | none => exact Quietly.ite (markDevice_quietly c) (Quietly.pure Marks.chains _)
  | some l =>
    refine Quietly.bind Marks.chains (markLink_quietly (h l rfl)) (fun _ => ?_)
    exact Quietly.ite (markDevice_quietly c) (Quietly.pure Marks.chains _)

/-! ## Reports and logs (R215, R220 to R224) -/

theorem diagnostic_quietly (c : Config) (k : Kind) (i : Nat) (e : Entry) : Quietly c Marks (diagnostic k i e) := by
  unfold diagnostic
  split
  · exact Quietly.pure Marks.chains _
  · exact Quietly.get_bind (fun s hs => ⟨_, s, rfl, hs, Marks.chains.refl s⟩)
  · exact Quietly.bind Marks.chains (Quietly.rd Marks.chains _) (fun _ => Quietly.pure Marks.chains _)
  · split
    · exact Quietly.pure Marks.chains _
    · exact Quietly.bind Marks.chains (Quietly.rd Marks.chains _) (fun _ => Quietly.pure Marks.chains _)
    · exact Quietly.bind Marks.chains (Quietly.rd Marks.chains _) (fun _ => Quietly.pure Marks.chains _)

/-- The targets are links there are. -/
def targetsIn (c : Config) (tgts : List (Option Nat)) : Prop := ∀ l, some l ∈ tgts → l < c.nLink

theorem reportTo_quietly {c : Config} (k : Kind) (b i : Nat) (sev : Severity) (dw : Bool) (d : Diagnostic)
    {tgts : List (Option Nat)} (h : targetsIn c tgts) : Quietly c Marks (reportTo k b i sev dw d tgts) := by
  induction tgts with
  | nil => exact Quietly.pure Marks.chains _
  | cons tgt rest ih =>
    unfold reportTo
    refine Quietly.bind Marks.chains (Quietly.emit fun s => Marks.emit s trivial) (fun _ => ?_)
    have hrest : Quietly c Marks (reportTo k b i sev dw d rest) := ih (fun l hl => h l (by simp [hl]))
    split
    · exact Quietly.bind Marks.chains (setfatalCore_quietly (fun l hl => h l (by simp [hl])) _) (fun _ => hrest)
    · exact hrest

theorem eccLog_quietly (c : Config) (k : Kind) (i u : Nat) (un : Bool) (d : Diagnostic) :
    Quietly c Marks (eccLog k i u un d) := by
  unfold eccLog
  refine Quietly.bind Marks.chains (Quietly.rd Marks.chains _) (fun a => ?_)
  split
  · exact forward_quietly c _
  · exact Quietly.bind Marks.chains (Quietly.rd Marks.chains _) (fun _ => forward_quietly c _)

end Sys2Proof.Machine
end

