-- ==== Sys2Proof/Laws/Events.lean ====
section
/-! SUPPORT. Which reports and log calls the parts of a HANDLE put into H, in order, with no other agent moving
(R215, R216, R220 to R224). -/

namespace Sys2Proof.Machine

/-- The reports and log calls of H. -/
def State.classified (s : State) : List Event := s.io.history.filter isClassified

theorem State.classified_emit (s : State) (e : Event) :
    (s.emit e).classified = s.classified ++ (if isClassified e then [e] else []) := by
  unfold State.classified
  rw [State.emit_io_history, List.filter_append]
  cases h : isClassified e <;> simp [h]

/-- With no other agent moving the action ends with a value and adds exactly these reports and log calls. -/
def Adds (c : Config) (es : List Event) {α : Type} (x : Act α) : Prop :=
  ∀ s, Alone c s → ∃ a t, x s = .ok a t ∧ Alone c t ∧ t.classified = s.classified ++ es

variable {α β : Type} {c : Config}

theorem Adds.pure (a : α) : Adds c [] (pure a : Act α) := fun s h => ⟨a, s, rfl, h, by simp⟩

theorem Adds.bind {es fs : List Event} {x : Act α} {f : α → Act β} (hx : Adds c es x) (hf : ∀ a, Adds c fs (f a)) :
    Adds c (es ++ fs) (x >>= f) := by
  intro s hs
  obtain ⟨a, t, e, ht, r⟩ := hx s hs
  obtain ⟨b, u, e', hu, r'⟩ := hf a t ht
  exact ⟨b, u, by rw [Act.bind_of_ok e, e'], hu, by rw [r', r, List.append_assoc]⟩

theorem Adds.bind_nil {fs : List Event} {x : Act α} {f : α → Act β} (hx : Adds c [] x) (hf : ∀ a, Adds c fs (f a)) :
    Adds c fs (x >>= f) := by simpa using Adds.bind hx hf

theorem Adds.emit (e : Event) : Adds c (if isClassified e then [e] else []) (emit e) :=
  fun s hs => ⟨(), _, rfl, hs, State.classified_emit s e⟩

theorem Adds.modify {g : State → State} (h : ∀ s, (g s).io = s.io) (hc : ∀ s, (g s).cfg = s.cfg) :
    Adds c [] (modify g : Act PUnit) :=
  fun s hs => ⟨_, _, rfl, ⟨by rw [h]; exact hs.1, by rw [hc]; exact hs.2⟩, by unfold State.classified; rw [h]; simp⟩

theorem Adds.rd (r : Reg) : Adds c [] (rd r) := fun s hs => ⟨_, s, rd_quiet hs.1 r, hs, by simp⟩

theorem Adds.askEnv (q : EnvQuery) : Adds c [] (askEnv q) :=
  fun s hs => ⟨_, _, rfl, Alone.ask hs q, by unfold State.classified; simp⟩

theorem Adds.wr_scratch {r : Reg} (hr : r = .scratchDevice ∨ ∃ w, r = .scratchPort w) (v : Word) : Adds c [] (wr r v) := by
  intro s hs
  refine ⟨(), _, wr_store hs.1 ?_ ?_ ?_, hs, ?_⟩
  · rcases hr with rfl | ⟨w, rfl⟩ <;> rfl
  · rcases hr with rfl | ⟨w, rfl⟩ <;> rfl
  · rcases hr with rfl | ⟨w, rfl⟩ <;> intros <;> rfl
  · unfold State.classified
    rw [State.store_io, State.emit_io_history, List.filter_append]
    simp [isClassified]

/-- The event a forward puts into H before its outcome (R217). -/
def SinkEvent.event : SinkEvent → Event
  | .notify n => .notify n
  | .eccLog l => .eccLog l

theorem forward_adds (e : SinkEvent) : Adds c (if isClassified e.event then [e.event] else []) (forward e) := by
  unfold forward
  have : Adds c ((if isClassified e.event then [e.event] else []) ++ [])
      (do emit e.event; let ok ← askEnv .sinkOk; if ok then pure () else emit (.sinkFailure e)) := by
    refine Adds.bind (Adds.emit _) (fun _ => Adds.bind_nil (Adds.askEnv _) (fun ok => ?_))
    cases ok
    · simpa [isClassified] using Adds.emit (c := c) (.sinkFailure e)
    · exact Adds.pure ()
  rw [List.append_nil] at this
  cases e <;> exact this

theorem markLink_adds (l : Nat) : Adds c [] (markLink l) := by
  intro s hs
  unfold markLink
  rw [Act.get_bind]
  split
  · exact Adds.pure () s hs
  · exact Adds.bind_nil (Adds.modify (g := fun s => s.setFatalOccurred l true) (fun _ => rfl) (fun _ => rfl)) (fun _ =>
      Adds.bind_nil (Adds.rd _) (fun v => Adds.bind_nil (Adds.wr_scratch (.inr ⟨_, rfl⟩) _) (fun _ =>
        forward_adds (.notify (.portDown l))))) s hs

theorem markDevice_adds : Adds c [] markDevice := by
  intro s hs
  unfold markDevice
  rw [Act.get_bind]
  split
  · exact Adds.pure () s hs
  · exact Adds.bind_nil (Adds.modify (g := fun s => s.setResetRequired true) (fun _ => rfl) (fun _ => rfl)) (fun _ =>
      Adds.bind_nil (Adds.wr_scratch (.inl rfl) _) (fun _ => forward_adds (.notify .deviceDown))) s hs

theorem setfatalCore_adds (tgt : Option Nat) (dw : Bool) : Adds c [] (setfatalCore tgt dw) := by
  have hdev : Adds c [] (if dw = true then markDevice else pure ()) := by
    cases dw
    · exact Adds.pure ()
    · exact markDevice_adds
  unfold setfatalCore
  cases tgt with
  | none => exact hdev
  | some l => exact Adds.bind_nil (markLink_adds l) (fun _ => hdev)

/-- One Report a target (R224). -/
theorem reportTo_adds (k : Kind) (b i : Nat) (sev : Severity) (dw : Bool) (d : Diagnostic) (tgts : List (Option Nat)) :
    Adds c (tgts.map (fun tgt => reportEvent k b i tgt sev d)) (reportTo k b i sev dw d tgts) := by
  induction tgts with
  | nil => exact Adds.pure ()
  | cons tgt rest ih =>
    unfold reportTo
    rw [List.map_cons, ← List.singleton_append]
    refine Adds.bind (Adds.emit (.report { kind := k, bit := b, inst := i, link := tgt, sev := sev, diag := d })) (fun _ => ?_)
    split
    · exact Adds.bind_nil (setfatalCore_adds _ _) (fun _ => ih)
    · exact ih

/-- The diagnostic payload (R221), the capture buffer being as step 3 left it. -/
theorem diagnostic_value (k : Kind) (i : Nat) (e : Entry) {s : State} (hs : s.io.sched = [])
    (hc : s.seq.captured = s.seq.cap.length) : diagnostic k i e s = .ok (s.diagnosticOf k i s.seq.cap e) s := by
  unfold diagnostic State.diagnosticOf
  cases e.diag with
  | none => rfl
  | rawBlock =>
    change EStateM.Result.ok (Diagnostic.rawBlock s.seq.cap s.seq.captured) s = _
    rw [hc]
  | addressFault => simp only []; rw [Act.bind_of_ok (rd_quiet hs _)]; rfl
  | eccCounter =>
    cases e.ecc with
    | notEcc => rfl
    | eccLimit u => simp only []; rw [Act.bind_of_ok (rd_quiet hs _)]; rfl
    | eccDbe u => simp only []; rw [Act.bind_of_ok (rd_quiet hs _)]; rfl

/-- A diagnostic's count is the counter's value. -/
theorem diagnosticOf_count {s : State} {k : Kind} {i : Nat} {cap : List Word} {e : Entry} {v : Word} {un : Bool} {u : Nat}
    (h : s.diagnosticOf k i cap e = .eccCounter v un) (hu : e.ecc = .eccLimit u ∨ e.ecc = .eccDbe u) :
    v = s.field (.node k i (.eccCount u)) := by
  unfold State.diagnosticOf at h
  split at h <;> try cases h
  rcases hu with hu | hu <;> rw [hu] at h <;> cases h <;> rfl

/-- The persistent-log call (R223), `d` being a payload whose count, if it has one, is the counter's. -/
theorem eccLog_adds (k : Kind) (i u : Nat) (un : Bool) (d : Diagnostic) {s : State} (hs : Alone c s)
    (hd : ∀ v w, d = .eccCounter v w → v = s.field (.node k i (.eccCount u))) :
    ∃ t, eccLog k i u un d s = .ok () t ∧ Alone c t ∧ t.classified = s.classified ++ [s.eccLogOf k i u un] := by
  unfold eccLog
  rw [Act.bind_of_ok (rd_quiet hs.1 _)]
  have key : ∀ v, v = s.field (.node k i (.eccCount u)) → ∃ t, forward (.eccLog { kind := k, unit := u, link := logLink k i, valid := (readReg s (.node k i (.eccAddr u))).getLsbD 31, addr := (readReg s (.node k i (.eccAddr u))).extractLsb' 0 31, uncorrectable := un, count := v }) s = .ok () t ∧ Alone c t ∧ t.classified = s.classified ++ [s.eccLogOf k i u un] := by
    rintro v rfl
    obtain ⟨_, t, e, a, h⟩ := forward_adds (c := c) (.eccLog { kind := k, unit := u, link := logLink k i, valid := (readReg s (.node k i (.eccAddr u))).getLsbD 31, addr := (readReg s (.node k i (.eccAddr u))).extractLsb' 0 31, uncorrectable := un, count := s.field (.node k i (.eccCount u)) }) s hs
    exact ⟨t, e, a, h⟩
  split
  · exact key _ (hd _ _ rfl)
  · rw [Act.bind_of_ok (rd_quiet hs.1 _)]
    exact key _ rfl

theorem logIfEcc_adds (k : Kind) (i : Nat) (e : Entry) (d : Diagnostic) {s : State} (hs : Alone c s)
    (hd : ∀ u, e.ecc = .eccLimit u ∨ e.ecc = .eccDbe u → ∀ v w, d = .eccCounter v w → v = s.field (.node k i (.eccCount u))) :
    ∃ t, logIfEcc k i e d s = .ok () t ∧ Alone c t ∧ t.classified = s.classified ++ s.eccLogsOf k i e := by
  unfold logIfEcc State.eccLogsOf
  cases he : e.ecc with
  | notEcc => exact ⟨s, rfl, hs, by simp⟩
  | eccLimit u =>
    obtain ⟨t, e1, a, h⟩ := eccLog_adds k i u false d hs (hd u (.inl he))
    exact ⟨t.touchUnit u, by simp only []; rw [Act.bind_of_ok e1]; rfl, a, h⟩
  | eccDbe u =>
    obtain ⟨t, e1, a, h⟩ := eccLog_adds k i u true d hs (hd u (.inr he))
    exact ⟨t.touchUnit u, by simp only []; rw [Act.bind_of_ok e1]; rfl, a, h⟩

/-- The registers of a node that classification of an entry reads (R221, R223). -/
def entryRegs (e : Entry) : List NodeReg :=
  .errAddr :: (match e.ecc with
    | .notEcc => []
    | .eccLimit u => [.eccCount u, .eccAddr u]
    | .eccDbe u => [.eccCount u, .eccAddr u])

/-- Two states with the same registers to read give a bit the same events. -/
theorem bitEvents_congr {s t : State} {k : Kind} {i : Nat} (hc : t.cfg = s.cfg) {p cn : Word} {cap : List Word} {b : Nat}
    (h : ∀ e, table s.cfg k b = some e → ∀ r ∈ entryRegs e, t.field (.node k i r) = s.field (.node k i r)) :
    t.bitEvents k i p cn cap b = s.bitEvents k i p cn cap b := by
  unfold State.bitEvents
  rw [hc]
  cases hr : reportable s.cfg k p b with
  | none => rfl
  | some e =>
    have ht : table s.cfg k b = some e := by
      unfold reportable at hr
      cases ht : table s.cfg k b with
      | none => rw [ht] at hr; cases hr
      | some e' =>
        rw [ht] at hr
        simp only [] at hr
        split at hr
        · cases hr
        · exact hr
    have h := h e ht
    have ha := h .errAddr (by simp [entryRegs])
    have hd : t.diagnosticOf k i cap e = s.diagnosticOf k i cap e := by
      unfold State.diagnosticOf
      rw [ha]
      cases he : e.ecc with
      | notEcc => rfl
      | eccLimit u => simp only [h (.eccCount u) (by simp [entryRegs, he])]
      | eccDbe u => simp only [h (.eccCount u) (by simp [entryRegs, he])]
    have hl : t.eccLogsOf k i e = s.eccLogsOf k i e := by
      unfold State.eccLogsOf State.eccLogOf
      cases he : e.ecc with
      | notEcc => rfl
      | eccLimit u => simp only []; rw [h (.eccCount u) (by simp [entryRegs, he]), h (.eccAddr u) (by simp [entryRegs, he])]
      | eccDbe u => simp only []; rw [h (.eccCount u) (by simp [entryRegs, he]), h (.eccAddr u) (by simp [entryRegs, he])]
    simp only [hd, hl]

/-- Capture (R215): the first CAP_WORDS of the listed registers. -/
theorem capture_value (k : Kind) (i : Nat) (rs : List NodeReg) {s : State} (hs : s.io.sched = []) :
    ∃ t, capture k i rs s = .ok () t
      ∧ t = { s with seq := { s.seq with cap := t.seq.cap, captured := t.seq.captured } }
      ∧ t.seq.cap = s.seq.cap ++ (rs.take (s.cfg.capWords - s.seq.captured)).map (fun r => s.field (.node k i r))
      ∧ (s.seq.captured = s.seq.cap.length → t.seq.captured = t.seq.cap.length) := by
  induction rs generalizing s with
  | nil => exact ⟨s, rfl, rfl, by simp, id⟩
  | cons r rs ih =>
    unfold capture
    rw [Act.get_bind, Act.get_bind]
    split
    · rename_i hlt
      rw [Act.bind_of_ok (rd_quiet hs _), Act.modify_bind]
      obtain ⟨t, e, ht, hcap, hcnt⟩ := ih (s := s.pushCap (readReg s (.node k i r))) hs
      refine ⟨t, e, ht, ?_, ?_⟩
      · rw [hcap]
        obtain ⟨n, hn⟩ : ∃ n, s.cfg.capWords - s.seq.captured = n + 1 := ⟨s.cfg.capWords - s.seq.captured - 1, by omega⟩
        have hn' : (s.pushCap (readReg s (.node k i r))).cfg.capWords
            - (s.pushCap (readReg s (.node k i r))).seq.captured = n := by
          change s.cfg.capWords - (s.seq.captured + 1) = n
          omega
        rw [hn, hn', List.take_succ_cons, List.map_cons]
        change s.seq.cap ++ [readReg s (.node k i r)] ++ _ = _
        rw [List.append_assoc]
        rfl
      · intro h
        exact hcnt (by change s.seq.captured + 1 = (s.seq.cap ++ [_]).length; simp [h])
    · rename_i hge
      obtain ⟨t, e, ht, hcap, hcnt⟩ := ih hs
      refine ⟨t, e, ht, ?_, hcnt⟩
      rw [hcap]
      have : s.cfg.capWords - s.seq.captured = 0 := by omega
      rw [this, List.take_zero, List.take_zero]

end Sys2Proof.Machine
end

