-- ==== Sys2Proof/Laws/Classify.lean ====
section
/-! SUPPORT. Step 4 of a HANDLE with no other agent moving (R216, R222 to R224): which bits leave U, which ECC units are
touched, which reports are made and which flags are set. -/

namespace Sys2Proof.Machine

/-- The ECC unit of a table entry (R8). -/
def unitOf (e : Entry) : Option Nat :=
  match e.ecc with
  | .notEcc => none
  | .eccLimit u => some u
  | .eccDbe u => some u

theorem getLsbD_bit (b j : Nat) : (bit b).getLsbD j = (decide (j = b) && decide (b < 32)) := by
  unfold bit
  rw [BitVec.getLsbD_twoPow]
  by_cases h : j = b
  · subst h; simp
  · simp [h, Ne.symm h]

/-- Clearing one bit. -/
theorem getLsbD_and_not_bit (w : Word) (b j : Nat) : (w &&& ~~~bit b).getLsbD j = (w.getLsbD j && !decide (j = b)) := by
  by_cases hj : j < 32
  · rw [BitVec.getLsbD_and, BitVec.getLsbD_not, getLsbD_bit]
    by_cases h : j = b
    · subst h; simp [hj]
    · simp [hj, h]
  · rw [BitVec.getLsbD_of_ge _ _ (by omega), BitVec.getLsbD_of_ge _ _ (by omega)]; rfl

theorem mem_setBits {w : Word} {b : Nat} : b ∈ setBits w ↔ w.getLsbD b = true := by
  unfold setBits
  rw [List.mem_filter, List.mem_range]
  refine ⟨fun h => h.2, fun h => ⟨?_, h⟩⟩
  by_contra hb
  rw [BitVec.getLsbD_of_ge _ _ (by omega)] at h
  exact Bool.noConfusion h

/-! ## The targets are links there are -/

theorem mem_linksOfLm {c : Config} {m l : Nat} (h : l ∈ linksOfLm c m) : l < c.nLink := by
  unfold linksOfLm at h
  exact List.mem_range.mp (List.mem_of_mem_filter h)

theorem mem_linksOfPg {c : Config} {g l : Nat} (h : l ∈ linksOfPg c g) : l < c.nLink := by
  unfold linksOfPg at h
  exact List.mem_range.mp (List.mem_of_mem_filter h)

/-- An owner link is a link (R231). -/
theorem ownerLink_lt {c : Config} {k : Kind} {i l : Nat} (hn : nodeExists c k i = true) (h : ownerLink k i = some l) :
    l < c.nLink := by
  simp only [nodeExists, Bool.and_eq_true, decide_eq_true_eq] at hn
  unfold ownerLink at h
  split at h
  · rename_i hk
    cases h
    cases k <;> first | exact hn.1 | (exfalso; revert hk; decide)
  · cases h

theorem handleAdmitted_targets {c : Config} {k : Kind} {i : Nat} {t : Tree} (h : handleAdmitted c k i t = true) :
    targetsIn c (targets c k i) := by
  intro l hl
  simp only [handleAdmitted, Bool.and_eq_true] at h
  have h := h.2
  unfold targets at hl
  split at hl
  · split at hl
    · simp at hl
    · simp only [List.mem_map, Option.some.injEq, exists_eq_right] at hl
      exact mem_linksOfLm hl
  · simp only [List.mem_singleton, Option.some.injEq] at hl
    subst hl
    simp only [Bool.and_eq_true, decide_eq_true_eq] at h
    exact h.1
  · rename_i hk1 hk2
    simp only [List.mem_singleton] at hl
    exact ownerLink_lt (k := k) (by cases k <;> first | exact h | exact absurd rfl hk2) hl.symm

/-! ## Marking -/

theorem forward_alone (e : SinkEvent) (s : State) : ∃ t, forward e s = .ok () t ∧ t.fault = s.fault ∧ t.hw = s.hw ∧ t.cfg = s.cfg := by
  unfold forward
  rw [Act.bind_of_ok (emit_apply _ s), Act.bind_of_ok (askEnv_apply _ _)]
  cases e <;> simp only []
  all_goals
    split <;> exact ⟨_, rfl, by simp, by simp, by simp⟩

/-- The link part of SETFATAL_core sets the flag and leaves the others, and the device's (R251). -/
theorem markLink_fault {c : Config} {l : Nat} {s : State} (hs : Alone c s) :
    ∃ t, markLink l s = .ok () t ∧ (∀ j, t.fatalOccurred j = (decide (j = l) || s.fatalOccurred j))
      ∧ t.fault.resetRequired = s.fault.resetRequired := by
  unfold markLink
  rw [Act.get_bind]
  split
  · rename_i h
    refine ⟨s, rfl, fun j => ?_, rfl⟩
    by_cases hj : j = l
    · subst hj; simp [h]
    · simp [hj]
  · rw [Act.modify_bind, Act.bind_of_ok (rd_quiet (by exact hs.1) _)]
    rw [Act.bind_of_ok (wr_store (by exact hs.1) rfl rfl (fun _ _ _ => rfl))]
    obtain ⟨t, ht, hf, -, -⟩ := forward_alone (.notify (.portDown l))
      ((((s.setFatalOccurred l true)).emit (.write (.scratchPort (l / 32))
        (readReg (s.setFatalOccurred l true) (.scratchPort (l / 32)) ||| bit (l % 32)))).store (.scratchPort (l / 32))
        ((readReg (s.setFatalOccurred l true) (.scratchPort (l / 32)) ||| bit (l % 32))
          &&& definedMask (s.setFatalOccurred l true).cfg (.scratchPort (l / 32))))
    refine ⟨t, ht, fun j => ?_, ?_⟩
    · have : t.fatalOccurred j = (s.setFatalOccurred l true).fatalOccurred j := by
        unfold State.fatalOccurred; rw [hf]; rfl
      rw [this, State.setFatalOccurred_read]
      by_cases hj : j = l <;> simp [hj]
    · rw [hf]; rfl

theorem markDevice_fault {c : Config} {s : State} (hs : Alone c s) :
    ∃ t, markDevice s = .ok () t ∧ t.fault.fatalOccurred = s.fault.fatalOccurred ∧ t.fault.resetRequired = true := by
  unfold markDevice
  rw [Act.get_bind]
  split
  · rename_i h
    exact ⟨s, rfl, rfl, h⟩
  · rw [Act.modify_bind, Act.bind_of_ok (wr_store (by exact hs.1) rfl rfl (fun _ _ _ => rfl))]
    obtain ⟨t, ht, hf, -, -⟩ := forward_alone (.notify .deviceDown) (((s.setResetRequired true).emit (.write .scratchDevice 1#32)).store
      .scratchDevice (1#32 &&& definedMask (s.setResetRequired true).cfg .scratchDevice))
    exact ⟨t, ht, by rw [hf]; rfl, by rw [hf]; rfl⟩

/-- SETFATAL_core: exactly the target link's flag and, device-wide, the device's are set (R251, R254). -/
theorem setfatalCore_fault {c : Config} {s : State} (tgt : Option Nat) (h : ∀ l, tgt = some l → l < c.nLink) (dw : Bool)
    (hs : Alone c s) :
    ∃ t, setfatalCore tgt dw s = .ok () t ∧ (∀ j, t.fatalOccurred j = (decide (tgt = some j) || s.fatalOccurred j))
      ∧ t.fault.resetRequired = (dw || s.fault.resetRequired) := by
  have hdev : ∀ u : State, Alone c u → ∃ t, (if dw = true then markDevice else pure ()) u = .ok () t
      ∧ t.fault.fatalOccurred = u.fault.fatalOccurred ∧ t.fault.resetRequired = (dw || u.fault.resetRequired) := by
    intro u hu
    cases dw with
    | false => exact ⟨u, rfl, rfl, by simp⟩
    | true =>
      obtain ⟨t, e, f, r⟩ := markDevice_fault hu
      exact ⟨t, e, f, by simp [r]⟩
  unfold setfatalCore
  cases tgt with
  | none =>
    obtain ⟨t, e, f, r⟩ := hdev s hs
    refine ⟨t, e, fun j => ?_, r⟩
    have : t.fatalOccurred j = s.fatalOccurred j := by unfold State.fatalOccurred; rw [f]
    simp [this]
  | some l =>
    obtain ⟨u, e, f, r⟩ := markLink_fault (l := l) hs
    obtain ⟨_, u', e', hu', -⟩ := markLink_quietly (h l rfl) s hs
    rw [e] at e'
    cases e'
    obtain ⟨t, e2, f2, r2⟩ := hdev u hu'
    refine ⟨t, by simp only []; rw [Act.bind_of_ok e]; exact e2, fun j => ?_, by rw [r2, r]⟩
    have : t.fatalOccurred j = u.fatalOccurred j := by unfold State.fatalOccurred; rw [f2]
    rw [this, f]
    by_cases hj : j = l
    · simp [hj]
    · simp [hj, Ne.symm hj]

/-- One Report a target, and exactly the marks of a fatal bit (R224). -/
theorem reportTo_spec {c : Config} (k : Kind) (b i : Nat) (sev : Severity) (dw : Bool) (d : Diagnostic)
    {tgts : List (Option Nat)} (h : targetsIn c tgts) {s : State} (hs : Alone c s) :
    ∃ t, reportTo k b i sev dw d tgts s = .ok () t
      ∧ (∀ j, t.fatalOccurred j = (marksLink sev tgts j || s.fatalOccurred j))
      ∧ t.fault.resetRequired = (marksDevice sev dw tgts || s.fault.resetRequired) := by
  induction tgts generalizing s with
  | nil => exact ⟨s, rfl, by simp [marksLink], by simp [marksDevice]⟩
  | cons tgt rest ih =>
    have hrest : targetsIn c rest := fun l hl => h l (by simp [hl])
    have hl : ∀ l, tgt = some l → l < c.nLink := fun l hl => h l (by simp [hl])
    unfold reportTo
    rw [Act.bind_of_ok (emit_apply _ s)]
    by_cases hf : sev = .fatal
    · rw [if_pos hf]
      obtain ⟨u, e, f, r⟩ := setfatalCore_fault tgt hl (dw || tgt.isNone) (Alone.emit hs
        (.report { kind := k, bit := b, inst := i, link := tgt, sev := sev, diag := d }))
      obtain ⟨_, u', e', hu', hm⟩ := setfatalCore_quietly hl (dw || tgt.isNone) _ (Alone.emit hs
        (.report { kind := k, bit := b, inst := i, link := tgt, sev := sev, diag := d }))
      rw [e] at e'
      cases e'
      obtain ⟨t, e2, f2, r2⟩ := ih hrest hu'
      refine ⟨t, by rw [Act.bind_of_ok e]; exact e2, fun j => ?_, ?_⟩
      · rw [f2, f]
        by_cases hj : tgt = some j
        · simp [marksLink, hf, hj]
        · simp [marksLink, hf, hj, Ne.symm hj]
      · rw [r2, r]
        simp only [marksDevice, hf, List.any_cons]
        cases (dw || tgt.isNone) <;> simp
    · rw [if_neg hf]
      obtain ⟨t, e2, f2, r2⟩ := ih hrest (Alone.emit hs
        (.report { kind := k, bit := b, inst := i, link := tgt, sev := sev, diag := d }))
      refine ⟨t, e2, fun j => ?_, ?_⟩
      · rw [f2]; simp [marksLink, hf]
      · rw [r2]; simp [marksDevice, hf]

/-! ## One bit, then all bits of the mask (R216) -/

theorem Quietly.run {α : Type} {c : Config} {R : State → State → Prop} {x : Act α} (h : Quietly c R x) {s : State}
    (hs : Alone c s) : ∃ a t, x s = .ok a t ∧ Alone c t ∧ R s t := h s hs

/-- The units after a bit with entry `e` was serviced. -/
theorem touchUnitOf_units (e : Entry) (s : State) (u : Nat) :
    u ∈ (touchUnitOf e s).seq.leaf.units ↔ u ∈ s.seq.leaf.units ∨ unitOf e = some u := by
  have key : ∀ v : Nat, u ∈ (s.touchUnit v).seq.leaf.units ↔ u ∈ s.seq.leaf.units ∨ v = u := by
    intro v
    simp only [State.touchUnit, State.setLeaf_seq_leaf]
    split
    · rename_i hv
      simp only [List.contains_iff_mem] at hv
      constructor
      · exact .inl
      · rintro (h | rfl)
        · exact h
        · exact hv
    · simp [eq_comm]
  unfold touchUnitOf unitOf
  cases e.ecc with
  | notEcc => simp
  | eccLimit v => simpa using key v
  | eccDbe v => simpa using key v

theorem Classifies.touchUnitOf (e : Entry) (s : State) : Classifies s (touchUnitOf e s) := by
  unfold Machine.touchUnitOf
  cases e.ecc with
  | notEcc => exact Classifies.chains.refl s
  | eccLimit v => exact Classifies.touchUnit s v
  | eccDbe v => exact Classifies.touchUnit s v

theorem Alone.touchUnitOf {c : Config} {s : State} (h : Alone c s) (e : Entry) : Alone c (touchUnitOf e s) := by
  unfold Machine.touchUnitOf
  cases e.ecc <;> exact h

theorem touchUnitOf_leaf (e : Entry) (s : State) :
    (touchUnitOf e s).seq.leaf.unhandled = s.seq.leaf.unhandled ∧ (touchUnitOf e s).fault = s.fault
      ∧ (touchUnitOf e s).io = s.io := by
  unfold touchUnitOf
  cases e.ecc <;> exact ⟨rfl, rfl, rfl⟩

/-- The log and the touched unit of a reported bit: the flags stay. -/
theorem logIfEcc_spec {c : Config} (k : Kind) (i : Nat) (e : Entry) (d : Diagnostic) {s : State} (hs : Alone c s) :
    ∃ t, logIfEcc k i e d s = .ok () t ∧ Alone c t ∧ Classifies s t ∧ t.fault = s.fault
      ∧ t.seq.leaf = (touchUnitOf e s).seq.leaf := by
  have hlog : ∀ u un, ∃ t, eccLog k i u un d s = .ok () t ∧ Alone c t ∧ Marks s t ∧ t.fault = s.fault := by
    intro u un
    obtain ⟨_, t, e1, a, m⟩ := (eccLog_quietly c k i u un d).run hs
    refine ⟨t, e1, a, m, ?_⟩
    unfold eccLog at e1
    rw [Act.bind_of_ok (rd_quiet hs.1 _)] at e1
    split at e1
    · obtain ⟨t', h1, h2, -⟩ := forward_alone (.eccLog { kind := k, unit := u, link := logLink k i, valid := (readReg s (.node k i (.eccAddr u))).getLsbD 31, addr := (readReg s (.node k i (.eccAddr u))).extractLsb' 0 31, uncorrectable := un, count := ‹Word› }) s
      rw [h1] at e1
      cases e1
      exact h2
    · rw [Act.bind_of_ok (rd_quiet hs.1 _)] at e1
      obtain ⟨t', h1, h2, -⟩ := forward_alone (.eccLog { kind := k, unit := u, link := logLink k i, valid := (readReg s (.node k i (.eccAddr u))).getLsbD 31, addr := (readReg s (.node k i (.eccAddr u))).extractLsb' 0 31, uncorrectable := un, count := readReg s (.node k i (.eccCount u)) }) s
      rw [h1] at e1
      cases e1
      exact h2
  unfold logIfEcc
  cases he : e.ecc with
  | notEcc => exact ⟨s, rfl, hs, Classifies.chains.refl s, rfl, by simp [touchUnitOf, he]⟩
  | eccLimit u =>
    obtain ⟨t, e1, a, m, f⟩ := hlog u false
    refine ⟨t.touchUnit u, by simp only []; rw [Act.bind_of_ok e1]; rfl, a, Classifies.chains.trans m.classifies (Classifies.touchUnit t u), f, ?_⟩
    simp only [touchUnitOf, he, State.touchUnit, State.setLeaf_seq_leaf, m.leaf]
  | eccDbe u =>
    obtain ⟨t, e1, a, m, f⟩ := hlog u true
    refine ⟨t.touchUnit u, by simp only []; rw [Act.bind_of_ok e1]; rfl, a, Classifies.chains.trans m.classifies (Classifies.touchUnit t u), f, ?_⟩
    simp only [touchUnitOf, he, State.touchUnit, State.setLeaf_seq_leaf, m.leaf]

/-- What the classification of one bit does (R216, R222, R223, R224). -/
structure BitDone (c : Config) (k : Kind) (i b : Nat) (s t : State) : Prop where
  frame : Classifies s t
  unhandled : t.seq.leaf.unhandled =
    if (table c k b).isSome then s.seq.leaf.unhandled &&& ~~~bit b else s.seq.leaf.unhandled
  units : ∀ u, u ∈ t.seq.leaf.units ↔ u ∈ s.seq.leaf.units ∨ ∃ e, table c k b = some e ∧ unitOf e = some u
  events : t.classified = s.classified ++ s.bitEvents k i s.seq.leaf.pending s.seq.leaf.contain s.seq.cap b
  links : ∀ j, t.fatalOccurred j = (s.fatalOccurred j || (match reportable c k s.seq.leaf.pending b with
    | some e => marksLink (effSev e (s.seq.leaf.contain.getLsbD b)) (targets c k i) j
    | none => false))
  device : t.fault.resetRequired = (s.fault.resetRequired || (match reportable c k s.seq.leaf.pending b with
    | some e => marksDevice (effSev e (s.seq.leaf.contain.getLsbD b)) e.deviceWide (targets c k i)
    | none => false))

/-- The registers an entry's classification reads are none that a marking writes. -/
def ReadsApart (c : Config) (k : Kind) (i : Nat) : Prop :=
  ∀ b e, table c k b = some e → ∀ r ∈ entryRegs e, ¬ scratchCell c (busAddr (.node k i r))

/-- A register that no marking writes keeps its field. -/
theorem MarksWith.field {L} {s t : State} (h : MarksWith L s t) {r : Reg} (hr : ¬ scratchCell s.cfg (busAddr r)) :
    t.field r = s.field r := by
  unfold State.field
  rw [State.load_eq_cellAt, State.load_eq_cellAt, h.cells _ hr, h.cfg]

theorem classifyBit_spec {c : Config} {k : Kind} {i : Nat} (b : Nat) (ht : targetsIn c (targets c k i))
    (ha : ReadsApart c k i) {s : State} (hs : Alone c s) (hcap : s.seq.captured = s.seq.cap.length) :
    ∃ t, classifyBit k i b s = .ok () t ∧ Alone c t ∧ BitDone c k i b s t := by
  have hc : s.cfg = c := hs.2
  unfold classifyBit
  rw [Act.get_bind, hc]
  cases htab : table c k b with
  | none =>
    refine ⟨s, rfl, hs, Classifies.chains.refl s, ?_, ?_, ?_, ?_, ?_⟩ <;> simp [htab, reportable, State.bitEvents, hc]
  | some e =>
    simp only []
    split
    · rename_i hd
      have hrep : reportable c k s.seq.leaf.pending b = none := by simp [reportable, htab, hd]
      obtain ⟨h1, h2, h3⟩ := touchUnitOf_leaf e s
      refine ⟨(touchUnitOf e s).recognise b, rfl, Alone.touchUnitOf hs e,
        Classifies.chains.trans (Classifies.touchUnitOf e s) (Classifies.recognise _ b), ?_, ?_, ?_, ?_, ?_⟩
      · simp [htab, State.recognise, h1]
      · intro u
        simp only [State.recognise, State.setLeaf_seq_leaf, touchUnitOf_units, htab, Option.some.injEq, exists_eq_left']
      · unfold State.bitEvents State.classified
        rw [hc, hrep]
        simp only [State.recognise, State.setLeaf_io, h3, List.append_nil]
      · intro j
        rw [hrep, Bool.or_false]
        unfold State.fatalOccurred
        simp only [State.recognise, State.setLeaf_fault, h2]
      · rw [hrep, Bool.or_false]
        simp only [State.recognise, State.setLeaf_fault, h2]
    · rename_i hd
      have hrep : reportable c k s.seq.leaf.pending b = some e := by simp [reportable, htab, hd]
      rw [Act.bind_of_ok (diagnostic_value k i e hs.1 hcap)]
      generalize hdg : s.diagnosticOf k i s.seq.cap e = d
      obtain ⟨u, e1, f1, r1⟩ := reportTo_spec k b i (effSev e (s.seq.leaf.contain.getLsbD b)) e.deviceWide d ht hs
      obtain ⟨_, u', e1', hu, m1⟩ := (reportTo_quietly k b i (effSev e (s.seq.leaf.contain.getLsbD b)) e.deviceWide d ht).run hs
      rw [e1] at e1'
      cases e1'
      obtain ⟨_, u', e1', -, c1⟩ := reportTo_adds k b i (effSev e (s.seq.leaf.contain.getLsbD b)) e.deviceWide d (targets c k i) s hs
      rw [e1] at e1'
      cases e1'
      have hfld : ∀ r ∈ entryRegs e, u.field (.node k i r) = s.field (.node k i r) := fun r hr =>
        m1.field (by rw [hc]; exact ha b e htab r hr)
      obtain ⟨v, e2, hv, m2, f2, l2⟩ := logIfEcc_spec k i e d hu
      obtain ⟨v', e2', -, c2⟩ := logIfEcc_adds k i e d hu (by
        intro x hx v w hvw
        rw [hfld _ (by rcases hx with hx | hx <;> simp [entryRegs, hx])]
        exact diagnosticOf_count (hdg.trans hvw) hx)
      rw [e2] at e2'
      cases e2'
      rw [Act.bind_of_ok e1, Act.bind_of_ok e2]
      obtain ⟨h1, h2, h3⟩ := touchUnitOf_leaf e u
      have hleaf : u.seq.leaf = s.seq.leaf := m1.leaf
      refine ⟨v.recognise b, rfl, hv,
        Classifies.chains.trans (Classifies.chains.trans m1.classifies m2) (Classifies.recognise _ b), ?_, ?_, ?_, ?_, ?_⟩
      · simp [htab, State.recognise, l2, h1, hleaf]
      · intro x
        simp only [State.recognise, State.setLeaf_seq_leaf, l2, touchUnitOf_units, htab, Option.some.injEq, exists_eq_left', hleaf]
      · have hl : u.eccLogsOf k i e = s.eccLogsOf k i e := by
          unfold State.eccLogsOf State.eccLogOf
          cases he : e.ecc with
          | notEcc => rfl
          | eccLimit x => simp only []; rw [hfld (.eccCount x) (by simp [entryRegs, he]), hfld (.eccAddr x) (by simp [entryRegs, he])]
          | eccDbe x => simp only []; rw [hfld (.eccCount x) (by simp [entryRegs, he]), hfld (.eccAddr x) (by simp [entryRegs, he])]
        have hv' : (v.recognise b).classified = v.classified := rfl
        rw [hv', c2, c1, hl, List.append_assoc]
        unfold State.bitEvents
        rw [hc, hrep]
        simp only [hdg]
      · intro j
        rw [hrep]
        have : (v.recognise b).fatalOccurred j = u.fatalOccurred j := by
          unfold State.fatalOccurred
          simp only [State.recognise, State.setLeaf_fault, f2]
        rw [this, f1, Bool.or_comm]
      · rw [hrep]
        simp only [State.recognise, State.setLeaf_fault, f2, r1]
        rw [Bool.or_comm]

/-- What the classification of the set bits of the mask does, for the bits `bs`. -/
structure BitsDone (c : Config) (k : Kind) (i : Nat) (bs : List Nat) (s t : State) : Prop where
  frame : Classifies s t
  unhandled : ∀ j, t.seq.leaf.unhandled.getLsbD j =
    (s.seq.leaf.unhandled.getLsbD j && !(decide (j ∈ bs) && s.seq.leaf.mask.getLsbD j && (table c k j).isSome))
  units : ∀ u, u ∈ t.seq.leaf.units ↔ u ∈ s.seq.leaf.units
    ∨ ∃ b ∈ bs, s.seq.leaf.mask.getLsbD b = true ∧ ∃ e, table c k b = some e ∧ unitOf e = some u
  events : t.classified = s.classified ++ (bs.filter (fun b => s.seq.leaf.mask.getLsbD b)).flatMap
    (s.bitEvents k i s.seq.leaf.pending s.seq.leaf.contain s.seq.cap)
  links : ∀ j, t.fatalOccurred j = true ↔ s.fatalOccurred j = true
    ∨ ∃ b ∈ bs, s.seq.leaf.mask.getLsbD b = true ∧ ∃ e, reportable c k s.seq.leaf.pending b = some e
        ∧ marksLink (effSev e (s.seq.leaf.contain.getLsbD b)) (targets c k i) j = true
  device : t.fault.resetRequired = true ↔ s.fault.resetRequired = true
    ∨ ∃ b ∈ bs, s.seq.leaf.mask.getLsbD b = true ∧ ∃ e, reportable c k s.seq.leaf.pending b = some e
        ∧ marksDevice (effSev e (s.seq.leaf.contain.getLsbD b)) e.deviceWide (targets c k i) = true

theorem Classifies.leaf_fields {s t : State} (h : Classifies s t) :
    t.seq.leaf.mask = s.seq.leaf.mask ∧ t.seq.leaf.pending = s.seq.leaf.pending
      ∧ t.seq.leaf.contain = s.seq.leaf.contain := by
  rw [h.leaf]; exact ⟨rfl, rfl, rfl⟩

theorem classifyBits_spec {c : Config} {k : Kind} {i : Nat} (bs : List Nat) (ht : targetsIn c (targets c k i))
    (ha : ReadsApart c k i) {s : State} (hs : Alone c s) (hcap : s.seq.captured = s.seq.cap.length) :
    ∃ t, classifyBits k i bs s = .ok () t ∧ Alone c t ∧ BitsDone c k i bs s t := by
  induction bs generalizing s with
  | nil =>
    exact ⟨s, rfl, hs, Classifies.chains.refl s, by simp, by simp, by simp, by simp, by simp⟩
  | cons b bs ih =>
    unfold classifyBits
    rw [Act.get_bind]
    by_cases hm : s.seq.leaf.mask.getLsbD b = true
    · rw [if_pos hm]
      obtain ⟨u, e1, hu, d1⟩ := classifyBit_spec b ht ha hs hcap
      have hcap' : u.seq.captured = u.seq.cap.length := by rw [d1.frame.seq]; exact hcap
      obtain ⟨t, e2, hat, d2⟩ := ih hu hcap'
      obtain ⟨l1, l2, l3⟩ := d1.frame.leaf_fields
      refine ⟨t, by rw [Act.bind_of_ok e1]; exact e2, hat, Classifies.chains.trans d1.frame d2.frame, ?_, ?_, ?_, ?_, ?_⟩
      · intro j
        rw [d2.unhandled, d1.unhandled, l1]
        by_cases hj : j = b
        · subst hj
          cases htab : (table c k j).isSome
          · simp
          · simp only [if_true, getLsbD_and_not_bit, hm, List.mem_cons, true_or]; simp
        · cases htab : (table c k b).isSome
          · simp [hj]
          · simp only [if_true, getLsbD_and_not_bit]; simp [hj]
      · intro x
        rw [d2.units, d1.units, l1]
        simp only [List.mem_cons, exists_eq_or_imp, hm, true_and]
        exact or_assoc
      · have hcapu : u.seq.cap = s.seq.cap := by rw [d1.frame.seq]
        have hb : u.bitEvents k i u.seq.leaf.pending u.seq.leaf.contain u.seq.cap
            = s.bitEvents k i s.seq.leaf.pending s.seq.leaf.contain s.seq.cap := by
          funext b'
          rw [l2, l3, hcapu]
          refine bitEvents_congr d1.frame.cfg (fun e he r hr => d1.frame.field ?_)
          rw [hs.2] at he ⊢
          exact ha b' e he r hr
        rw [d2.events, d1.events, hb, l1, List.filter_cons, if_pos hm, List.flatMap_cons, List.append_assoc]
      · intro j
        rw [d2.links, d1.links, l1, l2, l3]
        simp only [List.mem_cons, exists_eq_or_imp, hm, true_and, Bool.or_eq_true]
        cases hr : reportable c k s.seq.leaf.pending b <;> simp
        tauto
      · rw [d2.device, d1.device, l1, l2, l3]
        simp only [List.mem_cons, exists_eq_or_imp, hm, true_and, Bool.or_eq_true]
        cases hr : reportable c k s.seq.leaf.pending b <;> simp
        tauto
    · rw [if_neg hm]
      obtain ⟨t, e2, hat, d2⟩ := ih hs hcap
      refine ⟨t, e2, hat, d2.frame, ?_, ?_, ?_, ?_, ?_⟩
      · intro j
        rw [d2.unhandled]
        by_cases hj : j = b
        · subst hj; simp [hm]
        · simp [hj]
      · intro x
        rw [d2.units]
        simp [hm]
      · rw [d2.events, List.filter_cons, if_neg hm]
      · intro j; rw [d2.links]; simp [hm]
      · rw [d2.device]; simp [hm]

end Sys2Proof.Machine
end

