-- ==== Sys2Proof/Laws/Leaf.lean ====
section
/-! SUPPORT. HANDLE with no other agent moving: one lemma that says everything the template of R211 does, one for the
microcontroller's form (R243), and what a whole HANDLE does. -/

namespace Sys2Proof.Machine

/-! ## Masks built by a fold -/

theorem getLsbD_foldl_or (p : Nat → Bool) (l : List Nat) (a : Word) (j : Nat) (hl : ∀ b ∈ l, b < 32) :
    (l.foldl (fun acc b => if p b then acc ||| bit b else acc) a).getLsbD j =
      (a.getLsbD j || (decide (j ∈ l) && p j)) := by
  induction l generalizing a with
  | nil => simp
  | cons b l ih =>
    rw [List.foldl_cons, ih _ (fun x hx => hl x (by simp [hx]))]
    have hb : b < 32 := hl b (by simp)
    by_cases hp : p b = true
    · rw [if_pos hp, BitVec.getLsbD_or, getLsbD_bit]
      by_cases hj : j = b
      · subst hj; simp [hp, hb]
      · simp [hj]
    · rw [if_neg hp]
      by_cases hj : j = b
      · subst hj; simp [hp]
      · simp [hj]

theorem getLsbD_unrecognised (c : Config) (k : Kind) (m : Word) (j : Nat) :
    (unrecognised c k m).getLsbD j = (m.getLsbD j && (table c k j).isNone) := by
  unfold unrecognised
  rw [getLsbD_foldl_or _ _ _ _ (fun b hb => List.mem_range.mp hb)]
  by_cases hj : j < 32
  · simp [hj]
  · rw [BitVec.getLsbD_of_ge m _ (by omega)]; simp

theorem touches_iff {c : Config} {k : Kind} {m : Word} {u : Nat} :
    touches c k m u = true ↔ ∃ b, m.getLsbD b = true ∧ ∃ e, table c k b = some e ∧ unitOf e = some u := by
  unfold touches
  simp only [List.any_eq_true, List.mem_range, Bool.and_eq_true]
  constructor
  · rintro ⟨b, -, hm, h⟩
    refine ⟨b, hm, ?_⟩
    cases ht : table c k b with
    | none => rw [ht] at h; cases h
    | some e =>
      rw [ht] at h
      refine ⟨e, rfl, ?_⟩
      simp only [Bool.or_eq_true, decide_eq_true_eq] at h
      rcases h with h | h <;> simp [unitOf, h]
  · rintro ⟨b, hm, e, ht, hu⟩
    refine ⟨b, ?_, hm, ?_⟩
    · by_contra hge
      rw [BitVec.getLsbD_of_ge _ _ (by omega)] at hm
      cases hm
    · rw [ht]
      unfold unitOf at hu
      cases he : e.ecc <;> rw [he] at hu <;> simp_all

/-! ## The order covers the declared bits (R374) -/

theorem configWf_order {c : Config} (h : configWf c = true) {k : Kind} {b : Nat} (hb : (table c k b).isSome = true)
    (h32 : b < 32) : b ∈ order c k := by
  have h := (configWf_parts h).orders k (by cases k <;> simp [allKinds])
  simp only [orderWf, permutes, Bool.or_eq_true, Bool.and_eq_true, List.all_eq_true, List.contains_iff_mem] at h
  rcases h with ⟨-, all⟩ | ⟨-, all⟩
  · exact all b (List.mem_range.mpr h32)
  · exact all b (List.mem_filter.mpr ⟨List.mem_range.mpr h32, hb⟩)

/-! ## Writes of a HANDLE -/

/-- A write of a W1C register other than a contain latch (R86, R151). -/
theorem wr_w1c {s : State} (h : s.io.sched = []) {r : Reg} {v : Word} (hq : stuckQuery r v = none)
    (ha : access r = .w1c) : wr r v s = .ok () ((s.emit (.write r v)).store r (s.field r &&& ~~~v)) := by
  rw [wr_quiet h hq]
  simp only [State.applyWrite, ha]
  rfl

theorem Alone.store {c : Config} {s : State} (h : Alone c s) (r : Reg) (v : Word) : Alone c (s.store r v) := h

/-- The counters of a list of units are written 0 (R227). -/
theorem zeroCounters_spec {c : Config} (k : Kind) (i : Nat) (us : List Nat) {s : State} (hs : Alone c s) :
    ∃ t, zeroCounters k i us s = .ok () t ∧ Alone c t
      ∧ (∀ a, t.cellAt a = if a ∈ us.map (fun u => busAddr (.node k i (.eccCount u))) then 0#32 else s.cellAt a)
      ∧ t.hw = { s.hw with regs := t.hw.regs } ∧ t.fault = s.fault ∧ t.seq = s.seq
      ∧ t.io = { s.io with history := s.io.history ++ us.map (fun u => Event.write (.node k i (.eccCount u)) 0#32) } := by
  induction us generalizing s with
  | nil => exact ⟨s, rfl, hs, by simp, rfl, rfl, rfl, by simp⟩
  | cons u us ih =>
    unfold zeroCounters
    obtain ⟨v, hw, hv, hc1, hh1, hf1, hq1, hio1⟩ : ∃ v, wr (.node k i (.eccCount u)) 0#32 s = .ok () v ∧ Alone c v
        ∧ (∀ a, v.cellAt a = if a = busAddr (.node k i (.eccCount u)) then 0#32 else s.cellAt a)
        ∧ v.hw = { s.hw with regs := v.hw.regs } ∧ v.fault = s.fault ∧ v.seq = s.seq
        ∧ v.io = { s.io with history := s.io.history ++ [Event.write (.node k i (.eccCount u)) 0#32] } := by
      have hw := wr_store (v := 0#32) hs.1 (r := .node k i (.eccCount u)) rfl rfl (fun _ _ _ => rfl)
      refine ⟨_, hw, hs, fun a => ?_, ?_, ?_, ?_, ?_⟩
      · rw [State.store_cellAt]
        split
        · exact BitVec.zero_and
        · rfl
      · rfl
      · rw [State.store_fault]; rfl
      · rw [State.store_seq]; rfl
      · rw [State.store_io]; rfl
    obtain ⟨t, e, ha, hc, hh, hf, hq, hio⟩ := ih hv
    refine ⟨t, by rw [Act.bind_of_ok hw]; exact e, ha, ?_, by rw [hh, hh1], by rw [hf, hf1], by rw [hq, hq1], ?_⟩
    · intro a
      rw [hc, hc1, List.map_cons]
      by_cases h1 : a ∈ us.map (fun u => busAddr (.node k i (.eccCount u)))
      · rw [if_pos h1, if_pos (List.mem_cons_of_mem _ h1)]
      · rw [if_neg h1]
        by_cases h2 : a = busAddr (.node k i (.eccCount u))
        · rw [if_pos h2, if_pos (by rw [h2]; exact List.mem_cons_self)]
        · rw [if_neg h2, if_neg]
          simp only [List.mem_cons, not_or]; exact ⟨h2, h1⟩
    · rw [hio, hio1]; simp

/-- The request of the ring-master handshake (R245). -/
theorem wr_ringCmd {c : Config} {s : State} (hs : Alone c s) :
    ∃ u, wr .ringCmd 1#32 s = .ok () u ∧ Alone c u ∧ u.field .ringStatus = 0#32
      ∧ (∀ a, a ≠ busAddr .ringStatus → u.cellAt a = s.cellAt a)
      ∧ u.hw = { s.hw with regs := u.hw.regs, ringPending := true } ∧ u.fault = s.fault ∧ u.seq = s.seq
      ∧ u.io = { s.io with history := s.io.history ++ [Event.write .ringCmd 1#32] } := by
  have hb : (1#32).getLsbD 0 = true := by decide
  have hw := wr_quiet hs.1 (r := .ringCmd) (v := 1#32) rfl
  simp only [State.applyWrite, access, State.woEffect, hb, if_true] at hw
  refine ⟨_, hw, hs, ?_, fun a ha => ?_, ?_, ?_, ?_, ?_⟩
  · rw [State.setRingPending_read_field, State.store_field_same]; exact BitVec.zero_and
  · rw [State.setRingPending_read_cellAt, State.store_cellAt, if_neg ha]; rfl
  · rfl
  · rw [State.setRingPending_fault, State.store_fault]; rfl
  · rw [State.setRingPending_seq, State.store_seq]; rfl
  · rw [State.setRingPending_io, State.store_io]; rfl

/-- The ring-master handshake (R245): one RING_CMD write, and whether it was acknowledged; ERR registers stay. -/
theorem privHandshake_spec {c : Config} {s : State} (hs : Alone c s) :
    ∃ ok t, privHandshake s = .ok ok t ∧ Alone c t
      ∧ (∀ a, a ≠ busAddr .ringStatus → t.cellAt a = s.cellAt a)
      ∧ t.hw = { s.hw with regs := t.hw.regs, ringPending := t.hw.ringPending } ∧ t.fault = s.fault ∧ t.seq = s.seq
      ∧ t.io.inbox = s.io.inbox ∧ t.io.responses = s.io.responses ∧ t.io.readData = s.io.readData
      ∧ t.io.history = s.io.history ++ .write .ringCmd 1#32 :: (if ok then [] else [.log .privAckTimeout])
      ∧ ok = (s.ask .privAck).1 := by
  obtain ⟨u, hw, hu, hz, hc, hh, hf, hq, hio⟩ := wr_ringCmd hs
  have hb : (readReg u .ringStatus).getLsbD 0 = false := by
    have : readReg u .ringStatus = u.field .ringStatus := rfl
    rw [this, hz]; decide
  have hask : (u.ask .privAck).1 = (s.ask .privAck).1 := State.ask_congr (by rw [hio]) _
  unfold privHandshake poll
  rw [Act.bind_of_ok hw, Act.bind_apply, Act.bind_of_ok (rd_quiet hu.1 _)]
  simp only [hb, Bool.false_eq_true, if_false]
  rw [Act.bind_of_ok (askEnv_apply _ _), hask]
  have hw2 : Alone c (u.ask .privAck).2 := Alone.ask hu _
  cases hok : (s.ask .privAck).1
  · refine ⟨false, ((u.ask .privAck).2).emit (.log .privAckTimeout), rfl, Alone.emit hw2 _, ?_, ?_, ?_, ?_, ?_, ?_, ?_, ?_, rfl⟩
    · intro a ha; rw [State.emit_read_cellAt, State.ask_read_cellAt, hc a ha]
    · rw [State.emit_hw, State.ask_hw, hh]
    · rw [State.emit_fault, State.ask_fault, hf]
    · rw [State.emit_seq, State.ask_seq, hq]
    · simp [hio]
    · simp [hio]
    · simp [hio]
    · simp [hio]
  · refine ⟨true, ((u.ask .privAck).2).ackRing, rfl, ?_, ?_, ?_, ?_, ?_, ?_, ?_, ?_, ?_, rfl⟩
    · unfold State.ackRing; split <;> exact hw2
    · intro a ha
      unfold State.ackRing; split
      · rw [State.setRingPending_read_cellAt, State.store_cellAt, if_neg ha, State.ask_read_cellAt, hc a ha]
      · rw [State.ask_read_cellAt, hc a ha]
    · unfold State.ackRing; split
      · have hx : (u.ask .privAck).2.hw = { s.hw with regs := u.hw.regs, ringPending := true } := by rw [State.ask_hw]; exact hh
        simp only [State.setRingPending, State.store, hx]
      · rw [State.ask_hw, hh]
    · unfold State.ackRing; split
      · rw [State.setRingPending_fault, State.store_fault, State.ask_fault, hf]
      · rw [State.ask_fault, hf]
    · unfold State.ackRing; split
      · rw [State.setRingPending_seq, State.store_seq, State.ask_seq, hq]
      · rw [State.ask_seq, hq]
    all_goals
      unfold State.ackRing
      split <;> simp [hio]

/-! ## Steps 5 to 8 (R211, R213, R219, R225 to R227) -/

/-- One write to an RW register without a side effect or to a W1C register: `w` is what the register then holds. -/
structure Wrote (r : Reg) (v w : Word) (s t : State) : Prop where
  cells : ∀ a, t.cellAt a = if a = busAddr r then w else s.cellAt a
  hw : t.hw = { s.hw with regs := t.hw.regs }
  fault : t.fault = s.fault
  seq : t.seq = s.seq
  io : t.io = { s.io with history := s.io.history ++ [.write r v] }

theorem Wrote.store (s : State) (r : Reg) (v w : Word) : Wrote r v w s ((s.emit (.write r v)).store r w) := by
  refine ⟨fun a => ?_, rfl, ?_, ?_, ?_⟩
  · rw [State.store_cellAt]; rfl
  · rw [State.store_fault]; rfl
  · rw [State.store_seq]; rfl
  · rw [State.store_io]; rfl

theorem wr_rw {c : Config} {s : State} (hs : Alone c s) {r : Reg} {v : Word} (hq : stuckQuery r v = none)
    (ha : access r = .rw) (he : ∀ t old new, State.rwEffect t r old new = t) :
    ∃ t, wr r v s = .ok () t ∧ Alone c t ∧ Wrote r v (v &&& definedMask c r) s t := by
  refine ⟨_, wr_store hs.1 hq ha he, hs, ?_⟩
  rw [← hs.2]
  exact Wrote.store s r v _

theorem wr_clear {c : Config} {s : State} (hs : Alone c s) {r : Reg} {v : Word} (hq : stuckQuery r v = none)
    (ha : access r = .w1c) : ∃ t, wr r v s = .ok () t ∧ Alone c t ∧ Wrote r v (s.field r &&& ~~~v) s t :=
  ⟨_, wr_w1c hs.1 hq ha, hs, Wrote.store s r v _⟩

theorem State.field_eq_cellAt (s : State) (r : Reg) : s.field r = s.cellAt (busAddr r) &&& definedMask s.cfg r := by
  unfold State.field; rw [State.load_eq_cellAt]

theorem State.setCursor_seq (s : State) (q : Option Cursor) : (s.setCursor q).seq = { s.seq with cursor := q } := rfl

theorem Alone.setCursor {c : Config} {s : State} (h : Alone c s) (q : Option Cursor) : Alone c (s.setCursor q) := h

/-- Step 8 (R219). -/
theorem stepEight_spec {c : Config} (k : Kind) (i : Nat) (t : Tree) (ok : Bool) {s : State} (hs : Alone c s) :
    ∃ u, stepEight k i t ok s = .ok (if s.seq.leaf.unhandled = 0#32 ∧ ok = true then .success else .moreProcessingRequired) u
      ∧ Alone c u ∧ u.hw = s.hw ∧ u.fault = s.fault ∧ u.seq = { s.seq with cursor := some (.leaf k i t 8) }
      ∧ u.io = { s.io with history := s.io.history ++
          (if s.seq.leaf.unhandled = 0#32 then [] else [.unhandled k i t s.seq.leaf.unhandled]) } := by
  unfold stepEight
  rw [Act.bind_of_ok (setCursor_apply _ s), Act.get_bind]
  have hl : (s.setCursor (some (.leaf k i t 8))).seq.leaf = s.seq.leaf := rfl
  rw [hl]
  by_cases h : s.seq.leaf.unhandled = 0#32
  · rw [if_pos h, if_pos h]
    refine ⟨s.setCursor (some (.leaf k i t 8)), ?_, hs, rfl, rfl, rfl, ?_⟩
    · cases ok <;> simp [h]
    · rw [List.append_nil]; rfl
  · rw [if_neg h, if_neg h, Act.bind_of_ok (emit_apply _ _)]
    refine ⟨(s.setCursor (some (.leaf k i t 8))).emit (.unhandled k i t s.seq.leaf.unhandled), ?_, hs, rfl, rfl, rfl, rfl⟩
    rw [if_neg (by rintro ⟨h', -⟩; exact h h')]
    rfl

/-- Steps 5 to 8 of the template, as one action. -/
def templateTail (k : Kind) (i : Nat) (t : Tree) (en m f : Word) (wf : Bool) : Act Result3 :=
  (setCursor (.leaf k i t 5) >>= fun _ => (if wf then wr (.node k i (.reportEn t)) (en &&& ~~~m) else pure () : Act Unit)) >>= fun _ =>
  setCursor (.leaf k i t 6) >>= fun _ => wr (.node k i .errFirst) (f &&& m) >>= fun _ => wr (.node k i .errStatus) m >>= fun _ =>
  setCursor (.leaf k i t 7) >>= fun _ => (get : Act State) >>= fun x => zeroCounters k i (unitsAscending x.seq.leaf.units) >>= fun _ =>
  (if k = .priv then privHandshake else pure true : Act Bool) >>= fun ok => stepEight k i t ok

theorem templateTail_spec {c : Config} (k : Kind) (i : Nat) (t : Tree) (en m f : Word) (wf : Bool) {s : State}
    (hs : Alone c s) (hk : k ≠ .mctrl) (hi : i < 4096) :
    ∃ u, templateTail k i t en m f wf s = .ok (if s.seq.leaf.unhandled = 0#32 ∧ s.handshakeOk k = true then .success
          else .moreProcessingRequired) u ∧ Alone c u
      ∧ (∀ a, (k = .priv → a ≠ busAddr .ringStatus) → u.cellAt a =
          if a ∈ (unitsAscending s.seq.leaf.units).map (fun x => busAddr (.node k i (.eccCount x))) then 0#32
          else if a = busAddr (.node k i .errStatus) then s.field (.node k i .errStatus) &&& ~~~m
          else if a = busAddr (.node k i .errFirst) then s.field (.node k i .errFirst) &&& ~~~(f &&& m)
          else if wf = true ∧ a = busAddr (.node k i (.reportEn t)) then en &&& ~~~m
          else s.cellAt a)
      ∧ u.hw = { s.hw with regs := u.hw.regs, ringPending := u.hw.ringPending }
      ∧ (k ≠ .priv → u.hw.ringPending = s.hw.ringPending) ∧ u.fault = s.fault
      ∧ u.seq = { s.seq with cursor := some (.leaf k i t 8) }
      ∧ u.io.inbox = s.io.inbox ∧ u.io.responses = s.io.responses ∧ u.io.readData = s.io.readData
      ∧ u.io.history = s.io.history
        ++ (if wf then [.write (.node k i (.reportEn t)) (en &&& ~~~m)] else [])
        ++ [.write (.node k i .errFirst) (f &&& m), .write (.node k i .errStatus) m]
        ++ (unitsAscending s.seq.leaf.units).map (fun x => .write (.node k i (.eccCount x)) 0#32)
        ++ (if k = .priv then .write .ringCmd 1#32 :: (if s.handshakeOk k then [] else [.log .privAckTimeout]) else [])
        ++ (if s.seq.leaf.unhandled = 0#32 then [] else [.unhandled k i t s.seq.leaf.unhandled]) := by
  have hfit : ∀ r, nodeFits r = true → fits (.node k i r) = true := fun r hr => by simp [fits, hk, hi, hr]
  have fS := hfit .errStatus rfl
  have fF := hfit .errFirst rfl
  have fE := hfit (.reportEn t) rfl
  -- step 5
  obtain ⟨v1, e1, a1, c1, h1, f1, q1, i1⟩ : ∃ v, (setCursor (.leaf k i t 5) >>= fun _ => (if wf then wr (.node k i (.reportEn t)) (en &&& ~~~m) else pure () : Act Unit)) s = .ok () v
      ∧ Alone c v ∧ (∀ a, v.cellAt a = if wf = true ∧ a = busAddr (.node k i (.reportEn t)) then en &&& ~~~m else s.cellAt a)
      ∧ v.hw = { s.hw with regs := v.hw.regs } ∧ v.fault = s.fault ∧ v.seq = { s.seq with cursor := some (.leaf k i t 5) }
      ∧ v.io = { s.io with history := s.io.history ++ (if wf then [.write (.node k i (.reportEn t)) (en &&& ~~~m)] else []) } := by
    rw [Act.bind_of_ok (setCursor_apply _ s)]
    cases wf with
    | false => exact ⟨_, rfl, hs, fun a => by simp, rfl, rfl, rfl, by rw [State.setCursor_io]; simp⟩
    | true =>
      obtain ⟨v, e, a, w⟩ := wr_rw (v := en &&& ~~~m) (r := .node k i (.reportEn t)) (Alone.setCursor hs (some (.leaf k i t 5))) rfl rfl (fun _ _ _ => rfl)
      refine ⟨v, e, a, fun x => ?_, ?_, ?_, ?_, ?_⟩
      · rw [w.cells]
        simp only [definedMask, BitVec.and_allOnes, true_and]
        rfl
      · rw [w.hw]; rfl
      · rw [w.fault]; rfl
      · rw [w.seq]; rfl
      · rw [w.io]; rfl
  -- step 6
  obtain ⟨v2, e2, a2, w2⟩ := wr_clear (v := f &&& m) (r := .node k i .errFirst) (Alone.setCursor a1 (some (.leaf k i t 6))) rfl rfl
  obtain ⟨v3, e3, a3, w3⟩ := wr_clear (v := m) (r := .node k i .errStatus) a2 rfl rfl
  -- step 7
  have hq3 : v3.seq = { s.seq with cursor := some (.leaf k i t 6) } := by
    rw [w3.seq, w2.seq, State.setCursor_seq, q1]
  obtain ⟨v4, e4, a4, c4, h4, f4, q4, i4⟩ := zeroCounters_spec k i (unitsAscending s.seq.leaf.units)
    (Alone.setCursor a3 (some (.leaf k i t 7)))
  -- the handshake
  have hask : v4.handshakeOk k = s.handshakeOk k := by
    unfold State.handshakeOk
    split
    · refine State.ask_congr ?_ _
      rw [i4, State.setCursor_io, w3.io, w2.io, State.setCursor_io, i1]
    · rfl
  obtain ⟨v5, e5, a5, c5, h5, p5, f5, q5, b5, r5, d5, y5⟩ : ∃ v, (if k = .priv then privHandshake else pure true : Act Bool) v4 = .ok (v4.handshakeOk k) v
      ∧ Alone c v ∧ (∀ a, (k = .priv → a ≠ busAddr .ringStatus) → v.cellAt a = v4.cellAt a)
      ∧ v.hw = { v4.hw with regs := v.hw.regs, ringPending := v.hw.ringPending }
      ∧ (k ≠ .priv → v.hw.ringPending = v4.hw.ringPending) ∧ v.fault = v4.fault ∧ v.seq = v4.seq
      ∧ v.io.inbox = v4.io.inbox ∧ v.io.responses = v4.io.responses ∧ v.io.readData = v4.io.readData
      ∧ v.io.history = v4.io.history ++
        (if k = .priv then .write .ringCmd 1#32 :: (if v4.handshakeOk k then [] else [.log .privAckTimeout]) else []) := by
    unfold State.handshakeOk
    by_cases hp : k = .priv
    · obtain ⟨ok, v, e, a, cc, hh, ff, qq, bb, rr, dd, yy, hok⟩ := privHandshake_spec a4
      simp only [hp, if_true, ne_eq, not_true_eq_false, false_imp_iff, true_imp_iff, true_and]
      rw [← hok]
      exact ⟨v, e, a, cc, hh, ff, qq, bb, rr, dd, yy⟩
    · simp only [hp, if_false]
      refine ⟨v4, rfl, a4, ?_⟩
      simp
  -- step 8
  obtain ⟨u, e6, a6, h6, f6, q6, i6⟩ := stepEight_spec k i t (v4.handshakeOk k) a5
  have hun : v5.seq.leaf.unhandled = s.seq.leaf.unhandled := by
    rw [q5, q4, State.setCursor_seq, hq3]
  refine ⟨u, ?_, a6, ?_, ?_, ?_, ?_, ?_, ?_, ?_, ?_, ?_⟩
  · unfold templateTail
    have hlf : (v3.setCursor (some (.leaf k i t 7))).seq.leaf.units = s.seq.leaf.units := by
      rw [State.setCursor_seq, hq3]
    rw [← hask, ← hun, ← e6, Act.bind_of_ok e1, Act.bind_of_ok (setCursor_apply _ _), Act.bind_of_ok e2, Act.bind_of_ok e3,
      Act.bind_of_ok (setCursor_apply _ _), Act.get_bind, hlf, Act.bind_of_ok e4, Act.bind_of_ok e5]
  · intro a ha
    have hcell : u.cellAt a = v5.cellAt a := by unfold State.cellAt; rw [h6, a6.2, a5.2]
    rw [hcell, c5 a ha, c4, State.setCursor_read_cellAt, w3.cells, w2.cells, State.setCursor_read_cellAt, c1]
    have hst : v2.field (.node k i .errStatus) = s.field (.node k i .errStatus) := by
      rw [State.field_eq_cellAt, State.field_eq_cellAt, a2.2, hs.2, w2.cells, if_neg (busAddr_ne fF fS (by simp)), State.setCursor_read_cellAt, c1,
        if_neg (by rintro ⟨-, h⟩; exact busAddr_ne fE fS (by simp) h)]
    have hfi : (v1.setCursor (some (.leaf k i t 6))).field (.node k i .errFirst) = s.field (.node k i .errFirst) := by
      rw [State.setCursor_read_field, State.field_eq_cellAt, State.field_eq_cellAt, a1.2, hs.2, c1,
        if_neg (by rintro ⟨-, h⟩; exact busAddr_ne fE fF (by simp) h)]
    rw [hst, hfi]
  · rw [h6, h5, h4, State.setCursor_hw, w3.hw, w2.hw, State.setCursor_hw, h1]
  · intro hp
    rw [h6, p5 hp, h4, State.setCursor_hw, w3.hw, w2.hw, State.setCursor_hw, h1]
  · rw [f6, f5, f4, State.setCursor_fault, w3.fault, w2.fault, State.setCursor_fault, f1]
  · rw [q6, q5, q4, State.setCursor_seq, hq3]
  · rw [i6]; change v5.io.inbox = _; rw [b5, i4, State.setCursor_io, w3.io, w2.io, State.setCursor_io, i1]
  · rw [i6]; change v5.io.responses = _; rw [r5, i4, State.setCursor_io, w3.io, w2.io, State.setCursor_io, i1]
  · rw [i6]; change v5.io.readData = _; rw [d5, i4, State.setCursor_io, w3.io, w2.io, State.setCursor_io, i1]
  · rw [i6]
    change v5.io.history ++ _ = _
    rw [y5, i4, State.setCursor_io, w3.io, w2.io, State.setCursor_io, i1, hun, hask]
    simp only [List.append_assoc, List.cons_append, List.nil_append]

/-! ## What classification may read and write -/

theorem table_row {c : Config} {k : Kind} {b : Nat} {e : Entry} (h : table c k b = some e) :
    ∃ r ∈ c.table, r.kind = k ∧ r.bit = b ∧ r.entry = e := by
  have key : ∀ rows : List TableRow, findRow k b rows = some e → ∃ r ∈ rows, r.kind = k ∧ r.bit = b ∧ r.entry = e := by
    intro rows
    induction rows with
    | nil => intro h; cases h
    | cons r rs ih =>
      intro h
      unfold findRow at h
      split at h
      · rename_i hr
        cases h
        exact ⟨r, by simp, hr.1, hr.2, rfl⟩
      · obtain ⟨r', hr', h'⟩ := ih h
        exact ⟨r', by simp [hr'], h'⟩
  exact key _ h

/-- A row of a well-formed configuration names a unit its kind has (R8, R374). -/
theorem configWf_unit {c : Config} (h : configWf c = true) {k : Kind} {b : Nat} {e : Entry} (ht : table c k b = some e)
    {u : Nat} (hu : unitOf e = some u) : b < 32 ∧ u < nEcc c k ∧ hasFullSet k = true := by
  obtain ⟨r, hr, rfl, rfl, rfl⟩ := table_row ht
  have h := (configWf_parts h).rows r hr
  simp only [rowWf, Bool.and_eq_true, decide_eq_true_eq] at h
  obtain ⟨⟨h1, h2⟩, -⟩ := h
  unfold unitOf at hu
  cases he : r.entry.ecc with
  | notEcc => rw [he] at hu; cases hu
  | eccLimit v => rw [he] at hu h2; cases hu; simp only [Bool.and_eq_true, decide_eq_true_eq] at h2; exact ⟨h1, h2.1, h2.2⟩
  | eccDbe v => rw [he] at hu h2; cases hu; simp only [Bool.and_eq_true, decide_eq_true_eq] at h2; exact ⟨h1, h2.1, h2.2⟩

theorem configWf_bit {c : Config} (h : configWf c = true) {k : Kind} {b : Nat} {e : Entry} (ht : table c k b = some e) :
    b < 32 := by
  obtain ⟨r, hr, rfl, rfl, rfl⟩ := table_row ht
  have h := (configWf_parts h).rows r hr
  simp only [rowWf, Bool.and_eq_true, decide_eq_true_eq] at h
  exact h.1.1

/-- No node register is a scratch register. -/
theorem node_not_scratch {c : Config} {k : Kind} {i : Nat} {r : NodeReg} (hi : i < 4096) (hr : nodeFits r = true) :
    ¬ scratchCell c (busAddr (.node k i r)) := by
  have ho := nodeOffset_lt hr
  have hk : k.code ≤ 0x0E := by cases k <;> decide
  rintro (h | ⟨w, -, h⟩) <;> simp only [busAddr, packAddr] at h <;> omega

theorem intr_not_scratch {c : Config} {m : Nat} (hm : m < 4096) :
    ¬ scratchCell c (busAddr (.intrStatus m)) ∧ ¬ scratchCell c (busAddr (.intrStallEn m)) := by
  constructor <;> rintro (h | ⟨w, -, h⟩) <;> simp only [busAddr, packAddr] at h <;> omega

theorem readsApart {c : Config} (h : configWf c = true) {k : Kind} {i : Nat} (hi : i < 4096) : ReadsApart c k i := by
  intro b e he r hr
  refine node_not_scratch hi ?_
  have h4 := (configWf_sizes h).units k
  unfold entryRegs at hr
  have hu : ∀ u, unitOf e = some u → u < 4 := fun u hu => lt_of_lt_of_le (configWf_unit h he hu).2.1 h4
  rcases List.mem_cons.mp hr with rfl | hr
  · rfl
  · cases hc : e.ecc with
    | notEcc => rw [hc] at hr; simp at hr
    | eccLimit u =>
      rw [hc] at hr
      have := hu u (by simp [unitOf, hc])
      simp only [List.mem_cons, List.not_mem_nil, or_false] at hr
      rcases hr with rfl | rfl <;> simpa [nodeFits] using this
    | eccDbe u =>
      rw [hc] at hr
      have := hu u (by simp [unitOf, hc])
      simp only [List.mem_cons, List.not_mem_nil, or_false] at hr
      rcases hr with rfl | rfl <;> simpa [nodeFits] using this

/-! ## Step 4 over the whole of ORDER(k) -/

/-- What step 4 does to the state `s` in which P, M, CN and the capture buffer are as steps 1 to 3 left them. -/
structure Classified (c : Config) (k : Kind) (i : Nat) (s t : State) : Prop where
  frame : Classifies s t
  unhandled : t.seq.leaf.unhandled = unrecognised c k s.seq.leaf.mask
  units : unitsAscending t.seq.leaf.units = (List.range 4).filter (touches c k s.seq.leaf.mask)
  events : ∃ es, t.io.history = s.io.history ++ es ∧ (∀ e ∈ es, markEvent e)
    ∧ es.filter isClassified = ((order c k).filter (fun b => s.seq.leaf.mask.getLsbD b)).flatMap
      (s.bitEvents k i s.seq.leaf.pending s.seq.leaf.contain s.seq.cap)
  links : ∀ j, t.fatalOccurred j = true ↔ s.fatalOccurred j = true
    ∨ ∃ b, s.seq.leaf.mask.getLsbD b = true ∧ ∃ e, reportable c k s.seq.leaf.pending b = some e
        ∧ marksLink (effSev e (s.seq.leaf.contain.getLsbD b)) (targets c k i) j = true
  device : t.fault.resetRequired = true ↔ s.fault.resetRequired = true
    ∨ ∃ b, s.seq.leaf.mask.getLsbD b = true ∧ ∃ e, reportable c k s.seq.leaf.pending b = some e
        ∧ marksDevice (effSev e (s.seq.leaf.contain.getLsbD b)) e.deviceWide (targets c k i) = true

theorem reportable_table {c : Config} {k : Kind} {p : Word} {b : Nat} {e : Entry} (h : reportable c k p b = some e) :
    table c k b = some e := by
  unfold reportable at h
  cases ht : table c k b with
  | none => rw [ht] at h; cases h
  | some e' =>
    rw [ht] at h
    simp only [] at h
    split at h
    · cases h
    · exact h

theorem classifyOrder_spec {c : Config} (hw : configWf c = true) {k : Kind} {i : Nat} (ht : targetsIn c (targets c k i))
    (hi : i < 4096) {s : State} (hs : Alone c s) (hcap : s.seq.captured = s.seq.cap.length)
    (hun : s.seq.leaf.unhandled = s.seq.leaf.mask) (hus : s.seq.leaf.units = []) :
    ∃ t, classifyBits k i (order c k) s = .ok () t ∧ Alone c t ∧ Classified c k i s t := by
  obtain ⟨t, e, a, d⟩ := classifyBits_spec (order c k) ht (readsApart hw hi) hs hcap
  have hord : ∀ b e, table c k b = some e → b ∈ order c k := fun b e h =>
    configWf_order hw (by rw [h]; rfl) (configWf_bit hw h)
  refine ⟨t, e, a, d.frame, ?_, ?_, ?_, ?_, ?_⟩
  · refine BitVec.eq_of_getLsbD_eq (fun j hj => ?_)
    rw [d.unhandled, getLsbD_unrecognised, hun]
    cases htab : table c k j with
    | none => simp
    | some e =>
      have := hord j e htab
      cases s.seq.leaf.mask.getLsbD j <;> simp [this]
  · unfold unitsAscending
    refine List.filter_congr (fun u _ => ?_)
    rw [Bool.eq_iff_iff, List.contains_iff_mem, d.units, touches_iff, hus]
    constructor
    · rintro (h | ⟨b, -, hm, e, he⟩)
      · simp at h
      · exact ⟨b, hm, e, he⟩
    · rintro ⟨b, hm, e, he, hu⟩
      exact .inr ⟨b, hord b e he, hm, e, he, hu⟩
  · obtain ⟨es, he, hme⟩ := d.frame.history
    refine ⟨es, he, hme, ?_⟩
    have := d.events
    unfold State.classified at this
    rw [he, List.filter_append] at this
    exact List.append_cancel_left this
  · intro j
    rw [d.links]
    constructor
    · rintro (h | ⟨b, -, hm, e, he⟩)
      · exact .inl h
      · exact .inr ⟨b, hm, e, he⟩
    · rintro (h | ⟨b, hm, e, he, hx⟩)
      · exact .inl h
      · exact .inr ⟨b, hord b e (reportable_table he), hm, e, he, hx⟩
  · rw [d.device]
    constructor
    · rintro (h | ⟨b, -, hm, e, he⟩)
      · exact .inl h
      · exact .inr ⟨b, hm, e, he⟩
    · rintro (h | ⟨b, hm, e, he, hx⟩)
      · exact .inl h
      · exact .inr ⟨b, hord b e (reportable_table he), hm, e, he, hx⟩

end Sys2Proof.Machine
end

