-- ==== Sys2Proof/Laws/Handle.lean ====
section
/-! SUPPORT. What a whole HANDLE does with no other agent moving: `handle_notFound` where no pending bit is enabled
(R211 step 1), `handle_serviced` where one is (R211, R243, R245). -/

namespace Sys2Proof.Machine

/-! ## The template -/

theorem handleAdmitted_node {c : Config} {k : Kind} {i : Nat} {t : Tree} (hk : k ≠ .mctrl)
    (h : handleAdmitted c k i t = true) : t ∈ treesOfKind c k ∧ nodeExists c k i = true := by
  simp only [handleAdmitted, Bool.and_eq_true, List.contains_iff_mem] at h
  exact ⟨h.1, h.2⟩

theorem handleAdmitted_mctrl {c : Config} {l : Nat} {t : Tree} (h : handleAdmitted c .mctrl l t = true) :
    l < c.nLink ∧ nodeExists c .mctrl (mc c l) = true := by
  simp only [handleAdmitted, Bool.and_eq_true, decide_eq_true_eq] at h
  exact h.2

theorem Act.ite_bind {α β : Type} (p : Prop) [Decidable p] (x y : Act α) (f : α → Act β) :
    ((if p then x else y) >>= f) = if p then x >>= f else y >>= f := by split <;> rfl

theorem Act.bind_assoc {α β γ : Type} (x : Act α) (f : α → Act β) (g : β → Act γ) :
    ((x >>= f) >>= g) = x >>= fun a => f a >>= g := by
  funext s
  rw [Act.bind_apply, Act.bind_apply, Act.bind_apply]
  cases x s with
  | ok a t => exact (Act.bind_apply _ _ _).symm
  | error e t => rfl

/-- Steps 2 to 8 with the branches joined. -/
theorem templateRest_eq (k : Kind) (i : Nat) (t : Tree) (p en cn : Word) (wf : Bool) :
    templateRest k i t p en cn wf =
      (setCursor (.leaf k i t 2) >>= fun _ => rd (.node k i .errFirst) >>= fun f =>
        (modify (fun s => s.setLeaf ⟨p, en, p &&& en, cn, f, p &&& en, [], wf⟩) : Act PUnit) >>= fun _ =>
        setCursor (.leaf k i t 3) >>= fun _ => (get : Act State) >>= fun x =>
        (if p &&& en &&& diagBits x.cfg k = 0#32 then pure () else capture k i (diagRegs x.cfg k) : Act Unit) >>= fun _ =>
        setCursor (.leaf k i t 4) >>= fun _ => classifyBits k i (order x.cfg k) >>= fun _ =>
        templateTail k i t en (p &&& en) f wf) := by
  unfold templateRest templateTail
  simp only [Act.ite_bind, Act.bind_assoc]
  rfl

/-- What a HANDLE that found something does besides the registers and the fault state: its values are left in `leaf`, `cap`
and `captured` for the caller to drop, and H grows by classification's events and the tail. -/
structure Handled (s : State) (k : Kind) (i : Nat) (t : Tree) (u : State) : Prop where
  serviced : Serviced s k i t u
  seq : u.seq = { s.seq with cursor := some (.leaf k i t 8), leaf := u.seq.leaf, cap := u.seq.cap, captured := u.seq.captured }
  inbox : u.io.inbox = s.io.inbox
  responses : u.io.responses = s.io.responses
  readData : u.io.readData = s.io.readData
  history : ∃ es, (∀ e ∈ es, markEvent e) ∧ es.filter isClassified = s.expectedEvents k i t
    ∧ u.io.history = s.io.history ++ es ++ s.handleTail k i t

/-- Registers no agent has touched: the cells decide every field. -/
theorem State.field_congr {s t : State} (hc : t.cfg = s.cfg) {r : Reg} (h : t.cellAt (busAddr r) = s.cellAt (busAddr r)) :
    t.field r = s.field r := by
  rw [State.field_eq_cellAt, State.field_eq_cellAt, h, hc]

theorem template_notFound {k : Kind} {i : Nat} {t : Tree} {s : State} (hs : s.io.sched = []) (hk : k ≠ .mctrl)
    (hm : s.maskOf k i t = 0#32) : template k i t s = .ok .notFound (s.setCursor (some (.leaf k i t 1))) := by
  have h1 : s.field (.node k i .errStatus) &&& s.field (.node k i (.reportEn t)) = 0#32 := by
    have := hm
    unfold State.maskOf State.pendingOf statusReg enableReg at this
    rwa [if_neg hk, if_neg hk, if_neg hk] at this
  unfold template
  rw [Act.bind_of_ok (setCursor_apply _ s), Act.bind_of_ok (rd_quiet (by exact hs) _), Act.bind_of_ok (rd_quiet (by exact hs) _)]
  have h2 : readReg (s.setCursor (some (.leaf k i t 1))) (.node k i .errStatus)
      &&& readReg (s.setCursor (some (.leaf k i t 1))) (.node k i (.reportEn t)) = 0#32 := h1
  rw [if_pos h2]
  rfl

theorem template_serviced {c : Config} (hw : configWf c = true) {k : Kind} {i : Nat} {t : Tree} {s : State} (hs : Alone c s)
    (hk : k ≠ .mctrl) (ha : handleAdmitted c k i t = true) (hcap : s.seq.cap = []) (hcnt : s.seq.captured = 0)
    (hm : s.maskOf k i t ≠ 0#32) :
    ∃ u, template k i t s = .ok (s.handleResult k i t) u ∧ Alone c u ∧ Handled s k i t u := by
  obtain ⟨ht, hn⟩ := handleAdmitted_node hk ha
  have hi := nodeExists_lt hw hn
  have hc : s.cfg = c := hs.2
  have hfit : ∀ r, nodeFits r = true → fits (.node k i r) = true := fun r hr => by simp [fits, hk, hi, hr]
  obtain ⟨p, hp⟩ : ∃ p, s.field (.node k i .errStatus) = p := ⟨_, rfl⟩
  obtain ⟨en, hen⟩ : ∃ en, s.field (.node k i (.reportEn t)) = en := ⟨_, rfl⟩
  obtain ⟨cn, hcn⟩ : ∃ cn, s.containOf k i = cn := ⟨_, rfl⟩
  obtain ⟨wf, hwf⟩ : ∃ wf, suppressFlag s k i = wf := ⟨_, rfl⟩
  obtain ⟨f, hf⟩ : ∃ f, s.field (.node k i .errFirst) = f := ⟨_, rfl⟩
  have hsr : statusReg s.cfg k i = .node k i .errStatus := by unfold statusReg; rw [if_neg hk]
  have her : enableReg s.cfg k i t = .node k i (.reportEn t) := by unfold enableReg; rw [if_neg hk]
  have hpe : s.pendingOf k i = p := by unfold State.pendingOf; rw [if_neg hk, hsr, hp]
  have hmk : s.maskOf k i t = p &&& en := by unfold State.maskOf; rw [hpe, her, hen]
  have hm0 : p &&& en ≠ 0#32 := by rw [← hmk]; exact hm
  -- step 1
  have e1 : template k i t s = templateRest k i t p en cn wf (s.setCursor (some (.leaf k i t 1))) := by
    unfold template
    have a1 : (s.setCursor (some (.leaf k i t 1))).io.sched = [] := hs.1
    rw [Act.bind_of_ok (setCursor_apply _ s), Act.bind_of_ok (rd_quiet a1 _), Act.bind_of_ok (rd_quiet a1 _)]
    have h2 : readReg (s.setCursor (some (.leaf k i t 1))) (.node k i .errStatus) = p := hp
    have h3 : readReg (s.setCursor (some (.leaf k i t 1))) (.node k i (.reportEn t)) = en := hen
    rw [h2, h3, if_neg hm0]
    have h4 : suppressFlag (s.setCursor (some (.leaf k i t 1))) k i = wf := hwf
    unfold State.containOf at hcn
    cases hfs : hasFullSet k with
    | true =>
      rw [hfs] at hcn
      simp only [if_true] at hcn ⊢
      rw [Act.bind_of_ok (rd_quiet a1 _), Act.get_bind, h4]
      have h5 : readReg (s.setCursor (some (.leaf k i t 1))) (.node k i .containEn) = cn := hcn
      rw [h5]
    | false =>
      rw [hfs] at hcn
      simp only [Bool.false_eq_true, if_false] at hcn ⊢
      rw [Act.pure_bind, Act.get_bind, h4, hcn]
  -- steps 2 and 3
  obtain ⟨v, e2, av, hvc, hvh, hvf, hvi, hvq⟩ : ∃ v, templateRest k i t p en cn wf (s.setCursor (some (.leaf k i t 1)))
      = (classifyBits k i (order c k) >>= fun _ => templateTail k i t en (p &&& en) f wf) v ∧ Alone c v
      ∧ v.cfg = s.cfg ∧ v.hw = s.hw ∧ v.fault = s.fault ∧ v.io = s.io
      ∧ v.seq = { s.seq with cursor := some (.leaf k i t 4), leaf := ⟨p, en, p &&& en, cn, f, p &&& en, [], wf⟩, cap := s.captureOf k i (p &&& en), captured := (s.captureOf k i (p &&& en)).length } := by
    rw [templateRest_eq]
    have hrf : readReg ((s.setCursor (some (.leaf k i t 1))).setCursor (some (.leaf k i t 2))) (.node k i .errFirst) = f := hf
    rw [Act.bind_of_ok (setCursor_apply _ _), Act.bind_of_ok (rd_quiet (by exact hs.1) _), hrf, Act.modify_bind,
      Act.bind_of_ok (setCursor_apply _ _), Act.get_bind]
    obtain ⟨w, hwst⟩ : ∃ w, w = (((s.setCursor (some (.leaf k i t 1))).setCursor (some (.leaf k i t 2))).setLeaf
      ⟨p, en, p &&& en, cn, f, p &&& en, [], wf⟩).setCursor (some (.leaf k i t 3)) := ⟨_, rfl⟩
    rw [← hwst]
    have hwc : w.cfg = c := by rw [hwst]; exact hc
    have hws : w.io.sched = [] := by rw [hwst]; exact hs.1
    have hwcap : w.seq.cap = [] := by rw [hwst]; exact hcap
    have hwcnt : w.seq.captured = 0 := by rw [hwst]; exact hcnt
    rw [hwc]
    obtain ⟨x, ex, hx, hxc, hxn⟩ : ∃ x, (if p &&& en &&& diagBits c k = 0#32 then pure () else capture k i (diagRegs c k) : Act Unit) w = .ok () x
        ∧ x = { w with seq := { w.seq with cap := x.seq.cap, captured := x.seq.captured } }
        ∧ x.seq.cap = s.captureOf k i (p &&& en) ∧ x.seq.captured = (s.captureOf k i (p &&& en)).length := by
      unfold State.captureOf
      rw [hc]
      by_cases hd : p &&& en &&& diagBits c k = 0#32
      · rw [if_pos hd, if_pos (.inr hd)]
        exact ⟨w, rfl, rfl, hwcap, hwcnt⟩
      · rw [if_neg hd, if_neg (by rintro (h | h); exact hk h; exact hd h)]
        obtain ⟨x, ex, hx, hxc, hxn⟩ := capture_value k i (diagRegs c k) hws
        rw [hwcap, hwcnt, hwc, Nat.sub_zero, List.nil_append] at hxc
        have hxf : ∀ r, w.field (.node k i r) = s.field (.node k i r) := fun r => by rw [hwst]; rfl
        simp only [hxf] at hxc
        refine ⟨x, ex, hx, hxc, ?_⟩
        rw [hxn (by rw [hwcap, hwcnt]; rfl), hxc]
    rw [Act.bind_of_ok ex, Act.bind_of_ok (setCursor_apply _ _)]
    refine ⟨x.setCursor (some (.leaf k i t 4)), rfl, ?_, ?_, ?_, ?_, ?_, ?_⟩
    · rw [hx, hwst]; exact hs
    · rw [hx, hwst]; rfl
    · rw [hx, hwst]; rfl
    · rw [hx, hwst]; rfl
    · rw [hx, hwst]; rfl
    · rw [State.setCursor_seq, hx]
      simp only [hxc, hxn]
      rw [hwst]
      rfl
  -- step 4
  have hvleaf : v.seq.leaf = ⟨p, en, p &&& en, cn, f, p &&& en, [], wf⟩ := by rw [hvq]
  obtain ⟨w, e3, aw, d⟩ := classifyOrder_spec hw (handleAdmitted_targets ha) hi av (by rw [hvq]) (by rw [hvleaf]) (by rw [hvleaf])
  have hvcell : ∀ a, v.cellAt a = s.cellAt a := fun a => by unfold State.cellAt; rw [hvh, hvc]
  have hwcell : ∀ a, ¬ scratchCell c a → w.cellAt a = s.cellAt a := fun a hx => by
    rw [d.frame.cells a (by rw [hvc, hc]; exact hx), hvcell]
  have hwfield : ∀ r, nodeFits r = true → w.field (.node k i r) = s.field (.node k i r) := fun r hr =>
    State.field_congr (by rw [aw.2, hc]) (hwcell _ (node_not_scratch hi hr))
  have hask : w.handshakeOk k = s.handshakeOk k := by
    unfold State.handshakeOk
    split
    · rw [d.frame.env _ (by simp)]
      exact State.ask_congr (by rw [hvi]) _
    · rfl
  have hun : w.seq.leaf.unhandled = unrecognised c k (p &&& en) := by rw [d.unhandled, hvleaf]
  have hus : unitsAscending w.seq.leaf.units = (List.range 4).filter (touches c k (p &&& en)) := by rw [d.units, hvleaf]
  -- steps 5 to 8
  obtain ⟨u, e4, au, hcell, hhw, hring, hfault, hseq, hin, hres, hrd, hhist⟩ :=
    templateTail_spec k i t en (p &&& en) f wf aw hk hi
  have hst := hfit .errStatus rfl
  have hfi := hfit .errFirst rfl
  have hre := hfit (.reportEn t) rfl
  have hring4 : fits .ringStatus = true := rfl
  have hfield : ∀ r, nodeFits r = true → u.field (.node k i r) = u.cellAt (busAddr (.node k i r)) &&& definedMask c (.node k i r) :=
    fun r _ => by rw [State.field_eq_cellAt, au.2]
  have hcnts : ∀ r, nodeFits r = true → (∀ x, r ≠ .eccCount x) →
      busAddr (.node k i r) ∉ (unitsAscending w.seq.leaf.units).map (fun x => busAddr (.node k i (.eccCount x))) := by
    intro r hr hx hmem
    obtain ⟨x, hxm, hxe⟩ := List.mem_map.mp hmem
    have h4 : x < 4 := by
      unfold unitsAscending at hxm
      exact List.mem_range.mp (List.mem_of_mem_filter hxm)
    exact busAddr_ne (hfit r hr) (hfit (.eccCount x) (by simpa [nodeFits] using h4)) (by simpa using (hx x).symm) hxe
  have hrs : ∀ r, nodeFits r = true → (k = .priv → busAddr (.node k i r) ≠ busAddr .ringStatus) := fun r hr _ =>
    busAddr_ne hring4 (hfit r hr) (by simp)
  refine ⟨u, ?_, au, ?_, ?_, ?_, ?_, ?_, ?_⟩
  · rw [e1, e2, Act.bind_of_ok e3, e4, hun, hask]
    unfold State.handleResult
    rw [hmk, hc]
  · constructor
    · rw [au.2, hc]
    · rw [hsr, hfield _ rfl, hcell _ (hrs _ rfl), if_neg (hcnts _ rfl (by simp)), if_pos rfl, hwfield _ rfl, hmk]
      exact BitVec.and_allOnes
    · rw [her, hfield _ rfl, hcell _ (hrs _ rfl), if_neg (hcnts _ rfl (by simp)), if_neg (busAddr_ne hst hre (by simp)),
        if_neg (busAddr_ne hfi hre (by simp)), hwf, hmk, hen]
      cases wf with
      | true => simp only [true_and, if_true]; exact BitVec.and_allOnes
      | false =>
        simp only [Bool.false_eq_true, false_and, if_false]
        rw [← hen, ← hwfield _ rfl, State.field_eq_cellAt, aw.2]
    · intro _
      rw [hfield _ rfl, hcell _ (hrs _ rfl), if_neg (hcnts _ rfl (by simp)), if_neg (busAddr_ne hst hfi (by simp)), if_pos rfl,
        hwfield _ rfl, hmk, hf]
      refine BitVec.and_allOnes.trans ?_
      ext j hj
      simp only [BitVec.getElem_and, BitVec.getElem_not]
      cases f[j] <;> simp
    · intro _ x hx
      have hx4 : x < 4 := by
        have := (configWf_sizes hw).units k
        rw [hc] at hx
        simp only [hasReg, Bool.and_eq_true, decide_eq_true_eq] at hx
        omega
      have hxf : nodeFits (.eccCount x) = true := by simpa [nodeFits] using hx4
      rw [hfield _ hxf, hcell _ (hrs _ hxf), hmk, hc]
      by_cases htch : touches c k (p &&& en) x = true
      · rw [if_pos (by rw [hus]; exact List.mem_map.mpr ⟨x, List.mem_filter.mpr ⟨List.mem_range.mpr hx4, htch⟩, rfl⟩), if_pos htch]
        exact BitVec.zero_and
      · rw [if_neg, if_neg (busAddr_ne hst (hfit _ hxf) (by simp)), if_neg (busAddr_ne hfi (hfit _ hxf) (by simp)),
          if_neg (by rintro ⟨-, h⟩; exact busAddr_ne hre (hfit _ hxf) (by simp) h), if_neg htch]
        · rw [← hwfield _ hxf, State.field_eq_cellAt, aw.2]
        · intro hmem
          obtain ⟨y, hym, hye⟩ := List.mem_map.mp hmem
          rw [hus] at hym
          obtain ⟨hy4, hyt⟩ := List.mem_filter.mp hym
          have hy4 := List.mem_range.mp hy4
          by_cases hxy : y = x
          · subst hxy; exact htch hyt
          · exact busAddr_ne (hfit _ hxf) (hfit (.eccCount y) (by simpa [nodeFits] using hy4)) (by simpa using hxy) hye
    · intro a hnot
      have hmem : ∀ r ∈ handleWrites s.cfg k i t, a ≠ busAddr r := fun r hr h => hnot (h ▸ List.mem_map_of_mem hr)
      unfold handleWrites at hmem
      rw [if_neg hk, hsr, her] at hmem
      rw [hcell a (fun hp => hmem _ (by simp [hp])), if_neg, if_neg (hmem _ (by simp)), if_neg (hmem _ (by simp)),
        if_neg (by rintro ⟨-, h⟩; exact hmem _ (by simp) h)]
      · refine hwcell a ?_
        rintro (h | ⟨x, hx, h⟩)
        · exact hmem _ (by simp) h
        · exact hmem (.scratchPort x) (by rw [hc]; simp [hx]) h
      · intro h
        obtain ⟨x, hxm, hxe⟩ := List.mem_map.mp h
        have h4 : x < 4 := by
          unfold unitsAscending at hxm
          exact List.mem_range.mp (List.mem_of_mem_filter hxm)
        refine hmem (.node k i (.eccCount x)) ?_ hxe.symm
        simp [h4]
    · rw [hhw, d.frame.hw, hvh]
    · intro hp; rw [hring hp, d.frame.hw, hvh]
    · intro j
      have hu : u.fatalOccurred j = w.fatalOccurred j := by unfold State.fatalOccurred; rw [hfault]
      have hv : v.fatalOccurred j = s.fatalOccurred j := by unfold State.fatalOccurred; rw [hvf]
      rw [hu, d.links, hv, hvleaf]
      unfold State.handleMarksLink
      rw [hmk, hpe, hcn, hc]
    · rw [hfault, d.device, hvf, hvleaf]
      unfold State.handleMarksDevice
      rw [hmk, hpe, hcn, hc]
    · rw [hfault, d.frame.phase, hvf]
    · rw [hfault, d.frame.registered, hvf]
  · rw [hseq, d.frame.seq, hvq]
  · rw [hin, d.frame.inbox, hvi]
  · rw [hres, d.frame.responses, hvi]
  · rw [hrd, d.frame.readData, hvi]
  · obtain ⟨es, hes, hmarks, hfilt⟩ := d.events
    refine ⟨es, hmarks, ?_, ?_⟩
    · rw [hfilt, hvleaf]
      unfold State.expectedEvents
      rw [hmk, hpe, hcn, hc]
      have hcapv : v.seq.cap = s.captureOf k i (p &&& en) := by rw [hvq]
      have hb : v.bitEvents k i p cn (s.captureOf k i (p &&& en)) = s.bitEvents k i p cn (s.captureOf k i (p &&& en)) := by
        funext b
        exact bitEvents_congr hvc (fun e _ r _ => State.field_congr hvc (hvcell _))
      rw [hcapv, hb]
    · rw [hhist, hes, hvi]
      unfold State.handleTail
      rw [hc] at hsr her
      simp only [hc, hk, if_false, hsr, her, hwf, hmk, hen, hf, hun, hus, hask, List.append_assoc, List.cons_append, List.nil_append]

/-! ## HANDLE.MCTRL (R243) -/

theorem mctrl_notFound {l : Nat} {t : Tree} {s : State} (hs : s.io.sched = []) (hm : s.maskOf .mctrl l t = 0#32) :
    mctrlTemplate l t s = .ok .notFound (s.setCursor (some (.leaf .mctrl l t 1))) := by
  have h1 : s.field (.intrStatus (mc s.cfg l)) &&& bit (ll s.cfg l) &&& s.field (.intrStallEn (mc s.cfg l)) = 0#32 := hm
  unfold mctrlTemplate
  rw [Act.bind_of_ok (setCursor_apply _ s), Act.get_bind, Act.bind_of_ok (rd_quiet (by exact hs) _),
    Act.bind_of_ok (rd_quiet (by exact hs) _)]
  have h2 : readReg (s.setCursor (some (.leaf .mctrl l t 1))) (.intrStatus (mc (s.setCursor (some (.leaf .mctrl l t 1))).cfg l))
      &&& bit (ll (s.setCursor (some (.leaf .mctrl l t 1))).cfg l)
      &&& readReg (s.setCursor (some (.leaf .mctrl l t 1))) (.intrStallEn (mc (s.setCursor (some (.leaf .mctrl l t 1))).cfg l)) = 0#32 := h1
  rw [if_pos h2]
  rfl

theorem fits_intr {m : Nat} (hm : m < 4096) : fits (.intrStatus m) = true ∧ fits (.intrStallEn m) = true := by
  constructor <;> simpa [fits] using hm

theorem mctrl_serviced {c : Config} (hw : configWf c = true) {l : Nat} {t : Tree} {s : State} (hs : Alone c s)
    (ha : handleAdmitted c .mctrl l t = true) (hcap : s.seq.cap = []) (hcnt : s.seq.captured = 0)
    (hm : s.maskOf .mctrl l t ≠ 0#32) :
    ∃ u, mctrlTemplate l t s = .ok (s.handleResult .mctrl l t) u ∧ Alone c u ∧ Handled s .mctrl l t u := by
  obtain ⟨hl, hn⟩ := handleAdmitted_mctrl ha
  have hi := nodeExists_lt hw hn
  have hl4 : l < 4096 := by
    have := (configWf_sizes hw).links
    omega
  have hc : s.cfg = c := hs.2
  obtain ⟨fS, fE⟩ := fits_intr hi
  obtain ⟨nS, nE⟩ := intr_not_scratch (c := c) hi
  obtain ⟨st, hst⟩ : ∃ st, s.field (.intrStatus (mc c l)) = st := ⟨_, rfl⟩
  obtain ⟨en, hen⟩ : ∃ en, s.field (.intrStallEn (mc c l)) = en := ⟨_, rfl⟩
  obtain ⟨p, hp⟩ : ∃ p, st &&& bit (ll c l) = p := ⟨_, rfl⟩
  obtain ⟨wf, hwf⟩ : ∃ wf, s.fatalOccurred l = wf := ⟨_, rfl⟩
  have hsup : suppressFlag s .mctrl l = wf := hwf
  have hsr : statusReg c .mctrl l = .intrStatus (mc c l) := rfl
  have her : enableReg c .mctrl l t = .intrStallEn (mc c l) := rfl
  have hpe : s.pendingOf .mctrl l = p := by
    have : s.pendingOf .mctrl l = s.field (.intrStatus (mc s.cfg l)) &&& bit (ll s.cfg l) := rfl
    rw [this, hc, hst, hp]
  have hmk : s.maskOf .mctrl l t = p &&& en := by
    unfold State.maskOf
    rw [hpe, hc, her, hen]
  have hm0 : p &&& en ≠ 0#32 := by rw [← hmk]; exact hm
  have hcn : s.containOf .mctrl l = 0#32 := rfl
  have hcapo : s.captureOf .mctrl l (p &&& en) = [] := by unfold State.captureOf; rw [if_pos (.inl rfl)]
  -- steps 1 to 3
  obtain ⟨v, e1, av, hvc, hvh, hvf, hvi, hvq⟩ : ∃ v, mctrlTemplate l t s
      = (classifyBits .mctrl l (order c .mctrl) >>= fun _ => setCursor (.leaf .mctrl l t 5) >>= fun _ =>
          (if wf then wr (.intrStallEn (mc c l)) (en &&& ~~~(p &&& en)) else pure () : Act Unit) >>= fun _ =>
          setCursor (.leaf .mctrl l t 6) >>= fun _ => wr (.intrStatus (mc c l)) (p &&& en) >>= fun _ => stepEight .mctrl l t true) v
      ∧ Alone c v ∧ v.cfg = s.cfg ∧ v.hw = s.hw ∧ v.fault = s.fault ∧ v.io = s.io
      ∧ v.seq = { s.seq with cursor := some (.leaf .mctrl l t 4), leaf := ⟨p, en, p &&& en, 0#32, 0#32, p &&& en, [], wf⟩ } := by
    refine ⟨((s.setCursor (some (.leaf .mctrl l t 1))).setLeaf ⟨p, en, p &&& en, 0#32, 0#32, p &&& en, [], wf⟩).setCursor
      (some (.leaf .mctrl l t 4)), ?_, hs, rfl, rfl, rfl, rfl, rfl⟩
    unfold mctrlTemplate
    have a1 : (s.setCursor (some (.leaf .mctrl l t 1))).io.sched = [] := hs.1
    have hc1 : (s.setCursor (some (.leaf .mctrl l t 1))).cfg = c := hc
    have h2 : readReg (s.setCursor (some (.leaf .mctrl l t 1))) (.intrStatus (mc c l)) = st := hst
    have h3 : readReg (s.setCursor (some (.leaf .mctrl l t 1))) (.intrStallEn (mc c l)) = en := hen
    rw [Act.bind_of_ok (setCursor_apply _ s), Act.get_bind, hc1, Act.bind_of_ok (rd_quiet a1 _), Act.bind_of_ok (rd_quiet a1 _),
      h2, h3, hp, if_neg hm0, Act.get_bind]
    have h4 : (s.setCursor (some (.leaf .mctrl l t 1))).fatalOccurred l = wf := hwf
    rw [h4]
    unfold mctrlRest
    rw [Act.get_bind, hc1, Act.modify_bind, Act.bind_of_ok (setCursor_apply _ _)]
    simp only [Act.ite_bind]
    rfl
  have hvleaf : v.seq.leaf = ⟨p, en, p &&& en, 0#32, 0#32, p &&& en, [], wf⟩ := by rw [hvq]
  -- step 4
  obtain ⟨w, e3, aw, d⟩ := classifyOrder_spec hw (handleAdmitted_targets ha) hl4 av (by rw [hvq]; simp [hcap, hcnt]) (by rw [hvleaf]) (by rw [hvleaf])
  have hvcell : ∀ a, v.cellAt a = s.cellAt a := fun a => by unfold State.cellAt; rw [hvh, hvc]
  have hwcell : ∀ a, ¬ scratchCell c a → w.cellAt a = s.cellAt a := fun a hx => by
    rw [d.frame.cells a (by rw [hvc, hc]; exact hx), hvcell]
  have hwS : w.field (.intrStatus (mc c l)) = st := by
    rw [State.field_congr (by rw [aw.2, hc]) (hwcell _ nS), hst]
  have hwE : w.field (.intrStallEn (mc c l)) = en := by
    rw [State.field_congr (by rw [aw.2, hc]) (hwcell _ nE), hen]
  have hun : w.seq.leaf.unhandled = unrecognised c .mctrl (p &&& en) := by rw [d.unhandled, hvleaf]
  -- step 5
  obtain ⟨x, e4, ax, cx, hx, fx, qx, ix⟩ : ∃ x, (if wf then wr (.intrStallEn (mc c l)) (en &&& ~~~(p &&& en)) else pure () : Act Unit) (w.setCursor (some (.leaf .mctrl l t 5))) = .ok () x
      ∧ Alone c x ∧ (∀ a, x.cellAt a = if wf = true ∧ a = busAddr (.intrStallEn (mc c l)) then (en &&& ~~~(p &&& en)) &&& definedMask c (.intrStallEn (mc c l)) else w.cellAt a)
      ∧ x.hw = { w.hw with regs := x.hw.regs } ∧ x.fault = w.fault ∧ x.seq = { w.seq with cursor := some (.leaf .mctrl l t 5) }
      ∧ x.io = { w.io with history := w.io.history ++ (if wf then [.write (.intrStallEn (mc c l)) (en &&& ~~~(p &&& en))] else []) } := by
    cases wf with
    | false => exact ⟨_, rfl, aw, fun a => by simp, rfl, rfl, rfl, by rw [State.setCursor_io]; simp⟩
    | true =>
      obtain ⟨x, e, a, wr⟩ := wr_rw (v := en &&& ~~~(p &&& en)) (r := .intrStallEn (mc c l)) (Alone.setCursor aw (some (.leaf .mctrl l t 5))) rfl rfl (fun _ _ _ => rfl)
      refine ⟨x, e, a, fun y => ?_, ?_, ?_, ?_, ?_⟩
      · rw [wr.cells]
        simp only [true_and]
        rfl
      · rw [wr.hw]; rfl
      · rw [wr.fault]; rfl
      · rw [wr.seq]; rfl
      · rw [wr.io]; rfl
  -- step 6
  obtain ⟨y, e5, ay, wy⟩ := wr_clear (v := p &&& en) (r := .intrStatus (mc c l)) (Alone.setCursor ax (some (.leaf .mctrl l t 6))) rfl rfl
  have hyS : (x.setCursor (some (.leaf .mctrl l t 6))).field (.intrStatus (mc c l)) = st := by
    rw [← hwS]
    refine State.field_congr (by rw [State.setCursor_cfg, ax.2, aw.2]) ?_
    rw [State.setCursor_read_cellAt, cx, if_neg]
    rintro ⟨-, h⟩
    exact busAddr_ne fE fS (by simp) h
  rw [hyS] at wy
  -- step 8
  obtain ⟨u, e6, au, h6, f6, q6, i6⟩ := stepEight_spec .mctrl l t true ay
  have hyq : y.seq = { w.seq with cursor := some (.leaf .mctrl l t 6) } := by rw [wy.seq, State.setCursor_seq, qx]
  have hyun : y.seq.leaf.unhandled = unrecognised c .mctrl (p &&& en) := by rw [hyq]; exact hun
  have hcell : ∀ a, u.cellAt a = if a = busAddr (.intrStatus (mc c l)) then st &&& ~~~(p &&& en)
      else if wf = true ∧ a = busAddr (.intrStallEn (mc c l)) then (en &&& ~~~(p &&& en)) &&& definedMask c (.intrStallEn (mc c l)) else w.cellAt a := by
    intro a
    have : u.cellAt a = y.cellAt a := by unfold State.cellAt; rw [h6, au.2, ay.2]
    rw [this, wy.cells, State.setCursor_read_cellAt, cx]
  have hmaskS : st &&& definedMask c (.intrStatus (mc c l)) = st := by
    rw [← hst, State.field, hc, BitVec.and_assoc, BitVec.and_self]
  have hmaskE : en &&& definedMask c (.intrStallEn (mc c l)) = en := by
    rw [← hen, State.field, hc, BitVec.and_assoc, BitVec.and_self]
  have hand : ∀ a b d : Word, a &&& d = a → a &&& b &&& d = a &&& b := by
    intro a b d h
    rw [BitVec.and_assoc, BitVec.and_comm b d, ← BitVec.and_assoc, h]
  have hio : u.io = { w.io with history := w.io.history ++ (if wf then [.write (.intrStallEn (mc c l)) (en &&& ~~~(p &&& en))] else [])
      ++ [.write (.intrStatus (mc c l)) (p &&& en)]
      ++ (if unrecognised c .mctrl (p &&& en) = 0#32 then [] else [.unhandled .mctrl l t (unrecognised c .mctrl (p &&& en))]) } := by
    rw [i6, wy.io, State.setCursor_io, ix, hyun]
  have hfault : u.fault = w.fault := by rw [f6, wy.fault, State.setCursor_fault, fx]
  refine ⟨u, ?_, au, ?_, ?_, ?_, ?_, ?_, ?_⟩
  · rw [e1, Act.bind_of_ok e3, Act.bind_of_ok (setCursor_apply _ _), Act.bind_of_ok e4, Act.bind_of_ok (setCursor_apply _ _),
      Act.bind_of_ok e5, e6, hyun]
    have hok : s.handshakeOk .mctrl = true := rfl
    unfold State.handleResult
    rw [hmk, hc, hok]
  · constructor
    · rw [au.2, hc]
    · rw [hc, hsr, State.field_eq_cellAt, au.2, hcell, if_pos rfl, hst, hmk]
      exact hand _ _ _ hmaskS
    · rw [hc, her, State.field_eq_cellAt, au.2, hcell, if_neg (busAddr_ne fS fE (by simp)), hsup, hmk, hen]
      cases wf with
      | true =>
        simp only [true_and, if_true]
        rw [hand _ _ _ hmaskE, hand _ _ _ hmaskE]
      | false =>
        simp only [Bool.false_eq_true, false_and, if_false]
        rw [← hwE, State.field_eq_cellAt, aw.2]
    · intro h; exact absurd rfl h
    · intro h; exact absurd rfl h
    · intro a hnot
      have hmem : ∀ r ∈ handleWrites s.cfg .mctrl l t, a ≠ busAddr r := fun r hr h => hnot (h ▸ List.mem_map_of_mem hr)
      rw [hc] at hmem
      unfold handleWrites at hmem
      rw [hsr, her] at hmem
      rw [hcell a, if_neg (hmem _ (by simp)), if_neg (by rintro ⟨-, h⟩; exact hmem _ (by simp) h)]
      refine hwcell a ?_
      rintro (h | ⟨z, hz, h⟩)
      · exact hmem _ (by simp) h
      · exact hmem (.scratchPort z) (by simp [hz]) h
    · rw [h6, wy.hw, State.setCursor_hw, hx, d.frame.hw, hvh]
    · intro _; rw [h6, wy.hw, State.setCursor_hw, hx, d.frame.hw, hvh]
    · intro j
      have hu : u.fatalOccurred j = w.fatalOccurred j := by unfold State.fatalOccurred; rw [hfault]
      have hv : v.fatalOccurred j = s.fatalOccurred j := by unfold State.fatalOccurred; rw [hvf]
      rw [hu, d.links, hv, hvleaf]
      unfold State.handleMarksLink
      rw [hmk, hpe, hcn, hc]
    · rw [hfault, d.device, hvf, hvleaf]
      unfold State.handleMarksDevice
      rw [hmk, hpe, hcn, hc]
    · rw [hfault, d.frame.phase, hvf]
    · rw [hfault, d.frame.registered, hvf]
  · rw [q6, hyq, d.frame.seq, hvq]
  · rw [hio, d.frame.inbox, hvi]
  · rw [hio, d.frame.responses, hvi]
  · rw [hio, d.frame.readData, hvi]
  · obtain ⟨es, hes, hmarks, hfilt⟩ := d.events
    refine ⟨es, hmarks, ?_, ?_⟩
    · rw [hfilt, hvleaf]
      unfold State.expectedEvents
      rw [hmk, hpe, hcn, hc, hcapo]
      have hcapv : v.seq.cap = [] := by rw [hvq]; exact hcap
      have hb : v.bitEvents .mctrl l p 0#32 [] = s.bitEvents .mctrl l p 0#32 [] := by
        funext b
        exact bitEvents_congr hvc (fun e _ r _ => State.field_congr hvc (hvcell _))
      rw [hcapv, hb]
    · rw [hio, hes, hvi]
      have hnp : (Kind.mctrl = Kind.priv) = False := by simp
      unfold State.handleTail
      simp only [hc, if_true, hsr, her, hsup, hmk, hen, hnp, if_false, List.append_nil, List.append_assoc, List.cons_append, List.nil_append]

/-! ## HANDLE -/

/-- The sequencer once a HANDLE has ended at step `n`: nothing of it is carried on (R59, R65). -/
def seqAfterHandle (s : State) (k : Kind) (i : Nat) (t : Tree) (n : Nat) : Sequencer :=
  { s.seq with cursor := some (.leaf k i t n), leaf := {}, cap := [], captured := 0 }

/-- A HANDLE that finds no pending, enabled bit (R211 step 1). -/
theorem handle_notFound {k : Kind} {i : Nat} {t : Tree} {s : State} (hs : s.io.sched = []) (hm : s.maskOf k i t = 0#32) :
    ∃ u, handle k i t s = .ok .notFound u ∧ u.cfg = s.cfg ∧ u.hw = s.hw ∧ u.fault = s.fault
      ∧ u.seq = seqAfterHandle s k i t 1
      ∧ u.io = { s.io with history := s.io.history ++ [.result (.handle k i t .notFound)] } := by
  unfold handle
  rw [Act.modify_bind]
  by_cases hk : k = .mctrl
  · subst hk
    rw [if_pos rfl, Act.bind_of_ok (mctrl_notFound (s := (s.setLeaf {}).clearCap) hs hm)]
    exact ⟨_, rfl, rfl, rfl, rfl, rfl, rfl⟩
  · rw [if_neg hk, Act.bind_of_ok (template_notFound (s := (s.setLeaf {}).clearCap) hs hk hm)]
    exact ⟨_, rfl, rfl, rfl, rfl, rfl, rfl⟩

theorem Serviced.congr {s s' u u' : State} {k : Kind} {i : Nat} {t : Tree} (h : Serviced s k i t u)
    (h1 : s.cfg = s'.cfg) (h2 : s.hw = s'.hw) (h3 : s.fault = s'.fault) (h4 : u.cfg = u'.cfg) (h5 : u.hw = u'.hw)
    (h6 : u.fault = u'.fault) : Serviced s' k i t u' := by
  cases s; cases s'; cases u; cases u'
  simp only at h1 h2 h3 h4 h5 h6
  subst h1 h2 h3 h4 h5 h6
  exact ⟨h.cfg, h.status, h.enable, h.first, h.counters, h.cells, h.hardware, h.ring, h.links, h.device, h.phase, h.registered⟩

/-- A HANDLE that finds one (R211, R243, R245). -/
theorem handle_serviced {c : Config} (hw : configWf c = true) {k : Kind} {i : Nat} {t : Tree} {s : State} (hs : Alone c s)
    (ha : handleAdmitted c k i t = true) (hm : s.maskOf k i t ≠ 0#32) :
    ∃ u es, handle k i t s = .ok (s.handleResult k i t) u ∧ Alone c u ∧ Serviced s k i t u
      ∧ u.seq = seqAfterHandle s k i t 8
      ∧ u.io.inbox = s.io.inbox ∧ u.io.responses = s.io.responses ∧ u.io.readData = s.io.readData
      ∧ (∀ e ∈ es, markEvent e) ∧ es.filter isClassified = s.expectedEvents k i t
      ∧ u.io.history = s.io.history ++ es ++ s.handleTail k i t ++ [.result (.handle k i t (s.handleResult k i t))] := by
  have hs0 : Alone c ((s.setLeaf {}).clearCap) := hs
  obtain ⟨u, e, au, h⟩ : ∃ u, (if k = .mctrl then mctrlTemplate i t else template k i t : Act Result3) ((s.setLeaf {}).clearCap)
      = .ok (((s.setLeaf {}).clearCap).handleResult k i t) u ∧ Alone c u ∧ Handled ((s.setLeaf {}).clearCap) k i t u := by
    by_cases hk : k = .mctrl
    · subst hk
      rw [if_pos rfl]
      exact mctrl_serviced hw hs0 ha rfl rfl hm
    · rw [if_neg hk]
      exact template_serviced hw hs0 hk ha rfl rfl hm
  obtain ⟨es, hmk, hf, hh⟩ := h.history
  have hok : ((s.setLeaf {}).clearCap).handshakeOk k = s.handshakeOk k := by
    unfold State.handshakeOk
    split
    · exact State.ask_congr (by rfl) _
    · rfl
  have hres : ((s.setLeaf {}).clearCap).handleResult k i t = s.handleResult k i t := by
    unfold State.handleResult
    rw [hok]
    rfl
  have htail : ((s.setLeaf {}).clearCap).handleTail k i t = s.handleTail k i t := by
    unfold State.handleTail
    rw [hok]
    rfl
  rw [hres] at e
  rw [htail] at hh
  refine ⟨((u.setLeaf {}).clearCap).emit (.result (.handle k i t (s.handleResult k i t))), es, ?_, au, ?_, ?_, h.inbox, h.responses,
    h.readData, hmk, hf, ?_⟩
  · unfold handle
    rw [Act.modify_bind]
    have e' := Act.bind_of_ok (f := fun r => (do
      modify (fun s => ((s.setLeaf {}).clearCap).emit (.result (.handle k i t r)))
      return r : Act Result3)) e
    rw [Act.ite_bind] at e'
    exact e'
  · exact h.serviced.congr rfl rfl rfl rfl rfl rfl
  · have := h.seq
    change { u.seq with leaf := {}, cap := [], captured := 0 } = _
    rw [this]
    rfl
  · change u.io.history ++ _ = _
    rw [hh]
    rfl

end Sys2Proof.Machine
end

