-- ==== Sys2Proof/Laws/Calm.lean ====
section
/-! SUPPORT. With no other agent moving every sequencer action runs to its end, and the mutex, the owed end of interrupt,
the frames still presented, the responses and the read values stay what they were (`Calm`): from this the commands
complete. -/

namespace Sys2Proof.Machine

/-- What no part of a command touches between taking the mutex and answering. -/
def State.watched (s : State) : (Lock × Option Result3 × Option RcvTail) × List Input × List (List Word) × List Word :=
  ((s.seq.lock, s.seq.wlkTail, s.seq.rcvTail), s.io.inbox, s.io.responses, s.io.readData)

/-- It is as it was. -/
def Calm (s t : State) : Prop := t.watched = s.watched

theorem Calm.chains : Chains Calm := ⟨fun _ => rfl, fun h k => k.trans h⟩

section
variable {s t : State} (h : Calm s t)
include h
theorem Calm.lock : t.seq.lock = s.seq.lock := congrArg (fun w => w.1.1) h
theorem Calm.tail : t.seq.wlkTail = s.seq.wlkTail := congrArg (fun w => w.1.2.1) h
theorem Calm.rcvTail : t.seq.rcvTail = s.seq.rcvTail := congrArg (fun w => w.1.2.2) h
theorem Calm.inbox : t.io.inbox = s.io.inbox := congrArg (fun w => w.2.1) h
theorem Calm.responses : t.io.responses = s.io.responses := congrArg (fun w => w.2.2.1) h
theorem Calm.readData : t.io.readData = s.io.readData := congrArg (fun w => w.2.2.2) h
end

/-- From the parts. -/
theorem Calm.of {s t : State} (hq : t.seq = s.seq) (hi : t.io.inbox = s.io.inbox) (hr : t.io.responses = s.io.responses)
    (hd : t.io.readData = s.io.readData) : Calm s t := by
  unfold Calm State.watched
  rw [hq, hi, hr, hd]

variable {c : Config}

theorem calm_pure {α : Type} (a : α) : Quietly c Calm (pure a : Act α) := Quietly.pure Calm.chains a

theorem calm_bind {α β : Type} {x : Act α} {f : α → Act β} (hx : Quietly c Calm x) (hf : ∀ a, Quietly c Calm (f a)) :
    Quietly c Calm (x >>= f) := Quietly.bind Calm.chains hx hf

/-- Reading the state and going on. -/
theorem calm_get {β : Type} {f : State → Act β} (hf : ∀ s, Quietly c Calm (f s)) : Quietly c Calm ((get : Act State) >>= f) :=
  Quietly.get_bind (fun s hs => hf s _ hs)

/-- An update that touches neither what is watched nor the schedule nor the configuration. -/
theorem calm_modify {g : State → State}
    (h : ∀ s, (State.watched (g s), (g s).io.sched, (g s).cfg) = (s.watched, s.io.sched, s.cfg)) :
    Quietly c Calm (modify g : Act PUnit) :=
  Quietly.modify (fun s _ => show State.watched (g s) = s.watched from congrArg Prod.fst (h s)) (fun s hs =>
    ⟨(congrArg (fun w => w.2.1) (h s)).trans hs.1, (congrArg (fun w => w.2.2) (h s)).trans hs.2⟩)

theorem calm_emit (e : Event) : Quietly c Calm (emit e) := Quietly.emit (fun _ => rfl)

theorem calm_askEnv (q : EnvQuery) : Quietly c Calm (askEnv q) :=
  Quietly.askEnv (fun s => Calm.of (State.ask_seq s q) (State.ask_io_inbox s q) (State.ask_io_responses s q) (State.ask_io_readData s q))

theorem calm_setCursor (q : Cursor) : Quietly c Calm (setCursor q) := Quietly.setCursor (fun _ => rfl)

theorem calm_setStep (n : Nat) : Quietly c Calm (setStep n) := calm_modify (fun _ => rfl)

theorem calm_rd (r : Reg) : Quietly c Calm (rd r) := Quietly.rd Calm.chains r

theorem calm_extCall (n : ExtName) (l : Option Nat) : Quietly c Calm (extCall n l) :=
  fun _ hs => ⟨(), _, extCall_quiet hs.1 n l, hs, rfl⟩

theorem calm_ite {α : Type} {p : Prop} [Decidable p] {x y : Act α} (hx : Quietly c Calm x) (hy : Quietly c Calm y) :
    Quietly c Calm (if p then x else y) := Quietly.ite hx hy

/-! ## A write touches the hardware only -/

/-- Only the hardware differs between two states. -/
def HardwareOnly (s t : State) : Prop := t = { s with hw := t.hw }

theorem HardwareOnly.parts {s t : State} (h : HardwareOnly s t) : t.cfg = s.cfg ∧ t.fault = s.fault ∧ t.seq = s.seq ∧ t.io = s.io := by
  rw [h]
  exact ⟨rfl, rfl, rfl, rfl⟩

theorem HardwareOnly.trans {s t u : State} (h : HardwareOnly s t) (k : HardwareOnly t u) : HardwareOnly s u := by
  unfold HardwareOnly at *
  rw [k, h]

theorem State.resetRegs_hardwareOnly (s : State) (rs : List Reg) : HardwareOnly s (s.resetRegs rs) := by
  induction rs generalizing s with
  | nil => rfl
  | cons r rs ih => exact ih _

theorem State.zeroRegs_hardwareOnly (s : State) (rs : List Reg) : HardwareOnly s (s.zeroRegs rs) := by
  induction rs generalizing s with
  | nil => rfl
  | cons r rs ih => exact ih _

theorem State.warmResetPorts_hardwareOnly (s : State) (g : Nat) (ps : List Nat) : HardwareOnly s (s.warmResetPorts g ps) := by
  induction ps generalizing s with
  | nil => rfl
  | cons p ps ih =>
    unfold State.warmResetPorts
    refine HardwareOnly.trans ?_ (ih _)
    split <;> [exact s.resetRegs_hardwareOnly _; rfl]

theorem State.rwEffect_hardwareOnly (s : State) (r : Reg) (old new : Word) : HardwareOnly s (s.rwEffect r old new) := by
  unfold State.rwEffect
  split
  · split <;> [exact s.zeroRegs_hardwareOnly _; rfl]
  · exact s.warmResetPorts_hardwareOnly _ _
  · split <;> rfl
  · rfl

theorem State.woEffect_hardwareOnly (s : State) (r : Reg) (v : Word) : HardwareOnly s (s.woEffect r v) := by
  unfold State.woEffect
  split <;> first | rfl | (split <;> rfl)

theorem State.ramWrite_hardwareOnly (s : State) (m : Ram) (l i : Nat) (v : Word) : HardwareOnly s (s.ramWrite m l i v) := by
  unfold State.ramWrite
  split <;> [(cases m <;> rfl); rfl]

theorem State.indexedWrite_hardwareOnly (s : State) (r : Reg) (v : Word) : HardwareOnly s (s.indexedWrite r v) := by
  unfold State.indexedWrite
  split <;> [exact s.ramWrite_hardwareOnly _ _ _ _; exact s.ramWrite_hardwareOnly _ _ _ _; exact s.ramWrite_hardwareOnly _ _ _ _; rfl]

/-- A WR32 changes registers, RAMs, handshakes and `armed`, and nothing else (R151). -/
theorem State.applyWrite_hardwareOnly (s : State) (r : Reg) (v : Word) (stuck : Bool) : HardwareOnly s (s.applyWrite r v stuck) := by
  unfold State.applyWrite
  cases access r with
  | ro | combinational => rfl
  | w1c => cases stuck <;> rfl
  | wo => exact s.woEffect_hardwareOnly r v
  | rw => exact (s.store r (v &&& definedMask s.cfg r)).rwEffect_hardwareOnly r _ _
  | indexed => exact s.indexedWrite_hardwareOnly r v

/-- A write always ends with a value, and of the outside it touches H and the environment only (R151). -/
theorem writeReg_ok (r : Reg) (v : Word) (s : State) : ∃ t, writeReg r v s = .ok () t ∧ t.cfg = s.cfg ∧ t.fault = s.fault
    ∧ t.seq = s.seq ∧ t.io = { s.io with history := s.io.history ++ [.write r v], env := t.io.env } := by
  rw [writeReg_apply]
  cases stuckQuery r v with
  | none =>
    obtain ⟨hc, hf, hq, ho⟩ := ((s.emit (.write r v)).applyWrite_hardwareOnly r v false).parts
    exact ⟨_, rfl, hc, hf, hq, by rw [ho]; rfl⟩
  | some q =>
    obtain ⟨hc, hf, hq, ho⟩ := (((s.emit (.write r v)).ask q).2.applyWrite_hardwareOnly r v ((s.emit (.write r v)).ask q).1).parts
    refine ⟨_, rfl, hc.trans (State.ask_cfg _ q), hf.trans (State.ask_fault _ q), hq.trans (State.ask_seq _ q), ?_⟩
    rw [ho]
    obtain ⟨env, e⟩ := (s.emit (.write r v)).ask_snd q
    rw [e]
    rfl

theorem calm_wr (r : Reg) (v : Word) : Quietly c Calm (wr r v) := by
  intro s hs
  obtain ⟨t, e, hc, -, hq, ho⟩ := writeReg_ok r v s
  refine ⟨(), t, ?_, ⟨by rw [ho]; exact hs.1, hc.trans hs.2⟩, Calm.of hq (by rw [ho]) (by rw [ho]) (by rw [ho])⟩
  unfold wr
  rw [Act.bind_of_ok (tick_quiet hs.1)]
  exact e

theorem calm_wrAll (ws : List (Reg × Word)) : Quietly c Calm (wrAll ws) := by
  induction ws with
  | nil => exact calm_pure _
  | cons w ws ih => exact calm_bind (calm_wr _ _) (fun _ => ih)

theorem State.responder_frame (s : State) (l : Nat) :
    ((s.ackRstseq l).cfg = s.cfg ∧ (s.ackRstseq l).seq = s.seq ∧ (s.ackRstseq l).io = s.io)
      ∧ ((s.finishRamInit l).cfg = s.cfg ∧ (s.finishRamInit l).seq = s.seq ∧ (s.finishRamInit l).io = s.io)
      ∧ (s.ackRing.cfg = s.cfg ∧ s.ackRing.seq = s.seq ∧ s.ackRing.io = s.io) := by
  refine ⟨?_, ?_, ?_⟩
  · unfold State.ackRstseq; split <;> exact ⟨rfl, rfl, rfl⟩
  · unfold State.finishRamInit; split <;> exact ⟨rfl, rfl, rfl⟩
  · unfold State.ackRing; split <;> exact ⟨rfl, rfl, rfl⟩

theorem calm_poll (r : Reg) (q : EnvQuery) {g : State → State}
    (hg : ∀ s, (g s).cfg = s.cfg ∧ (g s).seq = s.seq ∧ (g s).io = s.io) : Quietly c Calm (poll r q g) := by
  unfold poll
  refine calm_bind (calm_rd r) (fun v => calm_ite (calm_pure _) (calm_bind (calm_askEnv q) (fun ok => calm_ite ?_ (calm_pure _))))
  exact calm_bind (x := modify g) (calm_modify (fun s => by unfold State.watched; rw [(hg s).1, (hg s).2.1, (hg s).2.2]))
    (fun _ => calm_pure _)

/-! ## Marking, classification, HANDLE -/

theorem Marks.calm {L} {s t : State} (h : MarksWith L s t) : Calm s t := by
  unfold Calm State.watched
  rw [h.seq, h.inbox, h.responses, h.readData]

theorem calm_forward (e : SinkEvent) : Quietly c Calm (forward e) :=
  Quietly.mono (fun _ _ h => Marks.calm h) (forward_quietly c e)

theorem calm_markLink (l : Nat) : Quietly c Calm (markLink l) := by
  unfold markLink
  refine calm_get (fun s => calm_ite (calm_pure _) ?_)
  refine calm_bind (x := modify _) (calm_modify (fun _ => rfl)) (fun _ => ?_)
  exact calm_bind (calm_rd _) (fun v => calm_bind (calm_wr _ _) (fun _ => calm_forward _))

theorem calm_markDevice : Quietly c Calm markDevice := by
  unfold markDevice
  refine calm_get (fun s => calm_ite (calm_pure _) ?_)
  refine calm_bind (x := modify _) (calm_modify (fun _ => rfl)) (fun _ => ?_)
  exact calm_bind (calm_wr _ _) (fun _ => calm_forward _)

theorem calm_setfatalCore (tgt : Option Nat) (dw : Bool) : Quietly c Calm (setfatalCore tgt dw) := by
  unfold setfatalCore
  cases tgt with
  | none => exact calm_ite calm_markDevice (calm_pure _)
  | some l => exact calm_bind (calm_markLink l) (fun _ => calm_ite calm_markDevice (calm_pure _))

theorem calm_capture (k : Kind) (i : Nat) (rs : List NodeReg) : Quietly c Calm (capture k i rs) := by
  induction rs with
  | nil => exact calm_pure _
  | cons r rs ih =>
    unfold capture
    refine calm_get (fun s => calm_get (fun _ => calm_ite ?_ ih))
    refine calm_bind (calm_rd _) (fun v => calm_bind (x := modify _) (calm_modify (fun _ => rfl)) (fun _ => ih))

theorem calm_reportTo (k : Kind) (b i : Nat) (sev : Severity) (dw : Bool) (d : Diagnostic) (tgts : List (Option Nat)) :
    Quietly c Calm (reportTo k b i sev dw d tgts) := by
  induction tgts with
  | nil => exact calm_pure _
  | cons tgt rest ih =>
    unfold reportTo
    exact calm_bind (calm_emit _) (fun _ => by split <;> [exact calm_bind (calm_setfatalCore _ _) (fun _ => ih); exact ih])

theorem calm_touch (g : State → LeafRegs) : Quietly c Calm (modify (fun s => s.setLeaf (g s)) : Act PUnit) :=
  calm_modify (fun _ => rfl)

theorem calm_logIfEcc (k : Kind) (i : Nat) (e : Entry) (d : Diagnostic) : Quietly c Calm (logIfEcc k i e d) := by
  have h : ∀ u un, Quietly c Calm (eccLog k i u un d) := fun u un => Quietly.mono (fun _ _ h => Marks.calm h) (eccLog_quietly c k i u un d)
  unfold logIfEcc
  split
  · exact calm_pure _
  · exact calm_bind (h _ _) (fun _ => calm_touch _)
  · exact calm_bind (h _ _) (fun _ => calm_touch _)

theorem calm_classifyBit (k : Kind) (i b : Nat) : Quietly c Calm (classifyBit k i b) := by
  unfold classifyBit
  refine calm_get (fun s => ?_)
  split
  · exact calm_pure _
  · rename_i e _
    refine calm_ite ?_ ?_
    · refine Quietly.modify (fun s _ => ?_) (fun s h => Alone.touchUnitOf h e)
      refine Marks.calm (L := fun p q => q = { p with unhandled := q.unhandled, units := q.units }) ?_
      exact Classifies.chains.trans (Classifies.touchUnitOf e s) (Classifies.recognise _ b)
    · refine calm_bind (Quietly.mono (fun _ _ h => Marks.calm h) (diagnostic_quietly c k i e)) (fun d => ?_)
      exact calm_bind (calm_reportTo _ _ _ _ _ _ _) (fun _ => calm_bind (calm_logIfEcc _ _ _ _) (fun _ => calm_touch _))

theorem calm_classifyBits (k : Kind) (i : Nat) (bs : List Nat) : Quietly c Calm (classifyBits k i bs) := by
  induction bs with
  | nil => exact calm_pure _
  | cons b bs ih =>
    unfold classifyBits
    exact calm_get (fun s => by split <;> [exact calm_bind (calm_classifyBit k i b) (fun _ => ih); exact ih])

theorem calm_zeroCounters (k : Kind) (i : Nat) (us : List Nat) : Quietly c Calm (zeroCounters k i us) := by
  induction us with
  | nil => exact calm_pure _
  | cons u us ih => exact calm_bind (calm_wr _ _) (fun _ => ih)

theorem calm_privHandshake : Quietly c Calm privHandshake := by
  unfold privHandshake
  refine calm_bind (calm_wr _ _) (fun _ => calm_bind (calm_poll _ _ (fun s => (s.responder_frame 0).2.2)) (fun ok => calm_ite (calm_pure _) ?_))
  exact calm_bind (calm_emit _) (fun _ => calm_pure _)

theorem calm_stepEight (k : Kind) (i : Nat) (t : Tree) (ok : Bool) : Quietly c Calm (stepEight k i t ok) := by
  unfold stepEight
  refine calm_bind (calm_setCursor _) (fun _ => calm_get (fun s => ?_))
  exact calm_ite (calm_pure _) (calm_bind (calm_emit _) (fun _ => calm_pure _))

theorem calm_templateTail (k : Kind) (i : Nat) (t : Tree) (en m f : Word) (wf : Bool) :
    Quietly c Calm (templateTail k i t en m f wf) := by
  unfold templateTail
  refine calm_bind (calm_bind (calm_setCursor _) (fun _ => calm_ite (calm_wr _ _) (calm_pure _))) (fun _ => ?_)
  refine calm_bind (calm_setCursor _) (fun _ => calm_bind (calm_wr _ _) (fun _ => calm_bind (calm_wr _ _) (fun _ =>
    calm_bind (calm_setCursor _) (fun _ => calm_get (fun x => calm_bind (calm_zeroCounters _ _ _) (fun _ => ?_))))))
  exact calm_bind (calm_ite calm_privHandshake (calm_pure _)) (fun ok => calm_stepEight _ _ _ _)

theorem calm_template (k : Kind) (i : Nat) (t : Tree) : Quietly c Calm (template k i t) := by
  have hrest : ∀ p en cn wf, Quietly c Calm (templateRest k i t p en cn wf) := by
    intro p en cn wf
    rw [templateRest_eq]
    refine calm_bind (calm_setCursor _) (fun _ => calm_bind (calm_rd _) (fun f => calm_bind (calm_touch _) (fun _ =>
      calm_bind (calm_setCursor _) (fun _ => calm_get (fun x => calm_bind (calm_ite (calm_pure _) (calm_capture _ _ _)) (fun _ =>
        calm_bind (calm_setCursor _) (fun _ => calm_bind (calm_classifyBits _ _ _) (fun _ => calm_templateTail _ _ _ _ _ _ _))))))))
  unfold template
  refine calm_bind (calm_setCursor _) (fun _ => calm_bind (calm_rd _) (fun p => calm_bind (calm_rd _) (fun en => calm_ite (calm_pure _) ?_)))
  split
  · exact calm_bind (calm_rd _) (fun cn => calm_get (fun s => hrest _ _ _ _))
  · exact calm_bind (calm_pure _) (fun cn => calm_get (fun s => hrest _ _ _ _))

theorem calm_mctrlTemplate (l : Nat) (t : Tree) : Quietly c Calm (mctrlTemplate l t) := by
  unfold mctrlTemplate
  refine calm_bind (calm_setCursor _) (fun _ => calm_get (fun s => calm_bind (calm_rd _) (fun p => calm_bind (calm_rd _) (fun en =>
    calm_ite (calm_pure _) (calm_get (fun x => ?_))))))
  unfold mctrlRest
  refine calm_get (fun y => calm_bind (x := modify _) (calm_touch _) (fun _ => calm_bind (calm_setCursor _) (fun _ =>
    calm_bind (calm_classifyBits _ _ _) (fun _ => calm_bind (calm_setCursor _) (fun _ => ?_)))))
  have h : Quietly c Calm (do
      setCursor (.leaf .mctrl l t 6)
      wr (.intrStatus (mc y.cfg l)) (p &&& bit (ll s.cfg l) &&& en)
      stepEight .mctrl l t true) :=
    calm_bind (calm_setCursor _) (fun _ => calm_bind (calm_wr _ _) (fun _ => calm_stepEight _ _ _ _))
  split
  · exact calm_bind (calm_wr _ _) (fun _ => h)
  · exact h

theorem calm_handle (k : Kind) (i : Nat) (t : Tree) : Quietly c Calm (handle k i t) := by
  unfold handle
  refine calm_bind (x := modify _) (calm_modify (fun _ => rfl)) (fun _ => ?_)
  have h : ∀ r, Quietly c Calm (do
      modify (fun s => ((s.setLeaf {}).clearCap).emit (.result (.handle k i t r)))
      return r : Act Result3) := fun r =>
    calm_bind (x := modify _) (calm_modify (fun _ => rfl)) (fun _ => calm_pure _)
  split
  · exact calm_bind (calm_mctrlTemplate _ _) h
  · exact calm_bind (calm_template _ _ _) h

/-! ## Walks -/

theorem calm_handleAll (t : Tree) (ns : List (Kind × Nat)) : Quietly c Calm (handleAll t ns) := by
  induction ns with
  | nil => exact calm_pure _
  | cons n ns ih => exact calm_bind (calm_handle _ _ _) (fun r => calm_bind ih (fun rs => calm_pure _))

theorem calm_walkfam (f : Family) (i : Nat) (t : Tree) : Quietly c Calm (walkfam f i t) := by
  unfold walkfam
  exact calm_bind (calm_setCursor _) (fun _ => calm_get (fun s => calm_bind (calm_handleAll _ _) (fun rs =>
    calm_bind (calm_emit _) (fun _ => calm_pure _))))

theorem calm_walkEngines (t : Tree) (w : Nat) (js : List Nat) : Quietly c Calm (walkEngines t w js) := by
  induction js with
  | nil => exact calm_pure _
  | cons j js ih =>
    unfold walkEngines
    refine calm_get (fun s => ?_)
    split
    · exact calm_bind (calm_setCursor _) (fun _ => calm_bind (calm_walkfam _ _ _) (fun r => calm_bind ih (fun rs => calm_pure _)))
    · exact ih

theorem calm_walkWords (t : Tree) (ws : List Nat) : Quietly c Calm (walkWords t ws) := by
  induction ws with
  | nil => exact calm_pure _
  | cons w ws ih =>
    unfold walkWords
    exact calm_bind (calm_setCursor _) (fun _ => calm_bind (calm_rd _) (fun v => calm_get (fun s =>
      calm_bind (calm_walkEngines _ _ _) (fun rs => calm_bind ih (fun rest => calm_pure _)))))

theorem calm_walkTrees (ts : List Tree) : Quietly c Calm (walkTrees ts) := by
  induction ts with
  | nil => exact calm_pure _
  | cons t ts ih =>
    unfold walkTrees
    exact calm_get (fun s => calm_bind (calm_walkWords _ _) (fun rs => calm_bind ih (fun rest => calm_pure _)))

theorem calm_summary : Quietly c Calm summary := by
  unfold summary
  exact calm_bind (calm_walkTrees _) (fun rs => calm_pure _)

theorem calm_topItem (top : Word) (b : Nat) {x : Act Result3} (hx : Quietly c Calm x) : Quietly c Calm (topItem top b x) :=
  calm_ite (calm_bind (calm_setCursor _) (fun _ => calm_bind hx (fun _ => calm_pure _))) (calm_pure _)

theorem calm_dispatch : Quietly c Calm dispatch :=
  calm_bind (calm_setCursor _) (fun _ => calm_bind (calm_rd _) (fun _ => calm_get (fun _ =>
    calm_bind (calm_topItem _ _ calm_summary) (fun _ => calm_bind (calm_topItem _ _ (calm_handle _ _ _)) (fun _ =>
      calm_bind (calm_topItem _ _ (calm_handle _ _ _)) (fun _ => calm_pure _))))))

/-! ## Recovery -/

theorem calm_raiseAbort (st : LinkStatus) (n l : Nat) : Quietly c Calm (raiseAbort st n l) := by
  unfold raiseAbort
  exact calm_bind (x := modify _) (calm_modify (fun _ => rfl)) (fun _ => calm_pure _)

theorem calm_snapshotRegs (rs : List Reg) : Quietly c Calm (snapshotRegs rs) := by
  induction rs with
  | nil => exact calm_pure _
  | cons r rs ih =>
    exact calm_bind (calm_rd _) (fun _ => calm_bind (x := modify _) (calm_modify (fun _ => rfl)) (fun _ => ih))

theorem calm_zeroRam (a d : Reg) (is : List Nat) : Quietly c Calm (zeroRam a d is) := by
  induction is with
  | nil => exact calm_pure _
  | cons i is ih => exact calm_bind (calm_wr _ _) (fun _ => calm_bind (calm_wr _ _) (fun _ => ih))

theorem calm_seedGanged (l : Nat) (is : List Nat) : Quietly c Calm (seedGanged l is) := by
  induction is with
  | nil => exact calm_pure _
  | cons i is ih =>
    exact calm_bind (calm_wr _ _) (fun _ => calm_get (fun _ => calm_bind (calm_wr _ _) (fun _ => ih)))

theorem calm_stepUnregister (l : Nat) : Quietly c Calm (stepUnregister l) :=
  calm_bind (calm_setStep _) (fun _ => calm_bind (calm_extCall _ _) (fun _ => calm_modify (fun _ => rfl)))

theorem calm_stepQuiesce (l : Nat) : Quietly c Calm (stepQuiesce l) :=
  calm_bind (calm_setStep _) (fun _ => calm_bind (calm_askEnv _) (fun _ => calm_ite (calm_pure _)
    (calm_bind (calm_extCall _ _) (fun _ => calm_extCall _ _))))

theorem calm_stepSnapshot (l : Nat) : Quietly c Calm (stepSnapshot l) :=
  calm_bind (calm_setStep _) (fun _ => calm_bind (x := modify _) (calm_modify (fun _ => rfl)) (fun _ =>
    calm_get (fun _ => calm_snapshotRegs _)))

theorem calm_stepStop (l : Nat) : Quietly c Calm (stepStop l) :=
  calm_bind (calm_setStep _) (fun _ => calm_bind (calm_rd _) (fun _ => calm_bind (calm_wr _ _) (fun _ => calm_emit _)))

theorem calm_stepMask (l : Nat) : Quietly c Calm (stepMask l) :=
  calm_bind (calm_setStep _) (fun _ => calm_bind (calm_wr _ _) (fun _ => calm_wr _ _))

theorem calm_stepWarmReset (l : Nat) : Quietly c Calm (stepWarmReset l) :=
  calm_bind (calm_setStep _) (fun _ => calm_get (fun _ => calm_bind (calm_rd _) (fun _ => calm_wr _ _)))

theorem calm_stepRstseq (l : Nat) : Quietly c Calm (stepRstseq l) :=
  calm_bind (calm_setStep _) (fun _ => calm_bind (calm_wr _ _) (fun _ => calm_poll _ _ (fun s => (s.responder_frame l).1)))

theorem calm_stepDeassert (l : Nat) : Quietly c Calm (stepDeassert l) :=
  calm_bind (calm_setStep _) (fun _ => calm_get (fun _ => calm_bind (calm_rd _) (fun _ => calm_bind (calm_wr _ _) (fun _ =>
    calm_bind (calm_wr _ _) (fun _ => calm_wr _ _)))))

theorem calm_stepContain (l : Nat) : Quietly c Calm (stepContain l) :=
  calm_bind (calm_setStep _) (fun _ => calm_bind (calm_wr _ _) (fun _ => calm_bind (calm_rd _) (fun _ => calm_pure _)))

theorem calm_stepRams (l : Nat) : Quietly c Calm (stepRams l) :=
  calm_bind (calm_setStep _) (fun _ => calm_bind (calm_wr _ _) (fun _ => calm_get (fun _ => calm_bind (calm_zeroRam _ _ _) (fun _ =>
    calm_get (fun _ => calm_bind (calm_zeroRam _ _ _) (fun _ => calm_poll _ _ (fun s => (s.responder_frame l).2.1)))))))

theorem calm_stepRestore (l : Nat) : Quietly c Calm (stepRestore l) :=
  calm_bind (calm_setStep _) (fun _ => calm_get (fun _ => calm_bind (calm_wrAll _) (fun _ => calm_get (fun _ =>
    calm_bind (calm_seedGanged _ _) (fun _ => calm_modify (fun _ => rfl))))))

theorem calm_stepRearm (l : Nat) : Quietly c Calm (stepRearm l) :=
  calm_bind (calm_setStep _) (fun _ => calm_get (fun _ => calm_bind (calm_wrAll _) (fun _ => calm_get (fun _ =>
    calm_bind (calm_wr _ _) (fun _ => calm_get (fun _ => calm_bind (calm_wr _ _) (fun _ =>
      calm_bind (x := modify _) (calm_modify (fun _ => rfl)) (fun _ => calm_bind (calm_rd _) (fun _ =>
        calm_bind (calm_wr _ _) (fun _ => calm_modify (fun _ => rfl)))))))))))

theorem calm_stepRegister (l : Nat) : Quietly c Calm (stepRegister l) :=
  calm_bind (calm_setStep _) (fun _ => calm_bind (calm_extCall _ _) (fun _ => calm_bind (calm_askEnv _) (fun ok => by
    split
    · exact calm_bind (x := modify _) (calm_modify (fun _ => rfl)) (fun _ => calm_pure _)
    · exact calm_bind (x := modify _) (calm_modify (fun _ => rfl)) (fun _ => calm_pure _))))

theorem calm_recoverAfterReset (l : Nat) : Quietly c Calm (recoverAfterReset l) := by
  unfold recoverAfterReset
  refine calm_bind (calm_stepDeassert l) (fun _ => calm_bind (calm_stepContain l) (fun b => calm_ite ?_ (calm_raiseAbort _ _ _)))
  refine calm_bind (calm_stepRams l) (fun b => calm_ite ?_ (calm_raiseAbort _ _ _))
  exact calm_bind (calm_stepRestore l) (fun _ => calm_bind (calm_stepRearm l) (fun _ => calm_stepRegister l))

theorem calm_recover (l : Nat) (forced : Bool) : Quietly c Calm (recover l forced) := by
  unfold recover
  refine calm_bind (calm_setStep _) (fun _ => calm_get (fun _ => calm_ite (calm_get (fun _ => calm_ite ?_ ?_)) (calm_pure _)))
  · unfold recoverValid
    exact calm_bind (calm_stepUnregister l) (fun _ => calm_bind (calm_stepQuiesce l) (fun _ => calm_bind (calm_stepSnapshot l) (fun _ =>
      calm_bind (calm_stepStop l) (fun _ => calm_bind (calm_stepMask l) (fun _ => calm_bind (calm_stepWarmReset l) (fun _ =>
        calm_bind (calm_stepRstseq l) (fun b => calm_ite (calm_recoverAfterReset l) (calm_raiseAbort _ _ _))))))))
  · exact calm_bind (calm_emit _) (fun _ => calm_pure _)

/-- A batch, each link under the mutex, ends with a status for each of its links (R281, R310). -/
theorem recoverAll_quiet (forced : Bool) (ls : List Nat) {s : State} (hs : Alone c s) (hl : s.seq.lock = .free) :
    ∃ sts t, recoverAll forced ls s = .ok sts t ∧ Alone c t ∧ Calm s t ∧ sts.map (fun x => x.1) = ls := by
  induction ls generalizing s with
  | nil => exact ⟨[], s, rfl, hs, Calm.chains.refl s, rfl⟩
  | cons l ls ih =>
    unfold recoverAll
    obtain ⟨a, ha⟩ : ∃ a, a = (s.setRcvLink (some l)).setRcvStep (some 1) := ⟨_, rfl⟩
    rw [Act.modify_bind, ← ha]
    have hfree : a.seq.lock = .free := by rw [ha]; exact hl
    have halone : Alone c a := by rw [ha]; exact hs
    have hcalm : Calm s a := by rw [ha]; rfl
    rw [Act.bind_of_ok (window_quiet halone.1), Act.bind_of_ok (lock_free hfree (.rcv l))]
    obtain ⟨st, t, e, ht, hc⟩ := calm_recover (c := c) l forced (a.setLock (.rcv l)) halone
    rw [Act.bind_of_ok e, Act.bind_of_ok (unlock_apply t)]
    obtain ⟨sts, u, e2, hu, hc2, hm⟩ := ih (s := (t.setLock .free).setCursor none) ht rfl
    rw [Act.bind_of_ok e2]
    refine ⟨(l, st) :: sts, u, rfl, hu, Calm.chains.trans hcalm (Calm.chains.trans ?_ hc2), by simp [hm]⟩
    unfold Calm State.watched
    rw [show ((t.setLock .free).setCursor none).seq.lock = a.seq.lock from hfree.symm]
    exact congrArg₂ Prod.mk (congrArg (Prod.mk a.seq.lock) (congrArg (fun w => w.1.2) hc)) (congrArg Prod.snd hc)

/-- Step 15 and the Result of a RSTDRAIN, with nobody else moving: two steps (R309, R310). -/
theorem advanceRcv_training {s : State} {q : RcvTail} (hq : s.seq.rcvTail = some q) (hl : q.launched = false) :
    advanceRcv s = .ok () (let a := (s.setRcvTail (some { q with launched := true })).emit (.extCall .launchTraining none)
      if (a.ask .trainingOk).1 then (a.ask .trainingOk).2 else (a.ask .trainingOk).2.emit (.log .trainingFailed)) := by
  unfold advanceRcv
  rw [Act.get_bind, hq]
  simp only [hl, Bool.false_eq_true, if_false]
  rw [Act.modify_bind, Act.bind_of_ok (emit_apply _ _), Act.bind_of_ok (askEnv_apply _ _)]
  split <;> rfl

theorem advanceRcv_result {s : State} {q : RcvTail} (hq : s.seq.rcvTail = some q) (hl : q.launched = true) :
    advanceRcv s = .ok () ((((s.setRcvTail none).setRcvStep none).emit (.result (.rstdrain (anyFailed q.sts) q.sts))).respond
      (rstdrainWords (anyFailed q.sts) q.sts)) := by
  unfold advanceRcv
  rw [Act.get_bind, hq]
  simp only [hl, if_true]
  rfl

theorem advanceRcv_idle {s : State} (hq : s.seq.rcvTail = none) : advanceRcv s = .ok () s := by
  unfold advanceRcv
  rw [Act.get_bind, hq]
  rfl

/-- The state after a RSTDRAIN's links, once step 15 is done and its Result is given (R309, R310). -/
def State.trained (s : State) (sts : List (Nat × LinkStatus × Nat)) : State :=
  let a := ((s.oweTraining sts).setRcvTail (some { sts := sts, launched := true })).emit (.extCall .launchTraining none)
  let b := if (a.ask .trainingOk).1 then (a.ask .trainingOk).2 else (a.ask .trainingOk).2.emit (.log .trainingFailed)
  (((b.setRcvTail none).setRcvStep none).emit (.result (.rstdrain (anyFailed sts) sts))).respond
    (rstdrainWords (anyFailed sts) sts)

/-- What `finishRcv` does once the links are behind, with nobody else moving. -/
theorem finishRcv_quiet {s : State} (hs : s.io.sched = []) (sts : List (Nat × LinkStatus × Nat)) :
    finishRcv (s.oweTraining sts) = .ok () (s.trained sts) := by
  unfold finishRcv
  rw [Act.bind_of_ok (window_quiet (s := s.oweTraining sts) hs),
    Act.bind_of_ok (advanceRcv_training (s := s.oweTraining sts) (q := { sts := sts, launched := false }) rfl rfl)]
  unfold State.trained
  obtain ⟨a, ha⟩ : ∃ a, a = ((s.oweTraining sts).setRcvTail (some { sts := sts, launched := true })).emit
    (.extCall .launchTraining none) := ⟨_, rfl⟩
  simp only [← ha]
  obtain ⟨b, hb⟩ : ∃ b, b = (if (a.ask .trainingOk).1 then (a.ask .trainingOk).2
    else (a.ask .trainingOk).2.emit (.log .trainingFailed)) := ⟨_, rfl⟩
  have hsched : b.io.sched = [] := by
    rw [hb]
    split
    · rw [State.ask_io_sched, ha]; exact hs
    · change (a.ask .trainingOk).2.io.sched = []
      rw [State.ask_io_sched, ha]; exact hs
  have htail : b.seq.rcvTail = some { sts := sts, launched := true } := by
    rw [hb]
    split
    · rw [State.ask_seq, ha]; rfl
    · change (a.ask .trainingOk).2.seq.rcvTail = _
      rw [State.ask_seq, ha]; rfl
  simp only [← hb]
  rw [Act.bind_of_ok (window_quiet hsched), advanceRcv_result htail rfl]

/-- A RSTDRAIN with nobody else moving and none owed before it: its links, then step 15 and the Result (R281). -/
theorem progRstdrain_quiet {s t : State} {forced : Bool} {masks : List Word} {sts : List (Nat × LinkStatus × Nat)}
    (hq : s.seq.rcvTail = none) (h : recoverAll forced (linkSet masks) s = .ok sts t) (ht : t.io.sched = []) :
    progRstdrain forced masks s = .ok () (t.trained sts) := by
  have hbegin : rcvBegin s = .ok () s := (Act.bind_of_ok (advanceRcv_idle hq)).trans (advanceRcv_idle hq)
  unfold progRstdrain
  rw [Act.bind_of_ok hbegin, Act.bind_of_ok h, Act.modify_bind]
  exact finishRcv_quiet ht sts

end Sys2Proof.Machine
end

