-- ==== Sys2Proof/Laws/Canonical.lean ====
section
/-! SUPPORT. Every operation over stored state keeps the canonical form (`State.memWf`), and the state after reset has it. -/

namespace Sys2Proof.Machine

theorem reset_memWf : State.reset.memWf = true := by decide

/-- The canonical form, store by store. -/
structure Canonical (s : State) : Prop where
  regs : s.hw.regs.wf (resetValue s.cfg) = true
  crumb : s.hw.crumbRam.wf (fun _ => 0#32) = true
  cam : s.hw.camRam.wf (fun _ => 0#32) = true
  ganged : s.hw.gangedRam.wf (fun _ => 0#32) = true
  clean : s.hw.tagpoolClean.wf (fun _ => false) = true
  rstseq : s.hw.rstseqPending.wf (fun _ => false) = true
  ramInit : s.hw.ramInitPending.wf (fun _ => false) = true
  fatal : s.fault.fatalOccurred.wf (fun _ => false) = true
  phase : s.fault.phase.wf (fun _ => Phase.idle) = true
  registered : s.fault.registered.wf (fun _ => false) = true
  env : s.io.env.wf favourable = true

theorem State.memWf_iff (s : State) : s.memWf = true ↔ Canonical s := by
  simp only [State.memWf, Bool.and_eq_true]
  constructor
  · intro h
    exact { regs := h.1.1.1.1.1.1.1.1.1.1, crumb := h.1.1.1.1.1.1.1.1.1.2, cam := h.1.1.1.1.1.1.1.1.2, ganged := h.1.1.1.1.1.1.1.2,
            clean := h.1.1.1.1.1.1.2, rstseq := h.1.1.1.1.1.2, ramInit := h.1.1.1.1.2, fatal := h.1.1.1.2, phase := h.1.1.2,
            registered := h.1.2, env := h.2 }
  · intro h
    simp only [h.regs, h.crumb, h.cam, h.ganged, h.clean, h.rstseq, h.ramInit, h.fatal, h.phase, h.registered, h.env, and_self]

variable {s : State}

theorem memWf_store (h : s.memWf = true) (r : Reg) (v : Word) : (s.store r v).memWf = true :=
  have old := (State.memWf_iff _).mp h
  (State.memWf_iff _).mpr { old with regs := Memory.wf_set _ _ _ old.regs }

theorem memWf_emit (h : s.memWf = true) (e : Event) : (s.emit e).memWf = true := h
theorem memWf_setCursor (h : s.memWf = true) (q : Option Cursor) : (s.setCursor q).memWf = true := h
theorem memWf_setLeaf (h : s.memWf = true) (r : LeafRegs) : (s.setLeaf r).memWf = true := h
theorem memWf_setArmed (h : s.memWf = true) (b : Bool) : (s.setArmed b).memWf = true := h
theorem memWf_setResetRequired (h : s.memWf = true) (b : Bool) : (s.setResetRequired b).memWf = true := h

theorem memWf_setFatalOccurred (h : s.memWf = true) (l : Nat) (b : Bool) : (s.setFatalOccurred l b).memWf = true :=
  have old := (State.memWf_iff _).mp h
  (State.memWf_iff _).mpr { old with fatal := Memory.wf_set _ _ _ old.fatal }

theorem memWf_setPhase (h : s.memWf = true) (l : Nat) (p : Phase) : (s.setPhase l p).memWf = true :=
  have old := (State.memWf_iff _).mp h
  (State.memWf_iff _).mpr { old with phase := Memory.wf_set _ _ _ old.phase }

theorem memWf_setRegistered (h : s.memWf = true) (l : Nat) (b : Bool) : (s.setRegistered l b).memWf = true :=
  have old := (State.memWf_iff _).mp h
  (State.memWf_iff _).mpr { old with registered := Memory.wf_set _ _ _ old.registered }

theorem memWf_setTagpoolClean (h : s.memWf = true) (l : Nat) (b : Bool) : (s.setTagpoolClean l b).memWf = true :=
  have old := (State.memWf_iff _).mp h
  (State.memWf_iff _).mpr { old with clean := Memory.wf_set _ _ _ old.clean }

theorem memWf_setRstseqPending (h : s.memWf = true) (l : Nat) (b : Bool) : (s.setRstseqPending l b).memWf = true :=
  have old := (State.memWf_iff _).mp h
  (State.memWf_iff _).mpr { old with rstseq := Memory.wf_set _ _ _ old.rstseq }

theorem memWf_setRamInitPending (h : s.memWf = true) (l : Nat) (b : Bool) : (s.setRamInitPending l b).memWf = true :=
  have old := (State.memWf_iff _).mp h
  (State.memWf_iff _).mpr { old with ramInit := Memory.wf_set _ _ _ old.ramInit }

theorem memWf_setRingPending (h : s.memWf = true) (b : Bool) : (s.setRingPending b).memWf = true := h

theorem memWf_setEnv (h : s.memWf = true) (q : EnvQuery) (b : Bool) : (s.setEnv q b).memWf = true :=
  have old := (State.memWf_iff _).mp h
  (State.memWf_iff _).mpr { old with env := Memory.wf_set _ _ _ old.env }

theorem memWf_ask (h : s.memWf = true) (q : EnvQuery) : (s.ask q).2.memWf = true := by
  cases hq : (s.io.env.get favourable q.key).script with
  | nil => rw [State.ask_nil hq]; exact h
  | cons b bs =>
    rw [State.ask_cons hq]
    have old := (State.memWf_iff s).mp h
    exact (State.memWf_iff _).mpr { old with env := Memory.wf_set _ _ _ old.env }

theorem memWf_ramWrite (h : s.memWf = true) (m : Ram) (l i : Nat) (v : Word) : (s.ramWrite m l i v).memWf = true := by
  unfold State.ramWrite
  split
  · have old := (State.memWf_iff s).mp h
    cases m with
    | crumb => exact (State.memWf_iff _).mpr { old with crumb := Memory.wf_set _ _ _ old.crumb }
    | cam => exact (State.memWf_iff _).mpr { old with cam := Memory.wf_set _ _ _ old.cam }
    | ganged => exact (State.memWf_iff _).mpr { old with ganged := Memory.wf_set _ _ _ old.ganged }
  · exact h

theorem memWf_resetRegs (h : s.memWf = true) (rs : List Reg) : (s.resetRegs rs).memWf = true := by
  induction rs generalizing s with
  | nil => exact h
  | cons r rs ih => exact ih (memWf_store h _ _)

theorem memWf_zeroRegs (h : s.memWf = true) (rs : List Reg) : (s.zeroRegs rs).memWf = true := by
  induction rs generalizing s with
  | nil => exact h
  | cons r rs ih => exact ih (memWf_store h _ _)

theorem memWf_warmResetPorts (h : s.memWf = true) (g : Nat) (ps : List Nat) : (s.warmResetPorts g ps).memWf = true := by
  induction ps generalizing s with
  | nil => exact h
  | cons p ps ih =>
    refine ih ?_
    split
    · exact memWf_resetRegs h _
    · exact h

/-- A WR32 keeps the canonical form. -/
theorem memWf_applyWrite (h : s.memWf = true) (r : Reg) (v : Word) (stuck : Bool) : (s.applyWrite r v stuck).memWf = true := by
  unfold State.applyWrite
  cases access r with
  | ro => exact h
  | combinational => exact h
  | w1c => simp only []; split <;> [exact h; exact memWf_store h _ _]
  | wo =>
    simp only []
    unfold State.woEffect
    split
    · exact h
    · split <;> [exact memWf_setRamInitPending (memWf_store h _ _) _ _; exact h]
    · split <;> [exact memWf_setRingPending (memWf_store h _ _) _; exact h]
    · exact h
  | rw =>
    simp only []
    have h' := memWf_store h r (v &&& definedMask s.cfg r)
    unfold State.rwEffect
    split
    · split <;> [exact memWf_zeroRegs h' _; exact h']
    · exact memWf_warmResetPorts h' _ _
    · split <;> [exact memWf_setRstseqPending (memWf_store h' _ _) _ _; exact h']
    · exact h'
  | indexed =>
    simp only []
    unfold State.indexedWrite
    split
    · exact memWf_ramWrite h _ _ _ _
    · exact memWf_ramWrite h _ _ _ _
    · exact memWf_ramWrite h _ _ _ _
    · exact h

/-! ## The source's steps (R160 to R168) -/

theorem memWf_setLatches (h : s.memWf = true) (ls : List Nat) : (s.setLatches ls).memWf = true := by
  induction ls generalizing s with
  | nil => exact h
  | cons l ls ih => exact ih (memWf_store h _ _)

theorem memWf_drawDiag (h : s.memWf = true) (k : Kind) (i j : Nat) (vs : List Word) : (s.drawDiag k i j vs).memWf = true := by
  induction vs generalizing s j with
  | nil => exact h
  | cons v vs ih =>
    unfold State.drawDiag
    split
    · exact ih (memWf_store h _ _) _
    · exact h

theorem memWf_drawEccAddr (h : s.memWf = true) (k : Kind) (i : Nat) (e : Word) (ds : List (Nat × Word)) :
    (s.drawEccAddr k i e ds).memWf = true := by
  induction ds generalizing s with
  | nil => exact h
  | cons d ds ih =>
    refine ih ?_
    split
    · split <;> [exact memWf_store h _ _; exact h]
    · exact h

theorem memWf_arrive (h : s.memWf = true) (k : Kind) (i : Nat) (e : Word) (d : Draw) : (s.arrive k i e d).memWf = true := by
  unfold State.arrive
  split
  · exact h
  · split
    · exact memWf_store h _ _
    · unfold State.arriveNode
      refine memWf_store ?_ _ _
      have h1 : ∀ p, (s.latchFirst k i p e).memWf = true := fun p => by
        unfold State.latchFirst; split <;> [exact memWf_store h _ _; exact h]
      have h2 : ∀ u : State, u.memWf = true → (u.latchContain k i e).memWf = true := fun u hu => by
        unfold State.latchContain; split <;> [exact memWf_setLatches hu _; exact hu]
      have h3 : ∀ u : State, u.memWf = true → (u.drawDiagnostics k i e d).memWf = true := fun u hu => by
        unfold State.drawDiagnostics
        split
        · refine memWf_drawEccAddr (memWf_drawDiag ?_ _ _ _ _) _ _ _ _
          split <;> [exact memWf_store hu _ _; exact hu]
        · exact hu
      exact h3 _ (h2 _ (h1 _))

theorem memWf_eccTick (h : s.memWf = true) (k : Kind) (i u : Nat) (a : Word) (d : Draw) : (s.eccTick k i u a d).memWf = true := by
  unfold State.eccTick
  split
  · simp only []
    have h1 := memWf_store (memWf_store h (.node k i (.eccCount u)) ((s.field (.node k i (.eccCount u)) + 1#32) &&& eccMask s.cfg)) (.node k i (.eccAddr u)) a
    split
    · split <;> [exact memWf_arrive h1 _ _ _ _; exact h1]
    · exact h1
  · exact h

theorem memWf_responders (h : s.memWf = true) (l : Nat) :
    (s.ackRstseq l).memWf = true ∧ (s.finishRamInit l).memWf = true ∧ s.ackRing.memWf = true := by
  refine ⟨?_, ?_, ?_⟩
  · unfold State.ackRstseq; split <;> [exact memWf_setRstseqPending (memWf_store h _ _) _ _; exact h]
  · unfold State.finishRamInit
    split <;> [exact memWf_setRamInitPending (memWf_setTagpoolClean (memWf_store h _ _) _ _) _ _; exact h]
  · unfold State.ackRing; split <;> [exact memWf_setRingPending (memWf_store h _ _) _; exact h]

/-! ## Resets (R370, R371) -/

theorem memWf_coldReset (h : s.memWf = true) (d : RamDraw) : (s.coldReset d).memWf = true :=
  (State.memWf_iff _).mpr {
    regs := Memory.wf_nil _, crumb := Memory.wf_ofList _ _, cam := Memory.wf_ofList _ _, ganged := Memory.wf_ofList _ _
    clean := Memory.wf_ofList _ _, rstseq := Memory.wf_nil _, ramInit := Memory.wf_nil _, fatal := Memory.wf_nil _
    phase := Memory.wf_nil _, registered := Memory.wf_nil _, env := ((State.memWf_iff s).mp h).env }

theorem memWf_softReset (h : s.memWf = true) : s.softReset.memWf = true :=
  have old := (State.memWf_iff s).mp h
  (State.memWf_iff _).mpr { regs := old.regs, crumb := old.crumb, cam := old.cam, ganged := old.ganged, clean := old.clean
                            rstseq := old.rstseq, ramInit := old.ramInit, fatal := Memory.wf_ofList _ _
                            phase := Memory.wf_nil _, registered := Memory.wf_nil _, env := old.env }

/-! ## The start of a run (R67, R100) -/

theorem memWf_underConfig (h : s.memWf = true) (c : Config) : (s.underConfig c).memWf = true :=
  have old := (State.memWf_iff s).mp h
  (State.memWf_iff _).mpr { regs := Memory.wf_ofList _ _, crumb := old.crumb, cam := old.cam, ganged := old.ganged
                            clean := old.clean, rstseq := old.rstseq, ramInit := old.ramInit, fatal := old.fatal
                            phase := old.phase, registered := old.registered, env := old.env }

/-- A key that no list names has the same reset value under every configuration: 0. -/
theorem resetValue_unlisted {c : Config} {a : Nat} (h : a ∉ c.resetValueOf.map (fun x => x.1)) : resetValue c a = 0#32 := by
  have hn : ∀ l : List (Nat × Word), a ∉ l.map (fun x => x.1) → assoc a l = none := by
    intro l
    induction l with
    | nil => exact fun _ => rfl
    | cons x l ih =>
      intro hx
      simp only [List.map_cons, List.mem_cons, not_or] at hx
      rw [assoc, if_neg hx.1, ih hx.2]
  unfold resetValue
  rw [hn _ h]

theorem get_unlisted (d : Nat → Word) {m : Memory Word} {a : Nat} (h : a ∉ m.map (fun x => x.1)) : m.get d a = d a := by
  induction m with
  | nil => rfl
  | cons x m ih =>
    simp only [List.map_cons, List.mem_cons, not_or] at h
    rw [Memory.get_cons, if_neg h.1, ih h.2]

/-- A change of configuration changes no register (R371). -/
theorem State.underConfig_cellAt (s : State) (c : Config) (a : Nat) : (s.underConfig c).cellAt a = s.cellAt a := by
  unfold State.cellAt State.underConfig
  rw [Memory.get_ofList_map]
  split
  · rfl
  · rename_i h
    simp only [List.mem_append, not_or] at h
    rw [get_unlisted _ h.1.1, resetValue_unlisted h.1.2, resetValue_unlisted h.2]

/-- A run started at a cold or a soft reset starts in canonical form, with the configuration it was given, which is
well-formed. -/
theorem checked_ok {c : Config} {start t : State} (h : checked c start = .ok t) : configWf c = true ∧ t = start := by
  unfold checked at h
  split at h
  · cases h; exact ⟨‹_›, rfl⟩
  · cases h

theorem launch_wf {c : Config} {cache : List Word} {d : RamDraw} {t : State} (h : launch c cache d = .ok t) :
    configWf c = true ∧ t.cfg = c ∧ t.memWf = true := by
  obtain ⟨hw, rfl⟩ := checked_ok h
  refine ⟨hw, rfl, memWf_coldReset ?_ d⟩
  have old := (State.memWf_iff State.reset).mp reset_memWf
  exact (State.memWf_iff _).mpr { old with regs := Memory.wf_nil _ }

theorem relaunch_wf {c : Config} {t : State} (hs : s.memWf = true) (h : relaunch c s = .ok t) :
    configWf c = true ∧ t.cfg = c ∧ t.memWf = true := by
  obtain ⟨hw, rfl⟩ := checked_ok h
  exact ⟨hw, rfl, memWf_softReset (memWf_underConfig hs c)⟩

theorem relaunchCold_wf {c : Config} {d : RamDraw} {t : State} (hs : s.memWf = true) (h : relaunchCold c d s = .ok t) :
    configWf c = true ∧ t.cfg = c ∧ t.memWf = true := by
  obtain ⟨hw, rfl⟩ := checked_ok h
  exact ⟨hw, rfl, memWf_coldReset (memWf_underConfig hs c) d⟩

end Sys2Proof.Machine
end

