-- ==== Sys2Proof/Laws/Source.lean ====
section
/-! SUPPORT. The steps of agent SRC change registers only (R160 to R168): no flag, no sequencer value, no event. -/

namespace Sys2Proof.Machine

/-- Only register cells change. -/
structure CellsOnly (s t : State) : Prop where
  cfg : t.cfg = s.cfg
  hw : t.hw = { s.hw with regs := t.hw.regs }
  fault : t.fault = s.fault
  seq : t.seq = s.seq
  io : t.io = s.io

theorem CellsOnly.refl (s : State) : CellsOnly s s := ⟨rfl, rfl, rfl, rfl, rfl⟩

theorem CellsOnly.trans {s t u : State} (h : CellsOnly s t) (k : CellsOnly t u) : CellsOnly s u :=
  ⟨k.cfg.trans h.cfg, by rw [k.hw, h.hw], k.fault.trans h.fault, k.seq.trans h.seq, k.io.trans h.io⟩

theorem CellsOnly.store (s : State) (r : Reg) (v : Word) : CellsOnly s (s.store r v) := ⟨rfl, rfl, rfl, rfl, rfl⟩

theorem CellsOnly.then_store {s t : State} (h : CellsOnly s t) (r : Reg) (v : Word) : CellsOnly s (t.store r v) :=
  h.trans (CellsOnly.store t r v)

theorem setLatches_cellsOnly (s : State) (ls : List Nat) : CellsOnly s (s.setLatches ls) := by
  induction ls generalizing s with
  | nil => exact CellsOnly.refl s
  | cons l ls ih => exact (CellsOnly.store s _ _).trans (ih _)

theorem latchFirst_cellsOnly (s : State) (k : Kind) (i : Nat) (p e : Word) : CellsOnly s (s.latchFirst k i p e) := by
  unfold State.latchFirst
  split
  · exact CellsOnly.store s _ _
  · exact CellsOnly.refl s

theorem latchContain_cellsOnly (s : State) (k : Kind) (i : Nat) (e : Word) : CellsOnly s (s.latchContain k i e) := by
  unfold State.latchContain
  split
  · exact setLatches_cellsOnly s _
  · exact CellsOnly.refl s

theorem drawDiag_cellsOnly (s : State) (k : Kind) (i j : Nat) (vs : List Word) : CellsOnly s (s.drawDiag k i j vs) := by
  induction vs generalizing s j with
  | nil => exact CellsOnly.refl s
  | cons v vs ih =>
    unfold State.drawDiag
    split
    · exact (CellsOnly.store s _ _).trans (ih _ _)
    · exact CellsOnly.refl s

theorem drawEccAddr_cellsOnly (s : State) (k : Kind) (i : Nat) (e : Word) (ds : List (Nat × Word)) :
    CellsOnly s (s.drawEccAddr k i e ds) := by
  induction ds generalizing s with
  | nil => exact CellsOnly.refl s
  | cons d ds ih =>
    refine CellsOnly.trans ?_ (ih _)
    split
    · split
      · exact CellsOnly.store s _ _
      · exact CellsOnly.refl s
    · exact CellsOnly.refl s

theorem drawDiagnostics_cellsOnly (s : State) (k : Kind) (i : Nat) (e : Word) (d : Draw) :
    CellsOnly s (s.drawDiagnostics k i e d) := by
  unfold State.drawDiagnostics
  split
  · simp only []
    refine CellsOnly.trans (CellsOnly.trans ?_ (drawDiag_cellsOnly _ _ _ _ _)) (drawEccAddr_cellsOnly _ _ _ _ _)
    split
    · exact CellsOnly.store s _ _
    · exact CellsOnly.refl s
  · exact CellsOnly.refl s

/-- An arrival changes registers only (R160). -/
theorem arrive_cellsOnly (s : State) (k : Kind) (i : Nat) (e : Word) (d : Draw) : CellsOnly s (s.arrive k i e d) := by
  unfold State.arrive
  split
  · exact CellsOnly.refl s
  · split
    · exact CellsOnly.store s _ _
    · exact (((latchFirst_cellsOnly s _ _ _ _).trans (latchContain_cellsOnly _ _ _ _)).trans
        (drawDiagnostics_cellsOnly _ _ _ _ _)).then_store _ _

/-- So does an ECC tick (R166). -/
theorem eccTick_cellsOnly (s : State) (k : Kind) (i u : Nat) (a : Word) (d : Draw) : CellsOnly s (s.eccTick k i u a d) := by
  unfold State.eccTick
  split
  · have h := (CellsOnly.store s (.node k i (.eccCount u)) ((s.field (.node k i (.eccCount u)) + 1#32) &&& eccMask s.cfg)).then_store
      (.node k i (.eccAddr u)) a
    simp only []
    split
    · split
      · exact h.trans (arrive_cellsOnly _ _ _ _ _)
      · exact h
    · exact h
  · exact CellsOnly.refl s

end Sys2Proof.Machine
end

