-- ==== Sys2Proof/Laws/Closed.lean ====
section
/-! SUPPORT. What holds of every operation on the state holds of every step, under every schedule: a relation that is
`Closed` (reflexive, transitive, and kept by each named operation) relates a state to the state after any action, and
so to the next state of `step`. The configuration and the canonical form are the two instances. -/

namespace Sys2Proof.Machine

/-- A relation between states that every named operation respects. -/
structure Closed (R : State → State → Prop) : Prop where
  chains : Chains R
  seq : ∀ s (q : Sequencer), R s { s with seq := q }
  history : ∀ s h, R s { s with io := { s.io with history := h } }
  inbox : ∀ s q, R s (s.setInbox q)
  sched : ∀ s q, R s (s.setSched q)
  responses : ∀ s q, R s { s with io := { s.io with responses := q } }
  readData : ∀ s q, R s { s with io := { s.io with readData := q } }
  ask : ∀ s q, R s (s.ask q).2
  setEnv : ∀ s q b, R s (s.setEnv q b)
  applyWrite : ∀ s r v b, R s (s.applyWrite r v b)
  setFatal : ∀ s l b, R s (s.setFatalOccurred l b)
  setDevice : ∀ s b, R s (s.setResetRequired b)
  setPhase : ∀ s l p, R s (s.setPhase l p)
  setRegistered : ∀ s l b, R s (s.setRegistered l b)
  setClean : ∀ s l b, R s (s.setTagpoolClean l b)
  setArmed : ∀ s b, R s (s.setArmed b)
  arrive : ∀ s k i e d, R s (s.arrive k i e d)
  eccTick : ∀ s k i u a d, R s (s.eccTick k i u a d)
  responders : ∀ s l, R s (s.ackRstseq l) ∧ R s (s.finishRamInit l) ∧ R s s.ackRing
  coldReset : ∀ s d, R s (s.coldReset d)
  softReset : ∀ s, R s s.softReset

theorem closed_cfg : Closed (fun s t => t.cfg = s.cfg) where
  chains := ⟨fun _ => rfl, fun h k => k.trans h⟩
  seq _ _ := rfl
  history _ _ := rfl
  inbox _ _ := rfl
  sched _ _ := rfl
  responses _ _ := rfl
  readData _ _ := rfl
  ask s q := State.ask_cfg s q
  setEnv _ _ _ := rfl
  applyWrite s r v b := (s.applyWrite_hardwareOnly r v b).parts.1
  setFatal _ _ _ := rfl
  setDevice _ _ := rfl
  setPhase _ _ _ := rfl
  setRegistered _ _ _ := rfl
  setClean _ _ _ := rfl
  setArmed _ _ := rfl
  arrive s k i e d := (arrive_cellsOnly s k i e d).cfg
  eccTick s k i u a d := (eccTick_cellsOnly s k i u a d).cfg
  responders s l := ⟨(s.responder_frame l).1.1, (s.responder_frame l).2.1.1, (s.responder_frame l).2.2.1⟩
  coldReset _ _ := rfl
  softReset _ := rfl

theorem closed_memWf : Closed (fun s t => s.memWf = true → t.memWf = true) where
  chains := ⟨fun _ h => h, fun h k x => k (h x)⟩
  seq _ _ h := h
  history _ _ h := h
  inbox _ _ h := h
  sched _ _ h := h
  responses _ _ h := h
  readData _ _ h := h
  ask _ q h := memWf_ask h q
  setEnv _ q b h := memWf_setEnv h q b
  applyWrite _ r v b h := memWf_applyWrite h r v b
  setFatal _ l b h := memWf_setFatalOccurred h l b
  setDevice _ _ h := h
  setPhase _ l p h := memWf_setPhase h l p
  setRegistered _ l b h := memWf_setRegistered h l b
  setClean _ l b h := memWf_setTagpoolClean h l b
  setArmed _ _ h := h
  arrive _ k i e d h := memWf_arrive h k i e d
  eccTick _ k i u a d h := memWf_eccTick h k i u a d
  responders _ l := ⟨fun h => (memWf_responders h l).1, fun h => (memWf_responders h l).2.1, fun h => (memWf_responders h l).2.2⟩
  coldReset _ d h := memWf_coldReset h d
  softReset _ h := memWf_softReset h

variable {R : State → State → Prop}

/-! ## Actions -/

theorem closed_get {β : Type} {f : State → Act β} (hf : ∀ s, Does R (f s)) : Does R ((get : Act State) >>= f) :=
  Does.get_bind (fun s => hf s s)

variable (H : Closed R)
include H

theorem closed_pure {α : Type} (a : α) : Does R (pure a : Act α) := Does.pure H.chains a

theorem closed_bind {α β : Type} {x : Act α} {f : α → Act β} (hx : Does R x) (hf : ∀ a, Does R (f a)) : Does R (x >>= f) :=
  Does.bind H.chains hx hf

theorem closed_emit (e : Event) : Does R (emit e) := Does.emit (fun s => H.history s _)

theorem closed_seq {g : State → Sequencer} : Does R (modify (fun s => { s with seq := g s }) : Act PUnit) :=
  Does.modify (fun s => H.seq s _)

theorem closed_askEnv (q : EnvQuery) : Does R (askEnv q) := fun s => H.ask s q

theorem closed_writeReg (r : Reg) (v : Word) : Does R (writeReg r v) := by
  unfold writeReg
  refine closed_bind H (closed_emit H _) (fun _ => ?_)
  split
  · exact closed_bind H (closed_askEnv H _) (fun b => Does.modify (fun s => H.applyWrite s _ _ _))
  · exact Does.modify (fun s => H.applyWrite s _ _ _)

theorem closed_respond (s : State) (ws : List Word) : R s (s.respond ws) := H.responses s _

theorem closed_completeTail : Does R completeTail := by
  unfold completeTail
  refine closed_get (fun s => ?_)
  split
  · exact closed_pure H _
  · refine closed_bind H (closed_writeReg H _ _) (fun _ => Does.modify (fun s => ?_))
    exact H.chains.trans (H.history s _) (H.chains.trans (H.seq _ _) (H.responses _ _))

theorem closed_refuseCommand (s : State) : R s (refuseCommand s) := H.chains.trans (H.history s _) (H.responses _ _)

theorem closed_oweTraining (s : State) (sts : List (Nat × LinkStatus × Nat)) : R s (s.oweTraining sts) := H.seq s _

theorem closed_advanceRcv : Does R advanceRcv := by
  unfold advanceRcv
  refine closed_get (fun s => ?_)
  split
  · exact closed_pure H _
  · refine Does.ite (Does.modify (fun s => ?_)) ?_
    · exact H.chains.trans (H.seq s _) (H.chains.trans (H.history _ _) (H.responses _ _))
    · exact closed_bind H (x := modify _) (closed_seq H) (fun _ => closed_bind H (closed_emit H _) (fun _ =>
        closed_bind H (closed_askEnv H _) (fun ok => Does.ite (closed_pure H _) (closed_emit H _))))

theorem closed_answerRefused {x : Act Unit} (hx : Does R x) : Does R (answerRefused x) := by
  unfold answerRefused
  refine closed_get (fun s => ?_)
  split
  · exact Does.modify (fun s => H.chains.trans (H.inbox s _) (closed_refuseCommand H _))
  · exact hx

theorem closed_startRcv : Does R startRcv := by
  refine closed_answerRefused H ?_
  unfold takeUpRcv
  refine closed_get (fun s => ?_)
  split
  · split
    · exact Does.ite (Does.modify (fun s => H.chains.trans (H.inbox s _) (closed_oweTraining H _ _))) (closed_pure H _)
    · exact closed_pure H _
  · exact closed_pure H _

theorem closed_applyMove (m : Move) : Does R (applyMove m) := by
  cases m with
  | arrive k i e d => exact Does.modify (fun s => H.arrive s _ _ _ _)
  | eccTick k i u a d => exact Does.modify (fun s => H.eccTick s _ _ _ _ _)
  | rstseqAck l => exact Does.modify (fun s => (H.responders s l).1)
  | ramInitDone l => exact Does.modify (fun s => (H.responders s l).2.1)
  | ringAck => exact Does.modify (fun s => (H.responders s 0).2.2)
  | traffic l => exact Does.modify (fun s => H.setClean s l false)
  | hostRd a =>
    refine closed_get (fun s => ?_)
    split
    · exact Does.modify (fun s => H.readData s _)
    · exact Does.throw H.chains _
  | hostWr a v =>
    refine closed_get (fun s => ?_)
    split
    · exact closed_get (fun s => closed_writeReg H _ _)
    · exact Does.throw H.chains _
  | deliver =>
    refine Does.modify (fun s => ?_)
    unfold State.deliver
    split
    · exact H.chains.trans (H.setArmed s false) (H.inbox _ _)
    · exact H.chains.refl s
  | registerLink l => exact Does.modify (fun s => H.chains.trans (H.history s _) (H.setRegistered _ l true))
  | walkerTail => exact closed_completeTail H
  | rcvStep => exact closed_advanceRcv H
  | runNext => exact closed_startRcv H
  | setEnv q b => exact Does.modify (fun s => H.setEnv s q b)
  | coldReset d => exact closed_bind H (x := modify _) (Does.modify (fun s => H.coldReset s d)) (fun _ => Does.throw H.chains _)
  | softReset => exact closed_bind H (x := modify _) (Does.modify (fun s => H.softReset s)) (fun _ => Does.throw H.chains _)

theorem closed_applyMoves (ms : List Move) : Does R (applyMoves ms) := by
  induction ms with
  | nil => exact closed_pure H _
  | cons m ms ih => exact closed_bind H (closed_applyMove H m) (fun _ => ih)

theorem closed_tick : Does R tick := by
  unfold tick
  refine closed_get (fun s => ?_)
  split
  · exact closed_pure H _
  · exact closed_bind H (x := modify _) (Does.modify (fun s => H.sched s _)) (fun _ => closed_applyMoves H _)

theorem closed_rd (r : Reg) : Does R (rd r) := closed_bind H (closed_tick H) (fun _ => closed_get (fun _ => closed_pure H _))

theorem closed_wr (r : Reg) (v : Word) : Does R (wr r v) := closed_bind H (closed_tick H) (fun _ => closed_writeReg H _ _)

theorem closed_extCall (n : ExtName) (l : Option Nat) : Does R (extCall n l) :=
  closed_bind H (closed_tick H) (fun _ => closed_emit H _)

theorem closed_wrAll (ws : List (Reg × Word)) : Does R (wrAll ws) := by
  induction ws with
  | nil => exact closed_pure H _
  | cons w ws ih => exact closed_bind H (closed_wr H _ _) (fun _ => ih)

theorem closed_poll (r : Reg) (q : EnvQuery) {g : State → State} (hg : ∀ s, R s (g s)) : Does R (poll r q g) := by
  unfold poll
  refine closed_bind H (closed_rd H r) (fun v => Does.ite (closed_pure H _) (closed_bind H (closed_askEnv H q) (fun ok =>
    Does.ite ?_ (closed_pure H _))))
  exact closed_bind H (x := modify g) (Does.modify hg) (fun _ => closed_pure H _)

theorem closed_forward (e : SinkEvent) : Does R (forward e) := by
  unfold forward
  exact closed_bind H (closed_emit H _) (fun _ => closed_bind H (closed_askEnv H _) (fun ok => Does.ite (closed_pure H _) (closed_emit H _)))

theorem closed_lock (k : Lock) : Does R (lock k) := by
  unfold lock
  exact closed_get (fun s => Does.ite (closed_seq H) (Does.throw H.chains _))

theorem closed_unlock : Does R unlock := closed_seq H

theorem closed_setCursor (q : Cursor) : Does R (setCursor q) := closed_seq H

theorem closed_setStep (n : Nat) : Does R (setStep n) := closed_seq H

theorem closed_walkerBegin : Does R walkerBegin := by
  unfold walkerBegin
  refine closed_get (fun s => ?_)
  split
  · exact closed_lock H _
  · exact closed_bind H (closed_tick H) (fun _ => closed_bind H (closed_completeTail H) (fun _ => closed_lock H _))

theorem closed_finishCommand (e : ResultEvent) (ws : List Word) : Does R (finishCommand e ws) :=
  Does.modify (fun s => H.chains.trans (H.history s _) (H.responses _ _))

/-! ## Fault marking and HANDLE -/

theorem closed_markLink (l : Nat) : Does R (markLink l) := by
  unfold markLink
  refine closed_get (fun s => Does.ite (closed_pure H _) ?_)
  refine closed_bind H (x := modify _) (Does.modify (fun s => H.setFatal s l true)) (fun _ => ?_)
  exact closed_bind H (closed_rd H _) (fun v => closed_bind H (closed_wr H _ _) (fun _ => closed_forward H _))

theorem closed_markDevice : Does R markDevice := by
  unfold markDevice
  refine closed_get (fun s => Does.ite (closed_pure H _) ?_)
  refine closed_bind H (x := modify _) (Does.modify (fun s => H.setDevice s true)) (fun _ => ?_)
  exact closed_bind H (closed_wr H _ _) (fun _ => closed_forward H _)

theorem closed_setfatalCore (tgt : Option Nat) (dw : Bool) : Does R (setfatalCore tgt dw) := by
  unfold setfatalCore
  cases tgt with
  | none => exact Does.ite (closed_markDevice H) (closed_pure H _)
  | some l => exact closed_bind H (closed_markLink H l) (fun _ => Does.ite (closed_markDevice H) (closed_pure H _))

theorem closed_capture (k : Kind) (i : Nat) (rs : List NodeReg) : Does R (capture k i rs) := by
  induction rs with
  | nil => exact closed_pure H _
  | cons r rs ih =>
    unfold capture
    exact closed_get (fun s => closed_get (fun _ => Does.ite (closed_bind H (closed_rd H _) (fun v => closed_bind H (x := modify _)
      (closed_seq H) (fun _ => ih))) ih))

theorem closed_diagnostic (k : Kind) (i : Nat) (e : Entry) : Does R (diagnostic k i e) := by
  unfold diagnostic
  split
  · exact closed_pure H _
  · exact closed_get (fun s => closed_get (fun _ => closed_pure H _))
  · exact closed_bind H (closed_rd H _) (fun _ => closed_pure H _)
  · split
    · exact closed_pure H _
    · exact closed_bind H (closed_rd H _) (fun _ => closed_pure H _)
    · exact closed_bind H (closed_rd H _) (fun _ => closed_pure H _)

theorem closed_reportTo (k : Kind) (b i : Nat) (sev : Severity) (dw : Bool) (d : Diagnostic) (tgts : List (Option Nat)) :
    Does R (reportTo k b i sev dw d tgts) := by
  induction tgts with
  | nil => exact closed_pure H _
  | cons tgt rest ih =>
    unfold reportTo
    exact closed_bind H (closed_emit H _) (fun _ => by split <;> [exact closed_bind H (closed_setfatalCore H _ _) (fun _ => ih); exact ih])

theorem closed_eccLog (k : Kind) (i u : Nat) (un : Bool) (d : Diagnostic) : Does R (eccLog k i u un d) := by
  unfold eccLog
  refine closed_bind H (closed_rd H _) (fun a => ?_)
  split
  · exact closed_forward H _
  · exact closed_bind H (closed_rd H _) (fun _ => closed_forward H _)

theorem closed_logIfEcc (k : Kind) (i : Nat) (e : Entry) (d : Diagnostic) : Does R (logIfEcc k i e d) := by
  unfold logIfEcc
  split
  · exact closed_pure H _
  · exact closed_bind H (closed_eccLog H _ _ _ _ _) (fun _ => closed_seq H)
  · exact closed_bind H (closed_eccLog H _ _ _ _ _) (fun _ => closed_seq H)

theorem closed_classifyBit (k : Kind) (i b : Nat) : Does R (classifyBit k i b) := by
  unfold classifyBit
  refine closed_get (fun s => ?_)
  split
  · exact closed_pure H _
  · rename_i e _
    refine Does.ite (Does.modify (fun s => ?_)) ?_
    · unfold touchUnitOf
      cases e.ecc with
      | notEcc => exact H.seq s _
      | eccLimit u => exact H.chains.trans (H.seq s _) (H.seq _ _)
      | eccDbe u => exact H.chains.trans (H.seq s _) (H.seq _ _)
    · exact closed_bind H (closed_diagnostic H _ _ _) (fun d => closed_bind H (closed_reportTo H _ _ _ _ _ _ _) (fun _ =>
        closed_bind H (closed_logIfEcc H _ _ _ _) (fun _ => closed_seq H)))

theorem closed_classifyBits (k : Kind) (i : Nat) (bs : List Nat) : Does R (classifyBits k i bs) := by
  induction bs with
  | nil => exact closed_pure H _
  | cons b bs ih =>
    unfold classifyBits
    exact closed_get (fun s => by split <;> [exact closed_bind H (closed_classifyBit H k i b) (fun _ => ih); exact ih])

theorem closed_zeroCounters (k : Kind) (i : Nat) (us : List Nat) : Does R (zeroCounters k i us) := by
  induction us with
  | nil => exact closed_pure H _
  | cons u us ih => exact closed_bind H (closed_wr H _ _) (fun _ => ih)

theorem closed_privHandshake : Does R privHandshake := by
  unfold privHandshake
  exact closed_bind H (closed_wr H _ _) (fun _ => closed_bind H (closed_poll H _ _ (fun s => (H.responders s 0).2.2)) (fun ok =>
    Does.ite (closed_pure H _) (closed_bind H (closed_emit H _) (fun _ => closed_pure H _))))

theorem closed_stepEight (k : Kind) (i : Nat) (t : Tree) (ok : Bool) : Does R (stepEight k i t ok) := by
  unfold stepEight
  exact closed_bind H (closed_setCursor H _) (fun _ => closed_get (fun s => Does.ite (closed_pure H _)
    (closed_bind H (closed_emit H _) (fun _ => closed_pure H _))))

theorem closed_template (k : Kind) (i : Nat) (t : Tree) : Does R (template k i t) := by
  have hrest : ∀ p en cn wf, Does R (templateRest k i t p en cn wf) := by
    intro p en cn wf
    rw [templateRest_eq]
    refine closed_bind H (closed_setCursor H _) (fun _ => closed_bind H (closed_rd H _) (fun f => closed_bind H (closed_seq H) (fun _ =>
      closed_bind H (closed_setCursor H _) (fun _ => closed_get (fun x => closed_bind H (Does.ite (closed_pure H _) (closed_capture H _ _ _)) (fun _ =>
        closed_bind H (closed_setCursor H _) (fun _ => closed_bind H (closed_classifyBits H _ _ _) (fun _ => ?_))))))))
    unfold templateTail
    refine closed_bind H (closed_bind H (closed_setCursor H _) (fun _ => Does.ite (closed_wr H _ _) (closed_pure H _))) (fun _ => ?_)
    refine closed_bind H (closed_setCursor H _) (fun _ => closed_bind H (closed_wr H _ _) (fun _ => closed_bind H (closed_wr H _ _) (fun _ =>
      closed_bind H (closed_setCursor H _) (fun _ => closed_get (fun x => closed_bind H (closed_zeroCounters H _ _ _) (fun _ => ?_))))))
    exact closed_bind H (Does.ite (closed_privHandshake H) (closed_pure H _)) (fun ok => closed_stepEight H _ _ _ _)
  unfold template
  refine closed_bind H (closed_setCursor H _) (fun _ => closed_bind H (closed_rd H _) (fun p => closed_bind H (closed_rd H _) (fun en =>
    Does.ite (closed_pure H _) ?_)))
  split
  · exact closed_bind H (closed_rd H _) (fun cn => closed_get (fun s => hrest _ _ _ _))
  · exact closed_bind H (closed_pure H _) (fun cn => closed_get (fun s => hrest _ _ _ _))

theorem closed_mctrlTemplate (l : Nat) (t : Tree) : Does R (mctrlTemplate l t) := by
  unfold mctrlTemplate
  refine closed_bind H (closed_setCursor H _) (fun _ => closed_get (fun s => closed_bind H (closed_rd H _) (fun p =>
    closed_bind H (closed_rd H _) (fun en => Does.ite (closed_pure H _) (closed_get (fun x => ?_))))))
  unfold mctrlRest
  refine closed_get (fun y => closed_bind H (closed_seq H) (fun _ => closed_bind H (closed_setCursor H _) (fun _ =>
    closed_bind H (closed_classifyBits H _ _ _) (fun _ => closed_bind H (closed_setCursor H _) (fun _ => ?_)))))
  have h : Does R (do
      setCursor (.leaf .mctrl l t 6)
      wr (.intrStatus (mc y.cfg l)) (p &&& bit (ll s.cfg l) &&& en)
      stepEight .mctrl l t true) :=
    closed_bind H (closed_setCursor H _) (fun _ => closed_bind H (closed_wr H _ _) (fun _ => closed_stepEight H _ _ _ _))
  split
  · exact closed_bind H (closed_wr H _ _) (fun _ => h)
  · exact h

theorem closed_handle (k : Kind) (i : Nat) (t : Tree) : Does R (handle k i t) := by
  unfold handle
  refine closed_bind H (x := modify _) (closed_seq (g := fun s => ((s.setLeaf {}).clearCap).seq) H) (fun _ => ?_)
  have h : ∀ r, Does R (do
      modify (fun s => ((s.setLeaf {}).clearCap).emit (.result (.handle k i t r)))
      return r : Act Result3) := fun r =>
    closed_bind H (x := modify _) (Does.modify (fun s => H.chains.trans (H.seq s ((s.setLeaf {}).clearCap).seq) (H.history _ _)))
      (fun _ => closed_pure H _)
  split
  · exact closed_bind H (closed_mctrlTemplate H _ _) h
  · exact closed_bind H (closed_template H _ _ _) h

theorem closed_answer (ws : State → List Word) : Does R (modify (fun s => s.respond (ws s)) : Act PUnit) :=
  Does.modify (fun s => H.responses s _)

theorem closed_handleCommand (k : Kind) (i : Nat) (t : Tree) : Does R (handleCommand k i t) := by
  unfold handleCommand
  exact closed_bind H (closed_walkerBegin H) (fun _ => closed_bind H (closed_handle H _ _ _) (fun r => closed_bind H (closed_unlock H)
    (fun _ => closed_answer H _)))

/-! ## Walks -/

theorem closed_handleAll (t : Tree) (ns : List (Kind × Nat)) : Does R (handleAll t ns) := by
  induction ns with
  | nil => exact closed_pure H _
  | cons n ns ih => exact closed_bind H (closed_handle H _ _ _) (fun r => closed_bind H ih (fun rs => closed_pure H _))

theorem closed_walkfam (f : Family) (i : Nat) (t : Tree) : Does R (walkfam f i t) := by
  unfold walkfam
  exact closed_bind H (closed_setCursor H _) (fun _ => closed_get (fun s => closed_bind H (closed_handleAll H _ _) (fun rs =>
    closed_bind H (closed_emit H _) (fun _ => closed_pure H _))))

theorem closed_walkEngines (t : Tree) (w : Nat) (js : List Nat) : Does R (walkEngines t w js) := by
  induction js with
  | nil => exact closed_pure H _
  | cons j js ih =>
    unfold walkEngines
    refine closed_get (fun s => ?_)
    split
    · exact closed_bind H (closed_setCursor H _) (fun _ => closed_bind H (closed_walkfam H _ _ _) (fun r =>
        closed_bind H ih (fun rs => closed_pure H _)))
    · exact ih

theorem closed_walkWords (t : Tree) (ws : List Nat) : Does R (walkWords t ws) := by
  induction ws with
  | nil => exact closed_pure H _
  | cons w ws ih =>
    unfold walkWords
    exact closed_bind H (closed_setCursor H _) (fun _ => closed_bind H (closed_rd H _) (fun v => closed_get (fun s =>
      closed_bind H (closed_walkEngines H _ _ _) (fun rs => closed_bind H ih (fun rest => closed_pure H _)))))

theorem closed_walkTrees (ts : List Tree) : Does R (walkTrees ts) := by
  induction ts with
  | nil => exact closed_pure H _
  | cons t ts ih =>
    unfold walkTrees
    exact closed_get (fun s => closed_bind H (closed_walkWords H _ _) (fun rs => closed_bind H ih (fun rest => closed_pure H _)))

theorem closed_summary : Does R summary := closed_bind H (closed_walkTrees H _) (fun _ => closed_pure H _)

theorem closed_topItem (top : Word) (b : Nat) {x : Act Result3} (hx : Does R x) : Does R (topItem top b x) :=
  Does.ite (closed_bind H (closed_setCursor H _) (fun _ => closed_bind H hx (fun _ => closed_pure H _))) (closed_pure H _)

theorem closed_dispatch : Does R dispatch :=
  closed_bind H (closed_setCursor H _) (fun _ => closed_bind H (closed_rd H _) (fun _ => closed_get (fun _ =>
    closed_bind H (closed_topItem H _ _ (closed_summary H)) (fun _ => closed_bind H (closed_topItem H _ _ (closed_handle H _ _ _)) (fun _ =>
      closed_bind H (closed_topItem H _ _ (closed_handle H _ _ _)) (fun _ => closed_pure H _))))))

theorem closed_servicePass : Does R servicePass := by
  unfold servicePass
  exact closed_bind H (closed_walkerBegin H) (fun _ => closed_bind H (closed_dispatch H) (fun r => closed_bind H (closed_unlock H)
    (fun _ => closed_seq H)))

theorem closed_progService : Does R progService := by
  unfold progService
  exact closed_bind H (closed_servicePass H) (fun _ => closed_bind H (closed_tick H) (fun _ => closed_completeTail H))

theorem closed_walkCommand (f : Family) (i : Nat) (t : Tree) : Does R (walkCommand f i t) := by
  unfold walkCommand
  exact closed_bind H (closed_walkerBegin H) (fun _ => closed_bind H (closed_walkfam H _ _ _) (fun r => closed_bind H (closed_unlock H)
    (fun _ => closed_answer H _)))

theorem closed_progSetfatal (l : Option (BitVec 12)) (dw : Bool) : Does R (progSetfatal l dw) := by
  unfold progSetfatal
  exact closed_bind H (closed_walkerBegin H) (fun _ => closed_bind H (closed_setfatalCore H _ _) (fun _ => closed_bind H (closed_unlock H)
    (fun _ => closed_finishCommand H _ _)))

theorem closed_progQlink (l : BitVec 12) : Does R (progQlink l) := by
  unfold progQlink
  exact closed_bind H (closed_walkerBegin H) (fun _ => closed_get (fun s => closed_bind H (closed_unlock H) (fun _ => closed_finishCommand H _ _)))

theorem closed_progQdev : Does R progQdev := by
  unfold progQdev
  exact closed_bind H (closed_walkerBegin H) (fun _ => closed_get (fun s => closed_bind H (closed_unlock H) (fun _ => closed_finishCommand H _ _)))

/-- The program of every walker command. -/
theorem closed_walkerProgram {i : Instr} {p : Act Unit} (h : walkerProgram i = some p) : Does R p := by
  cases i with
  | service => cases h; exact closed_servicePass H
  | walkXbar i t => cases h; exact closed_walkCommand H _ _ _
  | walkPortgrp i t => cases h; exact closed_walkCommand H _ _ _
  | walkLinkmgmt i t => cases h; exact closed_walkCommand H _ _ _
  | walkMctrlf i t => cases h; exact closed_walkCommand H _ _ _
  | handleRoute i t => cases h; exact closed_handleCommand H _ _ _
  | handleIngress i t => cases h; exact closed_handleCommand H _ _ _
  | handleEgress i t => cases h; exact closed_handleCommand H _ _ _
  | handleTstate i t => cases h; exact closed_handleCommand H _ _ _
  | handleSrctrack i t => cases h; exact closed_handleCommand H _ _ _
  | handleTile i t => cases h; exact closed_handleCommand H _ _ _
  | handleTileout i t => cases h; exact closed_handleCommand H _ _ _
  | handleDl i t => cases h; exact closed_handleCommand H _ _ _
  | handleTl i t => cases h; exact closed_handleCommand H _ _ _
  | handleLmlink i t => cases h; exact closed_handleCommand H _ _ _
  | handleLmcommon i t => cases h; exact closed_handleCommand H _ _ _
  | handleMctrl i t => cases h; exact closed_handleCommand H _ _ _
  | handlePci i t => cases h; exact closed_handleCommand H _ _ _
  | handlePriv i t => cases h; exact closed_handleCommand H _ _ _
  | setfatal l dw => cases h; exact closed_progSetfatal H _ _
  | qlink l => cases h; exact closed_progQlink H _
  | qdev => cases h; exact closed_progQdev H
  | rstdrain f m => cases h
  | rd32 a => cases h
  | wr32 a v => cases h

/-! ## Recovery -/

theorem closed_runNextWalker : Does R runNextWalker := by
  refine closed_answerRefused H ?_
  unfold takeUpWalker
  refine closed_get (fun s => ?_)
  split
  · split
    · exact closed_pure H _
    · split
      · exact closed_pure H _
      · rename_i p hp
        exact closed_get (fun s => Does.ite (closed_bind H (x := modify _) (Does.modify (fun s => H.inbox s _)) (fun _ =>
          closed_walkerProgram H hp)) (closed_pure H _))
  · exact closed_pure H _

theorem closed_window : Does R window := by
  have hw : ∀ ms, Does R (applyWindowMoves ms) := by
    intro ms
    induction ms with
    | nil => exact closed_pure H _
    | cons m ms ih =>
      unfold applyWindowMoves
      split
      · exact closed_bind H (x := runNextWalker) (closed_runNextWalker H) (fun _ => ih)
      · exact closed_bind H (x := applyMove m) (closed_applyMove H m) (fun _ => ih)
  unfold window
  refine closed_get (fun s => ?_)
  split
  · exact closed_pure H _
  · exact closed_bind H (x := modify _) (Does.modify (fun s => H.sched s _)) (fun _ => hw _)

theorem closed_raiseAbort (st : LinkStatus) (n l : Nat) : Does R (raiseAbort st n l) := by
  unfold raiseAbort
  exact closed_bind H (x := modify _) (Does.modify (fun s => H.chains.trans (H.history s _) (H.chains.trans (H.setPhase _ l .failed) (H.seq _ _))))
    (fun _ => closed_pure H _)

theorem closed_snapshotRegs (rs : List Reg) : Does R (snapshotRegs rs) := by
  induction rs with
  | nil => exact closed_pure H _
  | cons r rs ih => exact closed_bind H (closed_rd H _) (fun v => closed_bind H (x := modify _) (closed_seq H) (fun _ => ih))

theorem closed_zeroRam (a d : Reg) (is : List Nat) : Does R (zeroRam a d is) := by
  induction is with
  | nil => exact closed_pure H _
  | cons i is ih => exact closed_bind H (closed_wr H _ _) (fun _ => closed_bind H (closed_wr H _ _) (fun _ => ih))

theorem closed_seedGanged (l : Nat) (is : List Nat) : Does R (seedGanged l is) := by
  induction is with
  | nil => exact closed_pure H _
  | cons i is ih => exact closed_bind H (closed_wr H _ _) (fun _ => closed_get (fun s => closed_bind H (closed_wr H _ _) (fun _ => ih)))

theorem closed_recoverAfterReset (l : Nat) : Does R (recoverAfterReset l) := by
  have hstep := fun n => closed_setStep H n
  unfold recoverAfterReset
  refine closed_bind H ?_ (fun _ => closed_bind H ?_ (fun b => Does.ite (closed_bind H ?_ (fun d => Does.ite (closed_bind H ?_ (fun _ =>
    closed_bind H ?_ (fun _ => ?_))) (closed_raiseAbort H _ _ _))) (closed_raiseAbort H _ _ _)))
  · exact closed_bind H (hstep 9) (fun _ => closed_get (fun s => closed_bind H (closed_rd H _) (fun g => closed_bind H (closed_wr H _ _) (fun _ =>
      closed_bind H (closed_wr H _ _) (fun _ => closed_wr H _ _)))))
  · exact closed_bind H (hstep 10) (fun _ => closed_bind H (closed_wr H _ _) (fun _ => closed_bind H (closed_rd H _) (fun v => closed_pure H _)))
  · exact closed_bind H (hstep 11) (fun _ => closed_bind H (closed_wr H _ _) (fun _ => closed_get (fun s => closed_bind H (closed_zeroRam H _ _ _) (fun _ =>
      closed_get (fun s => closed_bind H (closed_zeroRam H _ _ _) (fun _ => closed_poll H _ _ (fun s => (H.responders s l).2.1)))))))
  · exact closed_bind H (hstep 12) (fun _ => closed_get (fun s => closed_bind H (closed_wrAll H _) (fun _ => closed_get (fun s =>
      closed_bind H (closed_seedGanged H _ _) (fun _ => Does.modify (fun s => H.chains.trans (H.seq s _) (H.setPhase _ l .restored)))))))
  · exact closed_bind H (hstep 13) (fun _ => closed_get (fun s => closed_bind H (closed_wrAll H _) (fun _ => closed_get (fun s =>
      closed_bind H (closed_wr H _ _) (fun _ => closed_get (fun s => closed_bind H (closed_wr H _ _) (fun _ =>
        closed_bind H (x := modify _) (Does.modify (fun s => H.setFatal s l false)) (fun _ => closed_bind H (closed_rd H _) (fun v =>
          closed_bind H (closed_wr H _ _) (fun _ => Does.modify (fun s => H.setPhase s l .rearmed)))))))))))
  · refine closed_bind H (hstep 14) (fun _ => closed_bind H (closed_extCall H _ _) (fun _ => closed_bind H (closed_askEnv H _) (fun ok => ?_)))
    split
    · exact closed_bind H (x := modify _) (Does.modify (fun s => H.chains.trans (H.setRegistered s l true) (H.setPhase _ l .idle))) (fun _ => closed_pure H _)
    · exact closed_bind H (x := modify _) (Does.modify (fun s => H.chains.trans (H.setPhase s l .destroyed) (H.history _ _))) (fun _ => closed_pure H _)

theorem closed_recover (l : Nat) (forced : Bool) : Does R (recover l forced) := by
  have hstep := fun n => closed_setStep H n
  unfold recover
  refine closed_bind H (hstep 1) (fun _ => closed_get (fun s => Does.ite (closed_get (fun s => Does.ite ?_ ?_)) (closed_pure H _)))
  · unfold recoverValid
    refine closed_bind H ?_ (fun _ => closed_bind H ?_ (fun _ => closed_bind H ?_ (fun _ => closed_bind H ?_ (fun _ => closed_bind H ?_ (fun _ =>
      closed_bind H ?_ (fun _ => closed_bind H ?_ (fun b => Does.ite (closed_recoverAfterReset H l) (closed_raiseAbort H _ _ _))))))))
    · exact closed_bind H (hstep 2) (fun _ => closed_bind H (closed_extCall H _ _) (fun _ =>
        Does.modify (fun s => H.chains.trans (H.setRegistered s l false) (H.setPhase _ l .reset))))
    · exact closed_bind H (hstep 3) (fun _ => closed_bind H (closed_askEnv H _) (fun b => Does.ite (closed_pure H _)
        (closed_bind H (closed_extCall H _ _) (fun _ => closed_extCall H _ _))))
    · exact closed_bind H (hstep 4) (fun _ => closed_bind H (x := modify _) (closed_seq H) (fun _ => closed_get (fun s => closed_snapshotRegs H _)))
    · exact closed_bind H (hstep 5) (fun _ => closed_bind H (closed_rd H _) (fun v => closed_bind H (closed_wr H _ _) (fun _ => closed_emit H _)))
    · exact closed_bind H (hstep 6) (fun _ => closed_bind H (closed_wr H _ _) (fun _ => closed_wr H _ _))
    · exact closed_bind H (hstep 7) (fun _ => closed_get (fun s => closed_bind H (closed_rd H _) (fun g => closed_wr H _ _)))
    · exact closed_bind H (hstep 8) (fun _ => closed_bind H (closed_wr H _ _) (fun _ => closed_poll H _ _ (fun s => (H.responders s l).1)))
  · exact closed_bind H (closed_emit H _) (fun _ => closed_pure H _)

theorem closed_recoverAll (forced : Bool) (ls : List Nat) : Does R (recoverAll forced ls) := by
  induction ls with
  | nil => exact closed_pure H _
  | cons l ls ih =>
    unfold recoverAll
    exact closed_bind H (x := modify _) (Does.modify (fun s => H.seq s _)) (fun _ => closed_bind H (closed_window H) (fun _ => closed_bind H (closed_lock H _) (fun _ =>
      closed_bind H (closed_recover H _ _) (fun st => closed_bind H (closed_unlock H) (fun _ => closed_bind H ih (fun sts => closed_pure H _))))))

theorem closed_finishRcv : Does R finishRcv :=
  closed_bind H (closed_window H) (fun _ => closed_bind H (closed_advanceRcv H) (fun _ => closed_bind H (closed_window H) (fun _ =>
    closed_advanceRcv H)))

theorem closed_rcvBegin : Does R rcvBegin := closed_bind H (closed_advanceRcv H) (fun _ => closed_advanceRcv H)

theorem closed_progRstdrain (forced : Bool) (masks : List Word) : Does R (progRstdrain forced masks) :=
  closed_bind H (closed_rcvBegin H) (fun _ => closed_bind H (closed_recoverAll H _ _) (fun _ =>
    closed_bind H (x := modify _) (Does.modify (fun s => closed_oweTraining H s _)) (fun _ => closed_finishRcv H)))

/-! ## One step -/

theorem closed_outcomeOf {x : Act Unit} (hx : Does R x) {s t : State} (h : outcomeOf s (x s) = .next t) : R s t := by
  have hd := hx s
  cases hxs : x s with
  | ok a u => rw [hxs] at h hd; cases h; exact hd
  | error e u =>
    rw [hxs] at h hd
    cases e with
    | reset => cases h; exact hd
    | blocked => cases h; exact H.chains.refl s
    | refused r => cases h

theorem closed_runCommand {i : Instr} {x : Act Unit} (hx : Does R x) {s t : State} (h : runCommand i x s = .next t) : R s t := by
  unfold runCommand at h
  split at h
  · exact closed_outcomeOf H hx h
  · cases h; exact closed_refuseCommand H s

/-- What every operation respects, every instruction respects. -/
theorem closed_exec {i : Instr} {s t : State} (h : exec i s = .next t) : R s t := by
  cases i
  case rd32 a =>
    change execRd32 a s = _ at h
    unfold execRd32 at h
    split at h
    · cases h
    · cases h; exact H.readData s _
  case wr32 a v =>
    change execWr32 a v s = _ at h
    unfold execWr32 at h
    split at h
    · cases h
    · exact closed_outcomeOf H (closed_writeReg H _ _) h
  case service => exact closed_runCommand H (i := .service) (x := progService) (closed_progService H) h
  case walkXbar i t => exact closed_runCommand H (x := progWalkXbar i t) (closed_walkCommand H _ _ _) h
  case walkPortgrp i t => exact closed_runCommand H (x := progWalkPortgrp i t) (closed_walkCommand H _ _ _) h
  case walkLinkmgmt i t => exact closed_runCommand H (x := progWalkLinkmgmt i t) (closed_walkCommand H _ _ _) h
  case walkMctrlf i t => exact closed_runCommand H (x := progWalkMctrlf i t) (closed_walkCommand H _ _ _) h
  case setfatal l dw => exact closed_runCommand H (x := progSetfatal l dw) (closed_progSetfatal H _ _) h
  case qlink l => exact closed_runCommand H (x := progQlink l) (closed_progQlink H _) h
  case qdev => exact closed_runCommand H (i := .qdev) (x := progQdev) (closed_progQdev H) h
  case rstdrain f m => exact closed_runCommand H (x := progRstdrain f m) (closed_progRstdrain H _ _) h
  case handleRoute i t => exact closed_runCommand H (x := progHandleRoute i t) (closed_handleCommand H _ _ _) h
  case handleIngress i t => exact closed_runCommand H (x := progHandleIngress i t) (closed_handleCommand H _ _ _) h
  case handleEgress i t => exact closed_runCommand H (x := progHandleEgress i t) (closed_handleCommand H _ _ _) h
  case handleTstate i t => exact closed_runCommand H (x := progHandleTstate i t) (closed_handleCommand H _ _ _) h
  case handleSrctrack i t => exact closed_runCommand H (x := progHandleSrctrack i t) (closed_handleCommand H _ _ _) h
  case handleTile i t => exact closed_runCommand H (x := progHandleTile i t) (closed_handleCommand H _ _ _) h
  case handleTileout i t => exact closed_runCommand H (x := progHandleTileout i t) (closed_handleCommand H _ _ _) h
  case handleDl i t => exact closed_runCommand H (x := progHandleDl i t) (closed_handleCommand H _ _ _) h
  case handleTl i t => exact closed_runCommand H (x := progHandleTl i t) (closed_handleCommand H _ _ _) h
  case handleLmlink i t => exact closed_runCommand H (x := progHandleLmlink i t) (closed_handleCommand H _ _ _) h
  case handleLmcommon i t => exact closed_runCommand H (x := progHandleLmcommon i t) (closed_handleCommand H _ _ _) h
  case handleMctrl i t => exact closed_runCommand H (x := progHandleMctrl i t) (closed_handleCommand H _ _ _) h
  case handlePci i t => exact closed_runCommand H (x := progHandlePci i t) (closed_handleCommand H _ _ _) h
  case handlePriv i t => exact closed_runCommand H (x := progHandlePriv i t) (closed_handleCommand H _ _ _) h

end Sys2Proof.Machine
end

