-- ==== Sys2Proof/Laws/Exec.lean ====
section
/-! SUPPORT. From `exec` to the program of a command: for every command what `exec` is once its operands are admitted, and
how a command that runs alone (`Quiet`) begins and ends around its body. -/

namespace Sys2Proof.Machine

/-! ## The fourteen HANDLEs and the four WALKFAMs as one -/

theorem exec_handleInstr (k : Kind) (i : BitVec 12) (t : Tree) (s : State) :
    exec (handleInstr k i t) s = runCommand (handleInstr k i t) (handleCommand k i.toNat t) s := by cases k <;> rfl

theorem admitted_handleInstr (c : Config) (k : Kind) (i : BitVec 12) (t : Tree) :
    admitted c (handleInstr k i t) = handleAdmitted c k i.toNat t := by cases k <;> rfl

theorem exec_walkInstr (f : Family) (i : BitVec 12) (t : Tree) (s : State) :
    exec (walkInstr f i t) s = runCommand (walkInstr f i t) (walkCommand f i.toNat t) s := by cases f <;> rfl

theorem admitted_walkInstr (c : Config) (f : Family) (i : BitVec 12) (t : Tree) :
    admitted c (walkInstr f i t) = walkAdmitted c f i.toNat t := by cases f <;> rfl

/-! ## A command around its body -/

/-- The end of a HANDLE or WALKFAM command: the mutex released, the response given. -/
def answered (u : State) (r : Result3) : State := ((u.setLock .free).setCursor none).respond [resultWord r]

/-- HANDLE, from what its body does under the mutex. -/
theorem exec_handle_of {s u : State} {k : Kind} {i : BitVec 12} {t : Tree} {r : Result3} (hq : Quiet s)
    (ha : handleAdmitted s.cfg k i.toNat t = true) (h : handle k i.toNat t (s.setLock .wlk) = .ok r u) :
    exec (handleInstr k i t) s = .next (answered u r) := by
  rw [exec_handleInstr, runCommand_admitted (by rw [admitted_handleInstr]; exact ha)]
  unfold handleCommand
  rw [Act.bind_of_ok (walkerBegin_quiet hq), Act.bind_of_ok h, Act.bind_of_ok (unlock_apply u)]
  rfl

/-- WALKFAM, from what its body does under the mutex. -/
theorem exec_walk_of {s u : State} {f : Family} {i : BitVec 12} {t : Tree} {r : Result3} (hq : Quiet s)
    (ha : walkAdmitted s.cfg f i.toNat t = true) (h : walkfam f i.toNat t (s.setLock .wlk) = .ok r u) :
    exec (walkInstr f i t) s = .next (answered u r) := by
  rw [exec_walkInstr, runCommand_admitted (by rw [admitted_walkInstr]; exact ha)]
  unfold walkCommand
  rw [Act.bind_of_ok (walkerBegin_quiet hq), Act.bind_of_ok h, Act.bind_of_ok (unlock_apply u)]
  rfl

/-- Being alone under a configuration and being between two commands, from `Quiet`. -/
theorem Quiet.alone {s : State} (hq : Quiet s) : Alone s.cfg (s.setLock .wlk) := ⟨hq.1, rfl⟩

/-! ## What a lock taken does not change -/

theorem handleResult_setLock (s : State) (b : Lock) (k : Kind) (i : Nat) (t : Tree) :
    (s.setLock b).handleResult k i t = s.handleResult k i t := by
  have hok : (s.setLock b).handshakeOk k = s.handshakeOk k := by
    unfold State.handshakeOk
    split
    · exact State.ask_congr (by rfl) _
    · rfl
  unfold State.handleResult
  rw [hok]
  rfl

theorem handleTail_setLock (s : State) (b : Lock) (k : Kind) (i : Nat) (t : Tree) :
    (s.setLock b).handleTail k i t = s.handleTail k i t := by
  have hok : (s.setLock b).handshakeOk k = s.handshakeOk k := by
    unfold State.handshakeOk
    split
    · exact State.ask_congr (by rfl) _
    · rfl
  unfold State.handleTail
  rw [hok]
  rfl

end Sys2Proof.Machine
end

