-- ==== Sys2Proof/Laws/Late.lean ====
section
/-! SUPPORT. A HANDLE during which one fault condition arrives (R380, R381): every part of it between its reads and its
status write runs to its end and keeps what is known of the status register (`Keeps`, `Late`). -/

namespace Sys2Proof.Machine

variable {α β : Type} {I : State → Prop}

/-- From a state with the invariant the action ends with a value, in a state with the invariant. -/
def Keeps (I : State → Prop) (x : Act α) : Prop := ∀ s, I s → ∃ a t, x s = .ok a t ∧ I t

/-- The registers a HANDLE writes besides the status register (R211, R243, R245, R251). -/
def besideStatus : Reg → Bool
  | .node _ _ .errFirst => true
  | .node _ _ (.reportEn _) => true
  | .node _ _ (.eccCount _) => true
  | .intrStallEn _ => true
  | .scratchDevice => true
  | .scratchPort _ => true
  | .ringCmd => true
  | _ => false

/-- An invariant of the configuration, the hardware and the schedule that the other agents' steps and the writes beside
the status register (`W` of them) keep. -/
structure Steady (W : Reg → Prop) (I : State → Prop) : Prop where
  tick : ∀ s, I s → ∃ t, tick s = .ok () t ∧ I t
  frame : ∀ s t, I s → t.cfg = s.cfg → t.hw = s.hw → t.io.sched = s.io.sched → I t
  write : ∀ s r v, I s → W r → besideStatus r = true → I (s.applyWrite r v false)
  ring : ∀ s, I s → I s.ackRing

theorem Keeps.pure (a : α) : Keeps I (pure a : Act α) := fun s h => ⟨a, s, rfl, h⟩

theorem Keeps.bind {x : Act α} {f : α → Act β} (hx : Keeps I x) (hf : ∀ a, Keeps I (f a)) : Keeps I (x >>= f) := by
  intro s hs
  obtain ⟨a, t, e, ht⟩ := hx s hs
  obtain ⟨b, u, e', hu⟩ := hf a t ht
  exact ⟨b, u, by rw [Act.bind_of_ok e, e'], hu⟩

theorem Keeps.get {f : State → Act β} (hf : ∀ s, Keeps I (f s)) : Keeps I ((get : Act State) >>= f) := fun s hs => hf s s hs

theorem Keeps.ite {p : Prop} [Decidable p] {x y : Act α} (hx : Keeps I x) (hy : Keeps I y) : Keeps I (if p then x else y) := by
  split <;> assumption

section
variable {W : Reg → Prop} (hI : Steady W I)
include hI

theorem keeps_modify {g : State → State} (h : ∀ s, ((g s).cfg, (g s).hw, (g s).io.sched) = (s.cfg, s.hw, s.io.sched)) :
    Keeps I (modify g : Act PUnit) :=
  fun s hs => ⟨_, _, rfl, hI.frame s _ hs (congrArg (fun w => w.1) (h s)) (congrArg (fun w => w.2.1) (h s))
    (congrArg (fun w => w.2.2) (h s))⟩

theorem keeps_emit (e : Event) : Keeps I (emit e) := keeps_modify hI (fun _ => rfl)

theorem keeps_setCursor (q : Cursor) : Keeps I (setCursor q) := keeps_modify hI (fun _ => rfl)

theorem keeps_askEnv (q : EnvQuery) : Keeps I (askEnv q) :=
  fun s hs => ⟨_, _, rfl, hI.frame s _ hs (State.ask_cfg s q) (State.ask_hw s q) (State.ask_io_sched s q)⟩

theorem keeps_rd (r : Reg) : Keeps I (rd r) := by
  intro s hs
  obtain ⟨t, e, ht⟩ := hI.tick s hs
  exact ⟨_, t, by unfold rd; rw [Act.bind_of_ok e]; rfl, ht⟩

theorem keeps_wr {r : Reg} (hr : besideStatus r = true) (hw : W r) (v : Word) : Keeps I (wr r v) := by
  intro s hs
  obtain ⟨t, e, ht⟩ := hI.tick s hs
  have hq : stuckQuery r v = none := by cases r <;> first | rfl | simp [besideStatus] at hr
  exact ⟨(), _, by unfold wr; rw [Act.bind_of_ok e, writeReg_plain hq],
    hI.write (t.emit (.write r v)) r v (hI.frame t _ ht rfl rfl rfl) hw hr⟩

theorem keeps_forward (e : SinkEvent) : Keeps I (forward e) := by
  unfold forward
  exact .bind (keeps_emit hI _) (fun _ => .bind (keeps_askEnv hI _) (fun _ => .ite (.pure _) (keeps_emit hI _)))

theorem keeps_markLink {l : Nat} (h : W (.scratchPort (l / 32))) : Keeps I (markLink l) := by
  unfold markLink
  refine .get (fun _ => .ite (.pure _) (.bind (x := modify _) (keeps_modify hI (fun _ => rfl)) (fun _ => ?_)))
  exact .bind (keeps_rd hI _) (fun _ => .bind (keeps_wr hI rfl h _) (fun _ => keeps_forward hI _))

theorem keeps_markDevice (h : W .scratchDevice) : Keeps I markDevice := by
  unfold markDevice
  refine .get (fun _ => .ite (.pure _) (.bind (x := modify _) (keeps_modify hI (fun _ => rfl)) (fun _ => ?_)))
  exact .bind (keeps_wr hI rfl h _) (fun _ => keeps_forward hI _)

theorem keeps_setfatalCore {tgt : Option Nat} (h : ∀ l, tgt = some l → W (.scratchPort (l / 32))) (hd : W .scratchDevice) (dw : Bool) :
    Keeps I (setfatalCore tgt dw) := by
  unfold setfatalCore
  have dev : Keeps I (if dw then markDevice else pure ()) := .ite (keeps_markDevice hI hd) (.pure _)
  cases tgt with
  | none => exact dev
  | some l => exact .bind (keeps_markLink hI (h l rfl)) (fun _ => dev)

theorem keeps_capture (k : Kind) (i : Nat) (rs : List NodeReg) : Keeps I (capture k i rs) := by
  induction rs with
  | nil => exact .pure _
  | cons r rs ih =>
    unfold capture
    exact .get (fun _ => .get (fun _ => .ite (.bind (keeps_rd hI _) (fun _ => .bind (x := modify _) (keeps_modify hI (fun _ => rfl)) (fun _ => ih))) ih))

theorem keeps_diagnostic (k : Kind) (i : Nat) (e : Entry) : Keeps I (diagnostic k i e) := by
  unfold diagnostic
  cases e.diag with
  | none => exact .pure _
  | rawBlock => exact .get (fun _ => .get (fun _ => .pure _))
  | addressFault => exact .bind (keeps_rd hI _) (fun _ => .pure _)
  | eccCounter => cases e.ecc <;> first | exact .pure _ | exact .bind (keeps_rd hI _) (fun _ => .pure _)

theorem keeps_reportTo (k : Kind) (b i : Nat) (sev : Severity) (dw : Bool) (d : Diagnostic) {tgts : List (Option Nat)}
    (h : ∀ l, some l ∈ tgts → W (.scratchPort (l / 32))) (hd : W .scratchDevice) : Keeps I (reportTo k b i sev dw d tgts) := by
  induction tgts with
  | nil => exact .pure _
  | cons tgt rest ih =>
    unfold reportTo
    have ih := ih (fun l hl => h l (List.mem_cons_of_mem _ hl))
    refine .bind (keeps_emit hI _) (fun _ => ?_)
    split
    · exact .bind (keeps_setfatalCore hI (fun l hl => h l (by simp [hl])) hd _) (fun _ => ih)
    · exact ih

theorem keeps_logIfEcc (k : Kind) (i : Nat) (e : Entry) (d : Diagnostic) : Keeps I (logIfEcc k i e d) := by
  have log : ∀ u un, Keeps I (eccLog k i u un d) := by
    intro u un
    unfold eccLog
    refine .bind (keeps_rd hI _) (fun _ => ?_)
    split <;> first | exact keeps_forward hI _ | exact .bind (keeps_rd hI _) (fun _ => keeps_forward hI _)
  unfold logIfEcc
  cases e.ecc with
  | notEcc => exact .pure _
  | eccLimit u | eccDbe u => exact .bind (log _ _) (fun _ => keeps_modify hI (fun _ => rfl))

/-- Step 4 (R211). -/
theorem keeps_classifyBits {k : Kind} {i : Nat} (h : ∀ (s : State), I s → ∀ l, some l ∈ targets s.cfg k i → W (.scratchPort (l / 32)))
    (hd : W .scratchDevice) (bs : List Nat) : Keeps I (classifyBits k i bs) := by
  have one : ∀ b, Keeps I (classifyBit k i b) := by
    intro b s hs
    unfold classifyBit
    rw [Act.get_bind]
    revert hs
    cases table s.cfg k b with
    | none => exact fun hs => ⟨(), s, rfl, hs⟩
    | some e =>
      intro hs
      refine Keeps.ite (keeps_modify hI (fun x => ?_)) (Keeps.bind (keeps_diagnostic hI k i e) (fun d => ?_)) s hs
      · unfold touchUnitOf; cases e.ecc <;> rfl
      · exact .bind (keeps_reportTo hI _ _ _ _ _ _ (h s hs) hd) (fun _ => .bind (keeps_logIfEcc hI _ _ _ _) (fun _ => keeps_modify hI (fun _ => rfl)))
  induction bs with
  | nil => exact .pure _
  | cons b bs ih =>
    unfold classifyBits
    refine .get (fun _ => ?_)
    split
    · exact .bind (one b) (fun _ => ih)
    · exact ih

theorem keeps_zeroCounters {k : Kind} {i : Nat} {us : List Nat} (h : ∀ u ∈ us, W (.node k i (.eccCount u))) :
    Keeps I (zeroCounters k i us) := by
  induction us with
  | nil => exact .pure _
  | cons u us ih =>
    exact .bind (keeps_wr hI rfl (h u (by simp)) _) (fun _ => ih (fun x hx => h x (List.mem_cons_of_mem _ hx)))

theorem keeps_privHandshake (h : W .ringCmd) : Keeps I privHandshake := by
  have ring : Keeps I (modify State.ackRing : Act PUnit) := fun s hs => ⟨_, _, rfl, hI.ring s hs⟩
  unfold privHandshake poll
  refine .bind (keeps_wr hI rfl h _) (fun _ => .bind (.bind (keeps_rd hI _) (fun _ => .ite (.pure _) (.bind (keeps_askEnv hI _) (fun _ => ?_)))) (fun _ => ?_))
  · exact .ite (.bind ring (fun _ => .pure _)) (.pure _)
  · exact .ite (.pure _) (.bind (keeps_emit hI _) (fun _ => .pure _))

theorem keeps_stepEight (k : Kind) (i : Nat) (t : Tree) (ok : Bool) : Keeps I (stepEight k i t ok) := by
  unfold stepEight
  exact .bind (keeps_setCursor hI _) (fun _ => .get (fun _ => .ite (.pure _) (.bind (keeps_emit hI _) (fun _ => .pure _))))

end

/-! ## One arrival, still to come or past (R380) -/

/-- The status register `r` reads `F`, and the one arrival `mv` is still to come; or it has come, and `r` reads `F` with
what is left of the arriving bits `e` once a mask `m` may have been cleared. -/
def Late (c : Config) (r : Reg) (mv : Move) (e m F : Word) (s : State) : Prop :=
  s.cfg = c ∧ ((∃ n, s.io.sched = onlyBefore n mv ∧ s.field r = F)
    ∨ (s.io.sched = [] ∧ ∃ late, (late = e ∨ late = e &&& ~~~m) ∧ s.field r = F ||| late))

/-- The arrival puts its bits, in the bits the register has, into the status register (R160). -/
theorem arrive_status {s : State} {k : Kind} {i : Nat} (hw : configWf s.cfg = true) (hn : nodeExists s.cfg k i = true) (e : Word) (d : Draw) :
    ∀ r, r = (if k = .mctrl then .intrStatus i else .node k i .errStatus) →
      (s.arrive k i e d).field r = s.field r ||| (e &&& definedMask s.cfg r) := by
  rintro r rfl
  have hi := nodeExists_lt hw hn
  by_cases he : e = 0#32
  · subst he
    simp [State.arrive]
  unfold State.arrive
  rw [if_neg (by simp [he, hn])]
  by_cases hk : k = .mctrl
  · subst hk
    have hf : fits (.intrStatus i) = true := by simpa [fits] using hi
    rw [if_pos rfl, if_pos rfl, State.arriveMctrl, State.store_field _ _ hf hf, if_pos rfl]
    simp only [definedMask, State.field, BitVec.and_or_distrib_right, BitVec.and_assoc, BitVec.and_self]
  · have hf : fits (.node k i .errStatus) = true := by simp [fits, nodeFits, hk, hi]
    rw [if_neg hk, if_neg hk, State.arriveNode, State.store_field _ _ hf hf, if_pos rfl]
    simp only [definedMask, BitVec.and_allOnes]

/-- The writes beside the status register leave it (R211). -/
theorem applyWrite_beside {s : State} {r q : Reg} (hr : fits r = true) (hq : fits q = true) (hne : r ≠ q) (hk : q ≠ .ringStatus)
    (hb : besideStatus r = true) (v : Word) : (s.applyWrite r v false).field q = s.field q ∧ (s.applyWrite r v false).cfg = s.cfg
      ∧ (s.applyWrite r v false).io = s.io := by
  have hp := (s.applyWrite_hardwareOnly r v false).parts
  refine ⟨?_, hp.1, hp.2.2.2⟩
  have hst : ∀ w, (s.store r w).field q = s.field q := fun w => by rw [State.store_field s w hr hq, if_neg (Ne.symm hne)]
  have hring : ∀ w, (s.store .ringStatus w).field q = s.field q := fun w => by
    rw [State.store_field s w rfl hq, if_neg hk]
  unfold State.applyWrite
  cases r <;> simp only [besideStatus, Bool.false_eq_true] at hb
  case ringCmd =>
    simp only [access, State.woEffect]
    split <;> [exact hring _; rfl]
  case node k i n => cases n <;> simp only [Bool.false_eq_true] at hb <;> exact hst _
  all_goals exact hst _

/-- R380, R381: what is known of the status register, whenever the arrival comes, is kept by everything a HANDLE does beside
its status write. -/
theorem late_steady {c : Config} (hw : configWf c = true) {k : Kind} {i : Nat} (hn : nodeExists c k i = true) (e m F : Word) (d : Draw)
    {r : Reg} (hr : r = if k = .mctrl then .intrStatus i else .node k i .errStatus) :
    Steady (fun q => fits q = true ∧ q ≠ r) (Late c r (.arrive k i e d) (e &&& definedMask c r) m F) := by
  have hi := nodeExists_lt hw hn
  have hf : fits r = true := by
    subst hr
    by_cases hk : k = .mctrl
    · simpa [hk, fits] using hi
    · simp [hk, fits, nodeFits, hi]
  have hring : r ≠ .ringStatus := by subst hr; split <;> simp
  refine ⟨?_, ?_, ?_, ?_⟩
  · rintro s ⟨hc, ⟨n, hs, hF⟩ | ⟨hs, hF⟩⟩
    · cases n with
      | zero =>
        have hs : s.io.sched = [[.arrive k i e d]] := hs
        have ha := arrive_cellsOnly (s.setSched []) k i e d
        refine ⟨(s.setSched []).arrive k i e d, by unfold tick; rw [Act.get_bind, hs]; rfl, ha.cfg.trans hc, Or.inr ⟨by rw [ha.io]; rfl, _, Or.inl rfl, ?_⟩⟩
        have h := arrive_status (s := s.setSched []) (by rw [← hc] at hw; exact hw) (by rw [← hc] at hn; exact hn) e d r hr
        rw [h, ← hF, ← hc]
        rfl
      | succ n =>
        have hs : s.io.sched = [] :: onlyBefore n (.arrive k i e d) := hs
        exact ⟨s.setSched (onlyBefore n (.arrive k i e d)), by unfold tick; rw [Act.get_bind, hs]; rfl, hc, Or.inl ⟨n, rfl, hF⟩⟩
    · exact ⟨s, tick_quiet hs, hc, Or.inr ⟨hs, hF⟩⟩
  · rintro s t ⟨hc, h⟩ h1 h2 h3
    exact ⟨h1.trans hc, by rw [h3, State.field_congr h1 (by unfold State.cellAt; rw [h2, h1])]; exact h⟩
  · rintro s q v ⟨hc, h⟩ hq hb
    obtain ⟨h1, h2, h3⟩ := applyWrite_beside (s := s) hq.1 hf hq.2 hring hb v
    exact ⟨h2.trans hc, by rw [h3, h1]; exact h⟩
  · rintro s ⟨hc, h⟩
    obtain ⟨h1, -, h3⟩ := (s.responder_frame 0).2.2
    refine ⟨h1.trans hc, ?_⟩
    have hfield : s.ackRing.field r = s.field r := by
      unfold State.ackRing
      split
      · rw [State.setRingPending_read_field, State.store_field s _ rfl hf, if_neg hring]
      · rfl
    rw [h3, hfield]
    exact h

/-- The status write clears the mask, and of the late bits those of the mask that came before it (R381). -/
theorem late_status_write {c : Config} (hw : configWf c = true) {k : Kind} {i : Nat} (hn : nodeExists c k i = true) {e m F : Word} {d : Draw}
    {r : Reg} (hr : r = if k = .mctrl then .intrStatus i else .node k i .errStatus) {s : State}
    (hs : Late c r (.arrive k i e d) (e &&& definedMask c r) m F s) :
    ∃ t, wr r m s = .ok () t ∧ Late c r (.arrive k i e d) (e &&& definedMask c r) m (F &&& ~~~m) t := by
  obtain ⟨t, et, ht⟩ := (late_steady hw hn e m F d hr).tick s hs
  have hi := nodeExists_lt hw hn
  have hf : fits r = true := by
    subst hr
    by_cases hk : k = .mctrl
    · simpa [hk, fits] using hi
    · simp [hk, fits, nodeFits, hi]
  have ha : access r = .w1c ∧ stuckQuery r m = none := by subst hr; split <;> exact ⟨rfl, rfl⟩
  refine ⟨_, by unfold wr; rw [Act.bind_of_ok et, writeReg_plain ha.2], ?_⟩
  have happ : (t.emit (.write r m)).applyWrite r m false = (t.emit (.write r m)).store r (t.field r &&& ~~~m) := by
    unfold State.applyWrite
    rw [ha.1]
    rfl
  obtain ⟨hc, h⟩ := ht
  have hfield : ((t.emit (.write r m)).store r (t.field r &&& ~~~m)).field r = t.field r &&& ~~~m := by
    rw [State.store_field _ _ hf hf, if_pos rfl]
    show t.load r &&& definedMask t.cfg r &&& ~~~m &&& definedMask t.cfg r = t.load r &&& definedMask t.cfg r &&& ~~~m
    ext j hj
    simp only [BitVec.getElem_and]
    cases (t.load r)[j] <;> cases (definedMask t.cfg r)[j] <;> simp
  rw [happ]
  refine ⟨hc, ?_⟩
  rw [hfield]
  rcases h with ⟨n, hs, hF⟩ | ⟨hs, late, hl, hF⟩
  · exact Or.inl ⟨n, hs, by rw [hF]⟩
  · refine Or.inr ⟨hs, e &&& definedMask c r &&& ~~~m, Or.inr rfl, ?_⟩
    rw [hF, BitVec.and_or_distrib_right]
    rcases hl with rfl | rfl
    · rfl
    · rw [BitVec.and_assoc (_ &&& _), BitVec.and_self]

end Sys2Proof.Machine
end

