-- ==== Sys2Proof/Laws/Recover.lean ====
section
/-! SUPPORT. What the recovery of one link does when the environment answers favourably and no other agent moves
(R283 to R308): `recover_ok`. -/

namespace Sys2Proof.Machine

/-! ## Footprints: what a run of register accesses may change -/

/-- `t` comes from `s` by register accesses alone that may change the registers `W`, the RAMs `M`, the tag pools where
`B`, and may use up answers to `Q`. -/
structure Ran (c : Config) (W : Reg → Prop) (M : Ram → Prop) (B : Prop) (Q : EnvQuery → Prop) (s t : State) : Prop where
  alone : Alone c t
  fields : ∀ r, fits r = true → ¬ W r → t.field r = s.field r
  rams : ∀ m, ¬ M m → t.ramOf m = s.ramOf m
  clean : ¬ B → t.hw.tagpoolClean = s.hw.tagpoolClean
  cache : t.hw.gangedCache = s.hw.gangedCache
  fault : t.fault = s.fault
  lock : t.seq.lock = s.seq.lock
  snap : t.seq.snap = s.seq.snap
  asks : ∀ q, ¬ Q q → (t.ask q).1 = (s.ask q).1

variable {c : Config} {W W' : Reg → Prop} {M M' : Ram → Prop} {B B' : Prop} {Q Q' : EnvQuery → Prop} {s t u : State}

theorem Ran.refl (hs : Alone c s) : Ran c W M B Q s s :=
  ⟨hs, fun _ _ _ => rfl, fun _ _ => rfl, fun _ => rfl, rfl, rfl, rfl, rfl, fun _ _ => rfl⟩

theorem Ran.trans (h : Ran c W M B Q s t) (k : Ran c W M B Q t u) : Ran c W M B Q s u :=
  ⟨k.alone, fun r a b => (k.fields r a b).trans (h.fields r a b), fun m a => (k.rams m a).trans (h.rams m a),
    fun b => (k.clean b).trans (h.clean b), k.cache.trans h.cache, k.fault.trans h.fault, k.lock.trans h.lock, k.snap.trans h.snap,
    fun q a => (k.asks q a).trans (h.asks q a)⟩

theorem Ran.mono (h : Ran c W M B Q s t) (hW : ∀ r, W r → W' r) (hM : ∀ m, M m → M' m) (hB : B → B') (hQ : ∀ q, Q q → Q' q) :
    Ran c W' M' B' Q' s t :=
  ⟨h.alone, fun r a b => h.fields r a (fun x => b (hW r x)), fun m a => h.rams m (fun x => a (hM m x)),
    fun b => h.clean (fun x => b (hB x)), h.cache, h.fault, h.lock, h.snap, fun q a => h.asks q (fun x => a (hQ q x))⟩

/-- The registers a write of `r` may change, `r` being no WARM_RESET (R90). -/
def writeFoot (c : Config) (r : Reg) : List Reg :=
  match r with
  | .debugClear l => .debugClear l :: portStatusRegs c l
  | .rstseqReq l => [.rstseqReq l, .rstseqStatus l]
  | .tagpoolInit l => [.ramInitStatus l]
  | .ringCmd => [.ringStatus]
  | r => [r]

theorem zeroRegs_field {rs : List Reg} (hf : ∀ r ∈ rs, fits r = true) (s : State) {r : Reg} (hr : fits r = true) :
    (s.zeroRegs rs).field r = if r ∈ rs then 0#32 else s.field r := by
  induction rs generalizing s with
  | nil => simp [State.zeroRegs]
  | cons r' rs ih =>
    unfold State.zeroRegs
    rw [ih (fun x hx => hf x (by simp [hx])), State.store_field s _ (hf r' (by simp)) hr]
    by_cases h1 : r ∈ rs
    · simp [h1]
    · by_cases h2 : r = r'
      · subst h2; simp
      · simp [h1, h2]

/-- What a run of stores leaves alone. -/
structure StoresOnly (s t : State) : Prop where
  rams : ∀ m, t.ramOf m = s.ramOf m
  clean : t.hw.tagpoolClean = s.hw.tagpoolClean
  cache : t.hw.gangedCache = s.hw.gangedCache

theorem StoresOnly.refl (s : State) : StoresOnly s s := ⟨fun _ => rfl, rfl, rfl⟩

theorem StoresOnly.trans (h : StoresOnly s t) (k : StoresOnly t u) : StoresOnly s u :=
  ⟨fun m => (k.rams m).trans (h.rams m), k.clean.trans h.clean, k.cache.trans h.cache⟩

theorem StoresOnly.store (s : State) (r : Reg) (v : Word) : StoresOnly s (s.store r v) :=
  ⟨fun m => by cases m <;> rfl, rfl, rfl⟩

theorem StoresOnly.rstseq (s : State) (l : Nat) (b : Bool) : StoresOnly s (s.setRstseqPending l b) :=
  ⟨fun m => by cases m <;> rfl, rfl, rfl⟩

theorem StoresOnly.ramInit (s : State) (l : Nat) (b : Bool) : StoresOnly s (s.setRamInitPending l b) :=
  ⟨fun m => by cases m <;> rfl, rfl, rfl⟩

theorem StoresOnly.ring (s : State) (b : Bool) : StoresOnly s (s.setRingPending b) :=
  ⟨fun m => by cases m <;> rfl, rfl, rfl⟩

theorem resetRegs_storesOnly (s : State) (rs : List Reg) : StoresOnly s (s.resetRegs rs) := by
  induction rs generalizing s with
  | nil => exact StoresOnly.refl s
  | cons r rs ih => exact (StoresOnly.store s _ _).trans (ih _)

theorem zeroRegs_storesOnly (s : State) (rs : List Reg) : StoresOnly s (s.zeroRegs rs) := by
  induction rs generalizing s with
  | nil => exact StoresOnly.refl s
  | cons r rs ih => exact (StoresOnly.store s _ _).trans (ih _)

theorem warmResetPorts_storesOnly (s : State) (g : Nat) (ps : List Nat) : StoresOnly s (s.warmResetPorts g ps) := by
  induction ps generalizing s with
  | nil => exact StoresOnly.refl s
  | cons p ps ih =>
    refine StoresOnly.trans ?_ (ih _)
    split
    · exact resetRegs_storesOnly s _
    · exact StoresOnly.refl s

/-- A write of any register but an indexed one leaves the RAMs, the tag pools and the cached table (R151). -/
theorem applyWrite_storesOnly (s : State) {r : Reg} (v : Word) (b : Bool) (h : access r ≠ .indexed) :
    StoresOnly s (s.applyWrite r v b) := by
  unfold State.applyWrite
  cases ha : access r with
  | ro => exact StoresOnly.refl s
  | combinational => exact StoresOnly.refl s
  | w1c => simp only []; split <;> [exact StoresOnly.refl s; exact StoresOnly.store s _ _]
  | wo =>
    simp only []
    unfold State.woEffect
    split
    · exact ⟨fun m => by cases m <;> rfl, rfl, rfl⟩
    · split <;> [exact (StoresOnly.store s _ _).trans (StoresOnly.ramInit _ _ _); exact StoresOnly.refl s]
    · split <;> [exact (StoresOnly.store s _ _).trans (StoresOnly.ring _ _); exact StoresOnly.refl s]
    · exact StoresOnly.refl s
  | rw =>
    simp only []
    refine (StoresOnly.store s r (v &&& definedMask s.cfg r)).trans ?_
    unfold State.rwEffect
    split
    · split <;> [exact zeroRegs_storesOnly _ _; exact StoresOnly.refl _]
    · exact warmResetPorts_storesOnly _ _ _
    · split <;> [exact (StoresOnly.store _ _ _).trans (StoresOnly.rstseq _ _ _); exact StoresOnly.refl _]
    · exact StoresOnly.refl _
  | indexed => exact absurd ha h

theorem portStatusRegs_fits (hw : configWf c = true) {l : Nat} {r : Reg} (h : r ∈ portStatusRegs c l) : fits r = true := by
  unfold portStatusRegs at h
  obtain ⟨k, hk, hr⟩ := List.mem_flatMap.mp h
  obtain ⟨hk1, hk2⟩ := List.mem_filter.mp hk
  have hl := nodeExists_lt hw hk2
  have hm : k ≠ .mctrl := by rintro rfl; simp [portKinds] at hk1
  simp only [List.mem_cons, List.not_mem_nil, or_false] at hr
  rcases hr with rfl | rfl <;> simp [fits, nodeFits, hm, hl]

/-- A write of any register but a WARM_RESET changes only its footprint's registers (R151, R90). -/
theorem applyWrite_field (hw : configWf c = true) (hc : s.cfg = c) {r : Reg} (hr : fits r = true) (hn : ∀ g, r ≠ .warmReset g)
    (v : Word) (b : Bool) {r' : Reg} (hr' : fits r' = true) (hnot : r' ∉ writeFoot c r) :
    (s.applyWrite r v b).field r' = s.field r' := by
  have hst : ∀ (x : State) (q : Reg) (y : Word), fits q = true → r' ≠ q → (x.store q y).field r' = x.field r' := by
    intro x q y hq hne
    rw [State.store_field x y hq hr', if_neg hne]
  unfold State.applyWrite
  cases ha : access r with
  | ro => rfl
  | combinational => rfl
  | w1c =>
    simp only []
    split
    · rfl
    · refine hst _ _ _ hr ?_
      rintro rfl
      cases r' <;> simp [writeFoot, access] at hnot ha
  | wo =>
    simp only []
    unfold State.woEffect
    split
    · rfl
    · split
      · rename_i l _
        have hf : fits (.ramInitStatus l) = true := hr
        have hne : r' ≠ .ramInitStatus l := by simpa [writeFoot] using hnot
        rw [State.setRamInitPending_read_field, hst _ _ _ hf hne]
      · rfl
    · split
      · have hne : r' ≠ .ringStatus := by simpa [writeFoot] using hnot
        rw [State.setRingPending_read_field, hst _ _ _ rfl hne]
      · rfl
    · rfl
  | rw =>
    simp only []
    unfold State.rwEffect
    split
    · rename_i l
      have hne : r' ≠ .debugClear l ∧ r' ∉ portStatusRegs c l := by simpa [writeFoot] using hnot
      split
      · rw [zeroRegs_field, hst _ _ _ hr hne.1, State.store_cfg, hc, if_neg hne.2]
        · intro x hx; rw [State.store_cfg, hc] at hx; exact portStatusRegs_fits hw hx
        · exact hr'
      · exact hst _ _ _ hr hne.1
    · rename_i g; exact absurd rfl (hn g)
    · rename_i l
      have hne : r' ≠ .rstseqReq l ∧ r' ≠ .rstseqStatus l := by simpa [writeFoot] using hnot
      split
      · have hf : fits (.rstseqStatus l) = true := hr
        rw [State.setRstseqPending_read_field, hst _ _ _ hf hne.2, hst _ _ _ hr hne.1]
      · exact hst _ _ _ hr hne.1
    · rename_i h1 h2 h3
      refine hst _ _ _ hr ?_
      rintro rfl
      cases r' <;> simp [writeFoot] at hnot <;> first | exact h1 _ rfl | exact h3 _ rfl | (simp [access] at ha)
  | indexed =>
    simp only []
    have hram : ∀ (m : Ram) (x i : Nat) (y : Word), (s.ramWrite m x i y).field r' = s.field r' := by
      intro m x i y
      unfold State.ramWrite
      split
      · cases m <;> rfl
      · rfl
    unfold State.indexedWrite
    split
    · exact hram _ _ _ _
    · exact hram _ _ _ _
    · exact hram _ _ _ _
    · rfl

/-! ## Single accesses -/

theorem ask_storesOnly (s : State) (q : EnvQuery) : StoresOnly s (s.ask q).2 :=
  ⟨fun m => by cases m <;> simp [State.ramOf], by simp, by simp⟩

/-- A quiet write, but of a WARM_RESET or an indexed register. -/
theorem wr_ran (hw : configWf c = true) (hs : Alone c s) {r : Reg} (hr : fits r = true) (hn : ∀ g, r ≠ .warmReset g)
    (hi : access r ≠ .indexed) (v : Word) :
    ∃ t, wr r v s = .ok () t
      ∧ Ran c (fun x => x ∈ writeFoot c r) (fun _ => False) False (fun q => stuckQuery r v = some q) s t := by
  have key : ∀ (x : State) (b : Bool), x.cfg = c → x.io.sched = [] →
      Ran c (fun y => y ∈ writeFoot c r) (fun _ => False) False (fun q => stuckQuery r v = some q) x (x.applyWrite r v b) := by
    intro x b hc hsch
    obtain ⟨h1, h2, h3, h4⟩ := (x.applyWrite_hardwareOnly r v b).parts
    have h5 := applyWrite_storesOnly x v b hi
    exact ⟨⟨by rw [h4]; exact hsch, by rw [h1]; exact hc⟩, fun y hy hny => applyWrite_field hw hc hr hn v b hy hny, fun m _ => h5.rams m,
      fun _ => h5.clean, h5.cache, h2, by rw [h3], by rw [h3], fun q _ => State.ask_congr (by rw [h4]) q⟩
  have hemit : Ran c (fun y => y ∈ writeFoot c r) (fun _ => False) False (fun q => stuckQuery r v = some q) s (s.emit (.write r v)) :=
    ⟨hs, fun _ _ _ => rfl, fun m _ => by cases m <;> rfl, fun _ => rfl, rfl, rfl, rfl, rfl, fun q _ => State.ask_congr (by rfl) q⟩
  unfold wr
  rw [Act.bind_of_ok (tick_quiet hs.1), writeReg_apply]
  cases hq : stuckQuery r v with
  | none =>
    rw [hq] at key hemit
    exact ⟨_, rfl, hemit.trans (key _ false hs.2 hs.1)⟩
  | some q =>
    rw [hq] at key hemit
    have hso := ask_storesOnly (s.emit (.write r v)) q
    refine ⟨_, rfl, (hemit.trans ?_).trans (key _ _ ?_ ?_)⟩
    · exact ⟨Alone.ask (s := s.emit (.write r v)) hs q, fun x _ _ => State.ask_read_field _ _ _, fun m _ => hso.rams m, fun _ => hso.clean, hso.cache, State.ask_fault _ _,
        by rw [State.ask_seq], by rw [State.ask_seq], fun p hp => State.ask_other _ (fun e => hp (by rw [e]))⟩
    · rw [State.ask_cfg]; exact hs.2
    · rw [State.ask_io_sched]; exact hs.1

/-- A quiet write of an RW register without a side effect. -/
theorem wr_set (hs : Alone c s) {r : Reg} (hr : fits r = true) (hq : ∀ v, stuckQuery r v = none)
    (ha : access r = .rw) (he : ∀ t old new, State.rwEffect t r old new = t) (v : Word) :
    ∃ t, wr r v s = .ok () t ∧ Ran c (fun x => x = r) (fun _ => False) False (fun _ => False) s t
      ∧ t.field r = v &&& definedMask c r := by
  refine ⟨_, wr_store hs.1 (hq v) ha he, ⟨hs, ?_, fun m _ => by cases m <;> rfl, fun _ => rfl, rfl, rfl, rfl, rfl,
    fun q _ => State.ask_congr (by rfl) q⟩, ?_⟩
  · intro x hx hne
    rw [State.store_field _ _ hr hx, if_neg hne, State.emit_read_field]
  · rw [State.store_field_same]
    have : (s.emit (.write r v)).cfg = c := hs.2
    rw [hs.2, this, BitVec.and_assoc, BitVec.and_self]

/-- The moves of the recovery's own bookkeeping and of H. -/
theorem Ran.same (h : Ran c W M B Q s t) (hc : u.cfg = t.cfg) (hh : u.hw = t.hw) (hf : u.fault = t.fault)
    (hl : u.seq.lock = t.seq.lock) (hn : u.seq.snap = t.seq.snap) (hi : u.io.sched = t.io.sched) (he : u.io.env = t.io.env) :
    Ran c W M B Q s u := by
  refine ⟨⟨by rw [hi]; exact h.alone.1, by rw [hc]; exact h.alone.2⟩, fun r a b => ?_, fun m a => ?_, fun b => by rw [hh]; exact h.clean b,
    by rw [hh]; exact h.cache, by rw [hf]; exact h.fault, ?_, ?_, fun q a => ?_⟩
  · rw [← h.fields r a b]
    unfold State.field State.load
    rw [hh, hc]
  · rw [← h.rams m a]
    cases m <;> simp only [State.ramOf, hh]
  · rw [hl]; exact h.lock
  · rw [hn]; exact h.snap
  · rw [State.ask_congr he q]; exact h.asks q a

/-- A poll whose environment says yes ends with true (R15): nothing changes, or the responder has answered. -/
theorem poll_true (hs : Alone c s) (r : Reg) {q : EnvQuery} (g : State → State) (hq : (s.ask q).1 = true) :
    poll r q g s = .ok true s ∨ poll r q g s = .ok true (g (s.ask q).2) := by
  unfold poll
  rw [Act.bind_of_ok (rd_quiet hs.1 r)]
  by_cases hb : (readReg s r).getLsbD 0 = true
  · rw [if_pos hb]; exact .inl rfl
  · rw [if_neg hb, Act.bind_of_ok (askEnv_apply _ _), hq]
    exact .inr rfl

/-! ## Steps 2 to 8 -/

theorem readReg_rw {r : Reg} (h : access r = .rw) (s : State) : readReg s r = s.field r := by
  cases r <;> first | rfl | cases h

/-- The snapshot holds the value of each listed register (R287). -/
theorem snapshotRegs_quiet (rs : List Reg) (h : ∀ r ∈ rs, access r = .rw) (hs : s.io.sched = []) :
    snapshotRegs rs s = .ok () (s.setSnap (s.seq.snap ++ rs.map (fun r => (r, s.field r)))) := by
  induction rs generalizing s with
  | nil => simp [snapshotRegs, State.setSnap]
  | cons r rs ih =>
    unfold snapshotRegs
    rw [Act.bind_of_ok (rd_quiet hs r), Act.modify_bind, readReg_rw (h r (by simp))]
    rw [ih (fun x hx => h x (by simp [hx])) (by exact hs)]
    simp [State.setSnap, State.field, State.load]

/-- The state steps 2 to 8 leave: everything but registers is as RSTDRAIN found it, the link is unregistered, the phase is
RESET and the snapshot is taken. -/
structure AtStepNine (c : Config) (l : Nat) (s t : State) : Prop where
  alone : Alone c t
  rams : ∀ m, t.ramOf m = s.ramOf m
  clean : t.hw.tagpoolClean = s.hw.tagpoolClean
  cache : t.hw.gangedCache = s.hw.gangedCache
  fault : t.fault = ((s.setRegistered l false).setPhase l .reset).fault
  lock : t.seq.lock = s.seq.lock
  snap : t.seq.snap = (snapList c l).map (fun r => (r, s.field r))
  asks : ∀ q, q ≠ .linkInReset l → q ≠ .rstseqAck l → (t.ask q).1 = (s.ask q).1

/-- Any quiet write leaves what is not a register. -/
theorem wr_rest (hs : Alone c s) {r : Reg} (hi : access r ≠ .indexed) (hq : ∀ v, stuckQuery r v = none) (v : Word) :
    ∃ t, wr r v s = .ok () t ∧ Ran c (fun _ => True) (fun _ => False) False (fun _ => False) s t := by
  refine ⟨_, wr_quiet hs.1 (hq v), ?_⟩
  obtain ⟨h1, h2, h3, h4⟩ := ((s.emit (.write r v)).applyWrite_hardwareOnly r v false).parts
  have h5 := applyWrite_storesOnly (s.emit (.write r v)) v false hi
  refine ⟨⟨by rw [h4]; exact hs.1, by rw [h1]; exact hs.2⟩, fun _ _ h => absurd trivial h, fun m _ => ?_, fun _ => ?_, ?_, ?_, ?_, ?_,
    fun q _ => State.ask_congr (by rw [h4]; rfl) q⟩
  · rw [h5.rams]; cases m <;> rfl
  · rw [h5.clean]; rfl
  · rw [h5.cache]; rfl
  · rw [h2]; rfl
  · rw [h3]; rfl
  · rw [h3]; rfl

theorem Ran.ask (hs : Alone c s) (q : EnvQuery) (hQ : Q q) : Ran c W M B Q s (s.ask q).2 :=
  have h := ask_storesOnly s q
  ⟨Alone.ask hs q, fun _ _ _ => State.ask_read_field _ _ _, fun m _ => h.rams m, fun _ => h.clean, h.cache, State.ask_fault _ _,
    by rw [State.ask_seq], by rw [State.ask_seq], fun p hp => State.ask_other _ (fun e => hp (by rw [e]; exact hQ))⟩

theorem stepQuiesce_ran (hs : Alone c s) (l : Nat) : ∃ t, stepQuiesce l s = .ok () t
    ∧ Ran c (fun _ => False) (fun _ => False) False (fun q => q = .linkInReset l) s t ∧ t.hw = s.hw := by
  unfold stepQuiesce
  have h1 : Ran c (fun _ => False) (fun _ => False) False (fun q => q = .linkInReset l) s (s.setRcvStep (some 3)) :=
    (Ran.refl hs).same rfl rfl rfl rfl rfl rfl rfl
  have h2 := h1.trans (Ran.ask h1.alone (.linkInReset l) rfl)
  rw [Act.bind_of_ok (setStep_apply _ _), Act.bind_of_ok (askEnv_apply _ _)]
  split
  · exact ⟨_, rfl, h2, State.ask_hw _ _⟩
  · rw [Act.bind_of_ok (extCall_quiet h2.alone.1 _ _)]
    exact ⟨_, extCall_quiet (by exact h2.alone.1) _ _, h2.same rfl rfl rfl rfl rfl rfl rfl, State.ask_hw _ _⟩

theorem ackRstseq_ran (hs : Alone c s) (l : Nat) : Ran c (fun _ => True) (fun _ => False) False Q s (s.ackRstseq l) := by
  unfold State.ackRstseq
  split
  · exact ⟨hs, fun _ _ h => absurd trivial h, fun m _ => by cases m <;> rfl, fun _ => rfl, rfl, rfl, rfl, rfl,
      fun q _ => State.ask_congr (by rfl) q⟩
  · exact Ran.refl hs

theorem finishRamInit_ran (hs : Alone c s) {l : Nat} (hf : fits (.ramInitStatus l) = true) :
    Ran c (fun r => r = .ramInitStatus l) (fun _ => False) True Q s (s.finishRamInit l) := by
  unfold State.finishRamInit
  split
  · refine ⟨hs, fun r hr h => ?_, fun m _ => by cases m <;> rfl, fun h => absurd trivial h, rfl, rfl, rfl, rfl,
      fun q _ => State.ask_congr (by rfl) q⟩
    rw [State.setRamInitPending_read_field, State.setTagpoolClean_read_field, State.store_field _ _ hf hr, if_neg h]
  · exact Ran.refl hs

theorem steps_two_to_eight (hw : configWf c = true) {l : Nat} (hl : l < c.nLink) (hs : Alone c s)
    (hack : (s.ask (.rstseqAck l)).1 = true) :
    ∃ t, (∀ (f : Bool → Act (LinkStatus × Nat)), (stepUnregister l >>= fun _ => stepQuiesce l >>= fun _ => stepSnapshot l >>= fun _ =>
        stepStop l >>= fun _ => stepMask l >>= fun _ => stepWarmReset l >>= fun _ => stepRstseq l >>= f) s = f true t)
      ∧ AtStepNine c l s t := by
  have hsnap : ∀ r ∈ snapList c l, access r = .rw := by
    have h := (configWf_parts hw).snapshots l hl
    simp only [snapWf, Bool.and_eq_true, List.all_eq_true, decide_eq_true_eq] at h
    exact fun r hr => (h.1.2 r hr).1
  -- step 2
  obtain ⟨a, ea⟩ : ∃ a, a = (((s.setRcvStep (some 2)).emit (.extCall .unregisterLink (some l))).setRegistered l false).setPhase l .reset := ⟨_, rfl⟩
  have e2 : stepUnregister l s = .ok () a := by
    unfold stepUnregister
    rw [Act.bind_of_ok (setStep_apply _ _), Act.bind_of_ok (extCall_quiet (by exact hs.1) _ _), ea]
    rfl
  have ha : Alone c a := by rw [ea]; exact hs
  -- step 3
  obtain ⟨b, e3, r3, h3⟩ := stepQuiesce_ran ha l
  -- step 4
  have e4 : stepSnapshot l b = .ok () (((b.setRcvStep (some 4)).setSnap []).setSnap ([] ++ (snapList c l).map (fun r => (r, b.field r)))) := by
    unfold stepSnapshot
    rw [Act.bind_of_ok (setStep_apply _ _), Act.modify_bind, Act.get_bind]
    have hc : ((b.setRcvStep (some 4)).setSnap []).cfg = c := r3.alone.2
    rw [hc, snapshotRegs_quiet _ hsnap (by exact r3.alone.1)]
    rfl
  obtain ⟨d, ed⟩ : ∃ d, d = ((b.setRcvStep (some 4)).setSnap []).setSnap ([] ++ (snapList c l).map (fun r => (r, b.field r))) := ⟨_, rfl⟩
  rw [← ed] at e4
  have hd : Alone c d := by rw [ed]; exact r3.alone
  have hfield : ∀ r, b.field r = s.field r := by
    intro r
    unfold State.field State.load
    rw [h3, r3.alone.2, hs.2, ea]
    rfl
  -- steps 5 to 8
  have hstep : ∀ (x : State) n, Alone c x → Ran c (fun _ => True) (fun _ => False) False (fun _ => False) x (x.setRcvStep (some n)) :=
    fun x n hx => (Ran.refl hx).same rfl rfl rfl rfl rfl rfl rfl
  obtain ⟨v5, e5, r5⟩ : ∃ t, stepStop l d = .ok () t ∧ Ran c (fun _ => True) (fun _ => False) False (fun _ => False) d t := by
    unfold stepStop
    rw [Act.bind_of_ok (setStep_apply _ _), Act.bind_of_ok (rd_quiet (by exact hd.1) _)]
    obtain ⟨x, e, rx⟩ := wr_rest (s := d.setRcvStep (some 5)) hd (r := .ctrlStop l) (by simp [access]) (fun _ => rfl) (readReg (d.setRcvStep (some 5)) (.ctrlStop l) ||| 0x3#32)
    rw [Act.bind_of_ok e]
    exact ⟨_, rfl, ((hstep d 5 hd).trans rx).same rfl rfl rfl rfl rfl rfl rfl⟩
  obtain ⟨v6, e6, r6⟩ : ∃ t, stepMask l v5 = .ok () t ∧ Ran c (fun _ => True) (fun _ => False) False (fun _ => False) v5 t := by
    unfold stepMask
    obtain ⟨x, e, rx⟩ := wr_rest (s := v5.setRcvStep (some 6)) r5.alone (r := .portIntrCtrl l) (by simp [access]) (fun _ => rfl) 0#32
    obtain ⟨y, e', ry⟩ := wr_rest rx.alone (r := .lmIntrCtrl l) (by simp [access]) (fun _ => rfl) 0#32
    rw [Act.bind_of_ok (setStep_apply _ _), Act.bind_of_ok e]
    exact ⟨y, e', ((hstep v5 6 r5.alone).trans rx).trans ry⟩
  obtain ⟨v7, e7, r7⟩ : ∃ t, stepWarmReset l v6 = .ok () t ∧ Ran c (fun _ => True) (fun _ => False) False (fun _ => False) v6 t := by
    unfold stepWarmReset
    rw [Act.bind_of_ok (setStep_apply _ _), Act.get_bind, Act.bind_of_ok (rd_quiet (by exact r6.alone.1) _)]
    obtain ⟨x, e, rx⟩ := wr_rest (s := v6.setRcvStep (some 7)) r6.alone (r := .warmReset (pg (v6.setRcvStep (some 7)).cfg l)) (by simp [access]) (fun _ => rfl)
      (readReg (v6.setRcvStep (some 7)) (.warmReset (pg (v6.setRcvStep (some 7)).cfg l)) ||| bit (pl (v6.setRcvStep (some 7)).cfg l))
    exact ⟨x, e, (hstep v6 7 r6.alone).trans rx⟩
  have hack7 : (v7.ask (.rstseqAck l)).1 = true := by
    rw [r7.asks _ id, r6.asks _ id, r5.asks _ id]
    have : (d.ask (.rstseqAck l)).1 = (b.ask (.rstseqAck l)).1 := State.ask_congr (by rw [ed]; rfl) _
    rw [this, r3.asks _ (by simp)]
    rw [← hack]
    exact State.ask_congr (by rw [ea]; rfl) _
  obtain ⟨v8, e8, r8⟩ : ∃ t, stepRstseq l v7 = .ok true t ∧ Ran c (fun _ => True) (fun _ => False) False (fun q => q = .rstseqAck l) v7 t := by
    unfold stepRstseq
    obtain ⟨x, e, rx⟩ := wr_rest (s := v7.setRcvStep (some 8)) r7.alone (r := .rstseqReq l) (by simp [access]) (fun _ => rfl) 1#32
    rw [Act.bind_of_ok (setStep_apply _ _), Act.bind_of_ok e]
    have rx' : Ran c (fun _ => True) (fun _ => False) False (fun q => q = .rstseqAck l) v7 x :=
      ((hstep v7 8 r7.alone).trans rx).mono (fun _ h => h) (fun _ h => h) id (fun _ h => absurd h id)
    have hq : (x.ask (.rstseqAck l)).1 = true := by
      rw [rx.asks _ id, ← hack7]
      exact State.ask_congr (by rfl) _
    rcases poll_true rx.alone (.rstseqStatus l) (fun s => s.ackRstseq l) hq with h | h
    · exact ⟨x, h, rx'⟩
    · exact ⟨_, h, (rx'.trans (Ran.ask rx'.alone _ rfl)).trans (ackRstseq_ran (Alone.ask rx'.alone _) l)⟩
  have r58 : Ran c (fun _ => True) (fun _ => False) False (fun q => q = .rstseqAck l) d v8 :=
    (((r5.trans r6).trans r7).mono (fun _ h => h) (fun _ h => h) id (fun _ h => absurd h id)).trans r8
  refine ⟨v8, fun f => ?_, ⟨r8.alone, fun m => ?_, ?_, ?_, ?_, ?_, ?_, fun q h1 h2 => ?_⟩⟩
  · rw [Act.bind_of_ok e2, Act.bind_of_ok e3, Act.bind_of_ok e4, Act.bind_of_ok e5, Act.bind_of_ok e6, Act.bind_of_ok e7, Act.bind_of_ok e8]
  · have hdb : d.ramOf m = b.ramOf m := by rw [ed]; cases m <;> rfl
    have hax : a.ramOf m = s.ramOf m := by rw [ea]; cases m <;> rfl
    rw [r58.rams m id, hdb, r3.rams m id, hax]
  · have hdb : d.hw = b.hw := by rw [ed]; rfl
    rw [r58.clean id, hdb, r3.clean id, ea]
    rfl
  · have hdb : d.hw = b.hw := by rw [ed]; rfl
    rw [r58.cache, hdb, r3.cache, ea]
    rfl
  · have hdb : d.fault = b.fault := by rw [ed]; rfl
    rw [r58.fault, hdb, r3.fault, ea]
    rfl
  · have hdb : d.seq.lock = b.seq.lock := by rw [ed]; rfl
    rw [r58.lock, hdb, r3.lock, ea]
    rfl
  · rw [r58.snap, ed]
    simp only [hfield, List.nil_append]
    rfl
  · rw [r58.asks q h2]
    have : (d.ask q).1 = (b.ask q).1 := State.ask_congr (by rw [ed]; rfl) _
    rw [this, r3.asks q h1]
    exact State.ask_congr (by rw [ea]; rfl) _

/-! ## RAM entries (R47, R51, R303, R306) -/

/-- The ADDR and DATA register of a RAM. -/
def ramAddr : Ram → Nat → Reg
  | .crumb, l => .crumbAddr l
  | .cam, l => .camAddr l
  | .ganged, l => .tblAddr l
def ramData : Ram → Nat → Reg
  | .crumb, l => .crumbData l
  | .cam, l => .camData l
  | .ganged, l => .tblData l

/-- What writing entries `is` of a RAM does. -/
structure Seeded (c : Config) (m : Ram) (l : Nat) (vals : Nat → Word) (is : List Nat) (s t : State) : Prop where
  ran : Ran c (fun r => r = ramAddr m l) (fun x => x = m) False (fun _ => False) s t
  pending : t.hw.ramInitPending = s.hw.ramInitPending
  entries : ∀ i, t.ramEntry m l i = if i ∈ is then vals i else s.ramEntry m l i
  others : ∀ l' i, l' ≠ l → i < 0x100000000 → t.ramEntry m l' i = s.ramEntry m l' i

theorem depth_le (hw : configWf c = true) (m : Ram) : ramDepth c m ≤ 0x100000000 := (configWf_sizes hw).rams m

/-- One entry: its index to ADDR, its value to DATA. -/
theorem wr_entry (hw : configWf c = true) (hs : Alone c s) (m : Ram) {l i : Nat} (hl : l < 4096) (hi : i < ramDepth c m) (v : Word) :
    ∃ t, (wr (ramAddr m l) (BitVec.ofNat 32 i) >>= fun _ => wr (ramData m l) v) s = .ok () t
      ∧ Seeded c m l (fun _ => v) [i] s t := by
  have hfit : fits (ramAddr m l) = true := by cases m <;> simpa [ramAddr, fits] using hl
  obtain ⟨x, e, rx, hx⟩ := wr_set hs hfit (fun v => by cases m <;> rfl) (by cases m <;> rfl) (fun t old new => by cases m <;> rfl) (BitVec.ofNat 32 i)
  have hxp : x.hw.ramInitPending = s.hw.ramInitPending := by
    rw [wr_store hs.1 (by cases m <;> rfl) (by cases m <;> rfl) (fun t old new => by cases m <;> rfl)] at e
    cases e
    rfl
  have hi32 : i < 2 ^ 32 := lt_of_lt_of_le hi (depth_le hw m)
  have hidx : (x.field (ramAddr m l)).toNat = i := by
    rw [hx]
    have : definedMask c (ramAddr m l) = BitVec.allOnes 32 := by cases m <;> rfl
    rw [this, BitVec.and_allOnes, BitVec.toNat_ofNat, Nat.mod_eq_of_lt hi32]
  have hap : ∀ y : State, y.applyWrite (ramData m l) v false = y.ramWrite m l (y.field (ramAddr m l)).toNat v := by
    intro y; cases m <;> rfl
  have hyq : stuckQuery (ramData m l) v = none := by cases m <;> rfl
  refine ⟨_, by rw [Act.bind_of_ok e]; exact wr_quiet rx.alone.1 hyq, ?_⟩
  rw [hap, State.emit_read_field, hidx]
  unfold State.ramWrite
  have hd : i < ramDepth (x.emit (.write (ramData m l) v)).cfg m := by
    have : (x.emit (.write (ramData m l) v)).cfg = c := rx.alone.2
    rw [this]; exact hi
  rw [ramIndex_of_lt hd]
  dsimp only
  have hemit : (x.emit (.write (ramData m l) v)).ramOf m = x.ramOf m := by cases m <;> rfl
  rw [hemit]
  have hset : ∀ (w : Memory Word), ((x.emit (.write (ramData m l) v)).setRam w m).ramOf m = w := by intro w; cases m <;> rfl
  have hkey : ∀ l' j, ramKey l' j = ramKey l i → j < 0x100000000 → l' = l ∧ j = i := by
    intro l' j h hj
    unfold ramKey at h
    omega
  have hent : ∀ l' j, ((x.emit (.write (ramData m l) v)).setRam ((x.ramOf m).set (fun _ => 0#32) (ramKey l i) v) m).ramEntry m l' j
      = if ramKey l' j = ramKey l i then v else s.ramEntry m l' j := by
    intro l' j
    unfold State.ramEntry
    rw [hset, Memory.get_set, rx.rams m id]
  refine ⟨⟨?_, fun r hr hne => ?_, fun y hy => ?_, fun _ => ?_, ?_, ?_, ?_, ?_, fun q _ => ?_⟩, ?_, fun j => ?_, fun l' j hne hj => ?_⟩
  · cases m <;> exact rx.alone
  · rw [← rx.fields r hr hne]
    cases m <;> rfl
  · rw [← rx.rams y id]
    cases m <;> cases y <;> first | rfl | exact absurd rfl hy
  · rw [← rx.clean id]; cases m <;> rfl
  · rw [← rx.cache]; cases m <;> rfl
  · rw [← rx.fault]; cases m <;> rfl
  · rw [← rx.lock]; cases m <;> rfl
  · rw [← rx.snap]; cases m <;> rfl
  · rw [← rx.asks q id]; exact State.ask_congr (by cases m <;> rfl) q
  · rw [← hxp]; cases m <;> rfl
  · rw [hent]
    by_cases hj : j = i
    · subst hj; simp
    · rw [if_neg (by unfold ramKey; omega), if_neg (by simpa using hj)]
  · rw [hent, if_neg (fun h => hne (hkey l' j h hj).1)]

theorem Seeded.nil (hs : Alone c s) (m : Ram) (l : Nat) (vals : Nat → Word) : Seeded c m l vals [] s s :=
  ⟨Ran.refl hs, rfl, fun _ => by simp, fun _ _ _ _ => rfl⟩

theorem Seeded.cons {m : Ram} {l i : Nat} {vals : Nat → Word} {is : List Nat} (h : Seeded c m l (fun _ => vals i) [i] s t)
    (k : Seeded c m l vals is t u) : Seeded c m l vals (i :: is) s u :=
  ⟨h.ran.trans k.ran, k.pending.trans h.pending, fun j => by
    rw [k.entries, h.entries]
    by_cases h1 : j ∈ is
    · simp [h1]
    · by_cases h2 : j = i
      · subst h2; simp
      · simp [h1, h2], fun l' j hne hj => (k.others l' j hne hj).trans (h.others l' j hne hj)⟩

theorem zeroRam_seeded (hw : configWf c = true) (m : Ram) {l : Nat} (hl : l < 4096) (is : List Nat) (hi : ∀ i ∈ is, i < ramDepth c m)
    (hs : Alone c s) : ∃ t, zeroRam (ramAddr m l) (ramData m l) is s = .ok () t ∧ Seeded c m l (fun _ => 0#32) is s t := by
  induction is generalizing s with
  | nil => exact ⟨s, rfl, Seeded.nil hs m l _⟩
  | cons i is ih =>
    obtain ⟨x, e, hx⟩ := wr_entry hw hs m hl (hi i (by simp)) 0#32
    obtain ⟨t, e2, ht⟩ := ih (fun j hj => hi j (by simp [hj])) hx.ran.alone
    refine ⟨t, ?_, Seeded.cons (vals := fun _ => 0#32) hx ht⟩
    unfold zeroRam
    rw [← Act.bind_assoc, Act.bind_of_ok e]
    exact e2

theorem seedGanged_seeded (hw : configWf c = true) {l : Nat} (hl : l < 4096) (is : List Nat) (hi : ∀ i ∈ is, i < c.gangedDepth)
    (hs : Alone c s) : ∃ t, seedGanged l is s = .ok () t
      ∧ Seeded c .ganged l (fun i => s.hw.gangedCache.getD i 0#32) is s t := by
  induction is generalizing s with
  | nil => exact ⟨s, rfl, Seeded.nil hs .ganged l _⟩
  | cons i is ih =>
    obtain ⟨x, e, hx⟩ := wr_entry hw hs .ganged hl (hi i (by simp)) (s.hw.gangedCache.getD i 0#32)
    obtain ⟨t, e2, ht⟩ := ih (fun j hj => hi j (by simp [hj])) hx.ran.alone
    rw [hx.ran.cache] at ht
    refine ⟨t, ?_, Seeded.cons (vals := fun i => s.hw.gangedCache.getD i 0#32) hx ht⟩
    unfold seedGanged
    obtain ⟨y, ey, ry⟩ := wr_rest hs (r := .tblAddr l) (by simp [access]) (fun _ => rfl) (BitVec.ofNat 32 i)
    have e' : (wr (.tblAddr l) (BitVec.ofNat 32 i) >>= fun _ => wr (.tblData l) (s.hw.gangedCache.getD i 0#32)) s = .ok () x := e
    rw [Act.bind_of_ok ey] at e'
    rw [Act.bind_of_ok ey, Act.get_bind, ry.cache, Act.bind_of_ok e']
    exact e2

/-! ## Lists of writes (R306, R307) -/

theorem portStatusRegs_access {l : Nat} {r : Reg} (h : r ∈ portStatusRegs c l) : access r = .w1c := by
  unfold portStatusRegs at h
  obtain ⟨k, -, hr⟩ := List.mem_flatMap.mp h
  simp only [List.mem_cons, List.not_mem_nil, or_false] at hr
  rcases hr with rfl | rfl <;> rfl

theorem portStatusRegs_mem {l : Nat} {r : Reg} (h : r ∈ portStatusRegs c l) :
    ∃ k, r = .node k l .errStatus ∨ r = .node k l .errFirst := by
  unfold portStatusRegs at h
  obtain ⟨k, -, hr⟩ := List.mem_flatMap.mp h
  simp only [List.mem_cons, List.not_mem_nil, or_false] at hr
  exact ⟨k, hr⟩

/-- No write of an RW register changes another RW register, WARM_RESET apart. -/
theorem rw_foot {r r' : Reg} (hr : access r = .rw) (hr' : access r' = .rw) (h : r ∈ writeFoot c r') : r = r' := by
  have key : ∀ q, r ∈ [q] → r = q := fun q hq => by simpa using hq
  cases r' with
  | debugClear l =>
    rcases List.mem_cons.mp h with h | h
    · exact h
    · rw [portStatusRegs_access h] at hr; cases hr
  | rstseqReq l =>
    rcases List.mem_cons.mp h with h | h
    · exact h
    · have := key _ h; subst this; cases hr
  | tagpoolInit l => cases hr'
  | ringCmd => cases hr'
  | _ => exact key _ h

/-- What an RW register holds after it was written (R151). -/
theorem applyWrite_value (hw : configWf c = true) (hc : s.cfg = c) {r : Reg} (hr : fits r = true) (ha : access r = .rw)
    (hn : ∀ g, r ≠ .warmReset g) (v : Word) (b : Bool) : (s.applyWrite r v b).field r = v &&& definedMask c r := by
  have hst : ∀ (x : State), x.cfg = c → (x.store r (v &&& definedMask c r)).field r = v &&& definedMask c r := by
    intro x hx
    rw [State.store_field_same, hx, BitVec.and_assoc, BitVec.and_self]
  unfold State.applyWrite
  rw [ha]
  simp only [hc]
  unfold State.rwEffect
  split
  · rename_i l
    split
    · rw [zeroRegs_field _ _ hr, if_neg, hst s hc]
      · intro h; have := portStatusRegs_access h; cases this
      · intro x hx; rw [State.store_cfg, hc] at hx; exact portStatusRegs_fits hw hx
    · exact hst s hc
  · rename_i g; exact absurd rfl (hn g)
  · rename_i l
    split
    · have hf : fits (.rstseqStatus l) = true := hr
      rw [State.setRstseqPending_read_field, State.store_field _ _ hf hr, if_neg (by simp), hst s hc]
    · exact hst s hc
  · exact hst s hc

/-- RW registers that a list of writes may hold. -/
def Plain (ws : List (Reg × Word)) : Prop :=
  (∀ w ∈ ws, fits w.1 = true ∧ access w.1 = .rw ∧ ∀ g, w.1 ≠ .warmReset g) ∧ ∀ w ∈ ws, ∀ w' ∈ ws, w.1 = w'.1 → w.2 = w'.2

theorem wrAll_ran (hw : configWf c = true) (ws : List (Reg × Word)) (h : Plain ws) (hs : Alone c s) :
    ∃ t, wrAll ws s = .ok () t
      ∧ Ran c (fun x => ∃ w ∈ ws, x ∈ writeFoot c w.1) (fun _ => False) False (fun _ => False) s t
      ∧ (∀ w ∈ ws, t.field w.1 = w.2 &&& definedMask c w.1) ∧ t.hw.ramInitPending = s.hw.ramInitPending := by
  induction ws generalizing s with
  | nil => exact ⟨s, rfl, Ran.refl hs, by simp, rfl⟩
  | cons w ws ih =>
    obtain ⟨hf, ha, hn⟩ := h.1 w (by simp)
    have hq : stuckQuery w.1 w.2 = none := by
      cases hr : w.1 <;> first | rfl | (rw [hr] at ha; cases ha)
    obtain ⟨x, e, rx⟩ := wr_ran hw hs hf hn (by rw [ha]; simp) w.2
    have hx : x.field w.1 = w.2 &&& definedMask c w.1 ∧ x.hw.ramInitPending = s.hw.ramInitPending := by
      rw [wr_quiet hs.1 hq] at e
      cases e
      refine ⟨applyWrite_value (s := s.emit (.write w.1 w.2)) hw hs.2 hf ha hn w.2 false, ?_⟩
      unfold State.applyWrite
      rw [ha]
      simp only []
      have hz : ∀ (y : State) (rs : List Reg), (y.zeroRegs rs).hw.ramInitPending = y.hw.ramInitPending := by
        intro y rs
        induction rs generalizing y with
        | nil => rfl
        | cons r rs ih => exact ih _
      unfold State.rwEffect
      split
      · split
        · rw [hz]; rfl
        · rfl
      · rename_i g hg; exact absurd hg (hn g)
      · split <;> rfl
      · rfl
    obtain ⟨t, e2, rt, hv, hp⟩ := ih ⟨fun y hy => h.1 y (by simp [hy]), fun y hy z hz => h.2 y (by simp [hy]) z (by simp [hz])⟩ rx.alone
    refine ⟨t, ?_, ?_, ?_, hp.trans hx.2⟩
    · obtain ⟨r, v⟩ := w
      unfold wrAll
      rw [Act.bind_of_ok e]
      exact e2
    · refine (rx.mono (fun y hy => ⟨w, by simp, hy⟩) (fun _ h => h) id (fun q hq' => ?_)).trans
        (rt.mono (fun y ⟨z, hz, hy⟩ => ⟨z, by simp [hz], hy⟩) (fun _ h => h) id (fun _ h => h))
      rw [hq] at hq'; cases hq'
    · intro y hy
      rcases List.mem_cons.mp hy with rfl | hy
      · by_cases hin : ∃ z ∈ ws, z.1 = y.1
        · obtain ⟨z, hz, hzy⟩ := hin
          rw [← hzy, hv z hz, h.2 z (by simp [hz]) y (by simp) hzy]
        · rw [rt.fields _ hf, hx.1]
          rintro ⟨z, hz, hzf⟩
          have h1 := h.1 z (by simp [hz])
          exact hin ⟨z, hz, (rw_foot ha h1.2.1 hzf).symm⟩
      · exact hv y hy

/-! ## Steps 9 to 14 -/

theorem Ran.step (hs : Alone c s) (n : Nat) : Ran c W M B Q s (s.setRcvStep (some n)) :=
  (Ran.refl hs).same rfl rfl rfl rfl rfl rfl rfl

theorem stepDeassert_ran (hs : Alone c s) (l : Nat) : ∃ t, stepDeassert l s = .ok () t
    ∧ Ran c (fun _ => True) (fun _ => False) False (fun _ => False) s t := by
  unfold stepDeassert
  rw [Act.bind_of_ok (setStep_apply _ _), Act.get_bind, Act.bind_of_ok (rd_quiet (by exact hs.1) _)]
  obtain ⟨x, ex, rx⟩ := wr_rest (s := s.setRcvStep (some 9)) hs (r := .warmReset (pg (s.setRcvStep (some 9)).cfg l)) (by simp [access]) (fun _ => rfl)
    (readReg (s.setRcvStep (some 9)) (.warmReset (pg (s.setRcvStep (some 9)).cfg l)) &&& ~~~bit (pl (s.setRcvStep (some 9)).cfg l))
  obtain ⟨y, ey, ry⟩ := wr_rest rx.alone (r := .debugClear l) (by simp [access]) (fun _ => rfl) 1#32
  obtain ⟨z, ez, rz⟩ := wr_rest ry.alone (r := .debugClear l) (by simp [access]) (fun _ => rfl) 0#32
  rw [Act.bind_of_ok ex, Act.bind_of_ok ey]
  exact ⟨z, ez, (((Ran.step hs 9).trans rx).trans ry).trans rz⟩

/-- The latch is cleared where it is not stuck (R301, R302). -/
theorem stepContain_ran (hs : Alone c s) {l : Nat} (hstuck : (s.ask (.containStuck l)).1 = false) :
    ∃ t, stepContain l s = .ok true t ∧ Ran c (fun _ => True) (fun _ => False) False (fun q => q = .containStuck l) s t
      ∧ (t.field (.containLatch l)).getLsbD 0 = false := by
  unfold stepContain
  have h0 : Alone c (s.setRcvStep (some 10)) := hs
  obtain ⟨x, ex⟩ : ∃ x, x = ((s.setRcvStep (some 10)).emit (.write (.containLatch l) 1#32)) := ⟨_, rfl⟩
  have rx : Ran c (fun _ => True) (fun _ => False) False (fun q => q = .containStuck l) s x := by
    rw [ex]; exact (Ran.refl hs).same rfl rfl rfl rfl rfl rfl rfl
  have hx : (x.ask (.containStuck l)).1 = false := by
    rw [← hstuck]; exact State.ask_congr (by rw [ex]; rfl) _
  have hw : wr (.containLatch l) 1#32 (s.setRcvStep (some 10))
      = .ok () ((x.ask (.containStuck l)).2.store (.containLatch l) ((x.ask (.containStuck l)).2.field (.containLatch l) &&& ~~~1#32)) := by
    unfold wr
    rw [Act.bind_of_ok (tick_quiet h0.1), writeReg_apply, ← ex]
    have hq : stuckQuery (.containLatch l) 1#32 = some (.containStuck l) := rfl
    rw [hq]
    simp only [hx]
    rfl
  have hbit : ∀ (y : State) (w : Word), ((y.store (.containLatch l) (w &&& ~~~1#32)).field (.containLatch l)).getLsbD 0 = false := by
    intro y w
    rw [State.store_field_same]
    simp
  have ra := rx.trans (Ran.ask rx.alone (.containStuck l) rfl)
  refine ⟨(x.ask (.containStuck l)).2.store (.containLatch l) ((x.ask (.containStuck l)).2.field (.containLatch l) &&& ~~~1#32), ?_, ?_, hbit _ _⟩
  · rw [Act.bind_of_ok (setStep_apply _ _), Act.bind_of_ok hw, Act.bind_of_ok (rd_quiet (by exact ra.alone.1) _)]
    have hrd : ∀ y : State, readReg y (.containLatch l) = y.field (.containLatch l) := fun _ => rfl
    rw [hrd, hbit]
    rfl
  · have rs : Ran c (fun _ => True) (fun _ => False) False (fun q => q = .containStuck l) (x.ask (.containStuck l)).2
        ((x.ask (.containStuck l)).2.store (.containLatch l) ((x.ask (.containStuck l)).2.field (.containLatch l) &&& ~~~1#32)) :=
      ⟨ra.alone, fun _ _ h => absurd trivial h, fun m _ => by cases m <;> rfl, fun _ => rfl, rfl, rfl, rfl, rfl, fun q _ => State.ask_congr (by rfl) q⟩
    exact ra.trans rs

/-- The RAMs are re-initialised (R303). -/
theorem stepRams_ran (hw : configWf c = true) (hs : Alone c s) {l : Nat} (hl : l < 4096) (hdone : (s.ask (.raminitDone l)).1 = true) :
    ∃ t, stepRams l s = .ok true t
      ∧ Ran c (fun r => r = .ramInitStatus l ∨ r = .crumbAddr l ∨ r = .camAddr l) (fun m => m ≠ .ganged) True (fun q => q = .raminitDone l) s t
      ∧ (∀ i, i < c.crumbDepth → t.ramEntry .crumb l i = 0#32) ∧ (∀ i, i < c.camDepth → t.ramEntry .cam l i = 0#32)
      ∧ (∀ m l' i, l' ≠ l → i < 0x100000000 → t.ramEntry m l' i = s.ramEntry m l' i) ∧ t.tagpoolClean l = true := by
  have hfit : fits (.ramInitStatus l) = true := by simpa [fits] using hl
  have hfitT : fits (.tagpoolInit l) = true := by simpa [fits] using hl
  -- the request
  obtain ⟨a, ea⟩ : ∃ a, a = (((s.setRcvStep (some 11)).emit (.write (.tagpoolInit l) 1#32)).store (.ramInitStatus l) 0#32).setRamInitPending l true := ⟨_, rfl⟩
  have ewr : wr (.tagpoolInit l) 1#32 (s.setRcvStep (some 11)) = .ok () a := by
    rw [wr_quiet (by exact hs.1) rfl, ea]
    rfl
  have ra : Ran c (fun r => r = .ramInitStatus l) (fun _ => False) False (fun _ => False) s a := by
    rw [ea]
    refine ⟨hs, fun r hr hne => ?_, fun m _ => by cases m <;> rfl, fun _ => rfl, rfl, rfl, rfl, rfl, fun q _ => State.ask_congr (by rfl) q⟩
    rw [State.setRamInitPending_read_field, State.store_field _ _ hfit hr, if_neg hne]
    rfl
  have hpa : a.ramInitPending l = true := by
    rw [ea]
    have h : ∀ y : State, (y.setRamInitPending l true).ramInitPending l = true := fun y =>
      Memory.get_set_same (fun _ => false) y.hw.ramInitPending l true
    exact h _
  have hza : a.field (.ramInitStatus l) = 0#32 := by
    rw [ea, State.setRamInitPending_read_field, State.store_field_same]
    exact BitVec.zero_and
  -- the two zeroings
  obtain ⟨b, eb, sb⟩ := zeroRam_seeded hw .crumb hl (List.range c.crumbDepth) (fun i hi => List.mem_range.mp hi) ra.alone
  obtain ⟨d, ed, sd⟩ := zeroRam_seeded hw .cam hl (List.range c.camDepth) (fun i hi => List.mem_range.mp hi) sb.ran.alone
  have hpd : d.ramInitPending l = true := by
    rw [← hpa]
    unfold State.ramInitPending
    rw [sd.pending, sb.pending]
  have hzd : d.field (.ramInitStatus l) = 0#32 := by
    rw [sd.ran.fields _ hfit (by simp [ramAddr]), sb.ran.fields _ hfit (by simp [ramAddr]), hza]
  have hqd : (d.ask (.raminitDone l)).1 = true := by
    rw [sd.ran.asks _ id, sb.ran.asks _ id, ra.asks _ id, hdone]
  -- the poll
  obtain ⟨e, he⟩ : ∃ e, e = (d.ask (.raminitDone l)).2.finishRamInit l := ⟨_, rfl⟩
  have epoll : poll (.ramInitStatus l) (.raminitDone l) (fun s => s.finishRamInit l) d = .ok true e := by
    unfold poll
    have hrd : (readReg d (.ramInitStatus l)).getLsbD 0 = false := by
      have : readReg d (.ramInitStatus l) = d.field (.ramInitStatus l) := rfl
      rw [this, hzd]; rfl
    rw [Act.bind_of_ok (rd_quiet sd.ran.alone.1 _), if_neg (by rw [hrd]; simp), Act.bind_of_ok (askEnv_apply _ _), hqd, he]
    rfl
  have hask : Alone c (d.ask (.raminitDone l)).2 := Alone.ask sd.ran.alone _
  have re : Ran c (fun r => r = .ramInitStatus l) (fun _ => False) True (fun q => q = .raminitDone l) d e := by
    rw [he]
    exact (Ran.ask (Q := fun q => q = .raminitDone l) sd.ran.alone _ rfl).trans (finishRamInit_ran hask hfit)
  have hclean : e.tagpoolClean l = true := by
    have hp : (d.ask (.raminitDone l)).2.ramInitPending l = true := by
      unfold State.ramInitPending; rw [State.ask_hw]; exact hpd
    rw [he]
    unfold State.finishRamInit
    rw [if_pos hp]
    have h : ∀ y : State, ((y.setTagpoolClean l true).setRamInitPending l false).tagpoolClean l = true := fun y =>
      Memory.get_set_same (fun _ => false) y.hw.tagpoolClean l true
    exact h _
  have hentry : ∀ m l' i, e.ramEntry m l' i = d.ramEntry m l' i := fun m l' i => by
    unfold State.ramEntry; rw [re.rams m id]
  have hda : ∀ l' i, d.ramEntry .crumb l' i = b.ramEntry .crumb l' i := fun l' i => by
    unfold State.ramEntry; rw [sd.ran.rams .crumb (by simp)]
  have hba : ∀ l' i, b.ramEntry .cam l' i = a.ramEntry .cam l' i := fun l' i => by
    unfold State.ramEntry; rw [sb.ran.rams .cam (by simp)]
  have has : ∀ m l' i, a.ramEntry m l' i = s.ramEntry m l' i := fun m l' i => by
    unfold State.ramEntry; rw [ra.rams m id]
  refine ⟨e, ?_, ?_, fun i hi => ?_, fun i hi => ?_, fun m l' i hne hi => ?_, hclean⟩
  · unfold stepRams
    have hca : a.cfg = c := ra.alone.2
    have hcb : b.cfg = c := sb.ran.alone.2
    rw [Act.bind_of_ok (setStep_apply _ _), Act.bind_of_ok ewr, Act.get_bind, hca]
    rw [Act.bind_of_ok (show zeroRam (.crumbAddr l) (.crumbData l) (List.range c.crumbDepth) a = .ok () b from eb), Act.get_bind, hcb]
    rw [Act.bind_of_ok (show zeroRam (.camAddr l) (.camData l) (List.range c.camDepth) b = .ok () d from ed)]
    exact epoll
  · refine (((ra.mono (fun _ h => .inl h) (fun _ h => absurd h id) (fun h => absurd h id) (fun _ h => absurd h id)).trans
      (sb.ran.mono (fun _ h => .inr (.inl h)) (fun _ h => by rw [h]; simp) (fun h => absurd h id) (fun _ h => absurd h id))).trans
      (sd.ran.mono (fun _ h => .inr (.inr h)) (fun _ h => by rw [h]; simp) (fun h => absurd h id) (fun _ h => absurd h id))).trans
      (re.mono (fun _ h => .inl h) (fun _ h => absurd h id) id (fun _ h => h))
  · rw [hentry, hda, sb.entries, if_pos (List.mem_range.mpr hi)]
  · rw [hentry, sd.entries, if_pos (List.mem_range.mpr hi)]
  · rw [hentry]
    cases m with
    | crumb => rw [hda, sb.others l' i hne hi, has]
    | cam => rw [sd.others l' i hne hi, hba, has]
    | ganged =>
      have h1 : d.ramEntry .ganged l' i = b.ramEntry .ganged l' i := by unfold State.ramEntry; rw [sd.ran.rams .ganged (by simp)]
      have h2 : b.ramEntry .ganged l' i = a.ramEntry .ganged l' i := by unfold State.ramEntry; rw [sb.ran.rams .ganged (by simp)]
      rw [h1, h2, has]

/-- A link that passes Validate (R283) and the configuration's promises about it. -/
structure Sound (c : Config) (l : Nat) : Prop where
  wf : configWf c = true
  link : l < c.nLink
  enabled : linkEnabled c l = true
  nodes : ∀ k ∈ linkKinds, nodeExists c k l = true

theorem Sound.lt {l : Nat} (h : Sound c l) : l < 4096 := by
  exact lt_of_lt_of_le h.link (configWf_sizes h.wf).links.2

theorem Sound.snap {l : Nat} (h : Sound c l) {r : Reg} (hr : r ∈ snapList c l) :
    fits r = true ∧ access r = .rw ∧ regOfLink l r = true := by
  have hsn := (configWf_parts h.wf).snapshots l h.link
  simp only [snapWf, Bool.and_eq_true, List.all_eq_true, decide_eq_true_eq, Bool.or_eq_true, Bool.not_eq_true'] at hsn
  have hm : mapped c r = true := by
    rcases hsn.2 with hx | hx
    · exfalso
      have : (linkEnabled c l && linkKinds.all fun k => nodeExists c k l) = true := by
        rw [h.enabled, Bool.true_and, List.all_eq_true]
        exact h.nodes
      rw [this] at hx
      cases hx
    · exact hx r hr
  exact ⟨mapped_fits h.wf hm, hsn.1.2 r hr⟩

theorem Sound.plain {l : Nat} (h : Sound c l) (f : Reg → Word) : Plain ((snapList c l).map (fun r => (r, f r))) := by
  constructor
  · intro w hw
    obtain ⟨r, hr, rfl⟩ := List.mem_map.mp hw
    obtain ⟨h1, h2, h3⟩ := h.snap hr
    exact ⟨h1, h2, fun g hg => by simp only [] at hg; subst hg; cases h3⟩
  · intro w hw w' hw' heq
    obtain ⟨r, -, rfl⟩ := List.mem_map.mp hw
    obtain ⟨r', -, rfl⟩ := List.mem_map.mp hw'
    simp only [] at heq ⊢
    rw [heq]

/-- Step 12 (R306). -/
theorem stepRestore_ran {l : Nat} (hl : Sound c l) (hs : Alone c s) {f : Reg → Word}
    (hsnap : s.seq.snap = (snapList c l).map (fun r => (r, f r))) :
    ∃ t, stepRestore l s = .ok () t ∧ Alone c t
      ∧ (∀ r, fits r = true → (∀ r' ∈ snapList c l, r ∉ writeFoot c r') → r ≠ .tblAddr l → t.field r = s.field r)
      ∧ (∀ r ∈ snapList c l, r ≠ .tblAddr l → t.field r = f r &&& definedMask c r)
      ∧ (∀ i, i < c.gangedDepth → t.ramEntry .ganged l i = s.hw.gangedCache.getD i 0#32)
      ∧ (∀ m, m ≠ .ganged → t.ramOf m = s.ramOf m)
      ∧ (∀ m l' i, l' ≠ l → i < 0x100000000 → t.ramEntry m l' i = s.ramEntry m l' i)
      ∧ t.hw.tagpoolClean = s.hw.tagpoolClean ∧ t.fault = (s.setPhase l .restored).fault ∧ t.seq.lock = s.seq.lock
      ∧ (∀ q, (t.ask q).1 = (s.ask q).1) := by
  have hfT : fits (.tblAddr l) = true := by simpa [fits] using hl.lt
  obtain ⟨a, ea, ra, va, -⟩ := wrAll_ran hl.wf _ (hl.plain f) (s := s.setRcvStep (some 12)) hs
  obtain ⟨b, eb, sb⟩ := seedGanged_seeded hl.wf hl.lt (List.range c.gangedDepth) (fun i hi => List.mem_range.mp hi) ra.alone
  have hfoot : ∀ r, (∀ r' ∈ snapList c l, r ∉ writeFoot c r') →
      ¬ ∃ w ∈ (snapList c l).map (fun r => (r, f r)), r ∈ writeFoot c w.1 := by
    rintro r h ⟨w, hw, hr⟩
    obtain ⟨r', hr', rfl⟩ := List.mem_map.mp hw
    exact h r' hr' hr
  have hram : ∀ m, a.ramOf m = s.ramOf m := fun m => by rw [ra.rams m id]; cases m <;> rfl
  refine ⟨(b.setSnap []).setPhase l .restored, ?_, sb.ran.alone, fun r hr hnot hT => ?_, fun r hr hT => ?_, fun i hi => ?_, fun m hm => ?_,
    fun m l' i hne hi => ?_, ?_, ?_, ?_, fun q => ?_⟩
  · unfold stepRestore
    have h1 : (s.setRcvStep (some 12)).seq.snap = (snapList c l).map (fun r => (r, f r)) := hsnap
    have hac : a.cfg = c := ra.alone.2
    rw [Act.bind_of_ok (setStep_apply _ _), Act.get_bind, h1, Act.bind_of_ok ea, Act.get_bind, hac, Act.bind_of_ok eb]
    rfl
  · have h1 : ((b.setSnap []).setPhase l .restored).field r = b.field r := rfl
    rw [h1, sb.ran.fields r hr (by simpa [ramAddr] using hT), ra.fields r hr (hfoot r hnot)]
    rfl
  · obtain ⟨hf, -, -⟩ := hl.snap hr
    have h1 : ((b.setSnap []).setPhase l .restored).field r = b.field r := rfl
    rw [h1, sb.ran.fields r hf (by simpa [ramAddr] using hT)]
    exact va (r, f r) (List.mem_map_of_mem (f := fun r => (r, f r)) hr)
  · have h1 : ((b.setSnap []).setPhase l .restored).ramEntry .ganged l i = b.ramEntry .ganged l i := rfl
    rw [h1, sb.entries, if_pos (List.mem_range.mpr hi), ra.cache]
    rfl
  · have h1 : ((b.setSnap []).setPhase l .restored).ramOf m = b.ramOf m := by cases m <;> rfl
    rw [h1, sb.ran.rams m hm, hram]
  · have h1 : ((b.setSnap []).setPhase l .restored).ramEntry m l' i = b.ramEntry m l' i := by cases m <;> rfl
    have h2 : a.ramEntry m l' i = s.ramEntry m l' i := by unfold State.ramEntry; rw [hram]
    rw [h1, ← h2]
    cases m with
    | ganged => exact sb.others l' i hne hi
    | crumb => unfold State.ramEntry; rw [sb.ran.rams .crumb (by simp)]
    | cam => unfold State.ramEntry; rw [sb.ran.rams .cam (by simp)]
  · have h1 : ((b.setSnap []).setPhase l .restored).hw = b.hw := rfl
    rw [h1, sb.ran.clean id, ra.clean id]
    rfl
  · have h1 : b.fault = s.fault := by rw [sb.ran.fault, ra.fault]; rfl
    unfold State.setPhase
    simp only [State.setSnap, h1]
  · have h1 : ((b.setSnap []).setPhase l .restored).seq.lock = b.seq.lock := rfl
    rw [h1, sb.ran.lock, ra.lock]
    rfl
  · have h1 : (((b.setSnap []).setPhase l .restored).ask q).1 = (b.ask q).1 := State.ask_congr (by rfl) q
    rw [h1, sb.ran.asks q id, ra.asks q id]
    exact State.ask_congr (by rfl) q

theorem linkKinds_ne {k : Kind} (h : k ∈ linkKinds) : k ≠ .mctrl ∧ hasFullSet k = true := by
  have key : ∀ k ∈ linkKinds, k ≠ .mctrl ∧ hasFullSet k = true := by decide
  exact key k h

theorem rearmWrites_mem {l : Nat} {w : Reg × Word} (h : w ∈ rearmWrites c l) :
    ∃ k ∈ linkKinds, ∃ t, w = (.node k l (.reportEn t), enStd c k t) := by
  unfold rearmWrites at h
  obtain ⟨k, hk, h⟩ := List.mem_flatMap.mp h
  obtain ⟨t, -, rfl⟩ := List.mem_map.mp h
  exact ⟨k, hk, t, rfl⟩

theorem rearmWrites_plain {l : Nat} (hl : l < 4096) : Plain (rearmWrites c l) := by
  constructor
  · intro w hw
    obtain ⟨k, hk, t, rfl⟩ := rearmWrites_mem hw
    exact ⟨by simp [fits, nodeFits, (linkKinds_ne hk).1, hl], rfl, by simp⟩
  · intro w hw w' hw' h
    obtain ⟨k, hk, t, rfl⟩ := rearmWrites_mem hw
    obtain ⟨k', hk', t', rfl⟩ := rearmWrites_mem hw'
    simp only [Reg.node.injEq, NodeReg.reportEn.injEq, true_and] at h
    obtain ⟨rfl, rfl⟩ := h
    rfl

/-- Step 13 (R307). -/
theorem stepRearm_ran {l : Nat} (hl : Sound c l) (hs : Alone c s) :
    ∃ t, stepRearm l s = .ok () t ∧ Alone c t
      ∧ (∀ r, fits r = true → r ≠ .portIntrCtrl l → r ≠ .lmIntrCtrl l → r ≠ .scratchPort (l / 32)
          → (∀ k ∈ linkKinds, ∀ t, r ≠ .node k l (.reportEn t)) → t.field r = s.field r)
      ∧ (∀ k ∈ linkKinds, ∀ tr, t.field (.node k l (.reportEn tr)) = enStd c k tr)
      ∧ t.field (.portIntrCtrl l) = c.gateStd &&& 0x7#32 ∧ t.field (.lmIntrCtrl l) = c.gateStd &&& 0x7#32
      ∧ (t.field (.scratchPort (l / 32))).getLsbD (l % 32) = false
      ∧ (∀ m, t.ramOf m = s.ramOf m) ∧ t.hw.tagpoolClean = s.hw.tagpoolClean
      ∧ t.fault = ((s.setFatalOccurred l false).setPhase l .rearmed).fault ∧ t.seq.lock = s.seq.lock
      ∧ (∀ q, (t.ask q).1 = (s.ask q).1) := by
  have hlt := hl.lt
  have hfP : fits (.portIntrCtrl l) = true := by simpa [fits] using hlt
  have hfL : fits (.lmIntrCtrl l) = true := by simpa [fits] using hlt
  have hfS : fits (.scratchPort (l / 32)) = true := by simp only [fits, decide_eq_true_eq]; omega
  have hfN : ∀ k ∈ linkKinds, ∀ t, fits (.node k l (.reportEn t)) = true := fun k hk t => by
    simp [fits, nodeFits, (linkKinds_ne hk).1, hlt]
  obtain ⟨a, ea, ra, va, -⟩ := wrAll_ran hl.wf _ (rearmWrites_plain (c := c) hlt) (s := s.setRcvStep (some 13)) hs
  obtain ⟨b, eb, rb, vb⟩ := wr_set ra.alone hfP (fun _ => rfl) rfl (fun _ _ _ => rfl) c.gateStd
  obtain ⟨d, ed, rd', vd⟩ := wr_set rb.alone hfL (fun _ => rfl) rfl (fun _ _ _ => rfl) c.gateStd
  have hd' : Alone c (d.setFatalOccurred l false) := rd'.alone
  obtain ⟨e, ee, re, ve⟩ := wr_set hd' hfS (fun _ => rfl) rfl (fun _ _ _ => rfl)
    (readReg (d.setFatalOccurred l false) (.scratchPort (l / 32)) &&& ~~~bit (l % 32))
  have hfoot : ∀ r, (∀ k ∈ linkKinds, ∀ t, r ≠ .node k l (.reportEn t)) → ¬ ∃ w ∈ rearmWrites c l, r ∈ writeFoot c w.1 := by
    rintro r h ⟨w, hw, hr⟩
    obtain ⟨k, hk, t, rfl⟩ := rearmWrites_mem hw
    simp only [writeFoot, List.mem_singleton] at hr
    exact h k hk t hr
  have hen : ∀ k ∈ linkKinds, ∀ t, a.field (.node k l (.reportEn t)) = enStd c k t := by
    intro k hk t
    have hmem : (Reg.node k l (.reportEn t), enStd c k t) ∈ rearmWrites c l := by
      unfold rearmWrites
      exact List.mem_flatMap.mpr ⟨k, hk, List.mem_map.mpr ⟨t, by cases t <;> simp [allTrees], rfl⟩⟩
    have := va _ hmem
    simp only [definedMask, BitVec.and_allOnes] at this
    exact this
  have hfin : ∀ r, (e.setPhase l .rearmed).field r = e.field r := fun _ => rfl
  have hdf : ∀ r, (d.setFatalOccurred l false).field r = d.field r := fun _ => rfl
  have hchain : ∀ r, fits r = true → r ≠ .portIntrCtrl l → r ≠ .lmIntrCtrl l → r ≠ .scratchPort (l / 32) → e.field r = a.field r := by
    intro r hr h1 h2 h3
    rw [re.fields r hr h3, hdf, rd'.fields r hr h2, rb.fields r hr h1]
  refine ⟨e.setPhase l .rearmed, ?_, re.alone, fun r hr h1 h2 h3 h4 => ?_, fun k hk tr => ?_, ?_, ?_, ?_, fun m => ?_, ?_, ?_, ?_, fun q => ?_⟩
  · unfold stepRearm
    have hc0 : (s.setRcvStep (some 13)).cfg = c := hs.2
    have hca : a.cfg = c := ra.alone.2
    have hcb : b.cfg = c := rb.alone.2
    rw [Act.bind_of_ok (setStep_apply _ _), Act.get_bind, hc0, Act.bind_of_ok ea, Act.get_bind, hca, Act.bind_of_ok eb, Act.get_bind, hcb,
      Act.bind_of_ok ed, Act.modify_bind, Act.bind_of_ok (rd_quiet hd'.1 _), Act.bind_of_ok ee]
    rfl
  · rw [hfin, hchain r hr h1 h2 h3, ra.fields r hr (hfoot r h4)]
    rfl
  · rw [hfin, hchain _ (hfN k hk tr) (by simp) (by simp) (by simp), hen k hk tr]
  · rw [hfin, re.fields _ hfP (by simp), hdf, rd'.fields _ hfP (by simp), vb]
    rfl
  · rw [hfin, re.fields _ hfL (by simp), hdf, vd]
    rfl
  · rw [hfin, ve]
    simp only [definedMask, BitVec.and_allOnes]
    rw [getLsbD_and_not_bit]
    simp
  · have h1 : (e.setPhase l .rearmed).ramOf m = e.ramOf m := by cases m <;> rfl
    have h2 : (d.setFatalOccurred l false).ramOf m = d.ramOf m := by cases m <;> rfl
    have h3 : (s.setRcvStep (some 13)).ramOf m = s.ramOf m := by cases m <;> rfl
    rw [h1, re.rams m id, h2, rd'.rams m id, rb.rams m id, ra.rams m id, h3]
  · have h1 : (e.setPhase l .rearmed).hw = e.hw := rfl
    have h2 : (d.setFatalOccurred l false).hw = d.hw := rfl
    rw [h1, re.clean id, h2, rd'.clean id, rb.clean id, ra.clean id]
    rfl
  · have h1 : d.fault = s.fault := by rw [rd'.fault, rb.fault, ra.fault]; rfl
    have h2 : e.fault = (s.setFatalOccurred l false).fault := by
      rw [re.fault]
      simp only [State.setFatalOccurred, h1]
    unfold State.setPhase
    simp only [h2]
  · have h1 : (e.setPhase l .rearmed).seq.lock = e.seq.lock := rfl
    have h2 : (d.setFatalOccurred l false).seq.lock = d.seq.lock := rfl
    rw [h1, re.lock, h2, rd'.lock, rb.lock, ra.lock]
    rfl
  · have h1 : ((e.setPhase l .rearmed).ask q).1 = (e.ask q).1 := State.ask_congr (by rfl) q
    have h2 : ((d.setFatalOccurred l false).ask q).1 = (d.ask q).1 := State.ask_congr (by rfl) q
    rw [h1, re.asks q id, h2, rd'.asks q id, rb.asks q id, ra.asks q id]
    exact State.ask_congr (by rfl) q

theorem fault_congr {s t : State} (h : s.fault = t.fault) (l : Nat) (p : Phase) (b : Bool) :
    (s.setPhase l p).fault = (t.setPhase l p).fault ∧ (s.setRegistered l b).fault = (t.setRegistered l b).fault
      ∧ (s.setFatalOccurred l b).fault = (t.setFatalOccurred l b).fault := by
  unfold State.setPhase State.setRegistered State.setFatalOccurred
  simp only [h, and_self]

theorem validLink_sound (hw : configWf c = true) {l : Nat} (hc : s.cfg = c) (h : validLink s l = true) : Sound c l := by
  simp only [validLink, Bool.and_eq_true, List.all_eq_true, decide_eq_true_eq, hc] at h
  refine ⟨hw, ?_, h.1.1, h.1.2⟩
  have := h.1.1
  simp only [linkEnabled, Bool.and_eq_true, decide_eq_true_eq] at this
  exact this.1

/-- Steps 9 to 14 where every answer is favourable. -/
theorem recoverAfterReset_ok {l : Nat} (hl : Sound c l) (hs : Alone c s) {s0 : State} (hc0 : s0.cfg = c) (h9 : AtStepNine c l s0 s)
    (hstuck : (s.ask (.containStuck l)).1 = false) (hdone : (s.ask (.raminitDone l)).1 = true)
    (hregok : (s.ask (.registerOk l)).1 = true) :
    ∃ u, recoverAfterReset l s = .ok (.ok, 0) u ∧ Alone c u ∧ Recovered s0 l u ∧ u.seq.lock = s.seq.lock := by
  have hlt := hl.lt
  obtain ⟨a, ea, ra⟩ := stepDeassert_ran hs l
  obtain ⟨b, eb, rb, hlatch⟩ := stepContain_ran (l := l) ra.alone (by rw [ra.asks _ id, hstuck])
  obtain ⟨d, ed, rd, hcrumb, hcam, hoth, hclean⟩ := stepRams_ran hl.wf rb.alone hlt
    (by rw [rb.asks _ (by simp), ra.asks _ id, hdone])
  have hsnap : d.seq.snap = (snapList c l).map (fun r => (r, s0.field r)) := by
    rw [rd.snap, rb.snap, ra.snap, h9.snap]
  obtain ⟨e, ee, ae, fe, ve, ge, me, oe, ce, fae, le, qe⟩ := stepRestore_ran hl rd.alone hsnap
  obtain ⟨g, eg, ag, fg, vg, pg', lg, sg, mg, cg, fag, lkg, qg⟩ := stepRearm_ran hl ae
  have hreg : (g.ask (.registerOk l)).1 = true := by
    rw [qg, qe, rd.asks _ (by simp), rb.asks _ (by simp), ra.asks _ id, hregok]
  obtain ⟨u, hu⟩ : ∃ u, u = ((((g.setRcvStep (some 14)).emit (.extCall .registerLink (some l))).ask (.registerOk l)).2.setRegistered l true).setPhase l .idle := ⟨_, rfl⟩
  have e14 : stepRegister l g = .ok (.ok, 0) u := by
    unfold stepRegister
    have hq : (((g.setRcvStep (some 14)).emit (.extCall .registerLink (some l))).ask (.registerOk l)).1 = true := by
      rw [← hreg]; exact State.ask_congr (by rfl) _
    rw [Act.bind_of_ok (setStep_apply _ _), Act.bind_of_ok (extCall_quiet (by exact ag.1) _ _), Act.bind_of_ok (askEnv_apply _ _), hq, hu]
    rfl
  have huf : ∀ r, u.field r = g.field r := fun r => by
    rw [hu, State.setPhase_read_field, State.setRegistered_read_field, State.ask_read_field]; rfl
  have huh : u.hw = g.hw := by
    rw [hu]
    change (((g.setRcvStep (some 14)).emit (.extCall .registerLink (some l))).ask (.registerOk l)).2.hw = _
    rw [State.ask_hw]; rfl
  have hufault : u.fault = (((s0.setRegistered l false).setPhase l .reset).setPhase l .restored |>.setFatalOccurred l false |>.setPhase l .rearmed
      |>.setRegistered l true |>.setPhase l .idle).fault := by
    have h0 : d.fault = ((s0.setRegistered l false).setPhase l .reset).fault := by rw [rd.fault, rb.fault, ra.fault, h9.fault]
    have h1 : e.fault = (((s0.setRegistered l false).setPhase l .reset).setPhase l .restored).fault := by
      rw [fae]; exact (fault_congr h0 l .restored true).1
    have h2 : g.fault = ((((s0.setRegistered l false).setPhase l .reset).setPhase l .restored).setFatalOccurred l false |>.setPhase l .rearmed).fault := by
      rw [fag]; exact (fault_congr (fault_congr h1 l .idle false).2.2 l .rearmed true).1
    rw [hu]
    have h3 : (((g.setRcvStep (some 14)).emit (.extCall .registerLink (some l))).ask (.registerOk l)).2.fault = g.fault := by
      rw [State.ask_fault]; rfl
    rw [h2] at h3
    exact (fault_congr (fault_congr h3 l .idle true).2.1 l .idle true).1
  have hent : ∀ m l' i, u.ramEntry m l' i = e.ramEntry m l' i := fun m l' i => by
    have h1 : u.ramOf m = g.ramOf m := by cases m <;> simp only [State.ramOf, huh]
    unfold State.ramEntry
    rw [h1, mg]
  have hent' : ∀ m, m ≠ .ganged → ∀ l' i, e.ramEntry m l' i = d.ramEntry m l' i := fun m hm l' i => by
    unfold State.ramEntry; rw [me m hm]
  have hfL : fits (.containLatch l) = true := by simpa [fits] using hlt
  refine ⟨u, ?_, ⟨by rw [hu]; change (((g.setRcvStep (some 14)).emit _).ask _).2.io.sched = []; rw [State.ask_io_sched]; exact ag.1,
    by rw [hu]; change (((g.setRcvStep (some 14)).emit _).ask _).2.cfg = c; rw [State.ask_cfg]; exact ag.2⟩,
    ⟨fun j => ?_, ?_, fun j => ?_, fun j => ?_, ?_, fun k hk t => ?_, ?_, ?_, fun r hr hnot => ?_, fun i hi => ?_, fun i hi => ?_, fun i hi => ?_,
      fun m l' i hne hi => ?_, ?_⟩, ?_⟩
  · unfold recoverAfterReset
    rw [Act.bind_of_ok ea, Act.bind_of_ok eb, if_pos rfl, Act.bind_of_ok ed, if_pos rfl, Act.bind_of_ok ee, Act.bind_of_ok eg, e14]
  · have h1 : u.fatalOccurred j = (s0.setFatalOccurred l false).fatalOccurred j := by
      unfold State.fatalOccurred; rw [hufault]; rfl
    rw [h1, State.setFatalOccurred_read]
  · rw [hufault]; rfl
  · have h1 : u.phase j = ((((s0.setPhase l .reset).setPhase l .restored).setPhase l .rearmed).setPhase l .idle).phase j := by
      unfold State.phase; rw [hufault]; rfl
    rw [h1]
    simp only [State.setPhase_read]
    by_cases hj : j = l <;> simp [hj]
  · have h1 : u.registered j = ((s0.setRegistered l false).setRegistered l true).registered j := by
      unfold State.registered; rw [hufault]; rfl
    rw [h1]
    simp only [State.setRegistered_read]
    by_cases hj : j = l <;> simp [hj]
  · rw [huf]; exact sg
  · rw [huf, vg k hk t, hc0]
  · rw [huf, huf, hc0]; exact ⟨pg', lg⟩
  · rw [huf, fg _ hfL (by simp) (by simp) (by simp) (by simp), fe _ hfL ?_ (by simp), rd.fields _ hfL (by simp)]
    · exact hlatch
    · intro r' hr' hmem
      obtain ⟨-, ha, -⟩ := hl.snap hr'
      cases r' <;> simp only [writeFoot, List.mem_cons, List.not_mem_nil, or_false, reduceCtorEq, false_or, Reg.containLatch.injEq] at hmem
      · have := portStatusRegs_mem hmem; simp at this
      · cases ha
  · rw [hc0] at hr
    have hne : ∀ r', r' ∈ rearmedRegs l → r ≠ r' := fun r' h' h => hnot (h ▸ h')
    obtain ⟨hf, ha, hof⟩ := hl.snap hr
    rw [huf, fg r hf (hne _ (by simp [rearmedRegs])) (hne _ (by simp [rearmedRegs])) (by rintro rfl; cases hof) (fun k hk t => hne _ ?_), ve r hr (hne _ (by simp [rearmedRegs]))]
    · unfold State.field
      rw [hc0, BitVec.and_assoc, BitVec.and_self]
    · unfold rearmedRegs
      exact List.mem_append_right _ (List.mem_flatMap.mpr ⟨k, hk, List.mem_map.mpr ⟨t, by cases t <;> simp [allTrees], rfl⟩⟩)
  · rw [hc0] at hi; rw [hent, hent' _ (by simp), hcrumb i hi]
  · rw [hc0] at hi; rw [hent, hent' _ (by simp), hcam i hi]
  · rw [hc0] at hi; rw [hent, ge i hi, rd.cache, rb.cache, ra.cache, h9.cache]
  · have hs9 : b.ramEntry m l' i = s0.ramEntry m l' i := by
      unfold State.ramEntry; rw [rb.rams m id, ra.rams m id, h9.rams]
    rw [hent, oe m l' i hne hi, hoth m l' i hne hi, hs9]
  · have h1 : u.tagpoolClean l = d.tagpoolClean l := by
      unfold State.tagpoolClean; rw [huh, cg, ce]
    rw [h1, hclean]
  · have h1 : u.seq.lock = g.seq.lock := by
      rw [hu]
      change (((g.setRcvStep (some 14)).emit (.extCall .registerLink (some l))).ask (.registerOk l)).2.seq.lock = _
      rw [State.ask_seq]; rfl
    rw [h1, lkg, le, rd.lock, rb.lock, ra.lock]

/-- FORCED_GATE is asked of the configuration, the hardware and the fault state only (R282). -/
theorem forcedGate_congr {s t : State} (hc : t.cfg = s.cfg) (hh : t.hw = s.hw) (hf : t.fault = s.fault) (forced : Bool) (l : Nat) :
    forcedGate t forced l = forcedGate s forced l := by
  obtain ⟨c, w, f, q, o⟩ := s
  obtain ⟨_, _, _, q', o'⟩ := t
  cases hc; cases hh; cases hf
  unfold forcedGate
  have all : ∀ g : GateExpr, gateHolds ⟨c, w, f, q', o'⟩ forced l g = gateHolds ⟨c, w, f, q, o⟩ forced l g := by
    intro g
    induction g with
    | not g ih => simp only [gateHolds, ih]
    | and g h ig ih => simp only [gateHolds, ig, ih]
    | or g h ig ih => simp only [gateHolds, ig, ih]
    | _ => rfl
  exact all c.forcedGate

/-- RECOVER of a valid link that the gate lets through, every answer favourable (R283 to R308). -/
theorem recover_ok (hw : configWf c = true) {l : Nat} {forced : Bool} (hs : Alone c s) (hg : forcedGate s forced l = true)
    (hv : validLink s l = true) (hfav : Favours s l) :
    ∃ u, recover l forced s = .ok (.ok, 0) u ∧ Alone c u ∧ Recovered s l u ∧ u.seq.lock = s.seq.lock := by
  have hl := validLink_sound hw hs.2 hv
  have hs1 : Alone c (s.setRcvStep (some 1)) := hs
  have hq : ∀ q, ((s.setRcvStep (some 1)).ask q).1 = (s.ask q).1 := fun q => State.ask_congr (by rfl) q
  obtain ⟨t, e, h9⟩ := steps_two_to_eight hw hl.link hs1 (by rw [hq, hfav.sequencer])
  obtain ⟨u, e2, au, hr, hlk⟩ := recoverAfterReset_ok hl h9.alone (s0 := s.setRcvStep (some 1)) hs.2 h9
    (by rw [h9.asks _ (by simp) (by simp), hq, hfav.latch]) (by rw [h9.asks _ (by simp) (by simp), hq, hfav.rams])
    (by rw [h9.asks _ (by simp) (by simp), hq, hfav.register])
  refine ⟨u, ?_, au, ?_, ?_⟩
  · unfold recover
    have hg' : forcedGate (s.setRcvStep (some 1)) forced l = true :=
      (forcedGate_congr (s := s) (t := s.setRcvStep (some 1)) rfl rfl rfl forced l).trans hg
    have hv' : validLink (s.setRcvStep (some 1)) l = true := hv
    rw [Act.bind_of_ok (setStep_apply _ _), Act.get_bind, if_pos hg', Act.get_bind, if_pos hv']
    have := e (fun acked => if acked then recoverAfterReset l else raiseAbort .timeout 8 l)
    rw [if_pos rfl, e2] at this
    exact this
  · exact ⟨hr.flags, hr.device, hr.phases, hr.registrations, hr.persisted, hr.enables, hr.gates, hr.latch, hr.restored, hr.crumb, hr.cam,
      hr.ganged, hr.otherRams, hr.clean⟩
  · rw [hlk, h9.lock]; rfl

end Sys2Proof.Machine
end

