-- ==== Sys2Proof/Laws/Record.lean ====
section
/-! SUPPORT. What a sequencer action appends to H when no other agent moves (`Records`), and the events each of the steps 2 to
14 of a recovery appends (R285 to R308). -/

namespace Sys2Proof.Machine

/-- An action that reaches its end appends `es` of the state it began in, leaving schedule and configuration. -/
def Records (c : Config) {α : Type} (es : State → List Event) (x : Act α) : Prop :=
  ∀ s a t, Alone c s → x s = .ok a t → Alone c t ∧ t.io.history = s.io.history ++ es s

variable {c : Config} {α β : Type} {es fs : State → List Event}

/-- From a run that is known. -/
theorem Records.of_run {x : Act α} (h : ∀ s, Alone c s → ∃ a t, x s = .ok a t ∧ Alone c t ∧ t.io.history = s.io.history ++ es s) :
    Records c es x := by
  intro s a t hs e
  obtain ⟨b, u, e', hu⟩ := h s hs
  rw [e] at e'
  cases e'
  exact hu

/-- An action and what follows it: the first reaches its end. -/
theorem Records.split {x : Act α} {f : α → Act β} {s u : State} {b : β} (hx : Records c es x) (hs : Alone c s)
    (e : (x >>= f) s = .ok b u) : ∃ a t, Alone c t ∧ t.io.history = s.io.history ++ es s ∧ f a t = .ok b u := by
  rw [Act.bind_apply] at e
  cases h : x s with
  | error k t => rw [h] at e; cases e
  | ok a t => rw [h] at e; exact ⟨a, t, (hx s a t hs h).1, (hx s a t hs h).2, e⟩

/-- What follows appends its events after those of what came first; they do not depend on the state it begins in. -/
theorem Records.bind {x : Act α} {f : α → Act β} {q : List Event} (hx : Records c es x) (hf : ∀ a, Records c (fun _ => q) (f a)) :
    Records c (fun s => es s ++ q) (x >>= f) := by
  intro s b u hs e
  obtain ⟨a, t, ht, hh, e'⟩ := hx.split hs e
  obtain ⟨hu, hk⟩ := hf a t b u ht e'
  exact ⟨hu, by rw [hk, hh, List.append_assoc]⟩

/-- An update that touches neither H nor the schedule nor the configuration, and what follows it. -/
theorem Records.modifyThen {g : State → State} {f : PUnit → Act β} {q : List Event}
    (h : ∀ s, ((g s).io.history, (g s).io.sched, (g s).cfg) = (s.io.history, s.io.sched, s.cfg)) (hf : ∀ a, Records c (fun _ => q) (f a)) :
    Records c (fun _ => q) ((modify g : Act PUnit) >>= f) := by
  intro s a t hs e
  obtain ⟨ht, hh⟩ := hf ⟨⟩ (g s) a t ⟨(congrArg (fun w => w.2.1) (h s)).trans hs.1, (congrArg (fun w => w.2.2) (h s)).trans hs.2⟩ e
  exact ⟨ht, hh.trans (congrArg (fun w => w ++ q) (congrArg Prod.fst (h s)))⟩

theorem Records.pure (a : α) : Records c (fun _ => []) (pure a : Act α) :=
  Records.of_run (fun s hs => ⟨a, s, rfl, hs, (List.append_nil _).symm⟩)

/-- Reading the state and going on. -/
theorem Records.get {f : State → Act β} (hf : ∀ w, Alone c w → Records c (fun _ => es w) (f w)) :
    Records c es ((MonadStateOf.get : Act State) >>= f) :=
  fun s a t hs e => hf s hs s a t hs e

/-- An update that touches neither H nor the schedule nor the configuration. -/
theorem Records.modify {g : State → State} (h : ∀ s, ((g s).io.history, (g s).io.sched, (g s).cfg) = (s.io.history, s.io.sched, s.cfg)) :
    Records c (fun _ => []) (modify g : Act PUnit) :=
  Records.of_run (fun s hs => ⟨⟨⟩, g s, rfl,
    ⟨(congrArg (fun w => w.2.1) (h s)).trans hs.1, (congrArg (fun w => w.2.2) (h s)).trans hs.2⟩,
    (congrArg Prod.fst (h s)).trans (List.append_nil _).symm⟩)

theorem Records.emit (e : Event) : Records c (fun _ => [e]) (emit e) :=
  Records.of_run (fun s hs => ⟨(), s.emit e, rfl, hs, rfl⟩)

theorem Records.askEnv (q : EnvQuery) : Records c (fun _ => []) (askEnv q) :=
  Records.of_run (fun s hs => ⟨_, _, rfl, Alone.ask hs q, by rw [State.ask_io_history]; simp⟩)

theorem Records.rd (r : Reg) : Records c (fun _ => []) (rd r) :=
  Records.of_run (fun s hs => ⟨_, s, rd_quiet hs.1 r, hs, (List.append_nil _).symm⟩)

theorem Records.extCall (n : ExtName) (l : Option Nat) : Records c (fun _ => [.extCall n l]) (extCall n l) :=
  Records.of_run (fun _ hs => ⟨(), _, extCall_quiet hs.1 n l, hs, rfl⟩)

theorem Records.wr (r : Reg) (v : Word) : Records c (fun _ => [.write r v]) (wr r v) := by
  refine Records.of_run (fun s hs => ?_)
  obtain ⟨t, e, hc, -, -, ho⟩ := writeReg_ok r v s
  refine ⟨(), t, ?_, ⟨by rw [ho]; exact hs.1, hc.trans hs.2⟩, by rw [ho]⟩
  unfold Machine.wr
  rw [Act.bind_of_ok (tick_quiet hs.1)]
  exact e

theorem Records.ite {p : Prop} [Decidable p] {x y : Act α} (hx : Records c es x) (hy : Records c es y) :
    Records c es (if p then x else y) := by split <;> assumption

theorem Records.wrAll (ws : List (Reg × Word)) : Records c (fun _ => ws.map (fun w => .write w.1 w.2)) (wrAll ws) := by
  induction ws with
  | nil => exact Records.pure _
  | cons w ws ih => exact (Records.wr w.1 w.2).bind (fun _ => ih)

theorem Records.setStep (n : Nat) : Records c (fun _ => []) (setStep n) := Records.modify (fun _ => rfl)

theorem Records.poll (r : Reg) (q : EnvQuery) {g : State → State}
    (hg : ∀ w, (g w).cfg = w.cfg ∧ (g w).seq = w.seq ∧ (g w).io = w.io) : Records c (fun _ => []) (poll r q g) := by
  unfold Machine.poll
  refine Records.bind (Records.rd r) (fun _ => Records.ite (Records.pure _) ?_)
  refine Records.bind (Records.askEnv q) (fun _ => Records.ite ?_ (Records.pure _))
  exact Records.modifyThen (fun s => by rw [(hg s).1, (hg s).2.2]) (fun _ => Records.pure _)

/-! ## The loops of a recovery (R287, R303, R306) -/

theorem Records.snapshotRegs (rs : List Reg) : Records c (fun _ => []) (snapshotRegs rs) := by
  induction rs with
  | nil => exact Records.pure _
  | cons r rs ih => exact Records.bind (Records.rd r) (fun _ => Records.modifyThen (fun _ => rfl) (fun _ => ih))

theorem Records.zeroRam (addr data : Reg) (is : List Nat) :
    Records c (fun _ => is.flatMap (fun i => [.write addr (BitVec.ofNat 32 i), .write data 0#32])) (zeroRam addr data is) := by
  induction is with
  | nil => exact Records.pure _
  | cons i is ih => exact (Records.wr addr _).bind (fun _ => (Records.wr data _).bind (fun _ => ih))

/-- No write changes the cached table (R66). -/
theorem wr_cache (r : Reg) (v : Word) {s t : State} (hs : s.io.sched = []) (e : wr r v s = .ok () t) :
    t.hw.gangedCache = s.hw.gangedCache := by
  unfold Machine.wr at e
  rw [Act.bind_of_ok (tick_quiet hs), writeReg_apply] at e
  have key : ∀ (w : State) b, (w.applyWrite r v b).hw.gangedCache = w.hw.gangedCache := by
    intro w b
    by_cases hi : access r = .indexed
    · unfold State.applyWrite
      rw [hi]
      change (w.indexedWrite r v).hw.gangedCache = _
      have ram : ∀ m l i, (w.ramWrite m l i v).hw.gangedCache = w.hw.gangedCache := by
        intro m l i
        unfold State.ramWrite
        split <;> [(cases m <;> rfl); rfl]
      unfold State.indexedWrite
      split <;> [exact ram _ _ _; exact ram _ _ _; exact ram _ _ _; rfl]
    · exact (applyWrite_storesOnly w v b hi).cache
  cases hq : stuckQuery r v with
  | none => rw [hq] at e; cases e; exact key _ _
  | some q => rw [hq] at e; cases e; exact (key _ _).trans (by rw [State.ask_hw]; rfl)

theorem Records.seedGanged (l : Nat) (is : List Nat) :
    Records c (fun s => is.flatMap (fun i => [.write (.tblAddr l) (BitVec.ofNat 32 i), .write (.tblData l) (s.hw.gangedCache.getD i 0#32)]))
      (seedGanged l is) := by
  induction is with
  | nil => exact Records.pure _
  | cons i is ih =>
    intro s a t hs e
    unfold Machine.seedGanged at e
    obtain ⟨⟨⟩, x, ex, hx, -⟩ := calm_wr (c := c) (.tblAddr l) (BitVec.ofNat 32 i) s hs
    rw [Act.bind_of_ok ex, Act.get_bind] at e
    obtain ⟨⟨⟩, y, ey, hy, -⟩ := calm_wr (c := c) (.tblData l) (x.hw.gangedCache.getD i 0#32) x hx
    rw [Act.bind_of_ok ey] at e
    have hcx := wr_cache _ _ hs.1 ex
    have hcy := (wr_cache _ _ hx.1 ey).trans hcx
    obtain ⟨ht, hh⟩ := ih y a t hy e
    refine ⟨ht, ?_⟩
    rw [hh, (Records.wr _ _ x () y hx ey).2, (Records.wr _ _ s () x hs ex).2]
    simp [hcx, hcy]

/-! ## The steps (R285 to R308) -/

theorem Records.stepUnregister (l : Nat) : Records c (fun _ => [.extCall .unregisterLink (some l)]) (stepUnregister l) :=
  (Records.setStep 2).bind (fun _ => (Records.extCall _ _).bind (fun _ => Records.modify (fun _ => rfl)))

theorem Records.stepQuiesce (l : Nat) :
    Records c (fun s => if (s.ask (.linkInReset l)).1 then [] else [.extCall .requestShutdown (some l), .extCall .clearTransportState (some l)])
      (stepQuiesce l) := by
  intro s a t hs e
  unfold Machine.stepQuiesce at e
  rw [Act.bind_of_ok (setStep_apply _ _), Act.bind_of_ok (askEnv_apply _ _)] at e
  have hq : ((s.setRcvStep (some 3)).ask (.linkInReset l)).1 = (s.ask (.linkInReset l)).1 := State.ask_congr (by rfl) _
  have ha : Alone c ((s.setRcvStep (some 3)).ask (.linkInReset l)).2 := Alone.ask (s := s.setRcvStep (some 3)) hs _
  have hh : ((s.setRcvStep (some 3)).ask (.linkInReset l)).2.io.history = s.io.history := State.ask_io_history _ _
  rw [hq] at e
  split at e
  · rename_i h
    cases e
    exact ⟨ha, by rw [hh]; simp [h]⟩
  · rename_i h
    have := (Records.extCall .requestShutdown (some l)).bind (fun _ => Records.extCall .clearTransportState (some l)) _ a t ha e
    refine ⟨this.1, this.2.trans ?_⟩
    rw [hh]
    simp [h]

theorem Records.stepSnapshot (l : Nat) : Records c (fun _ => []) (stepSnapshot l) :=
  (Records.setStep 4).bind (fun _ => Records.modifyThen (fun _ => rfl) (fun _ => Records.get (fun _ _ => Records.snapshotRegs _)))

theorem Records.stepStop (l : Nat) :
    Records c (fun s => [.write (.ctrlStop l) (s.field (.ctrlStop l) ||| 0x3#32), .delay .tDrain]) (stepStop l) := by
  intro s a t hs e
  unfold Machine.stepStop at e
  rw [Act.bind_of_ok (setStep_apply _ _), Act.bind_of_ok (rd_quiet (by exact hs.1) _)] at e
  exact (Records.wr _ _).bind (fun _ => Records.emit _) (s.setRcvStep (some 5)) a t hs e

theorem Records.stepMask (l : Nat) :
    Records c (fun _ => [.write (.portIntrCtrl l) 0#32, .write (.lmIntrCtrl l) 0#32]) (stepMask l) :=
  (Records.setStep 6).bind (fun _ => (Records.wr _ _).bind (fun _ => Records.wr _ _))

theorem Records.stepWarmReset (l : Nat) :
    Records c (fun s => [.write (.warmReset (pg c l)) (s.field (.warmReset (pg c l)) ||| bit (pl c l))]) (stepWarmReset l) := by
  intro s a t hs e
  unfold Machine.stepWarmReset at e
  rw [Act.bind_of_ok (setStep_apply _ _), Act.get_bind, Act.bind_of_ok (rd_quiet (by exact hs.1) _)] at e
  have h := Records.wr _ _ (s.setRcvStep (some 7)) a t hs e
  refine ⟨h.1, h.2.trans ?_⟩
  rw [show (s.setRcvStep (some 7)).cfg = c from hs.2]
  rfl

theorem Records.stepRstseq (l : Nat) : Records c (fun _ => [.write (.rstseqReq l) 1#32]) (stepRstseq l) :=
  (Records.setStep 8).bind (fun _ => (Records.wr _ _).bind (fun _ => Records.poll _ _ (fun s => (s.responder_frame l).1)))

theorem Records.stepDeassert (l : Nat) :
    Records c (fun s => [.write (.warmReset (pg c l)) (s.field (.warmReset (pg c l)) &&& ~~~bit (pl c l)),
      .write (.debugClear l) 1#32, .write (.debugClear l) 0#32]) (stepDeassert l) := by
  intro s a t hs e
  unfold Machine.stepDeassert at e
  rw [Act.bind_of_ok (setStep_apply _ _), Act.get_bind, Act.bind_of_ok (rd_quiet (by exact hs.1) _)] at e
  have h := (Records.wr _ _).bind (fun _ => (Records.wr _ _).bind (fun _ => Records.wr _ _)) (s.setRcvStep (some 9)) a t hs e
  refine ⟨h.1, h.2.trans ?_⟩
  rw [show (s.setRcvStep (some 9)).cfg = c from hs.2]
  rfl

theorem Records.stepContain (l : Nat) : Records c (fun _ => [.write (.containLatch l) 1#32]) (stepContain l) :=
  (Records.setStep 10).bind (fun _ => (Records.wr _ _).bind (fun _ => (Records.rd _).bind (fun _ => Records.pure _)))

theorem Records.stepRams (l : Nat) :
    Records c (fun _ => .write (.tagpoolInit l) 1#32
        :: ((List.range c.crumbDepth).flatMap (fun i => [.write (.crumbAddr l) (BitVec.ofNat 32 i), .write (.crumbData l) 0#32])
          ++ (List.range c.camDepth).flatMap (fun i => [.write (.camAddr l) (BitVec.ofNat 32 i), .write (.camData l) 0#32])))
      (stepRams l) := by
  refine (Records.setStep 11).bind (fun _ => (Records.wr _ _).bind (fun _ => Records.get (fun w hw => ?_)))
  rw [hw.2]
  refine (Records.zeroRam _ _ _).bind (fun _ => Records.get (fun w hw => ?_))
  rw [hw.2, ← List.append_nil (List.flatMap _ _)]
  exact (Records.zeroRam _ _ _).bind (fun _ => Records.poll _ _ (fun s => (s.responder_frame l).2.1))

/-- The value written to SCRATCH_PORT is that of the moment before (R307). -/
theorem Records.stepRearm (l : Nat) {s t : State} (hs : Alone c s) (e : stepRearm l s = .ok () t) :
    Alone c t ∧ ∃ w, t.io.history = s.io.history ++ (rearmWrites c l).map (fun w => .write w.1 w.2)
        ++ [.write (.portIntrCtrl l) c.gateStd, .write (.lmIntrCtrl l) c.gateStd, .write (.scratchPort (l / 32)) w] := by
  unfold Machine.stepRearm at e
  rw [Act.bind_of_ok (setStep_apply _ _), Act.get_bind, show (s.setRcvStep (some 13)).cfg = c from hs.2] at e
  obtain ⟨-, a, ha, h1, e⟩ := (Records.wrAll _).split (s := s.setRcvStep (some 13)) hs e
  rw [Act.get_bind, ha.2] at e
  obtain ⟨-, b, hb, h2, e⟩ := (Records.wr _ _).split ha e
  rw [Act.get_bind, hb.2] at e
  obtain ⟨-, d, hd, h3, e⟩ := (Records.wr _ _).split hb e
  rw [Act.modify_bind, Act.bind_of_ok (rd_quiet (by exact hd.1) _)] at e
  obtain ⟨-, f, hf, h4, e⟩ := (Records.wr _ _).split (s := d.setFatalOccurred l false) hd e
  cases e
  refine ⟨hf, readReg (d.setFatalOccurred l false) (.scratchPort (l / 32)) &&& ~~~bit (l % 32), ?_⟩
  change f.io.history = _
  rw [h4]
  change d.io.history ++ _ = _
  rw [h3, h2, h1]
  change s.io.history ++ _ ++ _ ++ _ ++ _ = _
  simp only [List.append_assoc, List.cons_append, List.nil_append]

end Sys2Proof.Machine
end

