-- ==== Sys2Proof/Tests/Slice0.lean ====
section
/-! SUPPORT. Tests: ill-formed terms are refused, the words of spec/95_test_vectors.md section 10 decode to what they
stand for, one or two small steps an operation with the results spec/95 gives, and, for every statement with
hypotheses, a state and operands that meet them. -/

namespace Sys2Proof.Tests

open Sys2Proof Sys2Proof.Machine

-- One theorem is checked after the other: the kernel evaluations below would otherwise pile up as waiting threads.
set_option Elab.async false

/-! ## Helpers -/

/-- The machine after reset with some registers holding a value. -/
def withRegs (rs : List (Reg × Word)) : State := rs.foldl (fun s r => s.store r.1 r.2) State.reset

/-- The machine after reset that reads these inputs next. -/
def withInputs (q : List Input) : State := State.reset.setInbox q

/-- Whether an outcome is a next state with a property. -/
def nextHas (o : Host.Outcome State Fault Refusal) (p : State → Bool) : Bool :=
  match o with
  | .next t => p t
  | _ => false

def isNext (o : Host.Outcome State Fault Refusal) : Bool := nextHas o (fun _ => true)

theorem next_of_isNext {o : Host.Outcome State Fault Refusal} (h : isNext o = true) : ∃ t, o = .next t := by
  cases o with
  | next t => exact ⟨t, rfl⟩
  | fault f => cases h
  | refused r => cases h

/-- Whether an outcome is this refusal. -/
def refusesWith (o : Host.Outcome State Fault Refusal) (why : Refusal) : Bool :=
  match o with
  | .refused r => r == why
  | _ => false

/-- The writes recorded in H, in order, by bus address. -/
def writesOf (s : State) : List (Nat × Word) :=
  s.io.history.filterMap (fun e => match e with
    | .write r v => some (busAddr r, v)
    | _ => none)

theorem configWf_default : configWf defaultConfig = true := by decide +kernel

/-! ## Well-formedness: each check refuses an ill-formed term -/

theorem test_ill_formed_too_many_mask_words : wellFormed (.rstdrain false (List.replicate 256 0#32)) = false := by decide +kernel
theorem test_well_formed_most_mask_words : wellFormed (.rstdrain false (List.replicate 255 0#32)) = true := by decide +kernel
theorem test_ill_formed_read_address : wellFormed (.rd32 0x01000002#32) = false := by decide
theorem test_ill_formed_write_address : wellFormed (.wr32 0x01000001#32 0#32) = false := by decide

/-- A configuration with more links than R7 allows, one whose table names a bit twice, and one whose GATE_STD has a fourth
bit, start no run (U12). -/
theorem test_ill_formed_config_refused :
    (configWf { defaultConfig with nLink := 4097 } = false)
      ∧ configWf { defaultConfig with table := tvTable ++ tvTable } = false
      ∧ configWf { defaultConfig with gateStd := 0xF#32 } = false := by decide +kernel

/-- ORDER(k): the declared bits in another order start a run (R374), and so do all 32 (table P); the declared bits and one
more do not. -/
theorem test_order_is_one_of_the_two_permutations :
    orderWf { defaultConfig with orderOf := [(.route, [2, 0, 1])] } .route = true
      ∧ orderWf { defaultConfig with orderOf := [(.route, (List.range 32).reverse)] } .route = true
      ∧ orderWf { defaultConfig with orderOf := [(.route, [2, 0, 1, 3])] } .route = false := by decide +kernel

/-- REGMAP (R7): CTRL_STOP moved to kind code 0x20, offset 0x010, its two fields swapped. -/
def movedConfig : Config :=
  { defaultConfig with
    regMap := [(.ctrlStop 0, { kind := 0x20, offset := 0x010, layout := 1 :: 0 :: (List.range 32).drop 2 })] }

/-- The moved register is found at its new address only, and a row that lands on a mapped register starts no run. -/
theorem test_regmap_moves_a_register :
    configWf movedConfig = true ∧ mappedReg movedConfig 0x20003010#32 = some (.ctrlStop 3)
      ∧ mappedReg movedConfig 0x13003000#32 = none ∧ mappedReg movedConfig 0x13003004#32 = some (.passthru 3)
      ∧ configWf { defaultConfig with regMap := [(.ctrlStop 0, { kind := 0x13, offset := 0x004, layout := [] })] } = false := by
  decide +kernel

/-- A write through the moved map stores the named field, and a read gives the word back. -/
theorem test_regmap_lays_fields_out :
    fromBus movedConfig (.ctrlStop 3) 0x1#32 = 0x2#32 ∧ toBus movedConfig (.ctrlStop 3) 0x2#32 = 0x1#32
      ∧ fromBus movedConfig (.passthru 3) 0x1#32 = 0x1#32 := by decide +kernel

/-- A change of configuration at a soft reset changes no register and takes effect (R67, R371). -/
theorem test_relaunch_keeps_the_registers :
    (match relaunch { defaultConfig with resetValueOf := [(0x10000004, 7#32)], gateStd := 3#32 }
        ((State.reset.store (.node .route 3 .errStatus) 5#32).setFatalOccurred 3 true) with
      | .ok t => t.cellAt 0x01003000 == 5#32 && t.cellAt 0x10000004 == 0#32 && t.cfg.gateStd == 3#32 && !t.fatalOccurred 3
      | .error _ => false) = true := by decide +kernel

/-! ## Decoding (spec/95_test_vectors.md section 10), one word a constructor -/

theorem test_decode_service : decodeWords [0x01000000#32] = .ok .service := by decide
theorem test_decode_walk_xbar : decodeWords [0x02000000#32] = .ok (.walkXbar 0#12 .fatal) := by decide
theorem test_decode_walk_portgrp : decodeWords [0x02050001#32] = .ok (.walkPortgrp 1#12 .nonfatal) := by decide
theorem test_decode_walk_linkmgmt : decodeWords [0x02090001#32] = .ok (.walkLinkmgmt 1#12 .nonfatal) := by decide
theorem test_decode_walk_mctrlf : decodeWords [0x020C0000#32] = .ok (.walkMctrlf 0#12 .fatal) := by decide
theorem test_decode_handle_route : decodeWords [0x03040003#32] = .ok (.handleRoute 3#12 .fatal) := by decide
theorem test_decode_handle_ingress : decodeWords [0x03080002#32] = .ok (.handleIngress 2#12 .fatal) := by decide
theorem test_decode_handle_egress : decodeWords [0x030E0001#32] = .ok (.handleEgress 1#12 .correctable) := by decide
theorem test_decode_handle_tstate : decodeWords [0x03100004#32] = .ok (.handleTstate 4#12 .fatal) := by decide
theorem test_decode_handle_srctrack : decodeWords [0x03150000#32] = .ok (.handleSrctrack 0#12 .nonfatal) := by decide
theorem test_decode_handle_tile : decodeWords [0x03180000#32] = .ok (.handleTile 0#12 .fatal) := by decide
theorem test_decode_handle_tileout : decodeWords [0x031C0001#32] = .ok (.handleTileout 1#12 .fatal) := by decide
theorem test_decode_handle_dl : decodeWords [0x03210005#32] = .ok (.handleDl 5#12 .nonfatal) := by decide
theorem test_decode_handle_tl : decodeWords [0x03250002#32] = .ok (.handleTl 2#12 .nonfatal) := by decide
theorem test_decode_handle_lmlink : decodeWords [0x03280007#32] = .ok (.handleLmlink 7#12 .fatal) := by decide
theorem test_decode_handle_lmcommon : decodeWords [0x032C0000#32] = .ok (.handleLmcommon 0#12 .fatal) := by decide
theorem test_decode_handle_mctrl : decodeWords [0x03310005#32] = .ok (.handleMctrl 5#12 .nonfatal) := by decide
theorem test_decode_handle_pci : decodeWords [0x03340000#32] = .ok (.handlePci 0#12 .fatal) := by decide
theorem test_decode_handle_priv : decodeWords [0x03380000#32] = .ok (.handlePriv 0#12 .fatal) := by decide
theorem test_decode_setfatal : decodeWords [0x04800003#32] = .ok (.setfatal (some 3#12) true) := by decide
theorem test_decode_setfatal_none : decodeWords [0x04001000#32] = .ok (.setfatal none false) := by decide
theorem test_decode_qlink : decodeWords [0x05000003#32] = .ok (.qlink 3#12) := by decide
theorem test_decode_qdev : decodeWords [0x06000000#32] = .ok .qdev := by decide
theorem test_decode_rstdrain : decodeWords [0x07800001#32, 0x00000008#32] = .ok (.rstdrain true [0x8#32]) := by decide
theorem test_decode_rd32 : decodeBus false 0x01003000#32 0#32 = .ok (.rd32 0x01003000#32) := by decide
theorem test_decode_wr32 : decodeBus true 0x10000008#32 1#32 = .ok (.wr32 0x10000008#32 1#32) := by decide

/-- Op 0x00, op 0x08, SERVICE with bit 0 set, tree 3, a code that is no node kind: refused, each by its name. -/
theorem test_decode_refuses :
    decodeWords [0x00000000#32] = .error (.reservedOp 0x00#8) ∧ decodeWords [0x08000000#32] = .error (.reservedOp 0x08#8)
      ∧ decodeWords [0x01000001#32] = .error (.mustBeZero 0x01000001#32)
      ∧ decodeWords [0x03070000#32] = .error (.reservedTree 0x03070000#32)
      ∧ decodeWords [0x03400000#32] = .error (.notANodeKind 16) := by decide

/-- Bus addresses of spec/95 section 10. -/
theorem test_bus_addresses :
    [busAddr (.node .route 3 .errFirst), busAddr (.node .egress 1 (.eccLimit 0)), busAddr (.intrStallEn 1), busAddr .ringStatus,
      busAddr (.summary .correctable 0), busAddr (.rstseqReq 3), busAddr (.routePolicy1 3), busAddr (.tblData 3)]
      = [0x01003004, 0x03001044, 0x0C001008, 0x0E000084, 0x10000600, 0x11003028, 0x1300300C, 0x14003004] := by decide

/-- Unaligned, no such kind, ROUTE[8], the hole after ECC unit 0 (V-B12). -/
theorem test_unmapped_addresses :
    refusesWith (step (withInputs [.frame (.bus false 0x01000002#32 0#32)])) (.unalignedAccess 0x01000002#32) = true
      ∧ refusesWith (exec (.rd32 0x0F000000#32) State.reset) (.unmappedAccess 0x0F000000#32) = true
      ∧ refusesWith (exec (.rd32 0x01008000#32) State.reset) (.unmappedAccess 0x01008000#32) = true
      ∧ refusesWith (exec (.wr32 0x0100004C#32 0#32) State.reset) (.unmappedAccess 0x0100004C#32) = true := by
  decide +kernel

/-! ## Register access (spec/95 section 3) -/

/-- V-B13. -/
theorem test_rd32_has_no_side_effect :
    nextHas (exec (.rd32 0x01000000#32) (withRegs [(.node .route 0 .errStatus, 5#32)]))
      (fun t => t.io.readData == [5#32] && t.cellAt 0x01000000 == 5#32) = true := by decide +kernel

/-- V-B1. -/
theorem test_wr32_clears_written_ones :
    nextHas (exec (.wr32 0x01000000#32 4#32) (withRegs [(.node .route 0 .errStatus, 5#32)]))
      (fun t => t.cellAt 0x01000000 == 1#32 && writesOf t == [(0x01000000, 4#32)]) = true := by decide +kernel

/-- V-B10: a counter holds ECC_CW bits. -/
theorem test_wr32_drops_undefined_bits :
    nextHas (exec (.wr32 0x03001040#32 0x1FF#32) State.reset) (fun t => t.cellAt 0x03001040 == 0xFF#32) = true := by
  decide +kernel

/-! ## The hardware side (spec/95 section 4) -/

/-- V-S4: the contain latch of link 3. -/
theorem test_arrive_latches_contain :
    nextHas (step { withRegs [(.node .route 3 .containEn, 2#32)] with
        io := { State.reset.io with inbox := [.move (.arrive .route 3 2#32 {})] } })
      (fun t => t.cellAt 0x01003000 == 2#32 && t.cellAt 0x01003004 == 2#32 && t.cellAt 0x1100300C == 1#32
        && t.cellAt 0x1100200C == 0#32) = true := by decide +kernel

/-- V-S14: the wrap-around swallows the event. -/
theorem test_ecc_tick_wraps :
    nextHas (step { withRegs [(.node .egress 1 (.eccCount 0), 0xFF#32), (.node .egress 1 (.eccLimit 0), 0x80#32)] with
        io := { State.reset.io with inbox := [.move (.eccTick .egress 1 0 0#32 {})] } })
      (fun t => t.cellAt 0x03001040 == 0#32 && t.cellAt 0x03001000 == 0#32) = true := by decide +kernel

/-! ## The walk (spec/95 section 6) -/

/-- V-W1 (Scenario C): one write, NotFound, armed. -/
theorem test_service_nothing_pending :
    nextHas (exec .service State.reset)
      (fun t => t.io.responses == [[1#32]] && writesOf t == [(0x10000008, 1#32)] && t.hw.armed) = true := by decide +kernel

/-- Program P1, pass 1: link 3 is marked, the first latch cleared before the status, the end of interrupt last. -/
theorem test_service_one_fatal_bit :
    nextHas (exec .service (withRegs [(.node .route 3 .errStatus, 1#32), (.node .route 3 .errFirst, 1#32),
        (.node .route 3 (.reportEn .fatal), 1#32), (.portIntrCtrl 3, 7#32)]))
      (fun t => t.io.responses == [[0#32]]
        && writesOf t == [(0x10000040, 8#32), (0x01003004, 1#32), (0x01003000, 1#32), (0x10000008, 1#32)]
        && t.fatalOccurred 3 && t.hw.armed) = true := by decide +kernel

/-- V-W8. -/
theorem test_walk_xbar :
    nextHas (exec (.walkXbar 0#12 .fatal) (withRegs [(.node .tileout 1 .errStatus, 1#32), (.node .tileout 1 (.reportEn .fatal), 1#32)]))
      (fun t => (handleResults t.io.history).map (fun x => x.2.2.2) == [.notFound, .notFound, .notFound, .success]
        && t.fault.resetRequired && t.io.responses == [[0#32]]) = true := by decide +kernel

/-- The port-group part of V-W3: the bit of link 1 is serviced, in the order of the links. -/
theorem test_walk_portgrp :
    nextHas (exec (.walkPortgrp 0#12 .fatal) (withRegs [(.node .route 1 .errStatus, 1#32), (.node .route 1 (.reportEn .fatal), 1#32)]))
      (fun t => (handleResults t.io.history).map (fun x => x.2.2.2 == .success) == (List.range 20).map (fun n => n == 5)
        && t.cellAt 0x10000040 == 2#32) = true := by decide +kernel

/-- V-W7: thirteen children, the fifth of the list is DL[5]. -/
theorem test_walk_linkmgmt :
    nextHas (exec (.walkLinkmgmt 1#12 .nonfatal) (withRegs [(.node .dl 5 .errStatus, 2#32), (.node .dl 5 (.reportEn .nonfatal), 2#32)]))
      (fun t => (handleResults t.io.history).map (fun x => x.2.2.2 == .success) == (List.range 13).map (fun n => n == 4)
        && !t.hw.armed) = true := by decide +kernel

/-- The walk of a microcontroller reaches its links in order. -/
theorem test_walk_mctrlf :
    nextHas (exec (.walkMctrlf 0#12 .fatal) (withRegs [(.intrStatus 0, 4#32), (.intrStallEn 0, 0xF#32)]))
      (fun t => (handleResults t.io.history).map (fun x => x.2.2.2) == [.notFound, .notFound, .success, .notFound]
        && t.cellAt 0x0C000000 == 0#32) = true := by decide +kernel

/-! ## The handlers (spec/95 section 7) -/

/-- A node with bit or bits `e` pending and enabled in tree `t`, its first latch set. -/
def pendingAt (k : Kind) (i : Nat) (t : Tree) (e : Word) : State :=
  withRegs [(.node k i .errStatus, e), (.node k i .errFirst, e), (.node k i (.reportEn t), e)]

/-- V-H2. -/
theorem test_handle_route :
    nextHas (exec (.handleRoute 3#12 .fatal) (pendingAt .route 3 .fatal 1#32))
      (fun t => t.io.history == [reportEvent .route 0 3 (some 3) .fatal .none, .write (.scratchPort 0) 8#32,
        .notify (.portDown 3), .write (.node .route 3 .errFirst) 1#32, .write (.node .route 3 .errStatus) 1#32,
        .result (.handle .route 3 .fatal .success)]) = true := by decide +kernel

/-- V-H18: an arrival between the read of the status and its clear survives. -/
theorem test_handle_route_keeps_a_late_arrival :
    nextHas (exec (.handleRoute 3#12 .fatal)
        ((pendingAt .route 3 .fatal 1#32).setSched [[], [], [.arrive .route 3 4#32 {}]]))
      (fun t => t.cellAt 0x01003000 == 4#32 && t.cellAt 0x01003004 == 0#32) = true := by decide +kernel

/-- V-H15: a device-wide fatal bit marks the link and the device. -/
theorem test_handle_ingress :
    nextHas (exec (.handleIngress 2#12 .fatal) (pendingAt .ingress 2 .fatal 0x20#32))
      (fun t => t.fatalOccurred 2 && t.fault.resetRequired
        && writesOf t == [(0x10000040, 4#32), (0x10000010, 1#32), (0x02002004, 0x20#32), (0x02002000, 0x20#32)]) = true := by
  decide +kernel

/-- Program P2, first HANDLE: the limit bit is suppressed by the double-bit error, cleared, its counter zeroed. -/
theorem test_handle_egress_dbe_precedence :
    nextHas (exec (.handleEgress 1#12 .correctable)
        (withRegs [(.node .egress 1 .errStatus, 0xC#32), (.node .egress 1 .errFirst, 4#32),
          (.node .egress 1 (.reportEn .correctable), 4#32), (.node .egress 1 (.eccCount 0), 2#32)]))
      (fun t => t.io.history == [.write (.node .egress 1 .errFirst) 4#32, .write (.node .egress 1 .errStatus) 4#32,
        .write (.node .egress 1 (.eccCount 0)) 0#32, .result (.handle .egress 1 .correctable .success)]) = true := by
  decide +kernel

/-- An unrecognised bit beside a recognised one: both cleared, the one reported, the other left in U (R216, R219). -/
theorem test_handle_tstate_unrecognised_bit :
    nextHas (exec (.handleTstate 4#12 .fatal) (pendingAt .tstate 4 .fatal 0x201#32))
      (fun t => t.io.history.contains (.unhandled .tstate 4 .fatal 0x200#32) && t.io.responses == [[2#32]]
        && t.cellAt 0x04004000 == 0#32) = true := by decide +kernel

theorem test_handle_srctrack :
    nextHas (exec (.handleSrctrack 0#12 .nonfatal) (pendingAt .srctrack 0 .nonfatal 2#32))
      (fun t => t.io.history.contains (reportEvent .srctrack 1 0 (some 0) .nonFatal .none) && !t.fatalOccurred 0) = true := by
  decide +kernel

/-- V-H10, first call. -/
theorem test_handle_tile :
    nextHas (exec (.handleTile 0#12 .fatal) (pendingAt .tile 0 .fatal 1#32))
      (fun t => t.io.history.contains (reportEvent .tile 0 0 none .fatal .none) && t.fault.resetRequired
        && t.cellAt 0x10000010 == 1#32) = true := by decide +kernel

/-- The enable of a device-owned node is reduced once the device is faulted (V-H10, second call). -/
theorem test_handle_tileout_storm_suppression :
    nextHas (exec (.handleTileout 1#12 .fatal) ((pendingAt .tileout 1 .fatal 1#32).setResetRequired true))
      (fun t => writesOf t == [(0x07001008, 0#32), (0x07001004, 1#32), (0x07001000, 1#32)]) = true := by decide +kernel

theorem test_handle_dl :
    nextHas (exec (.handleDl 5#12 .nonfatal) (pendingAt .dl 5 .nonfatal 2#32))
      (fun t => t.io.history.contains (reportEvent .dl 1 5 (some 5) .nonFatal .none) && t.io.responses == [[0#32]]) = true := by
  decide +kernel

/-- V-H3a: the contain override makes a NonFatal bit Fatal. -/
theorem test_handle_tl_contain_override :
    nextHas (exec (.handleTl 2#12 .nonfatal) ((pendingAt .tl 2 .nonfatal 2#32).store (.node .tl 2 .containEn) 2#32))
      (fun t => t.io.history.contains (reportEvent .tl 1 2 (some 2) .fatal .none) && t.fatalOccurred 2) = true := by
  decide +kernel

theorem test_handle_lmlink :
    nextHas (exec (.handleLmlink 7#12 .fatal) (pendingAt .lmlink 7 .fatal 1#32))
      (fun t => t.cellAt 0x10000040 == 0x80#32 && t.cellAt 0x0A007000 == 0#32) = true := by decide +kernel

/-- V-H11: one report and one marking a link of the instance. -/
theorem test_handle_lmcommon_fans_out :
    nextHas (exec (.handleLmcommon 0#12 .fatal) (pendingAt .lmcommon 0 .fatal 1#32))
      (fun t => reportLinks 0 t.io.history == [some 0, some 1, some 2, some 3]
        && writesOf t == [(0x10000040, 1#32), (0x10000040, 3#32), (0x10000040, 7#32), (0x10000040, 0xF#32),
          (0x0B000004, 1#32), (0x0B000000, 1#32)]) = true := by decide +kernel

/-- V-H12, and V-H13 where the link is faulted. -/
theorem test_handle_mctrl :
    nextHas (exec (.handleMctrl 5#12 .fatal) (withRegs [(.intrStatus 1, 2#32), (.intrStallEn 1, 0xF#32)]))
      (fun t => t.io.history == [reportEvent .mctrl 1 5 (some 5) .nonFatal .none, .write (.intrStatus 1) 2#32,
        .result (.handle .mctrl 5 .fatal .success)]) = true
    ∧ nextHas (exec (.handleMctrl 5#12 .fatal)
        ((withRegs [(.intrStatus 1, 2#32), (.intrStallEn 1, 0xF#32)]).setFatalOccurred 5 true))
      (fun t => writesOf t == [(0x0C001008, 0xD#32), (0x0C001000, 2#32)]) = true := by decide +kernel

theorem test_handle_pci :
    nextHas (exec (.handlePci 0#12 .fatal) (pendingAt .pci 0 .fatal 1#32))
      (fun t => t.fault.resetRequired && t.io.history.contains (.notify .deviceDown) && t.io.responses == [[0#32]]) = true := by
  decide +kernel

/-- V-H14, acknowledged and not. -/
theorem test_handle_priv :
    nextHas (exec (.handlePriv 0#12 .fatal) (pendingAt .priv 0 .fatal 1#32))
      (fun t => t.io.responses == [[0#32]] && t.io.history.contains (.write .ringCmd 1#32)) = true
    ∧ nextHas (exec (.handlePriv 0#12 .fatal) ((pendingAt .priv 0 .fatal 1#32).setEnv .privAck false))
      (fun t => t.io.responses == [[2#32]] && t.cellAt 0x0E000000 == 0#32
        && t.io.history.contains (.log .privAckTimeout)) = true := by decide +kernel

/-! ## The fault state (spec/95 section 8) -/

/-- V-F1, and V-F2 on a link already marked. -/
theorem test_setfatal :
    nextHas (exec (.setfatal (some 3#12) false) State.reset)
      (fun t => t.io.history == [.write (.scratchPort 0) 8#32, .notify (.portDown 3), .result .setfatal]) = true
    ∧ nextHas (exec (.setfatal (some 3#12) false) (State.reset.setFatalOccurred 3 true))
      (fun t => t.io.history == [.result .setfatal]) = true := by decide +kernel

/-- V-F7. -/
theorem test_qlink_and_qdev :
    nextHas (exec (.qlink 3#12) (State.reset.setFatalOccurred 3 true)) (fun t => t.io.responses == [[1#32]]) = true
    ∧ nextHas (exec (.qlink 2#12) (State.reset.setFatalOccurred 3 true)) (fun t => t.io.responses == [[0#32]]) = true
    ∧ nextHas (exec .qdev (State.reset.setFatalOccurred 3 true)) (fun t => t.io.responses == [[0#32]]) = true := by
  decide +kernel

/-- V-F9: refused, response 0xF0000000. -/
theorem test_setfatal_out_of_range :
    nextHas (exec (.setfatal (some 8#12) false) State.reset) (fun t => t == refuseCommand State.reset) = true := by
  decide +kernel

/-! ## The recovery (spec/95 section 9) -/

/-- V-R1: every answer favourable. -/
theorem test_rstdrain_ok :
    nextHas (exec (.rstdrain false [8#32]) (State.reset.setFatalOccurred 3 true))
      (fun t => t.io.responses == [[0x00001000#32, 0x00000003#32]] && !t.fatalOccurred 3 && t.registered 3
        && t.cellAt 0x11003000 == 7#32 && t.cellAt 0x01003008 == 1#32) = true := by decide +kernel

/-- RCV's step 15 and Result fall between two accesses of a HANDLE that runs while RCV waits for nothing (R281, R313): the
HANDLE is taken up in the window before step 15, and RCV steps twice inside it. -/
theorem test_training_inside_a_handle :
    nextHas (exec (.rstdrain false [0#32]) { pendingAt .route 3 .fatal 1#32 with
        io := { State.reset.io with
          inbox := [.frame (.command [0x03040003#32])]
          sched := [[.runNext], [], [.rcvStep, .rcvStep]] } })
      (fun t => t.io.responses == [[0#32], [0#32]] && t.seq.rcvTail.isNone && t.seq.rcvStep.isNone
        && t.io.history.take 3 == [.extCall .launchTraining none, .result (.rstdrain false []),
          reportEvent .route 0 3 (some 3) .fatal .none]) = true := by decide +kernel

/-- The reverse: a RSTDRAIN of no link is taken up inside a HANDLE, and its step 15 comes before the HANDLE's writes. -/
theorem test_rstdrain_starts_inside_a_handle :
    nextHas (exec (.handleRoute 3#12 .fatal) { pendingAt .route 3 .fatal 1#32 with
        io := { State.reset.io with
          inbox := [.frame (.command [0x07000001#32, 0#32])]
          sched := [[], [.runNext, .rcvStep]] } })
      (fun t => t.io.inbox.isEmpty && t.io.responses == [[0#32]] && t.seq.rcvTail == some { sts := [], launched := true }
        && t.io.history.take 1 == [.extCall .launchTraining none]) = true := by decide +kernel

/-- A command word that is refused is answered while RCV holds the mutex, inside its recovery of link 3 (R334, log 39). -/
theorem test_refused_word_inside_a_recovery :
    nextHas (exec (.rstdrain false [8#32]) ((withInputs [.frame (.command [0xFF000000#32])]).setSched [[], [], [], [.runNext]]))
      (fun t => t.io.inbox.isEmpty && t.io.responses == [[0xF0000000#32], [0x00001000#32, 0x00000003#32]]) = true := by
  decide +kernel

/-- One command of RCV at a time (R313): a RSTDRAIN of no link that comes while another is owed its Result and a third waits
loses none of the three Results. -/
theorem test_one_rstdrain_at_a_time :
    nextHas (exec (.rstdrain false [0#32]) (((withInputs [.frame (.command [0x03040003#32]),
          .frame (.command [0x07000001#32, 0#32])]).setSched [[.runNext], [.rcvStep, .rcvStep, .runNext]]).oweTraining []))
      (fun t => t.io.inbox.isEmpty && t.seq.rcvTail.isNone && t.io.responses == [[0#32], [0#32], [1#32], [0#32]]) = true := by
  decide +kernel

/-- FORCED_GATE over other state than the link's own (R282): no link is processed while the device needs a reset. -/
theorem test_forced_gate_over_the_device_flag :
    let s : State := { State.reset with cfg := { defaultConfig with forcedGate := .not .resetRequired } }
    forcedGate s false 3 = true ∧ forcedGate (s.setResetRequired true) false 3 = false := by decide

/-- Boot (R373 step 1): PCI and PRIV before the microcontrollers, whatever the order of the kind codes. -/
theorem test_boot_order :
    (((bootInputs defaultConfig).map (fun i => match i with
        | .frame (.bus _ a _) => a.toNat
        | _ => 0)).filter (fun a => decide (0x0C000000 ≤ a) && decide (a < 0x0F000000)))
      = [0x0D000008, 0x0E000008, 0x0C000008, 0x0C001008] := by decide +kernel

/-- V-R2: the reset sequencer does not answer. -/
theorem test_rstdrain_sequencer_timeout :
    nextHas (exec (.rstdrain false [8#32]) ((State.reset.setFatalOccurred 3 true).setEnv (.rstseqAck 3) false))
      (fun t => t.io.responses == [[0x00001001#32, 0x00810003#32]] && t.fatalOccurred 3 && t.phase 3 == .failed
        && t.cellAt 0x12000000 == 8#32) = true := by decide +kernel

/-! ## Witnesses: states and operands that meet the hypotheses of the statements -/

/-- The reset machine is quiet, and its configuration is well-formed. -/
theorem quiet_reset : configWf State.reset.cfg = true ∧ Quiet State.reset := ⟨configWf_default, rfl, rfl, rfl⟩

/-- So is the reset machine with registers stored by `pendingAt`. -/
theorem quiet_pending :
    configWf (pendingAt .route 3 .fatal 1#32).cfg = true ∧ Quiet (pendingAt .route 3 .fatal 1#32) :=
  ⟨configWf_default, rfl, rfl, rfl⟩

theorem witness_DecodeOfEncode :
    wellFormed (.rstdrain true [8#32]) = true ∧ wellFormed (.rstdrain false (List.replicate 255 0#32)) = true
      ∧ wellFormed (.wr32 0xFFFFFFFC#32 0#32) = true := by decide +kernel

theorem witness_CommandsAreReadInSequence :
    (wellFormed (.rstdrain true [8#32]) = true ∧ encode (.rstdrain true [8#32]) = .command [0x07800001#32, 8#32])
      ∧ (wellFormed .qdev = true ∧ encode .qdev = .command [0x06000000#32]) := by decide

theorem witness_EncodeOfDecode :
    decodeWords [0x07800001#32, 8#32, 0x01000000#32] = .ok (.rstdrain true [8#32]) := by decide

/-- Refused words at the boundary of each condition of R139 (the reserved op, the zero field, tree 3 and a family that
is none, the instance and the link index N_LINK, the mask bit N_LINK, nwords 0), each on a frame of its own. -/
theorem witness_RefusedExactlyWhenTheRuleSays_refused :
    mustRefuse defaultConfig 0x00000000#32 [] ∧ mustRefuse defaultConfig 0x08000000#32 []
      ∧ mustRefuse defaultConfig 0x01000001#32 [] ∧ mustRefuse defaultConfig 0x03041000#32 []
      ∧ mustRefuse defaultConfig 0x02000001#32 [] ∧ mustRefuse defaultConfig 0x04000008#32 []
      ∧ mustRefuse defaultConfig 0x05000008#32 [] ∧ mustRefuse defaultConfig 0x06800000#32 []
      ∧ mustRefuse defaultConfig 0x07000001#32 [0x100#32] ∧ mustRefuse defaultConfig 0x07000000#32 []
      ∧ (withInputs [.frame (.command [0x05000008#32])]).io.inbox = .frame (.command [0x05000008#32]) :: [] := by
  have walk : mustRefuse defaultConfig 0x02000001#32 [] := by
    refine Or.inr ?_
    rintro ⟨f, t, hf, -, -, hi⟩
    cases f <;> first | exact absurd hf (by decide) | exact absurd hi (by decide)
  refine ⟨trivial, trivial, ?_, Or.inl (by decide), walk, Or.inr ?_, Or.inr (by decide), ?_, ?_,
    Or.inr (Or.inl (by decide)), rfl⟩
  · exact (by decide : (0x01000001#32 : Word).extractLsb' 0 24 ≠ 0#24)
  · exact (by decide : defaultConfig.nLink ≤ ((0x04000008#32 : Word).extractLsb' 0 12).toNat)
  · exact (by decide : (0x06800000#32 : Word).extractLsb' 0 24 ≠ 0#24)
  · exact Or.inr (Or.inr (Or.inr ⟨0, 8, by decide, by decide, by decide, by decide⟩))

/-- Words that are not refused, at the last instance, link and mask bit. -/
theorem witness_RefusedExactlyWhenTheRuleSays_accepted :
    ¬mustRefuse defaultConfig 0x05000007#32 [] ∧ ¬mustRefuse defaultConfig 0x04000007#32 []
      ∧ ¬mustRefuse defaultConfig 0x01000000#32 [] := by
  refine ⟨?_, ?_, ?_⟩
  · exact (by decide : ¬((0x05000007#32 : Word).extractLsb' 12 12 ≠ 0#12
      ∨ defaultConfig.nLink ≤ ((0x05000007#32 : Word).extractLsb' 0 12).toNat))
  · exact (by decide : ¬((0x04000007#32 : Word).extractLsb' 13 10 ≠ 0#10
      ∨ (if (0x04000007#32 : Word).getLsbD 12 then (0x04000007#32 : Word).extractLsb' 0 12 ≠ 0#12
          else defaultConfig.nLink ≤ ((0x04000007#32 : Word).extractLsb' 0 12).toNat)))
  · exact (by decide : ¬((0x01000000#32 : Word).extractLsb' 0 24 ≠ 0#24))

theorem witness_RegisterMapRoundTrip :
    configWf defaultConfig = true ∧ mapped defaultConfig (.node .route 7 .errStatus) = true
      ∧ mapped defaultConfig (.node .route 8 .errStatus) = false
      ∧ mappedReg defaultConfig 0x14007004#32 = some (.tblData 7) := by decide +kernel

/-- Every clause of `ReadReturnsTheRegister`: an unmapped address, a register of each access type, the first and the last
index of each RAM. -/
theorem witness_ReadReturnsTheRegister :
    mappedReg defaultConfig 0x01008000#32 = none
      ∧ (mappedReg defaultConfig 0x10000008#32 = some .hostEoi ∧ access .hostEoi = .wo)
      ∧ mappedReg defaultConfig 0x10000000#32 = some .topPending
      ∧ mappedReg defaultConfig 0x10000500#32 = some (.summary .nonfatal 0)
      ∧ (mappedReg defaultConfig 0x1100201C#32 = some (.crumbData 2)
          ∧ ((withRegs [(.crumbAddr 2, 3#32)]).field (.crumbAddr 2)).toNat < defaultConfig.crumbDepth)
      ∧ (mappedReg defaultConfig 0x11002024#32 = some (.camData 2)
          ∧ (State.reset.field (.camAddr 2)).toNat < defaultConfig.camDepth)
      ∧ (mappedReg defaultConfig 0x14002004#32 = some (.tblData 2)
          ∧ (State.reset.field (.tblAddr 2)).toNat < defaultConfig.gangedDepth)
      ∧ (mappedReg defaultConfig 0x01000018#32 = some (.node .route 0 .errAddr)
          ∧ access (.node .route 0 .errAddr) = .ro)
      ∧ (mappedReg defaultConfig 0x10000004#32 = some .topEnable ∧ access .topEnable = .rw)
      ∧ (mappedReg movedConfig 0x20003010#32 = some (.ctrlStop 3) ∧ access (.ctrlStop 3) = .rw)
      ∧ (mappedReg defaultConfig 0x01000000#32 = some (.node .route 0 .errStatus)
          ∧ access (.node .route 0 .errStatus) = .w1c) := by decide +kernel

theorem witness_WriteCompletesAndIsRecorded :
    mappedReg defaultConfig 0x0F000000#32 = none ∧ mappedReg defaultConfig 0x10000000#32 = some .topPending
      ∧ mappedReg defaultConfig 0x1100300C#32 = some (.containLatch 3) := by decide +kernel

theorem witness_WriteOneToClear :
    configWf State.reset.cfg = true ∧ mappedReg State.reset.cfg 0x01000000#32 = some (.node .route 0 .errStatus)
      ∧ 4#32 = fromBus State.reset.cfg (.node .route 0 .errStatus) 4#32
      ∧ access (.node .route 0 .errStatus) = .w1c ∧ ∀ l, Reg.node .route 0 .errStatus ≠ .containLatch l :=
  ⟨configWf_default, by decide +kernel, by decide, rfl, nofun⟩

theorem witness_ContainLatchWrite :
    configWf State.reset.cfg = true ∧ mappedReg State.reset.cfg 0x1100300C#32 = some (.containLatch 3)
      ∧ 0#32 = fromBus State.reset.cfg (.containLatch 3) 0#32 ∧ (0#32).getLsbD 0 = false :=
  ⟨configWf_default, by decide +kernel, by decide, rfl⟩

/-- With the default map, and with a register that REGMAP has moved. -/
theorem witness_PlainWriteStores_moved :
    configWf movedConfig = true ∧ mappedReg movedConfig 0x20003010#32 = some (.ctrlStop 3) ∧ access (.ctrlStop 3) = .rw
      ∧ 2#32 = fromBus movedConfig (.ctrlStop 3) 1#32 := by decide +kernel

theorem witness_PlainWriteStores :
    configWf State.reset.cfg = true ∧ mappedReg State.reset.cfg 0x10000004#32 = some .topEnable ∧ access .topEnable = .rw
      ∧ 7#32 = fromBus State.reset.cfg .topEnable 7#32 ∧ (∀ l, Reg.topEnable ≠ .debugClear l) ∧ (∀ g, Reg.topEnable ≠ .warmReset g)
      ∧ ∀ l, Reg.topEnable ≠ .rstseqReq l := ⟨configWf_default, by decide +kernel, rfl, by decide, nofun, nofun, nofun⟩

theorem witness_EoiWriteArms :
    mappedReg State.reset.cfg 0x10000008#32 = some .hostEoi
      ∧ mappedReg { defaultConfig with regMap := [(.hostEoi, { kind := 0x20, offset := 0, layout := [] })] } 0x20000000#32
        = some .hostEoi := by decide +kernel

theorem witness_ReadOnlyWriteIsIgnored :
    (mappedReg defaultConfig 0x01000018#32 = some (.node .route 0 .errAddr) ∧ access (.node .route 0 .errAddr) = .ro)
      ∧ (mappedReg defaultConfig 0x10000600#32 = some (.summary .correctable 0)
          ∧ access (.summary .correctable 0) = .combinational) := by decide +kernel

/-- The request of a sequencer, with the written bit 0 at 1 and at 0, and another link. -/
theorem witness_ResetSequencerRequest :
    configWf State.reset.cfg = true ∧ mappedReg State.reset.cfg 0x11003028#32 = some (.rstseqReq 3)
      ∧ (1#32 = fromBus State.reset.cfg (.rstseqReq 3) 1#32 ∧ (1#32).getLsbD 0 = true)
      ∧ (2#32 = fromBus State.reset.cfg (.rstseqReq 3) 2#32 ∧ (2#32).getLsbD 0 = false) ∧ 2 ≠ 3 :=
  ⟨configWf_default, by decide +kernel, by decide, by decide, by decide⟩

theorem witness_RequestTriggers :
    configWf State.reset.cfg = true ∧ mappedReg State.reset.cfg 0x11003010#32 = some (.tagpoolInit 3)
      ∧ mappedReg State.reset.cfg 0x0E000080#32 = some .ringCmd
      ∧ (∀ r ∈ [Reg.tagpoolInit 3, .ringCmd], 1#32 = fromBus State.reset.cfg r 1#32 ∧ 2#32 = fromBus State.reset.cfg r 2#32)
      ∧ (1#32).getLsbD 0 = true ∧ (2#32).getLsbD 0 = false :=
  ⟨configWf_default, by decide +kernel, by decide +kernel, by decide, by decide, by decide⟩

/-- A rising bit, with a register of the set, and a register of no set. -/
theorem witness_WarmResetWrite :
    configWf State.reset.cfg = true ∧ mappedReg State.reset.cfg 0x12000000#32 = some (.warmReset 0)
      ∧ (∀ l, l < State.reset.cfg.nLink → busAddr (.warmReset 0) ∉ (warmResetSet State.reset.cfg l).map busAddr)
      ∧ (3 < State.reset.cfg.pgSize ∧ 0 * State.reset.cfg.pgSize + 3 < State.reset.cfg.nLink ∧ (8#32).getLsbD 3 = true
          ∧ (State.reset.field (.warmReset 0)).getLsbD 3 = false
          ∧ Reg.ctrlStop 3 ∈ warmResetSet State.reset.cfg (0 * State.reset.cfg.pgSize + 3))
      ∧ 8#32 = fromBus State.reset.cfg (.warmReset 0) 8#32 ∧ busAddr (.ctrlStop 4) ≠ busAddr (.warmReset 0) :=
  ⟨configWf_default, by decide +kernel, by decide +kernel, by decide +kernel, by decide, by decide⟩

/-- A rising and a staying bit 0, a port kind that exists. -/
theorem witness_DebugClearWrite :
    configWf State.reset.cfg = true ∧ mappedReg State.reset.cfg 0x11003008#32 = some (.debugClear 3)
      ∧ (1#32).getLsbD 0 = true ∧ (State.reset.field (.debugClear 3)).getLsbD 0 = false
      ∧ (1#32 = fromBus State.reset.cfg (.debugClear 3) 1#32 ∧ 0#32 = fromBus State.reset.cfg (.debugClear 3) 0#32)
      ∧ Kind.route ∈ portKinds ∧ nodeExists State.reset.cfg .route 3 = true
      ∧ ¬((0#32).getLsbD 0 = true ∧ (State.reset.field (.debugClear 3)).getLsbD 0 = false) :=
  ⟨configWf_default, by decide +kernel, by decide, by decide +kernel, by decide, by decide, by decide +kernel, by decide⟩

/-- The three pairs, at the last index and at index 0. -/
theorem witness_IndexedWriteThenRead :
    configWf (withRegs [(.crumbAddr 2, 3#32)]).cfg = true
      ∧ (mappedReg defaultConfig 0x1100201C#32 = some (.crumbData 2)
          ∧ ((withRegs [(.crumbAddr 2, 3#32)]).field (.crumbAddr 2)).toNat < ramDepth defaultConfig .crumb)
      ∧ (mappedReg defaultConfig 0x11002024#32 = some (.camData 2)
          ∧ (State.reset.field (.camAddr 2)).toNat < ramDepth defaultConfig .cam)
      ∧ (mappedReg defaultConfig 0x14002004#32 = some (.tblData 2)
          ∧ (State.reset.field (.tblAddr 2)).toNat < ramDepth defaultConfig .ganged)
      ∧ ∀ r ∈ [Reg.crumbData 2, .camData 2, .tblData 2], 9#32 = fromBus defaultConfig r 9#32 :=
  ⟨configWf_default, by decide +kernel, by decide +kernel, by decide +kernel, by decide⟩

/-- A contain-enabled bit, and a link of the node. -/
theorem witness_ArrivalAtANode :
    configWf defaultConfig = true
      ∧ (withInputs [.move (.arrive .route 7 2#32 {})]).io.inbox = .move (.arrive .route 7 2#32 {}) :: []
      ∧ nodeExists defaultConfig .route 7 = true ∧ Kind.route ≠ .mctrl ∧ (2#32 : Word) ≠ 0#32
      ∧ ownsLatch defaultConfig .route 7 7 :=
  ⟨configWf_default, rfl, by decide +kernel, by decide, by decide, Or.inl rfl⟩

theorem witness_ArrivalAtAMicrocontroller :
    configWf defaultConfig = true
      ∧ (withInputs [.move (.arrive .mctrl 1 0x30#32 {})]).io.inbox = .move (.arrive .mctrl 1 0x30#32 {}) :: []
      ∧ nodeExists defaultConfig .mctrl 1 = true ∧ (0x30#32 : Word) ≠ 0#32 :=
  ⟨configWf_default, rfl, by decide +kernel, by decide⟩

/-- A unit with a limit bit (EGRESS), and one without (ROUTE). -/
theorem witness_EccTickCounts :
    configWf defaultConfig = true
      ∧ (withInputs [.move (.eccTick .egress 1 0 0#32 {})]).io.inbox = .move (.eccTick .egress 1 0 0#32 {}) :: []
      ∧ nodeExists defaultConfig .egress 1 = true ∧ hasReg defaultConfig .egress (.eccCount 0) = true
      ∧ (∃ e, table defaultConfig .egress 2 = some e ∧ e.ecc = .eccLimit 0)
      ∧ hasReg defaultConfig .route (.eccCount 0) = true
      ∧ ∀ r ∈ tvTable, r.kind = .route → r.entry.ecc ≠ .eccLimit 0 :=
  ⟨configWf_default, rfl, by decide +kernel, by decide +kernel, ⟨_, rfl, rfl⟩, by decide +kernel, by decide +kernel⟩

theorem witness_SourcesNeverClear :
    configWf defaultConfig = true ∧ isSourceMove defaultConfig (.arrive .route 3 1#32 {})
      ∧ isSourceMove defaultConfig (.rstseqAck 7)
      ∧ (∃ t, step (withInputs [.move (.arrive .route 3 1#32 {})]) = .next t)
      ∧ (mapped defaultConfig (.node .route 3 .errFirst) = true ∧ access (.node .route 3 .errFirst) = .w1c)
      ∧ (mapped defaultConfig .topEnable = true ∧ access .topEnable = .rw
          ∧ ∀ k i u, Reg.topEnable ≠ .node k i (.eccCount u)) :=
  ⟨configWf_default, trivial, (by decide : 7 < defaultConfig.nLink), next_of_isNext (by decide +kernel), by decide +kernel,
    by decide +kernel, by decide +kernel, nofun⟩

theorem witness_RespondersAnswerRequests :
    configWf defaultConfig = true ∧ 7 < defaultConfig.nLink
      ∧ ((withInputs [.move (.rstseqAck 7)]).setRstseqPending 7 true).rstseqPending 7 = true
      ∧ ((withInputs [.move (.ramInitDone 7)]).setRamInitPending 7 true).ramInitPending 7 = true
      ∧ ((withInputs [.move .ringAck]).setRingPending true).hw.ringPending = true :=
  ⟨configWf_default, by decide, by decide, by decide, rfl⟩

/-- A summary bit that is 1 and one that is 0, at the word's first and last bit. -/
theorem witness_SummaryBitsFollowTheNodes :
    (readReg (withRegs [(.node .route 3 .errStatus, 1#32), (.node .route 3 (.reportEn .fatal), 1#32),
        (.portIntrCtrl 3, 7#32)]) (.summary .fatal 0)).getLsbD 0 = true
      ∧ (readReg State.reset (.summary .fatal 0)).getLsbD 31 = false := by decide +kernel

theorem witness_ServiceWithNothingPending :
    Quiet State.reset ∧ readReg State.reset .topPending &&& State.reset.cfg.topEnableCfg = 0#32 :=
  ⟨⟨rfl, rfl, rfl⟩, by decide +kernel⟩

theorem witness_ServiceEndsWithOneEoi : Quiet (pendingAt .route 3 .fatal 1#32) := quiet_pending.2

/-- A SERVICE that owes its end of interrupt: as a step, in the idle block, before a command. -/
theorem witness_ServiceEndsWithOneEoi_owed :
    ((withInputs [.move .walkerTail]).setTail (some .success)).seq.wlkTail = some .success
      ∧ ((withInputs [.move .walkerTail]).setTail (some .success)).io.inbox = .move .walkerTail :: []
      ∧ (State.reset.setTail (some .success)).io.inbox = [] ∧ (State.reset.setTail (some .success)).io.sched = []
      ∧ (State.reset.setTail (some .success)).seq.lock = .free
      ∧ isWalkerCommand .qdev = true ∧ admitted (State.reset.setTail (some .success)).cfg .qdev = true := by decide

/-- A state in which every top-level bit is set: what SERVICE invokes there is the twenty children of port group 0, then
PCI, then PRIV. -/
def allTopBits : State :=
  withRegs ([(.portIntrCtrl 3, 7#32)] ++ [(Kind.route, 3), (.pci, 0), (.priv, 0)].flatMap (fun n =>
    [(.node n.1 n.2 .errStatus, 1#32), (.node n.1 n.2 (.reportEn .fatal), 1#32)]))

theorem witness_ServiceEndsWithOneEoi_calls :
    configWf allTopBits.cfg = true ∧ Quiet allTopBits
      ∧ (readReg allTopBits .topPending &&& allTopBits.cfg.topEnableCfg = 7#32)
      ∧ handleAdmitted allTopBits.cfg .pci 0 .fatal = true ∧ handleAdmitted allTopBits.cfg .priv 0 .fatal = true
      ∧ (allTopBits.serviceCalls.1.length = 22 ∧ allTopBits.serviceCalls.1.drop 20 = [(.pci, 0, .fatal), (.priv, 0, .fatal)]) :=
  ⟨configWf_default, ⟨rfl, rfl, rfl⟩, by decide +kernel, by decide +kernel, by decide +kernel, by decide +kernel⟩

/-- Each family at its last instance, in its last tree. -/
theorem witness_WalkServicesEveryChild :
    walkAdmitted defaultConfig .xbar 0 .correctable = true ∧ walkAdmitted defaultConfig .portgrp 1 .correctable = true
      ∧ walkAdmitted defaultConfig .linkmgmt 1 .correctable = true
      ∧ walkAdmitted defaultConfig .mctrlf 1 .nonfatal = true := by decide

/-- A list for each of the three cases. -/
theorem witness_AggregationIsFlat :
    Result3.moreProcessingRequired ∈ [Result3.success, .moreProcessingRequired]
      ∧ (Result3.moreProcessingRequired ∉ [Result3.notFound, .success] ∧ Result3.success ∈ [Result3.notFound, .success])
      ∧ (Result3.moreProcessingRequired ∉ ([] : List Result3) ∧ Result3.success ∉ ([] : List Result3))
      ∧ [Result3.success, .notFound].Perm [.notFound, .success] := by decide

/-- A command presented while RCV holds the mutex, and twice to be taken up. -/
def waiting (ws : List Word) : State :=
  ((withInputs [.frame (.command ws)]).setLock (.rcv 3)).setSched [[.runNext, .runNext]]

theorem witness_HeldMutexMakesCommandsWait :
    decodeWords [0x06000000#32] = .ok .qdev ∧ admitted defaultConfig .qdev = true ∧ isWalkerCommand .qdev = true
      ∧ (decodeWords [0x07000001#32, 8#32] = .ok (.rstdrain false [8#32])
          ∧ admitted defaultConfig (.rstdrain false [8#32]) = true ∧ linkSet [8#32] ≠ [])
      ∧ (∀ ws ∈ [[0x06000000#32], [0x07000001#32, 8#32]],
          (waiting ws).io.inbox = .frame (.command ws) :: [] ∧ (waiting ws).io.sched = List.replicate 2 .runNext :: []
            ∧ (waiting ws).seq.lock ≠ .free)
      ∧ (((waiting [0x06000000#32]).setLock .free).setSched [[.runNext]]).io.sched = List.replicate 1 .runNext :: []
      ∧ ((waiting [0x06000000#32]).setLock .free).seq.lock = .free := by decide

/-- A handler that finds nothing: a node of every kind, in a tree of its own. -/
theorem witness_HandleFindsNothing :
    Quiet State.reset ∧ (allKinds.all (fun k => handleAdmitted defaultConfig k 0 .fatal)) = true
      ∧ (allKinds.all (fun k => State.reset.maskOf k 0 .fatal == 0#32)) = true :=
  ⟨⟨rfl, rfl, rfl⟩, by decide +kernel, by decide +kernel⟩

/-- A handler that finds a bit: a node of every kind but MCTRL, and MCTRL's last link. It serves
`HandleServicesTheMask`, `HandleReportsTheBits`, `HandleWriteOrder` and `NoBitIsDropped` (bit 0). -/
theorem witness_HandleServicesTheMask :
    configWf defaultConfig = true
      ∧ ((allKinds.filter (fun k => decide (k ≠ .mctrl))).all (fun k =>
          handleAdmitted defaultConfig k 0 .fatal && (pendingAt k 0 .fatal 1#32).maskOf k 0 .fatal == 1#32)) = true
      ∧ handleAdmitted defaultConfig .mctrl 7 .fatal = true
      ∧ (withRegs [(.intrStatus 1, 8#32), (.intrStallEn 1, 0xF#32)]).maskOf .mctrl 7 .fatal ≠ 0#32 := by decide +kernel

theorem witness_NoBitIsDropped :
    Quiet (pendingAt .tstate 4 .fatal 0x80000000#32) ∧ handleAdmitted defaultConfig .tstate 4 .fatal = true
      ∧ ((pendingAt .tstate 4 .fatal 0x80000000#32).maskOf .tstate 4 .fatal).getLsbD 31 = true :=
  ⟨⟨rfl, rfl, rfl⟩, by decide +kernel, by decide +kernel⟩

/-- An arrival before access 2 of the HANDLE, of a bit inside the mask and one outside. -/
theorem witness_NoBitIsDropped_late :
    let s := (pendingAt .route 3 .fatal 1#32).setSched (onlyBefore 2 (.arrive .route 3 5#32 {}))
    configWf s.cfg = true ∧ s.seq.lock = .free ∧ s.seq.wlkTail = none ∧ handleAdmitted s.cfg .route 3 .fatal = true
      ∧ (1 : Nat) ≤ 2 ∧ s.io.sched = onlyBefore 2 (.arrive .route (statusNode s.cfg .route 3) 5#32 {}) :=
  ⟨configWf_default, rfl, rfl, by decide +kernel, by decide, rfl⟩

theorem witness_SecondHandleFindsNothing :
    Quiet (pendingAt .route 3 .fatal 1#32) ∧ handleAdmitted defaultConfig .route 3 .fatal = true
      ∧ ∃ u, exec (handleInstr .route 3#12 .fatal) (pendingAt .route 3 .fatal 1#32) = .next u :=
  ⟨quiet_pending.2, by decide +kernel, next_of_isNext (by decide +kernel)⟩

theorem witness_LinkInterruptServedOnceInBothTrees :
    engineOf defaultConfig (32 * 0 + 5) = some (.mctrlf, 1)
      ∧ handleAdmitted defaultConfig .mctrl 7 .fatal = true ∧ handleAdmitted defaultConfig .mctrl 7 .nonfatal = true
      ∧ (∃ u, exec (.handleMctrl 7#12 .fatal) (withRegs [(.intrStatus 1, 8#32), (.intrStallEn 1, 0xF#32)]) = .next u)
      ∧ Quiet (withRegs [(.intrStatus 1, 8#32), (.intrStallEn 1, 0xF#32)]) :=
  ⟨by decide +kernel, by decide +kernel, by decide +kernel, next_of_isNext (by decide +kernel), rfl, rfl, rfl⟩

theorem witness_ContainedBitIsFatal :
    ∃ e, reportable defaultConfig .tl 2#32 1 = some e ∧ e.contain = true ∧ e.sev = .nonFatal ∧ hasFullSet .tl = true
      ∧ (((pendingAt .tl 2 .nonfatal 2#32).store (.node .tl 2 .containEn) 2#32).maskOf .tl 2 .nonfatal).getLsbD 1 = true
      ∧ (((pendingAt .tl 2 .nonfatal 2#32).store (.node .tl 2 .containEn) 2#32).field (.node .tl 2 .containEn)).getLsbD 1
          = true
      ∧ Quiet ((pendingAt .tl 2 .nonfatal 2#32).store (.node .tl 2 .containEn) 2#32)
      ∧ handleAdmitted defaultConfig .tl 2 .nonfatal = true ∧ ownerLink .tl 2 = some 2 :=
  ⟨_, rfl, rfl, rfl, rfl, by decide +kernel, by decide +kernel, ⟨rfl, rfl, rfl⟩, by decide +kernel, rfl⟩

/-- EGRESS[1] with its limit bit 2 and its double-bit-error bit 3 pending. -/
theorem witness_DoubleBitErrorSuppressesTheLimit :
    (∃ e, table defaultConfig .egress 2 = some e ∧ e.ecc = .eccLimit 0)
      ∧ bitWithTag defaultConfig .egress (.eccDbe 0) = some 3
      ∧ handleAdmitted defaultConfig .egress 1 .correctable = true
      ∧ ((pendingAt .egress 1 .correctable 0xC#32).maskOf .egress 1 .correctable).getLsbD 2 = true
      ∧ ((pendingAt .egress 1 .correctable 0xC#32).pendingOf .egress 1).getLsbD 3 = true
      ∧ Quiet (pendingAt .egress 1 .correctable 0xC#32) :=
  ⟨⟨_, rfl, rfl⟩, by decide +kernel, by decide +kernel, by decide +kernel, by decide +kernel, rfl, rfl, rfl⟩

theorem witness_CommonFaultFansOut :
    (∃ e, reportable defaultConfig .lmcommon 1#32 0 = some e ∧ e.sev = .fatal) ∧ linksOfLm defaultConfig 1 = [4, 5, 6, 7]
      ∧ handleAdmitted defaultConfig .lmcommon 1 .fatal = true
      ∧ (pendingAt .lmcommon 1 .fatal 1#32).pendingOf .lmcommon 1 = 1#32
      ∧ ((pendingAt .lmcommon 1 .fatal 1#32).maskOf .lmcommon 1 .fatal).getLsbD 0 = true
      ∧ Quiet (pendingAt .lmcommon 1 .fatal 1#32) :=
  ⟨⟨_, rfl, rfl⟩, by decide +kernel, by decide +kernel, by decide +kernel, by decide +kernel, rfl, rfl, rfl⟩

/-- With the ring master's acknowledgement and without it. -/
theorem witness_PrivRingHandshake :
    handleAdmitted defaultConfig .priv 0 .fatal = true ∧ (pendingAt .priv 0 .fatal 1#32).maskOf .priv 0 .fatal ≠ 0#32
      ∧ Quiet (pendingAt .priv 0 .fatal 1#32) ∧ Quiet ((pendingAt .priv 0 .fatal 1#32).setEnv .privAck false)
      ∧ ((pendingAt .priv 0 .fatal 1#32).ask .privAck).1 = true
      ∧ (((pendingAt .priv 0 .fatal 1#32).setEnv .privAck false).ask .privAck).1 = false :=
  ⟨by decide +kernel, by decide +kernel, ⟨rfl, rfl, rfl⟩, ⟨rfl, rfl, rfl⟩, by decide +kernel, by decide +kernel⟩

/-- A link not faulted and one faulted; a device not recorded and one recorded. -/
theorem witness_SetfatalMarksOnce :
    admitted defaultConfig (.setfatal (some 7#12) true) = true ∧ admitted defaultConfig (.setfatal none false) = true
      ∧ State.reset.fatalOccurred 7 = false ∧ (State.reset.setFatalOccurred 7 true).fatalOccurred 7 = true
      ∧ State.reset.fault.resetRequired = false ∧ Quiet (State.reset.setFatalOccurred 7 true) :=
  ⟨by decide, by decide, by decide, by decide, rfl, rfl, rfl, rfl⟩

theorem witness_QlinkAnswersTheFlag :
    Quiet State.reset ∧ (7#12 : BitVec 12).toNat < State.reset.cfg.nLink
      ∧ State.reset.cfg.nLink ≤ (8#12 : BitVec 12).toNat := ⟨⟨rfl, rfl, rfl⟩, by decide, by decide⟩

theorem witness_QdevAnswersTheFlag : Quiet State.reset := ⟨rfl, rfl, rfl⟩

theorem witness_FlagsReloadOnlyAtSoftReset :
    configWf State.reset.cfg = true ∧ mappedReg State.reset.cfg 0x10000040#32 = some (.scratchPort 0)
      ∧ mappedReg State.reset.cfg 0x10000010#32 = some .scratchDevice
      ∧ 7 < State.reset.cfg.nLink ∧ 7 / 32 = 0 :=
  ⟨configWf_default, by decide +kernel, by decide +kernel, by decide, by decide⟩

/-- A walker command that completes, an enable register, a link with its flag set. It serves `WalkerNeverClearsAFlag`. -/
theorem witness_WalkerOnlyRemovesEnables :
    isWalkerCommand (.handleRoute 3#12 .fatal) = true
      ∧ (∃ u, exec (.handleRoute 3#12 .fatal) (pendingAt .route 3 .fatal 1#32) = .next u)
      ∧ mapped defaultConfig (.node .route 3 (.reportEn .fatal)) = true
      ∧ isReportEnable (.node .route 3 (.reportEn .fatal)) = true
      ∧ ((pendingAt .route 3 .fatal 1#32).setFatalOccurred 3 true).fatalOccurred 3 = true
      ∧ Quiet ((pendingAt .route 3 .fatal 1#32).setFatalOccurred 3 true) :=
  ⟨rfl, next_of_isNext (by decide +kernel), by decide +kernel, rfl, by decide +kernel, rfl, rfl, rfl⟩

theorem witness_RstdrainOfNoLink :
    State.reset.io.sched = [] ∧ State.reset.seq.rcvTail = none ∧ admitted State.reset.cfg (.rstdrain false [0#32]) = true
      ∧ linkSet [0#32] = [] := by decide

/-- Step 15 owed, and the Result owed, with the mutex held by the walker. -/
theorem witness_RstdrainOfNoLink_owed :
    let s := ((withInputs [.move .rcvStep]).setLock .wlk).oweTraining [(3, .ok, 0)]
    s.io.inbox = .move .rcvStep :: [] ∧ s.seq.rcvTail = some { sts := [(3, .ok, 0)], launched := false }
      ∧ (s.setRcvTail (some { sts := [(3, .ok, 0)], launched := true })).seq.rcvTail
        = some { sts := [(3, .ok, 0)], launched := true } := ⟨rfl, rfl, rfl⟩

theorem witness_RstdrainAlwaysCompletes :
    Quiet State.reset ∧ State.reset.seq.rcvTail = none ∧ admitted State.reset.cfg (.rstdrain true [0xFF#32]) = true :=
  ⟨⟨rfl, rfl, rfl⟩, rfl, by decide⟩

/-- A RSTDRAIN that comes while another owes step 15, or its Result. -/
theorem witness_RstdrainAlwaysCompletes_owed (launched : Bool) :
    Quiet ((State.reset.oweTraining []).setRcvTail (some { sts := [], launched := launched }))
      ∧ ((State.reset.oweTraining []).setRcvTail (some { sts := [], launched := launched })).seq.rcvTail
        = some { sts := [], launched := launched }
      ∧ admitted ((State.reset.oweTraining []).setRcvTail (some { sts := [], launched := launched })).cfg (.rstdrain true [0xFF#32]) = true :=
  ⟨⟨rfl, rfl, rfl⟩, rfl, by cases launched <;> decide⟩

/-- Link 7 alone, favoured by the default environment; its warm reset reaches neither WARM_RESET nor SCRATCH_PORT. -/
theorem witness_RstdrainRecoversALink :
    (∀ r ∈ [Reg.warmReset (pg defaultConfig 7), .scratchPort 0], busAddr r ∉ (warmResetSet defaultConfig 7).map busAddr) ∧
    configWf State.reset.cfg = true ∧ admitted State.reset.cfg (.rstdrain false [0x80#32]) = true
      ∧ linkSet [0x80#32] = [7] ∧ forcedGate State.reset false 7 = true ∧ validLink State.reset 7 = true
      ∧ Favours State.reset 7 :=
  ⟨by decide +kernel, configWf_default, by decide, by decide, by decide, by decide +kernel, ⟨rfl, rfl, rfl, rfl⟩⟩

/-- Links 1 and 2, the contain latch of link 1 stuck. -/
theorem witness_FaultIsolationInABatch :
    let s := State.reset.setEnv (.containStuck 1) true
    Quiet s ∧ admitted s.cfg (.rstdrain false [6#32]) = true ∧ linkSet [6#32] = [1, 2]
      ∧ s.seq.rcvTail = none ∧ (∀ u : State, u.cfg = s.cfg → forcedGate u false 2 = true)
      ∧ validLink s 2 = true ∧ Favours s 2 :=
  ⟨⟨rfl, rfl, rfl⟩, by decide, by decide, rfl, fun u h => by unfold forcedGate; rw [h]; rfl, by decide +kernel,
    ⟨rfl, rfl, rfl, rfl⟩⟩

/-- A link the gate excludes, and one that is disabled. -/
theorem witness_RstdrainSkips :
    let gated : State := { State.reset with cfg := { defaultConfig with forcedGate := .not (.linkIs 3) } }
    let disabled : State := { State.reset with cfg := { defaultConfig with disabledLinks := [7] } }
    (Quiet gated ∧ configWf gated.cfg = true ∧ admitted gated.cfg (.rstdrain false [8#32]) = true ∧ linkSet [8#32] = [3]
        ∧ forcedGate gated false 3 = false)
      ∧ (Quiet disabled ∧ configWf disabled.cfg = true ∧ admitted disabled.cfg (.rstdrain false [0x80#32]) = true
        ∧ linkSet [0x80#32] = [7] ∧ forcedGate disabled false 7 = true ∧ validLink disabled 7 = false) :=
  ⟨⟨⟨rfl, rfl, rfl⟩, by decide +kernel⟩, ⟨⟨rfl, rfl, rfl⟩, by decide +kernel⟩⟩

/-- Link 3 of a machine whose environment holds it up at each of the four steps that can fail. -/
def stoppedAt : Nat → State
  | 8 => State.reset.setEnv (.rstseqAck 3) false
  | 10 => (State.reset.setEnv (.containStuck 3) true).store (.containLatch 3) 1#32
  | 11 => State.reset.setEnv (.raminitDone 3) false
  | _ => State.reset.setEnv (.registerOk 3) false

theorem witness_SequencerTimeoutLeavesTheLinkDown :
    (∀ stp, Quiet (stoppedAt stp) ∧ (stoppedAt stp).seq.rcvTail = none ∧ (stoppedAt stp).cfg = defaultConfig)
      ∧ (admitted defaultConfig (.rstdrain false [8#32]) = true ∧ linkSet [8#32] = [3])
      ∧ (stopsAt (stoppedAt 8) 3 8 ∧ stopsAt (stoppedAt 10) 3 10 ∧ stopsAt (stoppedAt 11) 3 11 ∧ stopsAt (stoppedAt 14) 3 14)
      ∧ (∀ stp ∈ [8, 10, 11, 14], forcedGate (stoppedAt stp) false 3 = true ∧ validLink (stoppedAt stp) 3 = true)
      ∧ ∀ r ∈ [Reg.warmReset (pg defaultConfig 3), .portIntrCtrl 3, .lmIntrCtrl 3, .containLatch 3],
          busAddr r ∉ (warmResetSet defaultConfig 3).map busAddr := by
  refine ⟨fun stp => ?_, by decide, ⟨?_, ?_, ?_, ?_⟩, by decide +kernel, by decide +kernel⟩
  · unfold stoppedAt
    split <;> exact ⟨⟨rfl, rfl, rfl⟩, rfl, rfl⟩
  · exact (by decide +kernel : ((stoppedAt 8).ask (.rstseqAck 3)).1 = false)
  · exact (by decide +kernel : ((stoppedAt 10).ask (.rstseqAck 3)).1 = true ∧ ((stoppedAt 10).ask (.containStuck 3)).1 = true
      ∧ ((stoppedAt 10).field (.containLatch 3)).getLsbD 0 = true)
  · exact (by decide +kernel : ((stoppedAt 11).ask (.rstseqAck 3)).1 = true ∧ ((stoppedAt 11).ask (.containStuck 3)).1 = false
      ∧ ((stoppedAt 11).ask (.raminitDone 3)).1 = false)
  · exact (by decide +kernel : ((stoppedAt 14).ask (.rstseqAck 3)).1 = true ∧ ((stoppedAt 14).ask (.containStuck 3)).1 = false
      ∧ ((stoppedAt 14).ask (.raminitDone 3)).1 = true ∧ ((stoppedAt 14).ask (.registerOk 3)).1 = false)

/-- The line asserted, the mutex free; and the line low. -/
theorem witness_DeliveryIssuesService :
    let s := (((pendingAt .pci 0 .fatal 1#32).store .topEnable 7#32).setArmed true).setInbox [.move .deliver]
    (s.hw.armed = true ∧ readReg s .topPending &&& readReg s .topEnable ≠ 0#32 ∧ s.seq.lock = .free)
      ∧ ¬((withInputs [.move .deliver]).hw.armed = true
          ∧ readReg (withInputs [.move .deliver]) .topPending &&& readReg (withInputs [.move .deliver]) .topEnable
            ≠ 0#32) := by decide +kernel

theorem witness_ColdResetState :
    (withInputs [.move (.coldReset {})]).io.inbox = .move (.coldReset {}) :: [] ∧ 4095 < 4096 ∧ 127 < 128 :=
  ⟨rfl, by decide, by decide⟩

theorem witness_SoftResetState :
    (withInputs [.move .softReset]).io.inbox = .move .softReset :: [] ∧ 7 < (withInputs [.move .softReset]).cfg.nLink :=
  ⟨rfl, by decide⟩

theorem witness_BootReachesCleanEntry :
    configWf (withInputs (bootInputs defaultConfig)).cfg = true ∧ (withInputs (bootInputs defaultConfig)).seq.lock = .free
      ∧ (withInputs (bootInputs defaultConfig)).io.inbox = bootInputs defaultConfig := ⟨configWf_default, rfl, rfl⟩

theorem witness_StepRunsTheDecodedOperation :
    (decodeWords [0x06000000#32] = .ok .qdev ∧ State.reset.seq.lock = .free)
      ∧ (decodeWords [0x07000001#32, 0#32] = .ok (.rstdrain false [0#32]) ∧ takesLock (.rstdrain false [0#32]) = false)
      ∧ (decodeWords [0x05000008#32] = .ok (.qlink 8#12) ∧ admitted defaultConfig (.qlink 8#12) = false)
      ∧ decodeBus true 0x10000008#32 1#32 = .ok (.wr32 0x10000008#32 1#32)
      ∧ aligned 0x01000002#32 = false := by decide

/-- A state with the invariant that is not the reset state, and a step from it. -/
theorem witness_StepKeepsTheInvariant :
    Inv ((pendingAt .route 3 .fatal 1#32).setInbox [.frame (.command [0x03040003#32])])
      ∧ ∃ t, step ((pendingAt .route 3 .fatal 1#32).setInbox [.frame (.command [0x03040003#32])]) = .next t :=
  ⟨⟨by decide +kernel, rfl⟩, next_of_isNext (by decide +kernel)⟩

end Sys2Proof.Tests
end

/-! PROOFS. Family 10_state: one write or read of the register bus as `exec` runs it (R150, R151), and the settled statements
about it. -/

namespace Sys2Proof.Machine

/-! ## One bus access -/

/-- RD32 of a mapped register hands out what it reads and changes nothing else (R150). -/
theorem exec_rd32_mapped {s : State} {a : Word} {r : Reg} (h : mappedReg s.cfg a = some r) :
    exec (.rd32 a) s = .next (s.answerRead (toBus s.cfg r (readReg s r))) := by
  change execRd32 a s = _
  simp only [execRd32, h]

/-- WR32 of a mapped register that is no contain latch is the record in H and the write (R151). -/
theorem exec_wr32_plain {s : State} {a : Word} {r : Reg} (h : mappedReg s.cfg a = some r) (hr : ∀ l, r ≠ .containLatch l) (w : Word) :
    exec (.wr32 a w) s
      = .next ((s.emit (.write r (fromBus s.cfg r w))).applyWrite r (fromBus s.cfg r w) false) := by
  have hq : stuckQuery r (fromBus s.cfg r w) = none := by
    unfold stuckQuery
    split
    · exact absurd rfl (hr _)
    · rfl
  change execWr32 a w s = _
  simp only [execWr32, h, writeReg_plain hq]
  rfl

/-- A store changes the register's own cell only. -/
theorem State.store_sameCellsBut (s : State) (r : Reg) (v : Word) : SameCellsBut [r] s (s.store r v) := by
  intro a ha
  rw [State.store_cellAt, if_neg (by simpa using ha)]

/-! ## The write-only registers (R38, R46, R35) -/

/-- Settles O13: the side effect of the WO register HOST_EOI is `armed`. -/
theorem eoiWriteArms : Obligations.EoiWriteArms := by
  intro s a v h
  exact exec_wr32_plain h nofun v

/-- R46: a written bit 0 of TAGPOOL_INIT clears RAM_INIT_STATUS and asks the RAM initialiser; nothing else does. -/
theorem applyWrite_tagpoolInit (s : State) (l : Nat) (v : Word) (stuck : Bool) :
    s.applyWrite (.tagpoolInit l) v stuck =
      if v.getLsbD 0 then (s.store (.ramInitStatus l) 0#32).setRamInitPending l true else s := rfl

/-- R35, R245: a written bit 0 of RING_CMD clears RING_STATUS and asks the ring master; nothing else does. -/
theorem applyWrite_ringCmd (s : State) (v : Word) (stuck : Bool) :
    s.applyWrite .ringCmd v stuck = if v.getLsbD 0 then (s.store .ringStatus 0#32).setRingPending true else s := rfl

/-- Settles O15: the two triggers, each for a written bit 0 of 1 and of 0. -/
theorem requestTriggers : Obligations.RequestTriggers := by
  intro s a w v _
  refine ⟨fun l hm hv => ⟨_, exec_wr32_plain hm nofun w, ?_⟩, fun hm hv => ⟨_, exec_wr32_plain hm nofun w, ?_⟩⟩
  · rw [← hv, applyWrite_tagpoolInit]
    cases v.getLsbD 0 with
    | false => exact ⟨nofun, fun _ => rfl, rfl, rfl⟩
    | true =>
      refine ⟨fun _ => ⟨?_, ?_, ?_, rfl, fun j hj => ?_⟩, nofun, rfl, rfl⟩
      · simp
      · simp [State.setRamInitPending_read]
      · exact (s.emit _).store_sameCellsBut (.ramInitStatus l) 0#32
      · rw [if_pos rfl, State.setRamInitPending_read, if_neg hj]
        rfl
  · rw [← hv, applyWrite_ringCmd]
    cases v.getLsbD 0 with
    | false => exact ⟨nofun, fun _ => rfl, rfl, rfl⟩
    | true =>
      refine ⟨fun _ => ⟨?_, rfl, ?_, rfl⟩, nofun, rfl, rfl⟩
      · simp
      · exact (s.emit _).store_sameCellsBut .ringStatus 0#32

/-! ## The indexed RAMs (R47, R51, R304) -/

theorem applyWrite_ramData (s : State) (m : Ram) (l : Nat) (v : Word) (stuck : Bool) :
    s.applyWrite (ramData m l) v stuck = s.ramWrite m l (s.field (ramAddr m l)).toNat v := by cases m <;> rfl

theorem readReg_ramData (s : State) (m : Ram) (l : Nat) :
    readReg s (ramData m l) = s.ramRead m l (s.field (ramAddr m l)).toNat := by cases m <;> rfl

theorem ramData_ne_containLatch (m : Ram) (l j : Nat) : ramData m l ≠ .containLatch j := by cases m <;> nofun

/-- Two entries of a RAM have two keys, as far as an index is one of 32 bits. -/
theorem ramKey_inj {l l' i i' : Nat} (hi : i < 0x100000000) (hi' : i' < 0x100000000) (h : ramKey l i = ramKey l' i') :
    l = l' ∧ i = i' := by
  unfold ramKey at h
  omega

/-- A write below the depth stores at the index; every other entry of every RAM is as before. -/
theorem State.ramWrite_ramEntry (s : State) {m m' : Ram} {l l' i i' : Nat} (v : Word) (h : i < ramDepth s.cfg m)
    (hi : i < 0x100000000) (hi' : i' < 0x100000000) :
    (s.ramWrite m l i v).ramEntry m' l' i' = if (m', l', i') = (m, l, i) then v else s.ramEntry m' l' i' := by
  have hkey : ramKey l' i' = ramKey l i ↔ l' = l ∧ i' = i := ⟨ramKey_inj hi' hi, fun ⟨hl, hi⟩ => by rw [hl, hi]⟩
  simp only [State.ramWrite, ramIndex_of_lt h]
  cases m <;> cases m' <;> simp [State.ramEntry, State.setRam, State.ramOf, Memory.get_set, hkey]

/-- Of the hardware it touches the RAMs only. -/
theorem State.ramWrite_cellAt (s : State) (m : Ram) (l i : Nat) (v : Word) (a : Nat) :
    (s.ramWrite m l i v).cellAt a = s.cellAt a := by
  unfold State.ramWrite
  split
  · cases m <;> rfl
  · rfl

/-- A read below the depth finds the entry at the index. -/
theorem State.ramRead_of_lt (s : State) {m : Ram} {l i : Nat} (h : i < ramDepth s.cfg m) : s.ramRead m l i = s.ramEntry m l i := by
  simp only [State.ramRead, ramIndex_of_lt h]

/-- Settles O18: the write stores at the index and leaves the ADDR register, so that the read finds the entry. -/
theorem indexedWriteThenRead : Obligations.IndexedWriteThenRead := by
  intro s a w v m l ad da _ hm hv hpair hlt
  obtain ⟨rfl, rfl⟩ : ad = ramAddr m l ∧ da = ramData m l := by
    rcases hpair with h | h | h <;> cases h <;> exact ⟨rfl, rfl⟩
  have hi := (s.field (ramAddr m l)).isLt
  have hwrite := exec_wr32_plain hm (ramData_ne_containLatch m l) w
  rw [← hv, applyWrite_ramData] at hwrite
  let u := s.emit (.write (ramData m l) v)
  let t := u.ramWrite m l (s.field (ramAddr m l)).toNat v
  obtain ⟨hcfg, hfault, hseq, -⟩ := (u.ramWrite_hardwareOnly m l (s.field (ramAddr m l)).toNat v).parts
  have hcell : ∀ b, t.cellAt b = s.cellAt b := u.ramWrite_cellAt m l _ v
  have hentry : ∀ m' l' i, i < 0x100000000 → t.ramEntry m' l' i
      = if (m', l', i) = (m, l, (s.field (ramAddr m l)).toNat) then v else s.ramEntry m' l' i :=
    fun m' l' i hi' => u.ramWrite_ramEntry v hlt hi hi'
  have hsame : t.ramEntry m l (s.field (ramAddr m l)).toNat = v := by rw [hentry _ _ _ hi, if_pos rfl]
  have hread : readReg t (ramData m l) = v := by
    rw [readReg_ramData, State.field_congr (s := s) hcfg (hcell _), State.ramRead_of_lt t (by rw [hcfg]; exact hlt), hsame]
  refine ⟨t, hwrite, hsame, hcell, fun m' l' i hi' hne => ?_, hfault, hseq, ?_⟩
  · rw [hentry _ _ _ hi', if_neg hne]
  · rw [exec_rd32_mapped (by rw [hcfg]; exact hm), hread]
    rfl

end Sys2Proof.Machine

/-! PROOFS. Family 10_state: the mutex (R62). A command at the head of the inbox that needs the mutex while the other sequencer
holds it stays there, at every scheduled moment in which it might be taken up (R192, R313). -/

namespace Sys2Proof.Machine

/-! ## A moment in which nobody can move -/

/-- An action that leaves this state as it is. -/
def Idles (x : Act Unit) (s : State) : Prop := x s = .ok () s

/-- As many moves as there are, each of which leaves the state, leave the state. -/
theorem applyMoves_idles {m : Move} {s : State} (h : Idles (applyMove m) s) (n : Nat) : Idles (applyMoves (List.replicate n m)) s := by
  induction n with
  | zero => rfl
  | succ n ih => exact (Act.bind_of_ok h).trans ih

theorem applyWindowMoves_idles {s : State} (h : Idles runNextWalker s) (n : Nat) :
    Idles (applyWindowMoves (List.replicate n .runNext)) s := by
  induction n with
  | zero => rfl
  | succ n ih => exact (Act.bind_of_ok h).trans ih

/-- The moment before an access is the moves of its entry of the schedule. -/
theorem tick_slot {s : State} {slot : List Move} {rest : List (List Move)} (h : s.io.sched = slot :: rest) :
    tick s = applyMoves slot (s.setSched rest) := by
  unfold tick
  rw [Act.get_bind, h]
  rfl

/-- The moment between two links is the moves of its entry of the schedule. -/
theorem window_slot {s : State} {slot : List Move} {rest : List (List Move)} (h : s.io.sched = slot :: rest) :
    window s = applyWindowMoves slot (s.setSched rest) := by
  unfold window
  rw [Act.get_bind, h]
  rfl

/-! ## The command at the head of the inbox -/

section
variable {s : State} {ws : List Word} {i : Instr} {later : List Input}

/-- A command that is admitted is not one of the refused ones, which are answered at any time (R139, log 39). -/
theorem answerRefused_admitted (hin : s.io.inbox = .frame (.command ws) :: later) (hd : decodeWords ws = .ok i)
    (ha : admitted s.cfg i = true) (x : Act Unit) : answerRefused x s = x s := by
  have hhead : s.refusedHead = none := by simp only [State.refusedHead, hin, hd, ha, if_true]
  unfold answerRefused
  rw [Act.get_bind, hhead]

/-- RCV takes up nothing but a RSTDRAIN of no link while WLK is at work (R62, R281). -/
theorem startRcv_idles (hin : s.io.inbox = .frame (.command ws) :: later) (hd : decodeWords ws = .ok i)
    (ha : admitted s.cfg i = true) (hi : ∀ forced masks, i = .rstdrain forced masks → linkSet masks ≠ []) : Idles startRcv s := by
  refine (answerRefused_admitted hin hd ha _).trans ?_
  unfold takeUpRcv
  simp only [Act.get_bind, hin, hd]
  cases i with
  | rstdrain forced masks =>
    have hne : ¬(s.seq.rcvLink = none ∧ s.seq.rcvTail = none ∧ (linkSet masks).isEmpty = true) :=
      fun h => hi forced masks rfl (List.isEmpty_iff.mp h.2.2)
    simp only [if_neg hne]
    rfl
  | _ => rfl

/-- WLK takes up nothing while the mutex is held (R62, R192). -/
theorem runNextWalker_idles (hin : s.io.inbox = .frame (.command ws) :: later) (hd : decodeWords ws = .ok i)
    (ha : admitted s.cfg i = true) (hl : s.seq.lock ≠ .free) : Idles runNextWalker s := by
  refine (answerRefused_admitted hin hd ha _).trans ?_
  unfold takeUpWalker
  simp only [Act.get_bind, hin, hd]
  cases walkerProgram i with
  | none => rfl
  | some prog => exact congrFun (if_neg hl) s

/-- With the mutex free WLK takes its command from the inbox and runs it (R281, R313). -/
theorem runNextWalker_runs (hin : s.io.inbox = .frame (.command ws) :: later) (hd : decodeWords ws = .ok i)
    (ha : admitted s.cfg i = true) (hl : s.seq.lock = .free) {prog : Act Unit} (hp : walkerProgram i = some prog) :
    runNextWalker s = prog (s.setInbox (remaining ws ++ later)) := by
  refine (answerRefused_admitted hin hd ha _).trans ?_
  unfold takeUpWalker
  simp only [Act.get_bind, hin, hd, hp, if_pos hl]
  rfl

end

/-- The walker's commands are those with a program of WLK (R18). -/
theorem walkerProgram_of_isWalkerCommand {i : Instr} (h : isWalkerCommand i = true) : ∃ prog, walkerProgram i = some prog := by
  cases i with
  | rstdrain _ _ | rd32 _ | wr32 _ _ => cases h
  | _ => exact ⟨_, rfl⟩

/-- Nothing done after an action changes nothing. -/
theorem Act.bind_pure_unit (x : Act Unit) (s : State) : (x >>= fun _ => pure ()) s = x s := by
  rw [Act.bind_apply]
  cases x s <;> rfl

/-- Settles O30: neither sequencer can take up the command, so a moment of such moves takes its entry of the schedule only; and
with the mutex free the moment between two links is the walker's program. -/
theorem heldMutexMakesCommandsWait : Obligations.HeldMutexMakesCommandsWait := by
  intro s ws i later n rest hin hd ha hs
  refine ⟨fun hl hi => ⟨?_, ?_, lock_held hl⟩, fun hl hw hn => ?_⟩
  · have hrst : ∀ forced masks, i = .rstdrain forced masks → linkSet masks ≠ [] := by
      rintro f m rfl
      rcases hi with hw | ⟨f', m', e, hne⟩
      · cases hw
      · cases e; exact hne
    exact (tick_slot hs).trans (applyMoves_idles (m := .runNext) (startRcv_idles (s := s.setSched rest) hin hd ha hrst) n)
  · exact (window_slot hs).trans (applyWindowMoves_idles (runNextWalker_idles (s := s.setSched rest) hin hd ha hl) n)
  · obtain ⟨prog, hp⟩ := walkerProgram_of_isWalkerCommand hw
    subst hn
    refine ⟨prog, hp, (window_slot hs).trans ?_⟩
    exact (Act.bind_pure_unit runNextWalker _).trans (runNextWalker_runs (s := s.setSched rest) hin hd ha hl hp)

end Sys2Proof.Machine

/-! PROOFS. Family 10_state: what every step keeps (R58 to R67). Between two commands nothing is in flight. Inside one the
sequencers' state passes through the stages of the command, while the other agents may at any access do what needs no mutex:
finish a SERVICE's end, advance or take up a RSTDRAIN that has no link before it, or reset the block. -/

namespace Sys2Proof.Machine

variable {α β : Type}

/-! ## Partial correctness over the sequencers' state -/

/-- The action reached its end with the sequencers' state as `Q` says, or a reset fell inside it and nothing is in flight, or
it gives no step. -/
def EndsIn (Q : Sequencer → Prop) : EStateM.Result Stop State α → Prop
  | .ok _ t => Q t.seq
  | .error .reset t => t.seq = {}
  | .error .blocked _ => True
  | .error (.refused _) _ => True

/-- From every state whose sequencers are as `P` says, under every schedule, the action `EndsIn Q`. -/
def Ends (P Q : Sequencer → Prop) (x : Act α) : Prop := ∀ s, P s.seq → EndsIn Q (x s)

section
variable {P P' Q R : Sequencer → Prop}

theorem Ends.pure (a : α) : Ends P P (pure a : Act α) := fun _ h => h

theorem Ends.bind {x : Act α} {f : α → Act β} (hx : Ends P Q x) (hf : ∀ a, Ends Q R (f a)) : Ends P R (x >>= f) := by
  intro s hs
  have h := hx s hs
  rw [Act.bind_apply]
  cases hxs : x s with
  | ok a t => rw [hxs] at h; exact hf a t h
  | error e t => rw [hxs] at h; cases e <;> exact h

/-- Reading the state, where what it is matters. -/
theorem Ends.get_eq {f : State → Act β} (hf : ∀ w : State, P w.seq → Ends (fun q => q = w.seq) Q (f w)) :
    Ends P Q ((get : Act State) >>= f) := fun s hs => hf s hs s rfl

theorem Ends.get {f : State → Act β} (hf : ∀ w, Ends P Q (f w)) : Ends P Q ((get : Act State) >>= f) := fun s hs => hf s s hs

theorem Ends.update {g : State → State} (h : ∀ s : State, P s.seq → Q (g s).seq) : Ends P Q (modify g : Act PUnit) := fun s hs => h s hs

/-- An update that leaves the sequencers. -/
theorem Ends.frame {g : State → State} (h : ∀ s, (g s).seq = s.seq) : Ends P P (modify g : Act PUnit) :=
  Ends.update (fun s hs => by rw [h]; exact hs)

theorem Ends.refuses (why : Refusal) : Ends P Q (throw (.refused why) : Act α) := fun _ _ => trivial

theorem Ends.ite {p : Prop} [Decidable p] {x y : Act α} (hx : Ends P Q x) (hy : Ends P Q y) : Ends P Q (if p then x else y) := by
  split <;> assumption

theorem Ends.weaken {x : Act α} (hx : Ends P Q x) (hp : ∀ q, P' q → P q) : Ends P' Q x := fun s hs => hx s (hp _ hs)

end

/-! ## The stages -/

/-- Where RCV is and what it owes (R61, R281): on a link it owes nothing; on none it is at step 15 exactly while it owes. -/
def RcvAt (l : Option Nat) (q : Sequencer) : Prop :=
  q.rcvLink = l ∧ (l ≠ none → q.rcvTail = none) ∧ (l = none → q.rcvStep = q.rcvTail.map (fun _ => 15))

/-- The part of the sequencers' state that changes only under the mutex: without what a SERVICE owes and where RCV is. -/
def Sequencer.locked (q : Sequencer) : Sequencer := { q with wlkTail := none, rcvLink := none, rcvStep := none, rcvTail := none }

/-- RCV is on link `l`, if any, and what changes only under the mutex is as `G` says. -/
def Stage (l : Option Nat) (G : Sequencer → Prop) (q : Sequencer) : Prop := RcvAt l q ∧ G q.locked

/-- The values of a HANDLE and the capture buffer are gone (R59, R65). -/
def LeafGone (q : Sequencer) : Prop := q.leaf = {} ∧ q.cap = [] ∧ q.captured = 0

/-- Inside a HANDLE: no snapshot (R64). -/
def InHandle (q : Sequencer) : Prop := q.snap = []

/-- Inside a command of WLK, between two HANDLEs. -/
def InWalk (q : Sequencer) : Prop := q.snap = [] ∧ LeafGone q

/-- Inside the recovery of a link: WLK has no position (R60). -/
def InRecovery (q : Sequencer) : Prop := q.cursor = none ∧ LeafGone q

/-- The same where the snapshot has been discarded, or not been taken yet (R64). -/
def Unsnapped (q : Sequencer) : Prop := InRecovery q ∧ q.snap = []

/-- Outside the mutex. -/
def Unlocked (q : Sequencer) : Prop := Unsnapped q ∧ q.lock = .free

/-- Between two operations RCV is on no link and nobody holds the mutex. -/
theorem State.atRest_iff (s : State) : s.atRest ↔ Stage none Unlocked s.seq := by
  unfold State.atRest
  constructor
  · intro h
    rw [h]
    exact ⟨⟨rfl, nofun, fun _ => rfl⟩, ⟨⟨rfl, rfl, rfl, rfl⟩, rfl⟩, rfl⟩
  · rintro ⟨⟨hlink, -, hstep⟩, ⟨⟨hcursor, hleaf, hcap, hcaptured⟩, hsnap⟩, hlock⟩
    have hstep := hstep rfl
    revert hlink hcursor hleaf hcap hcaptured hsnap hlock hstep
    rcases s.seq with ⟨lock, cursor, leaf, cap, captured, rcvLink, rcvStep, snap, wlkTail, rcvTail⟩
    rintro rfl rfl rfl rfl rfl rfl rfl (rfl : rcvStep = rcvTail.map (fun _ => 15))
    rfl

variable {l : Option Nat} {G : Sequencer → Prop}

/-! ## What the other agents do at an access (R18) -/

theorem State.ackRstseq_seq (s : State) (j : Nat) : (s.ackRstseq j).seq = s.seq := (s.responder_frame j).1.2.1

theorem State.finishRamInit_seq (s : State) (j : Nat) : (s.finishRamInit j).seq = s.seq := (s.responder_frame j).2.1.2.1

theorem State.ackRing_seq (s : State) : s.ackRing.seq = s.seq := (s.responder_frame 0).2.2.2.1

theorem ends_emit {P : Sequencer → Prop} (e : Event) : Ends P P (emit e) := Ends.frame (fun _ => rfl)

theorem ends_askEnv {P : Sequencer → Prop} (q : EnvQuery) : Ends P P (askEnv q) := by
  intro s hs
  change P (s.ask q).2.seq
  rw [State.ask_seq]
  exact hs

theorem ends_writeReg {P : Sequencer → Prop} (r : Reg) (v : Word) : Ends P P (writeReg r v) := by
  intro s hs
  obtain ⟨t, e, -, -, hq, -⟩ := writeReg_ok r v s
  rw [e]
  change P t.seq
  rw [hq]
  exact hs

theorem ends_completeTail : Ends (Stage l G) (Stage l G) completeTail := by
  unfold completeTail
  refine .get (fun w => ?_)
  split
  · exact .pure _
  · exact .bind (ends_writeReg _ _) (fun _ => .update (fun _ h => h))

theorem Stage.owes {q : Sequencer} (h : Stage l G q) {r : RcvTail} (hr : q.rcvTail = some r) : l = none := by
  by_contra hl
  rw [h.1.2.1 hl] at hr
  cases hr

/-- A step of a RSTDRAIN that has its links behind it: nothing where none is owed, else step 15 or the Result (R281, R309). -/
theorem ends_advanceRcv_of {P Q : Sequencer → Prop} (idle : ∀ q, P q → q.rcvTail = none → Q q)
    (training : ∀ q r, P q → q.rcvTail = some r → r.launched = false → Q { q with rcvTail := some { r with launched := true } })
    (result : ∀ q r, P q → q.rcvTail = some r → r.launched = true → Q { q with rcvStep := none, rcvTail := none }) :
    Ends P Q advanceRcv := by
  unfold advanceRcv
  refine .get_eq (fun w hw => ?_)
  split
  · rename_i hr
    exact .weaken (.pure _) (fun _ h => h ▸ idle _ hw hr)
  · rename_i r hr
    split
    · rename_i hl
      exact .update (fun s hs => result s.seq r (hs ▸ hw) (hs ▸ hr) hl)
    · rename_i hl
      refine .bind (Q := Q) (x := modify _) (.update (fun s hs => ?_)) (fun _ => ?_)
      · exact training s.seq r (hs ▸ hw) (hs ▸ hr) (Bool.eq_false_iff.mpr hl)
      · exact .bind (ends_emit _) (fun _ => .bind (ends_askEnv _) (fun _ => .ite (.pure _) (ends_emit _)))

theorem ends_advanceRcv : Ends (Stage l G) (Stage l G) advanceRcv := by
  refine ends_advanceRcv_of (fun _ h _ => h) (fun q r h hr _ => ?_) (fun q r h hr _ => ?_)
  · obtain rfl := h.owes hr
    obtain ⟨⟨hlink, -, hstep⟩, hG⟩ := h
    rw [hr] at hstep
    exact ⟨⟨hlink, nofun, hstep⟩, hG⟩
  · exact ⟨⟨h.1.1, fun _ => rfl, fun _ => rfl⟩, h.2⟩

theorem ends_answerRefused {P Q : Sequencer → Prop} (hPQ : ∀ q, P q → Q q) {x : Act Unit} (hx : Ends P Q x) : Ends P Q (answerRefused x) := by
  unfold answerRefused
  refine .get (fun w => ?_)
  split
  · exact .update (fun _ h => hPQ _ h)
  · exact hx

/-- Where RCV owes step 15 it is on no link (R281). -/
theorem Stage.oweTraining {s : State} (h : G s.seq.locked) (sts : List (Nat × LinkStatus × Nat)) : Stage none G (s.oweTraining sts).seq :=
  ⟨⟨rfl, nofun, fun _ => rfl⟩, h⟩

/-- A RSTDRAIN of no link taken up while WLK is at work. -/
theorem ends_startRcv : Ends (Stage l G) (Stage l G) startRcv := by
  refine ends_answerRefused (fun _ h => h) ?_
  unfold takeUpRcv
  refine .get_eq (fun w hw => ?_)
  have stays : Ends (fun q => q = w.seq) (Stage l G) (pure () : Act Unit) := .weaken (.pure _) (fun _ h => h ▸ hw)
  split
  · split
    · split
      · rename_i hfree
        obtain rfl : l = none := hw.1.1.symm.trans hfree.1
        exact .update (fun s hs => Stage.oweTraining (s := s.setInbox _) (hs ▸ hw.2) [])
      · exact stays
    · exact stays
  · exact stays

theorem ends_applyMove (m : Move) : Ends (Stage l G) (Stage l G) (applyMove m) := by
  cases m with
  | arrive k i e d => exact .frame (fun s => (arrive_cellsOnly s k i e d).seq)
  | eccTick k i u a d => exact .frame (fun s => (eccTick_cellsOnly s k i u a d).seq)
  | rstseqAck j => exact .frame (fun s => s.ackRstseq_seq j)
  | ramInitDone j => exact .frame (fun s => s.finishRamInit_seq j)
  | ringAck => exact .frame (fun s => s.ackRing_seq)
  | traffic j => exact .frame (fun _ => rfl)
  | hostRd a =>
    refine .get (fun w => ?_)
    split
    · exact .frame (fun _ => rfl)
    · exact .refuses _
  | hostWr a v =>
    refine .get (fun w => ?_)
    split
    · exact .get (fun _ => ends_writeReg _ _)
    · exact .refuses _
  | deliver =>
    refine .frame (fun s => ?_)
    unfold State.deliver
    split <;> rfl
  | registerLink j => exact .frame (fun _ => rfl)
  | walkerTail => exact ends_completeTail
  | rcvStep => exact ends_advanceRcv
  | runNext => exact ends_startRcv
  | setEnv q b => exact .frame (fun _ => rfl)
  | coldReset d => exact fun _ _ => rfl
  | softReset => exact fun _ _ => rfl

theorem ends_applyMoves (ms : List Move) : Ends (Stage l G) (Stage l G) (applyMoves ms) := by
  induction ms with
  | nil => exact .pure _
  | cons m ms ih => exact .bind (ends_applyMove m) (fun _ => ih)

theorem ends_tick : Ends (Stage l G) (Stage l G) tick := by
  unfold tick
  refine .get (fun w => ?_)
  split
  · exact .pure _
  · exact .bind (x := modify _) (.frame (fun _ => rfl)) (fun _ => ends_applyMoves _)

/-! ## The accesses of a sequencer -/

theorem ends_rd (r : Reg) : Ends (Stage l G) (Stage l G) (rd r) := .bind ends_tick (fun _ => .get (fun _ => .pure _))

theorem ends_wr (r : Reg) (v : Word) : Ends (Stage l G) (Stage l G) (wr r v) := .bind ends_tick (fun _ => ends_writeReg _ _)

theorem ends_extCall (n : ExtName) (j : Option Nat) : Ends (Stage l G) (Stage l G) (extCall n j) :=
  .bind ends_tick (fun _ => ends_emit _)

theorem ends_wrAll (ws : List (Reg × Word)) : Ends (Stage l G) (Stage l G) (wrAll ws) := by
  induction ws with
  | nil => exact .pure _
  | cons w ws ih => exact .bind (ends_wr _ _) (fun _ => ih)

theorem ends_poll (r : Reg) (q : EnvQuery) {g : State → State} (hg : ∀ s, (g s).seq = s.seq) : Ends (Stage l G) (Stage l G) (poll r q g) :=
  .bind (ends_rd r) (fun _ => .ite (.pure _) (.bind (ends_askEnv q) (fun _ => .ite
    (.bind (x := modify g) (.frame hg) (fun _ => .pure _)) (.pure _))))

theorem ends_forward (e : SinkEvent) : Ends (Stage l G) (Stage l G) (forward e) :=
  .bind (ends_emit _) (fun _ => .bind (ends_askEnv _) (fun _ => .ite (.pure _) (ends_emit _)))

/-! ## The mutex (R62) -/

theorem ends_lock {P Q : Sequencer → Prop} {k : Lock} (h : ∀ q, P q → Q { q with lock := k }) : Ends P Q (lock k) := by
  unfold lock
  exact .get (fun _ => .ite (.update (fun s hs => h s.seq hs)) (fun _ _ => trivial))

theorem ends_unlock {P Q : Sequencer → Prop} (h : ∀ q, P q → Q { q with lock := .free, cursor := none }) : Ends P Q unlock :=
  .update (fun s hs => h s.seq hs)

/-- WLK takes up a command: the end of a SERVICE it still owes, then the mutex. -/
theorem ends_walkerBegin : Ends (Stage l Unlocked) (Stage l InWalk) walkerBegin := by
  have locks : Ends (Stage l Unlocked) (Stage l InWalk) (lock .wlk) :=
    ends_lock (fun _ ⟨hrcv, ⟨⟨_, hleaf⟩, hsnap⟩, _⟩ => ⟨hrcv, hsnap, hleaf⟩)
  unfold walkerBegin
  refine .get (fun w => ?_)
  split
  · exact locks
  · exact .bind ends_tick (fun _ => .bind ends_completeTail (fun _ => locks))

/-- WLK ends a command: no position and no mutex. -/
theorem ends_walkerUnlock : Ends (Stage l InWalk) (Stage l Unlocked) unlock :=
  ends_unlock (fun _ ⟨hrcv, hsnap, hleaf⟩ => ⟨hrcv, ⟨⟨rfl, hleaf⟩, hsnap⟩, rfl⟩)

/-! ## Fault marking (R251) -/

theorem ends_markLink (j : Nat) : Ends (Stage l G) (Stage l G) (markLink j) := by
  unfold markLink
  refine .get (fun _ => .ite (.pure _) (.bind (x := modify _) (.frame (fun _ => rfl)) (fun _ => ?_)))
  exact .bind (ends_rd _) (fun _ => .bind (ends_wr _ _) (fun _ => ends_forward _))

theorem ends_markDevice : Ends (Stage l G) (Stage l G) markDevice := by
  unfold markDevice
  refine .get (fun _ => .ite (.pure _) (.bind (x := modify _) (.frame (fun _ => rfl)) (fun _ => ?_)))
  exact .bind (ends_wr _ _) (fun _ => ends_forward _)

theorem ends_setfatalCore (tgt : Option Nat) (dw : Bool) : Ends (Stage l G) (Stage l G) (setfatalCore tgt dw) := by
  have device : Ends (Stage l G) (Stage l G) (if dw then markDevice else pure ()) := .ite ends_markDevice (.pure _)
  unfold setfatalCore
  cases tgt with
  | none => exact device
  | some j => exact .bind (ends_markLink j) (fun _ => device)

/-! ## HANDLE (R211 to R245) -/

theorem ends_capture (k : Kind) (i : Nat) (rs : List NodeReg) : Ends (Stage l InHandle) (Stage l InHandle) (capture k i rs) := by
  induction rs with
  | nil => exact .pure _
  | cons r rs ih =>
    unfold capture
    exact .get (fun _ => .get (fun _ => .ite (.bind (ends_rd _) (fun _ => .bind (x := modify _) (.update (fun _ h => h)) (fun _ => ih))) ih))

theorem ends_diagnostic (k : Kind) (i : Nat) (e : Entry) : Ends (Stage l G) (Stage l G) (diagnostic k i e) := by
  unfold diagnostic
  cases e.diag with
  | none => exact .pure _
  | rawBlock => exact .get (fun _ => .get (fun _ => .pure _))
  | addressFault => exact .bind (ends_rd _) (fun _ => .pure _)
  | eccCounter =>
    cases e.ecc with
    | notEcc => exact .pure _
    | eccLimit u | eccDbe u => exact .bind (ends_rd _) (fun _ => .pure _)

theorem ends_reportTo (k : Kind) (b i : Nat) (sev : Severity) (dw : Bool) (d : Diagnostic) (tgts : List (Option Nat)) :
    Ends (Stage l G) (Stage l G) (reportTo k b i sev dw d tgts) := by
  induction tgts with
  | nil => exact .pure _
  | cons tgt rest ih =>
    unfold reportTo
    refine .bind (ends_emit _) (fun _ => ?_)
    split
    · exact .bind (ends_setfatalCore _ _) (fun _ => ih)
    · exact ih

theorem ends_eccLog (k : Kind) (i u : Nat) (un : Bool) (d : Diagnostic) : Ends (Stage l G) (Stage l G) (eccLog k i u un d) := by
  unfold eccLog
  refine .bind (ends_rd _) (fun _ => ?_)
  split
  · exact ends_forward _
  · exact .bind (ends_rd _) (fun _ => ends_forward _)

theorem ends_logIfEcc (k : Kind) (i : Nat) (e : Entry) (d : Diagnostic) : Ends (Stage l InHandle) (Stage l InHandle) (logIfEcc k i e d) := by
  unfold logIfEcc
  cases e.ecc with
  | notEcc => exact .pure _
  | eccLimit u | eccDbe u => exact .bind (ends_eccLog _ _ _ _ _) (fun _ => .update (fun _ h => h))

theorem ends_classifyBit (k : Kind) (i b : Nat) : Ends (Stage l InHandle) (Stage l InHandle) (classifyBit k i b) := by
  unfold classifyBit
  refine .get (fun w => ?_)
  cases table w.cfg k b with
  | none => exact .pure _
  | some e =>
    refine .ite (.update (fun s h => ?_)) (.bind (ends_diagnostic _ _ _) (fun _ => .bind (ends_reportTo _ _ _ _ _ _ _) (fun _ =>
      .bind (ends_logIfEcc _ _ _ _) (fun _ => .update (fun _ h => h)))))
    unfold touchUnitOf
    cases e.ecc <;> exact h

theorem ends_classifyBits (k : Kind) (i : Nat) (bs : List Nat) : Ends (Stage l InHandle) (Stage l InHandle) (classifyBits k i bs) := by
  induction bs with
  | nil => exact .pure _
  | cons b bs ih =>
    unfold classifyBits
    refine .get (fun _ => ?_)
    split
    · exact .bind (ends_classifyBit k i b) (fun _ => ih)
    · exact ih

theorem ends_zeroCounters (k : Kind) (i : Nat) (us : List Nat) : Ends (Stage l G) (Stage l G) (zeroCounters k i us) := by
  induction us with
  | nil => exact .pure _
  | cons u us ih => exact .bind (ends_wr _ _) (fun _ => ih)

theorem ends_privHandshake : Ends (Stage l G) (Stage l G) privHandshake :=
  .bind (ends_wr _ _) (fun _ => .bind (ends_poll _ _ (fun s => s.ackRing_seq)) (fun _ =>
    .ite (.pure _) (.bind (ends_emit _) (fun _ => .pure _))))

theorem ends_setCursor_inHandle (c : Cursor) : Ends (Stage l InHandle) (Stage l InHandle) (setCursor c) := .update (fun _ h => h)

theorem ends_stepEight (k : Kind) (i : Nat) (t : Tree) (ok : Bool) : Ends (Stage l InHandle) (Stage l InHandle) (stepEight k i t ok) :=
  .bind (ends_setCursor_inHandle _) (fun _ => .get (fun _ => .ite (.pure _) (.bind (ends_emit _) (fun _ => .pure _))))

theorem ends_templateTail (k : Kind) (i : Nat) (t : Tree) (en m f : Word) (wf : Bool) :
    Ends (Stage l InHandle) (Stage l InHandle) (templateTail k i t en m f wf) := by
  unfold templateTail
  refine .bind (.bind (ends_setCursor_inHandle _) (fun _ => .ite (ends_wr _ _) (.pure _))) (fun _ => ?_)
  refine .bind (ends_setCursor_inHandle _) (fun _ => .bind (ends_wr _ _) (fun _ => .bind (ends_wr _ _) (fun _ => ?_)))
  refine .bind (ends_setCursor_inHandle _) (fun _ => .get (fun _ => .bind (ends_zeroCounters _ _ _) (fun _ => ?_)))
  exact .bind (.ite ends_privHandshake (.pure _)) (fun _ => ends_stepEight _ _ _ _)

theorem ends_templateRest (k : Kind) (i : Nat) (t : Tree) (p en cn : Word) (wf : Bool) :
    Ends (Stage l InHandle) (Stage l InHandle) (templateRest k i t p en cn wf) := by
  rw [templateRest_eq]
  refine .bind (ends_setCursor_inHandle _) (fun _ => .bind (ends_rd _) (fun _ => .bind (Q := Stage l InHandle) (x := modify _) (.update (fun _ h => h)) (fun _ => ?_)))
  refine .bind (ends_setCursor_inHandle _) (fun _ => .get (fun _ => .bind (.ite (.pure _) (ends_capture _ _ _)) (fun _ => ?_)))
  exact .bind (ends_setCursor_inHandle _) (fun _ => .bind (ends_classifyBits _ _ _) (fun _ => ends_templateTail _ _ _ _ _ _ _))

theorem ends_template (k : Kind) (i : Nat) (t : Tree) : Ends (Stage l InHandle) (Stage l InHandle) (template k i t) := by
  unfold template
  refine .bind (ends_setCursor_inHandle _) (fun _ => .bind (ends_rd _) (fun _ => .bind (ends_rd _) (fun _ => .ite (.pure _) ?_)))
  split
  · exact .bind (ends_rd _) (fun _ => .get (fun _ => ends_templateRest _ _ _ _ _ _ _))
  · exact .bind (.pure _) (fun _ => .get (fun _ => ends_templateRest _ _ _ _ _ _ _))

theorem ends_mctrlRest (j : Nat) (t : Tree) (p en : Word) (wf : Bool) : Ends (Stage l InHandle) (Stage l InHandle) (mctrlRest j t p en wf) := by
  unfold mctrlRest
  refine .get (fun _ => .bind (Q := Stage l InHandle) (x := modify _) (.update (fun _ h => h)) (fun _ => .bind (ends_setCursor_inHandle _) (fun _ => ?_)))
  refine .bind (ends_classifyBits _ _ _) (fun _ => .bind (ends_setCursor_inHandle _) (fun _ => ?_))
  split
  · exact .bind (ends_wr _ _) (fun _ => .bind (ends_setCursor_inHandle _) (fun _ => .bind (ends_wr _ _) (fun _ => ends_stepEight _ _ _ _)))
  · exact .bind (ends_setCursor_inHandle _) (fun _ => .bind (ends_wr _ _) (fun _ => ends_stepEight _ _ _ _))

theorem ends_mctrlTemplate (j : Nat) (t : Tree) : Ends (Stage l InHandle) (Stage l InHandle) (mctrlTemplate j t) := by
  unfold mctrlTemplate
  exact .bind (ends_setCursor_inHandle _) (fun _ => .get (fun _ => .bind (ends_rd _) (fun _ => .bind (ends_rd _) (fun _ =>
    .ite (.pure _) (.get (fun _ => ends_mctrlRest _ _ _ _ _))))))

/-- Nothing of a HANDLE is carried on (R59, R65). -/
theorem ends_handle (k : Kind) (i : Nat) (t : Tree) : Ends (Stage l InWalk) (Stage l InWalk) (handle k i t) := by
  have drops : ∀ r, Ends (Stage l InHandle) (Stage l InWalk) (do
      modify (fun s => ((s.setLeaf {}).clearCap).emit (.result (.handle k i t r)))
      return r : Act Result3) := fun r =>
    .bind (x := modify _) (.update (fun _ h => ⟨h.1, h.2, rfl, rfl, rfl⟩)) (fun _ => .pure _)
  unfold handle
  refine .bind (Q := Stage l InHandle) (x := modify _) (.update (fun _ h => ⟨h.1, h.2.1⟩)) (fun _ => ?_)
  split
  · exact .bind (ends_mctrlTemplate _ _) drops
  · exact .bind (ends_template _ _ _) drops

/-! ## The commands of WLK -/

theorem ends_setCursor_inWalk (c : Cursor) : Ends (Stage l InWalk) (Stage l InWalk) (setCursor c) := .update (fun _ h => h)

theorem ends_handleAll (t : Tree) (ns : List (Kind × Nat)) : Ends (Stage l InWalk) (Stage l InWalk) (handleAll t ns) := by
  induction ns with
  | nil => exact .pure _
  | cons n ns ih => exact .bind (ends_handle _ _ _) (fun _ => .bind ih (fun _ => .pure _))

theorem ends_walkfam (f : Family) (i : Nat) (t : Tree) : Ends (Stage l InWalk) (Stage l InWalk) (walkfam f i t) :=
  .bind (ends_setCursor_inWalk _) (fun _ => .get (fun _ => .bind (ends_handleAll _ _) (fun _ => .bind (ends_emit _) (fun _ => .pure _))))

theorem ends_walkEngines (t : Tree) (w : Nat) (js : List Nat) : Ends (Stage l InWalk) (Stage l InWalk) (walkEngines t w js) := by
  induction js with
  | nil => exact .pure _
  | cons j js ih =>
    unfold walkEngines
    refine .get (fun s => ?_)
    cases engineOf s.cfg (32 * w + j) with
    | some e => exact .bind (ends_setCursor_inWalk _) (fun _ => .bind (ends_walkfam _ _ _) (fun _ => .bind ih (fun _ => .pure _)))
    | none => exact ih

theorem ends_walkWords (t : Tree) (ws : List Nat) : Ends (Stage l InWalk) (Stage l InWalk) (walkWords t ws) := by
  induction ws with
  | nil => exact .pure _
  | cons w ws ih =>
    exact .bind (ends_setCursor_inWalk _) (fun _ => .bind (ends_rd _) (fun _ => .get (fun _ => .bind (ends_walkEngines _ _ _) (fun _ =>
      .bind ih (fun _ => .pure _)))))

theorem ends_walkTrees (ts : List Tree) : Ends (Stage l InWalk) (Stage l InWalk) (walkTrees ts) := by
  induction ts with
  | nil => exact .pure _
  | cons t ts ih => exact .get (fun _ => .bind (ends_walkWords _ _) (fun _ => .bind ih (fun _ => .pure _)))

theorem ends_topItem (top : Word) (b : Nat) {x : Act Result3} (hx : Ends (Stage l InWalk) (Stage l InWalk) x) :
    Ends (Stage l InWalk) (Stage l InWalk) (topItem top b x) :=
  .ite (.bind (ends_setCursor_inWalk _) (fun _ => .bind hx (fun _ => .pure _))) (.pure _)

theorem ends_dispatch : Ends (Stage l InWalk) (Stage l InWalk) dispatch := by
  have sum : Ends (Stage l InWalk) (Stage l InWalk) summary := .bind (ends_walkTrees _) (fun _ => .pure _)
  exact .bind (ends_setCursor_inWalk _) (fun _ => .bind (ends_rd _) (fun _ => .get (fun _ => .bind (ends_topItem _ _ sum) (fun _ =>
    .bind (ends_topItem _ _ (ends_handle _ _ _)) (fun _ => .bind (ends_topItem _ _ (ends_handle _ _ _)) (fun _ => .pure _))))))

/-- A command of WLK around its body: the mutex before it, released after it, then its answer. -/
theorem ends_walkerCommand {x : Act α} {f : α → Act Unit} (hx : Ends (Stage l InWalk) (Stage l InWalk) x)
    (hf : ∀ a, Ends (Stage l Unlocked) (Stage l Unlocked) (f a)) :
    Ends (Stage l Unlocked) (Stage l Unlocked) (walkerBegin >>= fun _ => x >>= fun a => unlock >>= fun _ => f a) :=
  .bind ends_walkerBegin (fun _ => .bind hx (fun _ => .bind ends_walkerUnlock (fun _ => hf _)))

theorem ends_servicePass : Ends (Stage l Unlocked) (Stage l Unlocked) servicePass :=
  ends_walkerCommand ends_dispatch (fun _ => .update (fun _ h => h))

theorem ends_progService : Ends (Stage l Unlocked) (Stage l Unlocked) progService :=
  .bind ends_servicePass (fun _ => .bind ends_tick (fun _ => ends_completeTail))

theorem ends_handleCommand (k : Kind) (i : Nat) (t : Tree) : Ends (Stage l Unlocked) (Stage l Unlocked) (handleCommand k i t) :=
  ends_walkerCommand (ends_handle k i t) (fun _ => .frame (fun _ => rfl))

theorem ends_walkCommand (f : Family) (i : Nat) (t : Tree) : Ends (Stage l Unlocked) (Stage l Unlocked) (walkCommand f i t) :=
  ends_walkerCommand (ends_walkfam f i t) (fun _ => .frame (fun _ => rfl))

theorem ends_progSetfatal (j : Option (BitVec 12)) (dw : Bool) : Ends (Stage l Unlocked) (Stage l Unlocked) (progSetfatal j dw) :=
  ends_walkerCommand (ends_setfatalCore _ _) (fun _ => .frame (fun _ => rfl))

theorem ends_progQlink (j : BitVec 12) : Ends (Stage l Unlocked) (Stage l Unlocked) (progQlink j) :=
  .bind ends_walkerBegin (fun _ => .get (fun _ => .bind ends_walkerUnlock (fun _ => .frame (fun _ => rfl))))

theorem ends_progQdev : Ends (Stage l Unlocked) (Stage l Unlocked) progQdev :=
  .bind ends_walkerBegin (fun _ => .get (fun _ => .bind ends_walkerUnlock (fun _ => .frame (fun _ => rfl))))

theorem ends_walkerProgram {i : Instr} {p : Act Unit} (h : walkerProgram i = some p) : Ends (Stage l Unlocked) (Stage l Unlocked) p := by
  cases i with
  | service => cases h; exact ends_servicePass
  | walkXbar | walkPortgrp | walkLinkmgmt | walkMctrlf => cases h; exact ends_walkCommand _ _ _
  | setfatal => cases h; exact ends_progSetfatal _ _
  | qlink => cases h; exact ends_progQlink _
  | qdev => cases h; exact ends_progQdev
  | rstdrain | rd32 | wr32 => cases h
  | _ => cases h; exact ends_handleCommand _ _ _

/-! ## RSTDRAIN (R281 to R310) -/

/-- A command of WLK taken up while RCV does not hold the mutex. -/
theorem ends_runNextWalker : Ends (Stage l Unlocked) (Stage l Unlocked) runNextWalker := by
  refine ends_answerRefused (fun _ h => h) ?_
  unfold takeUpWalker
  refine .get (fun w => ?_)
  split
  · split
    · exact .pure _
    · split
      · exact .pure _
      · rename_i hp
        exact .get (fun _ => .ite (.bind (x := modify _) (.frame (fun _ => rfl)) (fun _ => ends_walkerProgram hp)) (.pure _))
  · exact .pure _

theorem ends_applyWindowMoves (ms : List Move) : Ends (Stage l Unlocked) (Stage l Unlocked) (applyWindowMoves ms) := by
  induction ms with
  | nil => exact .pure _
  | cons m ms ih =>
    unfold applyWindowMoves
    split
    · exact .bind ends_runNextWalker (fun _ => ih)
    · exact .bind (ends_applyMove m) (fun _ => ih)

theorem ends_window : Ends (Stage l Unlocked) (Stage l Unlocked) window := by
  unfold window
  refine .get (fun w => ?_)
  split
  · exact .pure _
  · exact .bind (x := modify _) (.frame (fun _ => rfl)) (fun _ => ends_applyWindowMoves _)

section
variable {j : Nat}

/-- On a link RCV may be at any step (R61). -/
theorem ends_setStep (n : Nat) : Ends (Stage (some j) G) (Stage (some j) G) (setStep n) :=
  .update (fun _ h => ⟨⟨h.1.1, h.1.2.1, nofun⟩, h.2⟩)

/-- The snapshot may change inside a recovery (R64). -/
theorem ends_setSnap {q : State → List (Reg × Word)} : Ends (Stage l InRecovery) (Stage l InRecovery) (modify (fun s => s.setSnap (q s)) : Act PUnit) :=
  .update (fun _ h => h)

theorem ends_raiseAbort (st : LinkStatus) (n k : Nat) : Ends (Stage l InRecovery) (Stage l Unsnapped) (raiseAbort st n k) :=
  .bind (x := modify _) (.update (fun _ h => ⟨h.1, h.2, rfl⟩)) (fun _ => .pure _)

theorem ends_snapshotRegs (rs : List Reg) : Ends (Stage l InRecovery) (Stage l InRecovery) (snapshotRegs rs) := by
  induction rs with
  | nil => exact .pure _
  | cons r rs ih => exact .bind (ends_rd r) (fun _ => .bind (x := modify _) ends_setSnap (fun _ => ih))

theorem ends_zeroRam (a d : Reg) (is : List Nat) : Ends (Stage l G) (Stage l G) (zeroRam a d is) := by
  induction is with
  | nil => exact .pure _
  | cons i is ih => exact .bind (ends_wr _ _) (fun _ => .bind (ends_wr _ _) (fun _ => ih))

theorem ends_seedGanged (k : Nat) (is : List Nat) : Ends (Stage l G) (Stage l G) (seedGanged k is) := by
  induction is with
  | nil => exact .pure _
  | cons i is ih => exact .bind (ends_wr _ _) (fun _ => .get (fun _ => .bind (ends_wr _ _) (fun _ => ih)))

theorem ends_stepUnregister (k : Nat) : Ends (Stage (some j) G) (Stage (some j) G) (stepUnregister k) :=
  .bind (ends_setStep 2) (fun _ => .bind (ends_extCall _ _) (fun _ => .frame (fun _ => rfl)))

theorem ends_stepQuiesce (k : Nat) : Ends (Stage (some j) G) (Stage (some j) G) (stepQuiesce k) :=
  .bind (ends_setStep 3) (fun _ => .bind (ends_askEnv _) (fun _ => .ite (.pure _)
    (.bind (ends_extCall _ _) (fun _ => ends_extCall _ _))))

theorem ends_stepSnapshot (k : Nat) : Ends (Stage (some j) InRecovery) (Stage (some j) InRecovery) (stepSnapshot k) :=
  .bind (ends_setStep 4) (fun _ => .bind (x := modify _) ends_setSnap (fun _ => .get (fun _ => ends_snapshotRegs _)))

theorem ends_stepStop (k : Nat) : Ends (Stage (some j) G) (Stage (some j) G) (stepStop k) :=
  .bind (ends_setStep 5) (fun _ => .bind (ends_rd _) (fun _ => .bind (ends_wr _ _) (fun _ => ends_emit _)))

theorem ends_stepMask (k : Nat) : Ends (Stage (some j) G) (Stage (some j) G) (stepMask k) :=
  .bind (ends_setStep 6) (fun _ => .bind (ends_wr _ _) (fun _ => ends_wr _ _))

theorem ends_stepWarmReset (k : Nat) : Ends (Stage (some j) G) (Stage (some j) G) (stepWarmReset k) :=
  .bind (ends_setStep 7) (fun _ => .get (fun _ => .bind (ends_rd _) (fun _ => ends_wr _ _)))

theorem ends_stepRstseq (k : Nat) : Ends (Stage (some j) G) (Stage (some j) G) (stepRstseq k) :=
  .bind (ends_setStep 8) (fun _ => .bind (ends_wr _ _) (fun _ => ends_poll _ _ (fun s => s.ackRstseq_seq k)))

theorem ends_stepDeassert (k : Nat) : Ends (Stage (some j) G) (Stage (some j) G) (stepDeassert k) :=
  .bind (ends_setStep 9) (fun _ => .get (fun _ => .bind (ends_rd _) (fun _ => .bind (ends_wr _ _) (fun _ =>
    .bind (ends_wr _ _) (fun _ => ends_wr _ _)))))

theorem ends_stepContain (k : Nat) : Ends (Stage (some j) G) (Stage (some j) G) (stepContain k) :=
  .bind (ends_setStep 10) (fun _ => .bind (ends_wr _ _) (fun _ => .bind (ends_rd _) (fun _ => .pure _)))

theorem ends_stepRams (k : Nat) : Ends (Stage (some j) G) (Stage (some j) G) (stepRams k) :=
  .bind (ends_setStep 11) (fun _ => .bind (ends_wr _ _) (fun _ => .get (fun _ => .bind (ends_zeroRam _ _ _) (fun _ =>
    .get (fun _ => .bind (ends_zeroRam _ _ _) (fun _ => ends_poll _ _ (fun s => s.finishRamInit_seq k)))))))

/-- The snapshot is written back and discarded (R306). -/
theorem ends_stepRestore (k : Nat) : Ends (Stage (some j) InRecovery) (Stage (some j) Unsnapped) (stepRestore k) :=
  .bind (ends_setStep 12) (fun _ => .get (fun _ => .bind (ends_wrAll _) (fun _ => .get (fun _ => .bind (ends_seedGanged _ _) (fun _ =>
    .update (fun _ h => ⟨h.1, h.2, rfl⟩))))))

theorem ends_stepRearm (k : Nat) : Ends (Stage (some j) G) (Stage (some j) G) (stepRearm k) := by
  refine .bind (ends_setStep 13) (fun _ => .get (fun _ => .bind (ends_wrAll _) (fun _ => .get (fun _ => .bind (ends_wr _ _) (fun _ => ?_)))))
  refine .get (fun _ => .bind (ends_wr _ _) (fun _ => .bind (x := modify _) (.frame (fun _ => rfl)) (fun _ => ?_)))
  exact .bind (ends_rd _) (fun _ => .bind (ends_wr _ _) (fun _ => .frame (fun _ => rfl)))

theorem ends_stepRegister (k : Nat) : Ends (Stage (some j) G) (Stage (some j) G) (stepRegister k) :=
  .bind (ends_setStep 14) (fun _ => .bind (ends_extCall _ _) (fun _ => .bind (ends_askEnv _) (fun _ => .ite
    (.bind (x := modify _) (.frame (fun _ => rfl)) (fun _ => .pure _)) (.bind (x := modify _) (.frame (fun _ => rfl)) (fun _ => .pure _)))))

theorem ends_recoverAfterReset (k : Nat) : Ends (Stage (some j) InRecovery) (Stage (some j) Unsnapped) (recoverAfterReset k) := by
  refine .bind (ends_stepDeassert k) (fun _ => .bind (ends_stepContain k) (fun _ => .ite ?_ (ends_raiseAbort _ _ _)))
  refine .bind (ends_stepRams k) (fun _ => .ite ?_ (ends_raiseAbort _ _ _))
  exact .bind (ends_stepRestore k) (fun _ => .bind (ends_stepRearm k) (fun _ => ends_stepRegister k))

/-- The recovery of a link leaves no snapshot, whether it ends or aborts (R64, R311). -/
theorem ends_recoverValid (k : Nat) : Ends (Stage (some j) InRecovery) (Stage (some j) Unsnapped) (recoverValid k) := by
  refine .bind (ends_stepUnregister k) (fun _ => .bind (ends_stepQuiesce k) (fun _ => .bind (ends_stepSnapshot k) (fun _ => ?_)))
  refine .bind (ends_stepStop k) (fun _ => .bind (ends_stepMask k) (fun _ => .bind (ends_stepWarmReset k) (fun _ => ?_)))
  exact .bind (ends_stepRstseq k) (fun _ => .ite (ends_recoverAfterReset k) (ends_raiseAbort _ _ _))

theorem ends_recover (k : Nat) (forced : Bool) : Ends (Stage (some j) Unsnapped) (Stage (some j) Unsnapped) (recover k forced) := by
  have valid : Ends (Stage (some j) Unsnapped) (Stage (some j) Unsnapped) (recoverValid k) :=
    (ends_recoverValid k).weaken (fun _ h => ⟨h.1, h.2.1⟩)
  exact .bind (ends_setStep 1) (fun _ => .get (fun _ => .ite (.get (fun _ => .ite valid
    (.bind (ends_emit _) (fun _ => .pure _)))) (.pure _)))

end

/-- Before a link of a batch and after the last one: RCV owes nothing and nobody holds the mutex. -/
def BetweenLinks (q : Sequencer) : Prop := q.rcvTail = none ∧ Unlocked q.locked

theorem ends_recoverAll (forced : Bool) (ks : List Nat) : Ends BetweenLinks BetweenLinks (recoverAll forced ks) := by
  induction ks with
  | nil => exact .pure _
  | cons k ks ih =>
    have begins : Ends BetweenLinks (Stage (some k) Unlocked) (modify (fun s => (s.setRcvLink (some k)).setRcvStep (some 1)) : Act PUnit) :=
      .update (fun _ h => ⟨⟨rfl, fun _ => h.1, nofun⟩, h.2⟩)
    have locks : Ends (Stage (some k) Unlocked) (Stage (some k) Unsnapped) (lock (.rcv k)) :=
      ends_lock (fun _ ⟨hrcv, hunsnapped, _⟩ => ⟨hrcv, hunsnapped⟩)
    have unlocks : Ends (Stage (some k) Unsnapped) BetweenLinks unlock :=
      ends_unlock (fun _ ⟨⟨_, howes, _⟩, ⟨_, hleaf⟩, hsnap⟩ => ⟨howes nofun, ⟨⟨rfl, hleaf⟩, hsnap⟩, rfl⟩)
    exact .bind (x := modify _) begins (fun _ => .bind ends_window (fun _ => .bind locks (fun _ => .bind (ends_recover k forced) (fun _ =>
      .bind unlocks (fun _ => .bind ih (fun _ => .pure _))))))

theorem ends_finishRcv : Ends (Stage l Unlocked) (Stage l Unlocked) finishRcv :=
  .bind ends_window (fun _ => .bind ends_advanceRcv (fun _ => .bind ends_window (fun _ => ends_advanceRcv)))

/-- Outside the mutex, RCV owing at most the Result of a RSTDRAIN (R309). -/
def OwesResult (q : Sequencer) : Prop := Unlocked q.locked ∧ ∀ r, q.rcvTail = some r → r.launched = true

/-- Two steps are all RCV can owe (R281). -/
theorem ends_rcvBegin : Ends (Stage none Unlocked) BetweenLinks rcvBegin := by
  have first : Ends (Stage none Unlocked) OwesResult advanceRcv :=
    ends_advanceRcv_of (fun _ h hr => ⟨h.2, by rw [hr]; nofun⟩) (fun _ _ h _ _ => ⟨h.2, fun _ e => by cases e; rfl⟩)
      (fun _ _ h _ _ => ⟨h.2, nofun⟩)
  have second : Ends OwesResult BetweenLinks advanceRcv :=
    ends_advanceRcv_of (fun _ h hr => ⟨hr, h.1⟩) (fun _ r h hr hl => absurd (h.2 r hr) (by rw [hl]; nofun))
      (fun _ _ h _ _ => ⟨rfl, h.1⟩)
  exact .bind first (fun _ => second)

theorem ends_progRstdrain (forced : Bool) (masks : List Word) : Ends (Stage none Unlocked) (Stage none Unlocked) (progRstdrain forced masks) :=
  .bind ends_rcvBegin (fun _ => .bind (ends_recoverAll _ _) (fun _ => .bind (x := modify _) (.update (fun _ h => Stage.oweTraining h.2 _))
    (fun _ => ends_finishRcv)))

/-! ## One step -/

/-- The program of a command; the bus accesses have none. -/
def commandProgram : Instr → Option (Act Unit)
  | .service => some progService
  | .rstdrain forced masks => some (progRstdrain forced masks)
  | i => walkerProgram i

/-- A command runs its program (R139); the other two operations are bus accesses. -/
theorem exec_commandProgram {i : Instr} {p : Act Unit} (h : commandProgram i = some p) (s : State) : exec i s = runCommand i p s := by
  cases i with
  | rd32 _ | wr32 _ _ => cases h
  | _ => cases h; rfl

theorem ends_commandProgram {i : Instr} {p : Act Unit} (h : commandProgram i = some p) : Ends (Stage none Unlocked) (Stage none Unlocked) p := by
  unfold commandProgram at h
  split at h
  · cases h; exact ends_progService
  · cases h; exact ends_progRstdrain _ _
  · exact ends_walkerProgram h

/-- Where a sequencer action gives a step, it ended at rest, or nothing has happened. -/
theorem outcomeOf_atRest {x : Act Unit} (hx : Ends (Stage none Unlocked) (Stage none Unlocked) x) {s s' t : State} (hs : s.atRest)
    (hs' : s'.atRest) (h : outcomeOf s (x s') = .next t) : t.atRest := by
  have he := hx s' ((State.atRest_iff s').mp hs')
  cases hr : x s' with
  | ok a u =>
    rw [hr] at h he
    cases h
    exact (State.atRest_iff t).mpr he
  | error e u =>
    rw [hr] at h he
    cases e with
    | reset =>
      cases h
      unfold State.atRest
      rw [show t.seq = {} from he]
      rfl
    | blocked => cases h; exact hs
    | refused why => cases h

theorem runCommand_atRest {i : Instr} {p : Act Unit} (hp : Ends (Stage none Unlocked) (Stage none Unlocked) p) {s t : State} (hs : s.atRest)
    (h : runCommand i p s = .next t) : t.atRest := by
  unfold runCommand at h
  split at h
  · exact outcomeOf_atRest hp hs hs h
  · cases h; exact hs

/-- Every operation that begins with nothing in flight ends so. -/
theorem exec_atRest {i : Instr} {s t : State} (hs : s.atRest) (h : exec i s = .next t) : t.atRest := by
  cases hp : commandProgram i with
  | some p =>
    rw [exec_commandProgram hp] at h
    exact runCommand_atRest (ends_commandProgram hp) hs h
  | none =>
    cases i with
    | rd32 a =>
      change execRd32 a s = _ at h
      unfold execRd32 at h
      split at h
      · cases h
      · cases h; exact hs
    | wr32 a v =>
      change execWr32 a v s = _ at h
      unfold execWr32 at h
      split at h
      · cases h
      · exact outcomeOf_atRest (ends_writeReg _ _) hs hs h
    | _ => cases hp

/-- What a step that answers a next state has done (R110, R139, R180, R281). -/
inductive Stepped (s t : State) : Prop
  /-- Nothing is presented and nothing owed, or the command presented waits. -/
  | idle (h : t = s)
  | serviceEnd (h : outcomeOf s (completeTail s) = .next t)
  | recoveryEnd (h : outcomeOf s (advanceRcv s) = .next t)
  | move (m : Move) (q : List Input) (h : outcomeOf s (applyMove m (s.setInbox q)) = .next t)
  | operation (i : Instr) (q : List Input) (h : exec i (s.setInbox q) = .next t)
  /-- A submission of no word. -/
  | dropped (q : List Input) (h : t = s.setInbox q)
  | refusedWord (q : List Input) (h : t = refuseCommand (s.setInbox q))

theorem step_cases {s t : State} (h : step s = .next t) : Stepped s t := by
  unfold step fetch at h
  split at h
  · split at h
    · exact .serviceEnd h
    · split at h
      · exact .recoveryEnd h
      · cases h; exact .idle rfl
  · exact .move _ _ h
  · unfold fetchCommand at h
    split at h
    · split at h
      · exact .operation _ _ h
      · cases h; exact .idle rfl
    · cases h; exact .dropped _ rfl
    · cases h; exact .refusedWord _ rfl
  · unfold fetchBus at h
    split at h
    · exact .operation _ _ h
    · cases h

/-- What every operation respects, every step respects. -/
theorem closed_step {R : State → State → Prop} (H : Closed R) {s t : State} (h : step s = .next t) : R s t := by
  cases step_cases h with
  | idle e => exact e ▸ H.chains.refl s
  | serviceEnd e => exact closed_outcomeOf H (closed_completeTail H) e
  | recoveryEnd e => exact closed_outcomeOf H (closed_advanceRcv H) e
  | move m q e =>
    have moved : Does R (do modify (fun s => s.setInbox q); applyMove m) :=
      closed_bind H (x := modify _) (Does.modify (fun s => H.inbox s q)) (fun _ => closed_applyMove H m)
    exact closed_outcomeOf H moved e
  | operation i q e => exact H.chains.trans (H.inbox s q) (closed_exec H e)
  | dropped q e => exact e ▸ H.inbox s q
  | refusedWord q e => exact e ▸ H.chains.trans (H.inbox s q) (closed_refuseCommand H _)

/-- A step that begins with nothing in flight ends so. -/
theorem step_atRest {s t : State} (hs : s.atRest) (h : step s = .next t) : t.atRest := by
  cases step_cases h with
  | idle e => exact e ▸ hs
  | serviceEnd e => exact outcomeOf_atRest ends_completeTail hs hs e
  | recoveryEnd e => exact outcomeOf_atRest ends_advanceRcv hs hs e
  | move m q e => exact outcomeOf_atRest (ends_applyMove m) hs (s' := s.setInbox q) hs e
  | operation i q e => exact exec_atRest (s := s.setInbox q) hs e
  | dropped q e => subst e; exact hs
  | refusedWord q e => subst e; exact hs

/-- Settles O59: after reset every store is empty and the sequencers are at their initial values. -/
theorem resetHasTheInvariant : Obligations.ResetHasTheInvariant := ⟨reset_memWf, rfl⟩

/-- Settles O60: the canonical form and the configuration are relations every operation respects (`Closed`), and the stages of
every command end where they began (`Ends`). -/
theorem stepKeepsTheInvariant : Obligations.StepKeepsTheInvariant := fun _ _ hs h =>
  ⟨⟨closed_step closed_memWf h hs.1, step_atRest hs.2 h⟩, closed_step closed_cfg h⟩

end Sys2Proof.Machine

/-! PROOFS. Family 20_memory: what a WR32 does by the access kind of its register (R86, R87), and the settled statements about
it. -/

namespace Sys2Proof.Machine

/-! ## A write that stores and does nothing else -/

/-- No bit outside the defined ones is in what a field leaves of another word (R87). -/
theorem State.field_and_defined (s : State) (r : Reg) (x : Word) : s.field r &&& x &&& definedMask s.cfg r = s.field r &&& x := by
  rw [BitVec.and_assoc, BitVec.and_comm x, ← BitVec.and_assoc, State.field, BitVec.and_assoc (s.load r), BitVec.and_self]

/-- A bus write that is one store to its register: of the machine that register changes, and H gains the Write (R151). -/
theorem exec_wr32_stores {s : State} {a w v new : Word} {r : Reg} (hm : mappedReg s.cfg a = some r) (hv : v = fromBus s.cfg r w)
    (hr : ∀ l, r ≠ .containLatch l)
    (happly : (s.emit (.write r v)).applyWrite r v false = (s.emit (.write r v)).store r new)
    (hnew : new &&& definedMask s.cfg r = new) :
    ∃ t, exec (.wr32 a w) s = .next t ∧ t.field r = new ∧ SameCellsBut [r] s t ∧ SameHardwareButCells s t
      ∧ t.fault = s.fault ∧ t.seq = s.seq ∧ t.io = { s.io with history := s.io.history ++ [.write r v] } := by
  have wrote := Wrote.store s r v new
  subst hv
  exact ⟨_, (exec_wr32_plain hm hr w).trans (congrArg _ happly), (State.store_field_same ..).trans hnew,
    (s.emit _).store_sameCellsBut r new, wrote.hw, wrote.fault, wrote.seq, wrote.io⟩

/-- R86: what a W1C register is left with. -/
theorem applyWrite_w1c (s : State) {r : Reg} (h : access r = .w1c) (v : Word) :
    s.applyWrite r v false = s.store r (s.field r &&& ~~~v) := by
  simp only [State.applyWrite, h]
  rfl

/-- Three RW registers do more than store (R90). -/
theorem State.rwEffect_plain (s : State) {r : Reg} (hd : ∀ l, r ≠ .debugClear l) (hw : ∀ g, r ≠ .warmReset g)
    (hq : ∀ l, r ≠ .rstseqReq l) (old new : Word) : s.rwEffect r old new = s := by
  unfold State.rwEffect
  split
  · exact absurd rfl (hd _)
  · exact absurd rfl (hw _)
  · exact absurd rfl (hq _)
  · rfl

/-- Settles O9: the write is the store of `R & ~v`, whose bits are defined since R's are. -/
theorem writeOneToClear : Obligations.WriteOneToClear := by
  intro s a w v r _ hm hv haccess hr
  exact exec_wr32_stores hm hv hr (applyWrite_w1c _ haccess v) (s.field_and_defined r _)

/-- Settles O11: a register other than the three with a side effect is stored in its defined bits. -/
theorem plainWriteStores : Obligations.PlainWriteStores := by
  intro s a w v r _ hm hv haccess hd hwarm hq
  have hr : ∀ l, r ≠ .containLatch l := by
    rintro l rfl
    cases haccess
  refine exec_wr32_stores hm hv hr ?_ (by rw [BitVec.and_assoc, BitVec.and_self])
  simp only [State.applyWrite, haccess, State.rwEffect_plain _ hd hwarm hq]
  rfl

/-! ## A write that is ignored -/

/-- R87: a register that cannot be written keeps its value, and so does everything else. -/
theorem applyWrite_readOnly (s : State) {r : Reg} (h : access r = .ro ∨ access r = .combinational) (v : Word) (stuck : Bool) :
    s.applyWrite r v stuck = s := by
  unfold State.applyWrite
  rcases h with h | h <;> rw [h]

/-- Settles O12: of the write only its record in H is left. -/
theorem readOnlyWriteIsIgnored : Obligations.ReadOnlyWriteIsIgnored := by
  intro s a v r hm haccess
  have hr : ∀ l, r ≠ .containLatch l := by
    rintro l rfl
    rcases haccess with h | h <;> cases h
  rw [exec_wr32_plain hm hr, applyWrite_readOnly _ haccess]
  rfl

end Sys2Proof.Machine

/-! PROOFS. Family 20_memory: the order of the writes of a HANDLE (R94 to R96, R243). Before its own writes a HANDLE puts only
classification's events into H, and none of them writes a register of the node; `State.handleTail` lists the rest. -/

namespace Sys2Proof.Machine

/-- A classification event writes a scratch register or none. -/
theorem markEvent_writes {e : Event} (h : markEvent e) : isNodeWrite e = false ∧ isMctrlWrite e = false := by
  unfold markEvent at h
  split at h
  case h_7 => exact h.elim
  all_goals exact ⟨rfl, rfl⟩

/-- A filter that drops classification's events keeps the tail's only. -/
theorem filter_handle_events {p : Event → Bool} {es : List Event} (hmark : ∀ e ∈ es, p e = false) (tail : List Event) (r : ResultEvent)
    (hr : p (.result r) = false) : (es ++ tail ++ [Event.result r]).filter p = tail.filter p := by
  have hes : es.filter p = [] := List.filter_eq_nil_iff.mpr fun e he => by simp [hmark e he]
  simp [List.filter_append, hes, hr]

/-- A filter that keeps no Unhandled event drops the line about the bits left in U (R219). -/
theorem filter_unhandled {p : Event → Bool} (k : Kind) (i : Nat) (t : Tree) (hp : ∀ m, p (.unhandled k i t m) = false) (m : Word) :
    (if m = 0#32 then [] else [Event.unhandled k i t m]).filter p = [] := by
  split_ifs <;> simp [hp]

/-- R94 to R96: what the tail of a HANDLE writes to its node. -/
theorem filter_handleTail_node (s : State) {k : Kind} (i : Nat) (t : Tree) (hk : k ≠ .mctrl) :
    (s.handleTail k i t).filter isNodeWrite
      = (if suppressFlag s k i then
           [.write (.node k i (.reportEn t)) (s.field (.node k i (.reportEn t)) &&& ~~~s.maskOf k i t)] else [])
        ++ [.write (.node k i .errFirst) (s.field (.node k i .errFirst) &&& s.maskOf k i t),
            .write (.node k i .errStatus) (s.maskOf k i t)]
        ++ ((List.range 4).filter (touches s.cfg k (s.maskOf k i t))).map (fun u => .write (.node k i (.eccCount u)) 0#32) := by
  have hnode : ∀ r v, [Event.write (.node k i r) v].filter isNodeWrite = [Event.write (.node k i r) v] := fun _ _ => rfl
  have hcounters : ∀ us : List Nat, (us.map (fun u => Event.write (.node k i (.eccCount u)) 0#32)).filter isNodeWrite
      = us.map (fun u => Event.write (.node k i (.eccCount u)) 0#32) := fun us =>
    List.filter_eq_self.mpr fun e he => by obtain ⟨u, -, rfl⟩ := List.mem_map.mp he; rfl
  have hhandshake : (if k = .priv then Event.write .ringCmd 1#32 :: (if s.handshakeOk k then [] else [.log .privAckTimeout])
      else []).filter isNodeWrite = [] := by split_ifs <;> rfl
  have hunhandled := filter_unhandled (p := isNodeWrite) k i t (fun _ => rfl)
  simp only [State.handleTail, statusReg, enableReg, if_neg hk, List.filter_append, hcounters, hhandshake, hunhandled]
  cases suppressFlag s k i <;> simp [hnode]

/-- R243: what the tail of HANDLE.MCTRL writes to its microcontroller. -/
theorem filter_handleTail_mctrl (s : State) (l : Nat) (t : Tree) :
    (s.handleTail .mctrl l t).filter isMctrlWrite
      = (if suppressFlag s .mctrl l then
           [.write (.intrStallEn (mc s.cfg l)) (s.field (.intrStallEn (mc s.cfg l)) &&& ~~~s.maskOf .mctrl l t)] else [])
        ++ [.write (.intrStatus (mc s.cfg l)) (s.maskOf .mctrl l t)] := by
  have hunhandled := filter_unhandled (p := isMctrlWrite) .mctrl l t (fun _ => rfl)
  simp only [State.handleTail, List.filter_append, hunhandled]
  cases suppressFlag s .mctrl l <;> rfl

/-- A HANDLE that finds something, run alone: H grows by classification's events, the tail and the Result. -/
theorem exec_handle_history {s : State} {k : Kind} {i : BitVec 12} {t : Tree} (hw : configWf s.cfg = true) (hq : Quiet s)
    (ha : handleAdmitted s.cfg k i.toNat t = true) (hm : s.maskOf k i.toNat t ≠ 0#32) :
    ∃ u es, exec (handleInstr k i t) s = .next u ∧ (∀ e ∈ es, markEvent e) ∧ es.filter isClassified = s.expectedEvents k i.toNat t
      ∧ u.io.history = s.io.history
        ++ (es ++ s.handleTail k i.toNat t ++ [.result (.handle k i.toNat t (s.handleResult k i.toNat t))]) := by
  obtain ⟨u, es, he, -, -, -, -, -, -, hmark, hclass, hh⟩ := handle_serviced hw hq.alone ha (s := s.setLock .wlk) hm
  refine ⟨_, es, exec_handle_of hq ha he, hmark, hclass, ?_⟩
  change u.io.history = _
  rw [hh, handleTail_setLock, handleResult_setLock, List.append_assoc, List.append_assoc, ← List.append_assoc es]
  rfl

/-- Settles O34: the events before the tail write no register of the node, and the tail writes them in the order of the rules. -/
theorem handleWriteOrder : Obligations.HandleWriteOrder := by
  intro s k i t hw hq ha hm
  obtain ⟨u, es, hexec, hmark, -, hh⟩ := exec_handle_history hw hq ha hm
  refine ⟨u, _, hexec, hh, ?_, fun hk => ?_⟩
  · rintro rfl
    rw [filter_handle_events (fun e he => (markEvent_writes (hmark e he)).2) _ _ rfl, filter_handleTail_mctrl]
  · rw [filter_handle_events (fun e he => (markEvent_writes (hmark e he)).1) _ _ rfl, filter_handleTail_node s _ t hk]

end Sys2Proof.Machine

/-! PROOFS. Family 30_encoding: the fields of a command word. `eq_encodeN_iff` and its like for the other formats of R111 say
when a word has given fields, so that one lemma serves the decoder and the encoder. -/

namespace Sys2Proof

/-! ## Fields of a word (R111) -/

/-- A run of bits is two runs side by side exactly where each of its two parts is. -/
theorem extractLsb'_eq_append_iff {N n m start : Nat} {w : BitVec N} {hi : BitVec n} {lo : BitVec m} :
    w.extractLsb' start (n + m) = hi ++ lo ↔ w.extractLsb' (start + m) n = hi ∧ w.extractLsb' start m = lo := by
  rw [← BitVec.extractLsb'_append_extractLsb'_eq_extractLsb' (x := w) (rfl : start + m = start + m)]
  constructor
  · intro h
    have hhi := congrArg (BitVec.extractLsb' m n) h
    have hlo := congrArg (BitVec.extractLsb' 0 m) h
    simp only [BitVec.extractLsb'_append_eq_left, BitVec.extractLsb'_append_eq_right] at hhi hlo
    exact ⟨hhi, hlo⟩
  · rintro ⟨rfl, rfl⟩
    rfl

/-- A word of two parts. -/
theorem eq_append_iff {n m : Nat} {w : BitVec (n + m)} {hi : BitVec n} {lo : BitVec m} :
    w = hi ++ lo ↔ w.extractLsb' m n = hi ∧ w.extractLsb' 0 m = lo := by
  have h := extractLsb'_eq_append_iff (w := w) (start := 0) (hi := hi) (lo := lo)
  rwa [BitVec.extractLsb'_eq_self, Nat.zero_add] at h

/-- A field of one bit is a flag. -/
theorem extractLsb'_one_eq_ofBool {w : Word} {n : Nat} {b : Bool} : w.extractLsb' n 1 = BitVec.ofBool b ↔ w.getLsbD n = b := by
  have hflag : w.extractLsb' n 1 = BitVec.ofBool (w.getLsbD n) := by
    refine BitVec.eq_of_getLsbD_eq fun i hi => ?_
    obtain rfl : i = 0 := by omega
    simp
  rw [hflag]
  exact ⟨fun h => by simpa using congrArg (fun x => x.getLsbD 0) h, congrArg BitVec.ofBool⟩

theorem toNat_eq_iff_ofNat {n k : Nat} {x : BitVec n} (h : k < 2 ^ n) : x = BitVec.ofNat n k ↔ x.toNat = k := by
  rw [← BitVec.toNat_inj, BitVec.toNat_ofNat, Nat.mod_eq_of_lt h]

theorem Tree.code_lt (t : Tree) : t.code < 2 ^ 2 := by cases t <;> decide

theorem Family.code_lt (f : Family) : f.code < 2 ^ 6 := by cases f <;> decide

theorem Kind.code_lt (k : Kind) : k.code < 2 ^ 6 := by cases k <;> decide

/-- Format N (R113, R114): the five fields of a word. -/
theorem eq_encodeN_iff {w : Word} {op code : Nat} {t : Tree} {inst : BitVec 12} (hcode : code < 2 ^ 6) :
    w = encodeN op code t inst ↔ opField w = BitVec.ofNat 8 op ∧ (codeField w).toNat = code ∧ (treeField w).toNat = t.code
      ∧ zeroFieldN w = 0#4 ∧ instField w = inst := by
  refine (eq_append_iff (n := 8 + 6 + 2 + 4) (m := 12)).trans ?_
  simp only [extractLsb'_eq_append_iff, toNat_eq_iff_ofNat hcode, toNat_eq_iff_ofNat t.code_lt, and_assoc]
  exact Iff.rfl

/-- Format L (R115): the five fields of a word. -/
theorem eq_formatL_iff {w : Word} {op : BitVec 8} {flag nolink : Bool} {link : BitVec 12} :
    w = op ++ BitVec.ofBool flag ++ 0#10 ++ BitVec.ofBool nolink ++ link ↔
      opField w = op ∧ flagField w = flag ∧ zeroFieldL w = 0#10 ∧ w.getLsbD 12 = nolink ∧ instField w = link := by
  refine (eq_append_iff (n := 8 + 1 + 10 + 1) (m := 12)).trans ?_
  simp only [extractLsb'_eq_append_iff, extractLsb'_one_eq_ofBool, and_assoc]
  exact Iff.rfl

/-- Format L as QLINK has it (R116): flag, zero bits and nolink are one field of zeros. -/
theorem eq_formatQlink_iff {w : Word} {op : BitVec 8} {link : BitVec 12} :
    w = op ++ 0#12 ++ link ↔ opField w = op ∧ w.extractLsb' 12 12 = 0#12 ∧ instField w = link := by
  refine (eq_append_iff (n := 8 + 12) (m := 12)).trans ?_
  simp only [extractLsb'_eq_append_iff, and_assoc]
  exact Iff.rfl

/-- Format M (R118): the four fields of a word. -/
theorem eq_formatM_iff {w : Word} {op : BitVec 8} {flag : Bool} {n : Nat} (hn : n < 2 ^ 8) :
    w = op ++ BitVec.ofBool flag ++ 0#15 ++ BitVec.ofNat 8 n ↔
      opField w = op ∧ flagField w = flag ∧ zeroFieldM w = 0#15 ∧ nwordsField w = n := by
  refine (eq_append_iff (n := 8 + 1 + 15) (m := 8)).trans ?_
  simp only [extractLsb'_eq_append_iff, extractLsb'_one_eq_ofBool, toNat_eq_iff_ofNat hn, and_assoc]
  exact Iff.rfl

/-! ## Codes (R132 to R134) -/

theorem Tree.ofCode_eq_some {n : Nat} {t : Tree} : Tree.ofCode n = some t ↔ n = t.code := by
  constructor
  · intro h
    unfold Tree.ofCode at h
    split at h <;> cases h <;> rfl
  · rintro rfl
    cases t <;> rfl

theorem Family.ofCode_eq_some {n : Nat} {f : Family} : Family.ofCode n = some f ↔ n = f.code := by
  constructor
  · intro h
    unfold Family.ofCode at h
    split at h <;> cases h <;> rfl
  · rintro rfl
    cases f <;> rfl

theorem Kind.ofCode_eq_some {n : Nat} {k : Kind} : Kind.ofCode n = some k ↔ n = k.code := by
  constructor
  · intro h
    unfold Kind.ofCode at h
    split at h <;> cases h <;> rfl
  · rintro rfl
    cases k <;> rfl

/-! ## What a word is read as -/

/-- What a command word, followed by `rest`, is read as, by its fields (R112 to R118, R139, R140). `decodeWords_cons_iff`
ties it to the decoder. -/
inductive ReadAs (w : Word) (rest : List Word) : Instr → Prop
  | service (op : opField w = 0x01#8) (zero : w.extractLsb' 0 24 = 0#24) : ReadAs w rest .service
  | walk (f : Family) (t : Tree) (op : opField w = 0x02#8) (code : (codeField w).toNat = f.code)
      (tree : (treeField w).toNat = t.code) (zero : zeroFieldN w = 0#4) : ReadAs w rest (walkInstr f (instField w) t)
  | handle (k : Kind) (t : Tree) (op : opField w = 0x03#8) (code : (codeField w).toNat = k.code)
      (tree : (treeField w).toNat = t.code) (zero : zeroFieldN w = 0#4) : ReadAs w rest (handleInstr k (instField w) t)
  | setfatalNone (op : opField w = 0x04#8) (zero : zeroFieldL w = 0#10) (nolink : w.getLsbD 12 = true)
      (link : instField w = 0#12) : ReadAs w rest (.setfatal none (flagField w))
  | setfatalLink (op : opField w = 0x04#8) (zero : zeroFieldL w = 0#10) (nolink : w.getLsbD 12 = false) :
      ReadAs w rest (.setfatal (some (instField w)) (flagField w))
  | qlink (op : opField w = 0x05#8) (zero : w.extractLsb' 12 12 = 0#12) : ReadAs w rest (.qlink (instField w))
  | qdev (op : opField w = 0x06#8) (zero : w.extractLsb' 0 24 = 0#24) : ReadAs w rest .qdev
  | rstdrain (op : opField w = 0x07#8) (zero : zeroFieldM w = 0#15) (there : nwordsField w ≤ rest.length) :
      ReadAs w rest (.rstdrain (flagField w) (rest.take (nwordsField w)))

theorem decodeZ_eq_ok {w : Word} {i j : Instr} : decodeZ w i = .ok j ↔ w.extractLsb' 0 24 = 0#24 ∧ i = j := by
  unfold decodeZ
  split_ifs with h <;> simp [h]

theorem decodeN_eq_ok {w : Word} {mk : Nat → Except DecodeError (BitVec 12 → Tree → Instr)} {i : Instr} :
    decodeN w mk = .ok i ↔ zeroFieldN w = 0#4 ∧ ∃ t f, (treeField w).toNat = t.code ∧ mk (codeField w).toNat = .ok f
      ∧ f (instField w) t = i := by
  unfold decodeN
  constructor
  · intro h
    split_ifs at h with hz
    split at h
    · cases h
    next t ht =>
      split at h
      · cases h
      next f hf => exact ⟨not_not.mp hz, t, f, Tree.ofCode_eq_some.mp ht, hf, Except.ok.inj h⟩
  · rintro ⟨hz, t, f, ht, hf, rfl⟩
    simp only [hz, ne_eq, not_true, if_false, Tree.ofCode_eq_some.mpr ht, hf]

theorem decodeSetfatal_eq_ok {w : Word} {i : Instr} : decodeSetfatal w = .ok i ↔ zeroFieldL w = 0#10
    ∧ (w.getLsbD 12 = true ∧ instField w = 0#12 ∧ .setfatal none (flagField w) = i
      ∨ w.getLsbD 12 = false ∧ .setfatal (some (instField w)) (flagField w) = i) := by
  unfold decodeSetfatal
  split_ifs with hz hn hi <;> simp_all

theorem decodeQlink_eq_ok {w : Word} {i : Instr} :
    decodeQlink w = .ok i ↔ w.extractLsb' 12 12 = 0#12 ∧ .qlink (instField w) = i := by
  unfold decodeQlink
  split_ifs with h <;> simp [h]

theorem decodeRstdrain_eq_ok {w : Word} {rest : List Word} {i : Instr} : decodeRstdrain w rest = .ok i ↔
    zeroFieldM w = 0#15 ∧ nwordsField w ≤ rest.length ∧ .rstdrain (flagField w) (rest.take (nwordsField w)) = i := by
  unfold decodeRstdrain
  split_ifs with hz hn
  · simp [hz]
  · simp [Nat.not_le.mpr hn]
  · simp [not_not.mp hz, Nat.not_lt.mp hn]

theorem readAs_of_decodeWords {w : Word} {rest : List Word} {i : Instr} (h : decodeWords (w :: rest) = .ok i) : ReadAs w rest i := by
  rw [decodeWords] at h
  split at h
  case h_1 hop =>
    obtain ⟨hz, rfl⟩ := decodeZ_eq_ok.mp h
    exact .service (BitVec.eq_of_toNat_eq hop) hz
  case h_2 hop =>
    obtain ⟨hz, t, f, ht, hf, rfl⟩ := decodeN_eq_ok.mp h
    split at hf <;> cases hf
    next f hf => exact .walk f t (BitVec.eq_of_toNat_eq hop) (Family.ofCode_eq_some.mp hf) ht hz
  case h_3 hop =>
    obtain ⟨hz, t, f, ht, hf, rfl⟩ := decodeN_eq_ok.mp h
    split at hf <;> cases hf
    next k hk => exact .handle k t (BitVec.eq_of_toNat_eq hop) (Kind.ofCode_eq_some.mp hk) ht hz
  case h_4 hop =>
    obtain ⟨hz, ⟨hn, hl, rfl⟩ | ⟨hn, rfl⟩⟩ := decodeSetfatal_eq_ok.mp h
    · exact .setfatalNone (BitVec.eq_of_toNat_eq hop) hz hn hl
    · exact .setfatalLink (BitVec.eq_of_toNat_eq hop) hz hn
  case h_5 hop =>
    obtain ⟨hz, rfl⟩ := decodeQlink_eq_ok.mp h
    exact .qlink (BitVec.eq_of_toNat_eq hop) hz
  case h_6 hop =>
    obtain ⟨hz, rfl⟩ := decodeZ_eq_ok.mp h
    exact .qdev (BitVec.eq_of_toNat_eq hop) hz
  case h_7 hop =>
    obtain ⟨hz, hl, rfl⟩ := decodeRstdrain_eq_ok.mp h
    exact .rstdrain (BitVec.eq_of_toNat_eq hop) hz hl
  case h_8 => cases h

theorem ReadAs.decodeWords_eq {w : Word} {rest : List Word} {i : Instr} (h : ReadAs w rest i) : decodeWords (w :: rest) = .ok i := by
  rw [decodeWords]
  cases h with
  | service op zero => rw [op]; exact decodeZ_eq_ok.mpr ⟨zero, rfl⟩
  | walk f t op code tree zero =>
    rw [op]
    exact decodeN_eq_ok.mpr ⟨zero, t, walkInstr f, tree, by rw [Family.ofCode_eq_some.mpr code], rfl⟩
  | handle k t op code tree zero =>
    rw [op]
    exact decodeN_eq_ok.mpr ⟨zero, t, handleInstr k, tree, by rw [Kind.ofCode_eq_some.mpr code], rfl⟩
  | setfatalNone op zero nolink link => rw [op]; exact decodeSetfatal_eq_ok.mpr ⟨zero, .inl ⟨nolink, link, rfl⟩⟩
  | setfatalLink op zero nolink => rw [op]; exact decodeSetfatal_eq_ok.mpr ⟨zero, .inr ⟨nolink, rfl⟩⟩
  | qlink op zero => rw [op]; exact decodeQlink_eq_ok.mpr ⟨zero, rfl⟩
  | qdev op zero => rw [op]; exact decodeZ_eq_ok.mpr ⟨zero, rfl⟩
  | rstdrain op zero there => rw [op]; exact decodeRstdrain_eq_ok.mpr ⟨zero, there, rfl⟩

/-- The decoder reads a word as its fields say. -/
theorem decodeWords_cons_iff {w : Word} {rest : List Word} {i : Instr} : decodeWords (w :: rest) = .ok i ↔ ReadAs w rest i :=
  ⟨readAs_of_decodeWords, ReadAs.decodeWords_eq⟩

/-! ## What a word is the encoding of -/

theorem encode_walkInstr (f : Family) (inst : BitVec 12) (t : Tree) : encode (walkInstr f inst t) = encodeWalk f inst t := by
  cases f <;> rfl

theorem encode_handleInstr (k : Kind) (inst : BitVec 12) (t : Tree) : encode (handleInstr k inst t) = encodeHandle k inst t := by
  cases k <;> rfl

theorem wellFormed_walkInstr (f : Family) (inst : BitVec 12) (t : Tree) : wellFormed (walkInstr f inst t) = true := by
  cases f <;> rfl

theorem wellFormed_handleInstr (k : Kind) (inst : BitVec 12) (t : Tree) : wellFormed (handleInstr k inst t) = true := by
  cases k <;> rfl

/-- R141: a command whose op is not RSTDRAIN's is its first word alone. -/
theorem take_commandLength_of_ne {w : Word} (rest : List Word) (h : opField w ≠ 0x07#8) :
    (w :: rest).take (commandLength w) = [w] := by
  unfold commandLength
  rw [if_neg h]
  rfl

theorem nwordsField_lt (w : Word) : nwordsField w < 2 ^ 8 := BitVec.isLt _

/-- A word read as an operation, with the words of its length, is the operation's encoding. -/
theorem ReadAs.encode_eq {w : Word} {rest : List Word} {i : Instr} (h : ReadAs w rest i) :
    encode i = .command ((w :: rest).take (commandLength w)) := by
  cases h with
  | service op zero =>
    rw [take_commandLength_of_ne rest (by rw [op]; decide)]
    have hw : w = 0x01#8 ++ 0#24 := eq_append_iff.mpr ⟨op, zero⟩
    rw [hw]
    rfl
  | walk f t op code tree zero =>
    rw [take_commandLength_of_ne rest (by rw [op]; decide), encode_walkInstr, encodeWalk,
      ← (eq_encodeN_iff f.code_lt).mpr ⟨op, code, tree, zero, rfl⟩]
  | handle k t op code tree zero =>
    rw [take_commandLength_of_ne rest (by rw [op]; decide), encode_handleInstr, encodeHandle,
      ← (eq_encodeN_iff k.code_lt).mpr ⟨op, code, tree, zero, rfl⟩]
  | setfatalNone op zero nolink link =>
    rw [take_commandLength_of_ne rest (by rw [op]; decide)]
    exact congrArg (fun x => Frame.command [x]) (eq_formatL_iff.mpr ⟨op, rfl, zero, nolink, link⟩).symm
  | setfatalLink op zero nolink =>
    rw [take_commandLength_of_ne rest (by rw [op]; decide)]
    exact congrArg (fun x => Frame.command [x]) (eq_formatL_iff.mpr ⟨op, rfl, zero, nolink, rfl⟩).symm
  | qlink op zero =>
    rw [take_commandLength_of_ne rest (by rw [op]; decide)]
    exact congrArg (fun x => Frame.command [x]) (eq_formatQlink_iff.mpr ⟨op, zero, rfl⟩).symm
  | qdev op zero =>
    rw [take_commandLength_of_ne rest (by rw [op]; decide)]
    have hw : w = 0x06#8 ++ 0#24 := eq_append_iff.mpr ⟨op, zero⟩
    rw [hw]
    rfl
  | rstdrain op zero there =>
    have hw := (eq_formatM_iff (nwordsField_lt w)).mpr ⟨op, rfl, zero, rfl⟩
    rw [commandLength, if_pos op, Nat.add_comm, List.take_succ_cons, encode, List.length_take_of_le there, ← hw]

theorem ReadAs.wellFormed {w : Word} {rest : List Word} {i : Instr} (h : ReadAs w rest i) : wellFormed i = true := by
  cases h with
  | walk f t => exact wellFormed_walkInstr f _ t
  | handle k t => exact wellFormed_handleInstr k _ t
  | rstdrain op zero there =>
    exact decide_eq_true (by rw [List.length_take_of_le there]; exact nwordsField_lt w)
  | _ => rfl

/-- Settles O3: the fields a word was read by make up the whole word (`ReadAs.encode_eq`). -/
theorem encodeOfDecode : Obligations.EncodeOfDecode := by
  intro ws i h
  cases ws with
  | nil => cases h
  | cons w rest => exact ⟨(decodeWords_cons_iff.mp h).wellFormed, (decodeWords_cons_iff.mp h).encode_eq⟩

/-! ## The encoding is read back (R141) -/

/-- The operations by the form of what presents them: the four WALKFAMs and the fourteen HANDLEs as one each. -/
inductive Form : Instr → Prop
  | service : Form .service
  | walk (f : Family) (inst : BitVec 12) (t : Tree) : Form (walkInstr f inst t)
  | handle (k : Kind) (inst : BitVec 12) (t : Tree) : Form (handleInstr k inst t)
  | setfatal (link : Option (BitVec 12)) (dw : Bool) : Form (.setfatal link dw)
  | qlink (link : BitVec 12) : Form (.qlink link)
  | qdev : Form .qdev
  | rstdrain (forced : Bool) (masks : List Word) : Form (.rstdrain forced masks)
  | rd32 (a : Word) : Form (.rd32 a)
  | wr32 (a v : Word) : Form (.wr32 a v)

theorem Instr.form (i : Instr) : Form i := by
  cases i with
  | service => exact .service
  | walkXbar inst t => exact .walk .xbar inst t
  | walkPortgrp inst t => exact .walk .portgrp inst t
  | walkLinkmgmt inst t => exact .walk .linkmgmt inst t
  | walkMctrlf inst t => exact .walk .mctrlf inst t
  | handleRoute inst t => exact .handle .route inst t
  | handleIngress inst t => exact .handle .ingress inst t
  | handleEgress inst t => exact .handle .egress inst t
  | handleTstate inst t => exact .handle .tstate inst t
  | handleSrctrack inst t => exact .handle .srctrack inst t
  | handleTile inst t => exact .handle .tile inst t
  | handleTileout inst t => exact .handle .tileout inst t
  | handleDl inst t => exact .handle .dl inst t
  | handleTl inst t => exact .handle .tl inst t
  | handleLmlink inst t => exact .handle .lmlink inst t
  | handleLmcommon inst t => exact .handle .lmcommon inst t
  | handleMctrl inst t => exact .handle .mctrl inst t
  | handlePci inst t => exact .handle .pci inst t
  | handlePriv inst t => exact .handle .priv inst t
  | setfatal link dw => exact .setfatal link dw
  | qlink link => exact .qlink link
  | qdev => exact .qdev
  | rstdrain forced masks => exact .rstdrain forced masks
  | rd32 a => exact .rd32 a
  | wr32 a v => exact .wr32 a v

/-- An encoding on the command port has a first word. -/
theorem encode_ne_nil (i : Instr) : encode i ≠ .command [] := by
  cases i.form with
  | walk f inst t => rw [encode_walkInstr]; nofun
  | handle k inst t => rw [encode_handleInstr]; nofun
  | setfatal link dw => cases link <;> nofun
  | _ => nofun

/-- The first word of an encoding has the fields of its operation, and RSTDRAIN's masks follow it. -/
theorem readAs_of_encode {i : Instr} {w : Word} {own : List Word} (hwf : wellFormed i = true) (he : encode i = .command (w :: own))
    (later : List Word) : ReadAs w (own ++ later) i := by
  cases i.form with
  | service =>
    cases he
    exact .service rfl rfl
  | walk f inst t =>
    simp only [encode_walkInstr, encodeWalk, Frame.command.injEq, List.cons.injEq] at he
    obtain ⟨op, code, tree, zero, rfl⟩ := (eq_encodeN_iff f.code_lt).mp he.1.symm
    exact .walk f t op code tree zero
  | handle k inst t =>
    simp only [encode_handleInstr, encodeHandle, Frame.command.injEq, List.cons.injEq] at he
    obtain ⟨op, code, tree, zero, rfl⟩ := (eq_encodeN_iff k.code_lt).mp he.1.symm
    exact .handle k t op code tree zero
  | setfatal link dw =>
    cases link with
    | none =>
      simp only [encode, Frame.command.injEq, List.cons.injEq] at he
      obtain ⟨op, rfl, zero, nolink, link⟩ := (eq_formatL_iff (nolink := true)).mp he.1.symm
      exact .setfatalNone op zero nolink link
    | some l =>
      simp only [encode, Frame.command.injEq, List.cons.injEq] at he
      obtain ⟨op, rfl, zero, nolink, rfl⟩ := (eq_formatL_iff (nolink := false)).mp he.1.symm
      exact .setfatalLink op zero nolink
  | qlink l =>
    simp only [encode, Frame.command.injEq, List.cons.injEq] at he
    obtain ⟨op, zero, rfl⟩ := eq_formatQlink_iff.mp he.1.symm
    exact .qlink op zero
  | qdev =>
    cases he
    exact .qdev rfl rfl
  | rstdrain forced masks =>
    have hlen : masks.length < 2 ^ 8 := of_decide_eq_true hwf
    simp only [encode, Frame.command.injEq, List.cons.injEq] at he
    obtain ⟨hw, rfl⟩ := he
    obtain ⟨op, rfl, zero, hn⟩ := (eq_formatM_iff hlen).mp hw.symm
    have read := ReadAs.rstdrain (rest := masks ++ later) op zero (by simp [hn])
    rwa [hn, List.take_left' rfl] at read
  | rd32 a | wr32 a v => cases he

/-- R141: an operation's encoding is as long as the command it is read from. -/
theorem ReadAs.encodedLength_eq {w : Word} {rest : List Word} {i : Instr} (h : ReadAs w rest i) :
    Machine.encodedLength i = commandLength w := by
  unfold commandLength
  cases h with
  | walk f t op => rw [op]; cases f <;> rfl
  | handle k t op => rw [op]; cases k <;> rfl
  | rstdrain op zero there => rw [if_pos op, Machine.encodedLength, List.length_take_of_le there]
  | service op | setfatalNone op | setfatalLink op | qlink op | qdev op => rw [op]; rfl

/-- The words of a command that is read are there. -/
theorem ReadAs.commandLength_le {w : Word} {rest : List Word} {i : Instr} (h : ReadAs w rest i) :
    commandLength w ≤ (w :: rest).length := by
  unfold commandLength
  cases h with
  | rstdrain op zero there =>
    rw [if_pos op, List.length_cons]
    omega
  | service op | walk _ _ op | handle _ _ op | setfatalNone op | setfatalLink op | qlink op | qdev op =>
    rw [op, List.length_cons]
    exact Nat.le_add_left 1 rest.length

/-- Settles O2: the first word of the encoding is read the same whatever follows the command, and it says where it ends. -/
theorem commandsAreReadInSequence : Obligations.CommandsAreReadInSequence := by
  intro i ws rest hwf he
  cases ws with
  | nil => exact absurd he (encode_ne_nil i)
  | cons w own =>
    have alone : ReadAs w own i := List.append_nil own ▸ readAs_of_encode hwf he []
    have hlen : (w :: own).length = commandLength w := by
      have htake := Frame.command.inj (he.symm.trans alone.encode_eq)
      rw [htake, List.length_take_of_le alone.commandLength_le]
    refine ⟨decodeWords_cons_iff.mpr (readAs_of_encode hwf he rest), ?_, hlen.trans alone.encodedLength_eq.symm⟩
    exact List.drop_left' hlen

end Sys2Proof

/-! PROOFS. Family 30_encoding: what a step does with the frame at the head of the inbox (R110, R139), and that R139's conditions
are those under which a command word is no operation the configuration admits. -/

namespace Sys2Proof.Machine

/-! ## The frame at the head of the inbox -/

section
variable {s : State} {ws : List Word} {i : Instr} {later : List Input}

/-- A command that can begin is executed in the state without its words. -/
theorem step_command (hin : s.io.inbox = .frame (.command ws) :: later) (hd : decodeWords ws = .ok i)
    (hb : canBegin s i = true) : step s = exec i (s.setInbox (remaining ws ++ later)) := by
  simp only [step, fetch, hin, fetchCommand, hd, hb, if_true, stepOf]

/-- Words that are no operation are refused. -/
theorem step_undecodable (hin : s.io.inbox = .frame (.command ws) :: later) {e : DecodeError} (hd : decodeWords ws = .error e)
    (he : e ≠ .empty) : step s = .next (refuseCommand (s.setInbox (remaining ws ++ later))) := by
  simp only [step, fetch, hin, fetchCommand, hd]
  rfl

theorem step_bus {strobe : Bool} {a v : Word} (hin : s.io.inbox = .frame (.bus strobe a v) :: later)
    (hd : decodeBus strobe a v = .ok i) : step s = exec i (s.setInbox later) := by
  simp only [step, fetch, hin, fetchBus, hd, stepOf]

/-- R88: an address that is not a multiple of 4 is no transaction. -/
theorem step_bus_unaligned {strobe : Bool} {a v : Word} (hin : s.io.inbox = .frame (.bus strobe a v) :: later)
    (ha : aligned a = false) : step s = .refused (.unalignedAccess a) := by
  have hd : decodeBus strobe a v = .error (.unaligned a) := by simp [decodeBus, ha]
  simp only [step, fetch, hin, fetchBus, hd, stepOf]

end

/-- A command begins where it needs no mutex, or has it, or is refused before it asks (R62, R139). -/
theorem canBegin_iff {s : State} {i : Instr} :
    canBegin s i = true ↔ s.seq.lock = .free ∨ takesLock i = false ∨ admitted s.cfg i = false := by
  simp [canBegin, or_assoc]

/-- Settles O58: the three outcomes of a fetch from the head of the inbox. -/
theorem stepRunsTheDecodedOperation : Obligations.StepRunsTheDecodedOperation :=
  ⟨fun _ _ _ _ hin hd hb => step_command hin hd (canBegin_iff.mpr hb), fun _ _ _ _ _ _ hin hd => step_bus hin hd,
    fun _ _ _ _ _ hin ha => step_bus_unaligned hin ha⟩

/-! ## RSTDRAIN's link set (R144) -/

theorem mem_linkSetFrom {masks : List Word} {j l : Nat} : l ∈ linkSetFrom j masks ↔
    ∃ n b, n < masks.length ∧ b < 32 ∧ (masks.getD n 0#32).getLsbD b = true ∧ l = 32 * (j + n) + b := by
  induction masks generalizing j with
  | nil => simp [linkSetFrom]
  | cons w masks ih =>
    have hword : l ∈ linksOfWord j w ↔ ∃ b, b < 32 ∧ w.getLsbD b = true ∧ l = 32 * j + b := by
      unfold linksOfWord setBits
      simp only [List.mem_map, List.mem_filter, List.mem_range, and_assoc, eq_comm]
    rw [linkSetFrom, List.mem_append, hword, ih]
    constructor
    · rintro (⟨b, hb, hw, rfl⟩ | ⟨n, b, hn, hb, hw, rfl⟩)
      · exact ⟨0, b, Nat.succ_pos _, hb, hw, rfl⟩
      · exact ⟨n + 1, b, Nat.succ_lt_succ hn, hb, hw, by omega⟩
    · rintro ⟨_ | n, b, hn, hb, hw, rfl⟩
      · exact .inl ⟨b, hb, hw, rfl⟩
      · exact .inr ⟨n, b, Nat.lt_of_succ_lt_succ hn, hb, hw, by omega⟩

/-- A link is in the set exactly where a mask word has its bit. -/
theorem mem_linkSet {masks : List Word} {l : Nat} : l ∈ linkSet masks ↔
    ∃ n b, n < masks.length ∧ b < 32 ∧ (masks.getD n 0#32).getLsbD b = true ∧ l = 32 * n + b := by
  unfold linkSet
  simpa only [Nat.zero_add] using mem_linkSetFrom (masks := masks) (j := 0) (l := l)

/-! ## Refused exactly under R139 -/

/-- WALKFAM: the family and tree are coded, and the operands in range. -/
theorem not_walkRefused_iff {c : Config} {w : Word} : ¬walkRefused c w ↔ zeroFieldN w = 0#4
    ∧ ∃ f t, (codeField w).toNat = f.code ∧ (treeField w).toNat = t.code ∧ walkAdmitted c f (instField w).toNat t = true := by
  simp only [walkRefused, not_or, not_not]
  refine and_congr Iff.rfl (exists_congr fun f => exists_congr fun t => and_congr Iff.rfl (and_congr Iff.rfl ?_))
  cases f <;> simp only [walkAdmitted, Bool.and_eq_true, List.contains_iff_mem, decide_eq_true_eq, Nat.lt_one_iff] <;> exact Iff.rfl

/-- HANDLE: the kind and tree are coded, and the node exists. -/
theorem not_handleRefused_iff {c : Config} {w : Word} : ¬handleRefused c w ↔ zeroFieldN w = 0#4
    ∧ ∃ k t, (codeField w).toNat = k.code ∧ (treeField w).toNat = t.code ∧ handleAdmitted c k (instField w).toNat t = true := by
  simp only [handleRefused, not_or, not_not]
  refine and_congr Iff.rfl (exists_congr fun k => exists_congr fun t => and_congr Iff.rfl (and_congr Iff.rfl ?_))
  cases k <;> simp only [handleAdmitted, Bool.and_eq_true, List.contains_iff_mem, decide_eq_true_eq, reduceCtorEq, if_false, if_true]
    <;> exact Iff.rfl

theorem not_rstdrainRefused_iff {c : Config} {w : Word} {rest : List Word} : ¬rstdrainRefused c w rest ↔ zeroFieldM w = 0#15
    ∧ nwordsField w ≤ rest.length ∧ admitted c (.rstdrain (flagField w) (rest.take (nwordsField w))) = true := by
  unfold rstdrainRefused
  simp only [not_or, not_not, not_exists, not_and, not_le, not_lt, admitted, Bool.and_eq_true, decide_eq_true_eq, List.all_eq_true,
    mem_linkSet]
  refine and_congr Iff.rfl ⟨fun ⟨hn, hl, hbits⟩ => ?_, fun ⟨hl, hn, hbits⟩ => ?_⟩
  · have hn : nwordsField w = lmw c := hn
    have hlen : (rest.take (lmw c)).length = lmw c := List.length_take_of_le hl
    rw [hn, hlen]
    refine ⟨hl, rfl, ?_⟩
    rintro l ⟨n, b, hlt, hb, hbit, rfl⟩
    refine hbits n b hlt hb ?_
    rwa [List.getD_eq_getElem?_getD, List.getElem?_take_of_lt hlt] at hbit
  · rw [List.length_take_of_le hl] at hn hbits
    refine ⟨hn, hn ▸ hl, fun n b hlt hb hbit => hbits _ ⟨n, b, hn.symm ▸ hlt, hb, ?_, rfl⟩⟩
    rwa [List.getD_eq_getElem?_getD, List.getElem?_take_of_lt (hn.symm ▸ hlt)]

theorem not_setfatalRefused_iff {c : Config} {w : Word} : ¬setfatalRefused c w ↔ zeroFieldL w = 0#10
    ∧ (w.getLsbD 12 = true ∧ instField w = 0#12 ∨ w.getLsbD 12 = false ∧ (instField w).toNat < c.nLink) := by
  unfold setfatalRefused
  cases w.getLsbD 12 <;> simp [zeroFieldL, instField]

/-- No condition of R139 holds of words that are read as an operation the configuration admits. -/
theorem not_mustRefuse_of_readAs {c : Config} {w : Word} {rest : List Word} {i : Instr} (h : ReadAs w rest i)
    (ha : admitted c i = true) : ¬mustRefuse c w rest := by
  cases h with
  | service op zero => rw [mustRefuse, ← opField, op]; exact not_not.mpr zero
  | walk f t op code tree zero =>
    rw [mustRefuse, ← opField, op]
    exact not_walkRefused_iff.mpr ⟨zero, f, t, code, tree, (admitted_walkInstr c f _ t).symm.trans ha⟩
  | handle k t op code tree zero =>
    rw [mustRefuse, ← opField, op]
    exact not_handleRefused_iff.mpr ⟨zero, k, t, code, tree, (admitted_handleInstr c k _ t).symm.trans ha⟩
  | setfatalNone op zero nolink link =>
    rw [mustRefuse, ← opField, op]
    exact not_setfatalRefused_iff.mpr ⟨zero, .inl ⟨nolink, link⟩⟩
  | setfatalLink op zero nolink =>
    rw [mustRefuse, ← opField, op]
    exact not_setfatalRefused_iff.mpr ⟨zero, .inr ⟨nolink, of_decide_eq_true ha⟩⟩
  | qlink op zero =>
    rw [mustRefuse, ← opField, op]
    exact not_or.mpr ⟨not_not.mpr zero, Nat.not_le.mpr (of_decide_eq_true ha)⟩
  | qdev op zero => rw [mustRefuse, ← opField, op]; exact not_not.mpr zero
  | rstdrain op zero there =>
    rw [mustRefuse, ← opField, op]
    exact not_rstdrainRefused_iff.mpr ⟨zero, there, ha⟩

/-- Words of which no condition of R139 holds are read as an operation the configuration admits. -/
theorem exists_readAs_admitted {c : Config} {w : Word} {rest : List Word} (h : ¬mustRefuse c w rest) :
    ∃ i, ReadAs w rest i ∧ admitted c i = true := by
  unfold mustRefuse at h
  split at h
  case h_1 hop => exact ⟨_, .service (BitVec.eq_of_toNat_eq hop) (not_not.mp h), rfl⟩
  case h_2 hop =>
    obtain ⟨zero, f, t, code, tree, ha⟩ := not_walkRefused_iff.mp h
    exact ⟨_, .walk f t (BitVec.eq_of_toNat_eq hop) code tree zero, (admitted_walkInstr c f _ t).trans ha⟩
  case h_3 hop =>
    obtain ⟨zero, k, t, code, tree, ha⟩ := not_handleRefused_iff.mp h
    exact ⟨_, .handle k t (BitVec.eq_of_toNat_eq hop) code tree zero, (admitted_handleInstr c k _ t).trans ha⟩
  case h_4 hop =>
    obtain ⟨zero, ⟨nolink, link⟩ | ⟨nolink, hl⟩⟩ := not_setfatalRefused_iff.mp h
    · exact ⟨_, .setfatalNone (BitVec.eq_of_toNat_eq hop) zero nolink link, rfl⟩
    · exact ⟨_, .setfatalLink (BitVec.eq_of_toNat_eq hop) zero nolink, decide_eq_true hl⟩
  case h_5 hop =>
    obtain ⟨zero, hl⟩ := not_or.mp h
    exact ⟨_, .qlink (BitVec.eq_of_toNat_eq hop) (not_not.mp zero), decide_eq_true (Nat.not_le.mp hl)⟩
  case h_6 hop => exact ⟨_, .qdev (BitVec.eq_of_toNat_eq hop) (not_not.mp h), rfl⟩
  case h_7 hop =>
    obtain ⟨zero, there, ha⟩ := not_rstdrainRefused_iff.mp h
    exact ⟨_, .rstdrain (BitVec.eq_of_toNat_eq hop) zero there, ha⟩
  case h_8 => exact absurd trivial h

/-- What the configuration does not admit is refused, whatever it is (R139). -/
theorem exec_not_admitted {i : Instr} {s : State} (h : admitted s.cfg i = false) : exec i s = .next (refuseCommand s) := by
  cases hp : commandProgram i with
  | some p => rw [exec_commandProgram hp, runCommand_refused h]
  | none =>
    cases i with
    | rd32 _ | wr32 _ _ => cases h
    | _ => cases hp

theorem decodeN_ne_empty (w : Word) {mk : Nat → Except DecodeError (BitVec 12 → Tree → Instr)} (hmk : ∀ n, mk n ≠ .error .empty) :
    decodeN w mk ≠ .error .empty := by
  unfold decodeN
  split_ifs
  · nofun
  · split
    · nofun
    · split
      next e he => exact fun h => hmk _ (by rw [he, Except.error.inj h])
      next => nofun

/-- The decoder finds nothing presented only where there is no word. -/
theorem decodeWords_cons_ne_empty (w : Word) (rest : List Word) : decodeWords (w :: rest) ≠ .error .empty := by
  rw [decodeWords]
  split
  case h_1 | h_6 => unfold decodeZ; split_ifs <;> nofun
  case h_2 | h_3 => exact decodeN_ne_empty w fun n => by split <;> nofun
  case h_4 => unfold decodeSetfatal; split_ifs <;> nofun
  case h_5 => unfold decodeQlink; split_ifs <;> nofun
  case h_7 => unfold decodeRstdrain; split_ifs <;> nofun
  case h_8 => nofun

/-- Settles O5: a refused word either is no operation, or is one that the configuration does not admit and that needs no mutex to be
refused. -/
theorem refusedExactlyWhenTheRuleSays : Obligations.RefusedExactlyWhenTheRuleSays := by
  intro s w rest later hin
  constructor
  · intro hr
    cases hd : decodeWords (w :: rest) with
    | error e => exact step_undecodable hin hd (fun he => decodeWords_cons_ne_empty w rest (he ▸ hd))
    | ok i =>
      have ha : admitted s.cfg i = false := by
        by_contra ha
        exact not_mustRefuse_of_readAs (decodeWords_cons_iff.mp hd) (Bool.eq_true_of_not_eq_false ha) hr
      exact (step_command hin hd (canBegin_iff.mpr (.inr (.inr ha)))).trans (exec_not_admitted ha)
  · intro hr
    obtain ⟨i, hread, ha⟩ := exists_readAs_admitted hr
    exact ⟨i, decodeWords_cons_iff.mpr hread, ha⟩

end Sys2Proof.Machine

/-! PROOFS. Family 30_encoding: the register map and the address decoder agree (R120 to R131), under every REGMAP of a well-formed
configuration (R7). -/

namespace Sys2Proof.Machine

/-! ## Field layouts (R7) -/

theorem getLsbD_foldl_or_image (p : Nat → Bool) (f : Nat → Nat) (l : List Nat) (a : Word) (k : Nat) (hl : ∀ j ∈ l, f j < 32) :
    (l.foldl (fun acc j => if p j then acc ||| bit (f j) else acc) a).getLsbD k = true
      ↔ a.getLsbD k = true ∨ ∃ j ∈ l, p j = true ∧ f j = k := by
  induction l generalizing a with
  | nil => simp
  | cons j l ih =>
    obtain ⟨hj, hl⟩ := List.forall_mem_cons.mp hl
    have hhead : (if p j then a ||| bit (f j) else a).getLsbD k = true ↔ a.getLsbD k = true ∨ p j = true ∧ f j = k := by
      cases p j with
      | false => simp
      | true => simp [getLsbD_bit, hj, eq_comm (a := k)]
    rw [List.foldl_cons, ih _ hl, hhead, List.exists_mem_cons_iff, or_assoc]

/-- Where a layout puts the bits of a word: a permutation of its 32 positions. -/
structure Rearranges (layout : List Nat) : Prop where
  lt : ∀ j < 32, layout.getD j j < 32
  inj : ∀ i < 32, ∀ j < 32, layout.getD i i = layout.getD j j → i = j
  surj : ∀ k < 32, ∃ j < 32, layout.getD j j = k

theorem rearranges_of_permutes {layout : List Nat} (h : permutes layout (List.range 32) = true) : Rearranges layout := by
  simp only [permutes, Bool.and_eq_true, decide_eq_true_eq, List.all_eq_true, List.contains_iff_mem, List.mem_range] at h
  obtain ⟨⟨nodup, below⟩, all⟩ := h
  have hlen : layout.length = 32 :=
    (((List.perm_ext_iff_of_nodup nodup List.nodup_range).mpr
      fun k => ⟨fun hk => List.mem_range.mpr (below k hk), fun hk => all k (List.mem_range.mp hk)⟩).length_eq).trans List.length_range
  have hget : ∀ j (hj : j < 32), layout.getD j j = layout[j] := fun j hj => List.getD_eq_getElem _ _ (hlen ▸ hj)
  refine ⟨fun j hj => ?_, fun i hi j hj e => ?_, fun k hk => ?_⟩
  · rw [hget j hj]
    exact below _ (List.getElem_mem _)
  · rw [hget i hi, hget j hj] at e
    exact nodup.getElem_inj_iff.mp e
  · obtain ⟨j, hj, e⟩ := List.mem_iff_getElem.mp (all k hk)
    exact ⟨j, hlen ▸ hj, (hget j (hlen ▸ hj)).trans e⟩

theorem getLsbD_gatherBits (layout : List Nat) (v : Word) {j : Nat} (hj : j < 32) :
    (gatherBits layout v).getLsbD j = v.getLsbD (layout.getD j j) := by
  unfold gatherBits
  rw [getLsbD_foldl_or _ _ _ _ (fun b hb => List.mem_range.mp hb)]
  simp [hj]

theorem getLsbD_spreadBits {layout : List Nat} (h : Rearranges layout) (v : Word) {j : Nat} (hj : j < 32) :
    (spreadBits layout v).getLsbD (layout.getD j j) = v.getLsbD j := by
  unfold spreadBits
  rw [Bool.eq_iff_iff, getLsbD_foldl_or_image _ _ _ _ _ (fun i hi => h.lt i (List.mem_range.mp hi))]
  constructor
  · rintro (h0 | ⟨i, hi, hv, e⟩)
    · simp at h0
    · rwa [← h.inj i (List.mem_range.mp hi) j hj e]
  · exact fun hv => .inr ⟨j, List.mem_range.mpr hj, hv, rfl⟩

theorem gatherBits_spreadBits {layout : List Nat} (h : Rearranges layout) (v : Word) : gatherBits layout (spreadBits layout v) = v :=
  BitVec.eq_of_getLsbD_eq fun _ hj => (getLsbD_gatherBits _ _ hj).trans (getLsbD_spreadBits h v hj)

theorem spreadBits_gatherBits {layout : List Nat} (h : Rearranges layout) (v : Word) : spreadBits layout (gatherBits layout v) = v := by
  refine BitVec.eq_of_getLsbD_eq fun k hk => ?_
  obtain ⟨j, hj, rfl⟩ := h.surj k hk
  exact (getLsbD_spreadBits h _ hj).trans (getLsbD_gatherBits _ _ hj)

/-! ## Names and instances (R13) -/

theorem atInst_instOf_nameOf (r : Reg) : atInst (instOf r) (nameOf r) = r := by cases r <;> rfl

theorem nameOf_nameOf (r : Reg) : nameOf (nameOf r) = nameOf r := by cases r <;> rfl

theorem placeOf_nameOf (c : Config) (r : Reg) : placeOf c (nameOf r) = placeOf c r := by
  unfold placeOf
  rw [nameOf_nameOf]

theorem fits_nameOf {r : Reg} (h : fits r = true) : fits (nameOf r) = true := by
  cases r <;> simp_all [fits, nameOf, atInst]

theorem instOf_lt {r : Reg} (h : fits r = true) : instOf r < 4096 := by
  cases r <;> simp_all [fits, instOf]

/-- The default map puts a register at its instance, at a kind code and offset that are its name's. -/
theorem busAddr_place {r : Reg} (h : fits r = true) : ∃ k o, k < 256 ∧ o < 4096 ∧ busAddr r = packAddr k (instOf r) o
    ∧ busAddr (nameOf r) = packAddr k 0 o := by
  cases r with
  | node k i r =>
    simp only [fits, Bool.and_eq_true] at h
    exact ⟨k.code, nodeOffset r, by cases k <;> decide, lt_trans (nodeOffset_lt h.2) (by decide), rfl, rfl⟩
  | scratchPort w =>
    have hw : w < 128 := of_decide_eq_true h
    exact ⟨0x10, 0x040 + 4 * w, by decide, by omega, rfl, rfl⟩
  | summary t w => exact ⟨0x10, summaryOffset t w, by decide, summaryOffset_lt t (of_decide_eq_true h), rfl, rfl⟩
  | _ => exact ⟨_, _, by decide, by decide, rfl, rfl⟩

theorem nodeOffset_mod_four (r : NodeReg) : nodeOffset r % 4 = 0 := by
  cases r with
  | reportEn t => cases t <;> rfl
  | diagLog j | eccCount j | eccLimit j | eccAddr j => simp only [nodeOffset]; omega
  | _ => rfl

theorem packAddr_mod_four {k i o : Nat} (h : o % 4 = 0) : packAddr k i o % 4 = 0 := by
  unfold packAddr
  omega

/-- R88: the default map puts every register at a multiple of 4. -/
theorem busAddr_mod_four (r : Reg) : busAddr r % 4 = 0 := by
  cases r with
  | node k i r => exact packAddr_mod_four (nodeOffset_mod_four r)
  | scratchPort w => exact packAddr_mod_four (by omega)
  | summary t w => cases t <;> exact packAddr_mod_four (by simp only [summaryOffset]; omega)
  | _ => exact packAddr_mod_four rfl

/-! ## The fields of an address (R120) -/

theorem packAddr_lt {k i o : Nat} (hk : k < 256) (hi : i < 4096) (ho : o < 4096) : packAddr k i o < 2 ^ 32 := by
  unfold packAddr
  omega

/-- The kind code, instance and offset of an address. -/
theorem address_fields (a : Word) : (a.extractLsb' 24 8).toNat = a.toNat / 0x1000000
    ∧ (a.extractLsb' 12 12).toNat = a.toNat / 0x1000 % 0x1000 ∧ (a.extractLsb' 0 12).toNat = a.toNat % 0x1000 := by
  have ha : a.toNat < 2 ^ 32 := a.isLt
  simp only [BitVec.extractLsb'_toNat, Nat.shiftRight_eq_div_pow, Nat.reducePow, Nat.div_one, and_true]
  exact Nat.mod_eq_of_lt (by omega)

theorem packed_fields {k i o : Nat} (hk : k < 256) (hi : i < 4096) (ho : o < 4096) :
    ((BitVec.ofNat 32 (packAddr k i o)).extractLsb' 24 8).toNat = k
    ∧ ((BitVec.ofNat 32 (packAddr k i o)).extractLsb' 12 12).toNat = i
    ∧ ((BitVec.ofNat 32 (packAddr k i o)).extractLsb' 0 12).toNat = o := by
  have hparts : packAddr k i o / 0x1000000 = k ∧ packAddr k i o / 0x1000 % 0x1000 = i ∧ packAddr k i o % 0x1000 = o := by
    unfold packAddr
    omega
  have ha := address_fields (BitVec.ofNat 32 (packAddr k i o))
  rwa [BitVec.toNat_ofNat, Nat.mod_eq_of_lt (packAddr_lt hk hi ho), hparts.1, hparts.2.1, hparts.2.2] at ha

/-- The register REGMAP names at a packed address is the one moved to its place. -/
theorem regAtBus_moved {c : Config} {k i o : Nat} (hk : k < 256) (hi : i < 4096) (ho : o < 4096) {r : Reg}
    (hm : movedTo k o c.regMap = some r) : regAtBus c (BitVec.ofNat 32 (packAddr k i o)) = some (atInst i r) := by
  obtain ⟨hkind, hinst, hoffset⟩ := packed_fields hk hi ho
  rw [regAtBus, hkind, hinst, hoffset, hm]

/-- At a place REGMAP moves nothing to it is the default map's. -/
theorem regAtBus_default {c : Config} {k i o : Nat} (hk : k < 256) (hi : i < 4096) (ho : o < 4096)
    (hm : movedTo k o c.regMap = none) : regAtBus c (BitVec.ofNat 32 (packAddr k i o)) = regAt k i o := by
  obtain ⟨hkind, hinst, hoffset⟩ := packed_fields hk hi ho
  rw [regAtBus, regOfBus, hkind, hinst, hoffset, hm]

theorem aligned_iff {a : Word} : aligned a = true ↔ a.toNat % 4 = 0 := by
  unfold aligned
  rw [beq_iff_eq, ← BitVec.toNat_inj, BitVec.extractLsb'_toNat]
  simp

/-! ## REGMAP (R7) -/

/-- What a well-formed REGMAP keeps, one by one. -/
structure RegMapWf (c : Config) : Prop where
  rows : ∀ x ∈ c.regMap, placeWf x = true
  places : (c.regMap.map (fun x => (x.2.kind, x.2.offset))).Nodup
  free : ∀ x ∈ c.regMap, placeFree c x.2 = true

theorem configWf_regMap {c : Config} (h : configWf c = true) : RegMapWf c := by
  have hmap := (configWf_parts h).map
  simp only [regMapWf, Bool.and_eq_true, List.all_eq_true, decide_eq_true_eq] at hmap
  obtain ⟨⟨⟨rows, -⟩, places⟩, free⟩ := hmap
  exact ⟨rows, places, free⟩

/-- A row's kind code and offset fit their fields, and its layout loses no bit. -/
structure PlaceWf (p : RegPlace) : Prop where
  kind : p.kind < 256
  offset : p.offset < 4096
  four : p.offset % 4 = 0
  layout : p.layout.isEmpty = true ∨ Rearranges p.layout

theorem assoc_mem {α β : Type} [DecidableEq α] {k : α} {v : β} {l : List (α × β)} (h : assoc k l = some v) : (k, v) ∈ l := by
  induction l with
  | nil => cases h
  | cons x l ih =>
    unfold assoc at h
    split_ifs at h with e
    · cases h; subst e; exact List.mem_cons_self
    · exact List.mem_cons_of_mem _ (ih h)

theorem placeOf_wf {c : Config} (h : RegMapWf c) {r : Reg} {p : RegPlace} (hp : placeOf c r = some p) : PlaceWf p := by
  have row := h.rows _ (assoc_mem hp)
  simp only [placeWf, Bool.and_eq_true, Bool.or_eq_true, decide_eq_true_eq] at row
  obtain ⟨⟨-, kind, offset, four⟩, layout⟩ := row
  exact ⟨kind, offset, four, layout.imp_right rearranges_of_permutes⟩

theorem movedTo_mem {k o : Nat} {rows : List (Reg × RegPlace)} {r : Reg} (h : movedTo k o rows = some r) :
    ∃ p, (r, p) ∈ rows ∧ p.kind = k ∧ p.offset = o := by
  induction rows with
  | nil => cases h
  | cons x rows ih =>
    obtain ⟨r', p⟩ := x
    unfold movedTo at h
    split_ifs at h with e
    · cases h
      exact ⟨p, List.mem_cons_self, e⟩
    · obtain ⟨q, hq, e⟩ := ih h
      exact ⟨q, List.mem_cons_of_mem _ hq, e⟩

/-- Where no two rows share a place, a row's register is the one moved to its place. -/
theorem movedTo_of_mem {rows : List (Reg × RegPlace)} {r : Reg} {p : RegPlace}
    (hn : (rows.map (fun x => (x.2.kind, x.2.offset))).Nodup) (h : (r, p) ∈ rows) : movedTo p.kind p.offset rows = some r := by
  induction rows with
  | nil => cases h
  | cons x rows ih =>
    obtain ⟨r', q⟩ := x
    obtain ⟨hfresh, hn⟩ := List.nodup_cons.mp hn
    unfold movedTo
    rcases List.mem_cons.mp h with e | hmem
    · cases e
      rw [if_pos ⟨rfl, rfl⟩]
    · have hne : ¬(q.kind = p.kind ∧ q.offset = p.offset) := fun e =>
        hfresh (List.mem_map.mpr ⟨(r, p), hmem, Prod.ext e.1.symm e.2.symm⟩)
      rw [if_neg hne, ih hn hmem]

/-! ## The map and the decoder agree (R120 to R131) -/

/-- The default map's address of a mapped register that REGMAP leaves alone is nobody else's. -/
theorem movedTo_default {c : Config} (h : RegMapWf c) {r : Reg} (hm : mapped c r = true) (hf : fits r = true)
    (hp : placeOf c r = none) {k o : Nat} (ho : o < 4096) (hb : busAddr (nameOf r) = packAddr k 0 o) :
    movedTo k o c.regMap = none := by
  cases hmv : movedTo k o c.regMap with
  | none => rfl
  | some r' =>
    exfalso
    obtain ⟨p, hmem, rfl, rfl⟩ := movedTo_mem hmv
    have hreg : regAt p.kind 0 p.offset = some (nameOf r) := by
      rw [← regOfNat_packAddr (by decide) ho, ← hb, regOfNat_busAddr (fits_nameOf hf)]
    have hfree := h.free _ hmem
    simp only [placeFree, hreg, placeOf_nameOf, hp, Option.isSome_none, Bool.false_or, List.all_eq_true, List.mem_range] at hfree
    have hself := hfree (instOf r) (instOf_lt hf)
    rw [atInst_instOf_nameOf, hm] at hself
    cases hself

/-- The address of a mapped register is one of 32 bits, and REGMAP names the register there. -/
theorem regAtBus_busOf {c : Config} (h : RegMapWf c) {r : Reg} (hm : mapped c r = true) (hf : fits r = true) :
    busOf c r < 2 ^ 32 ∧ regAtBus c (BitVec.ofNat 32 (busOf c r)) = some r := by
  have hi := instOf_lt hf
  unfold busOf
  cases hp : placeOf c r with
  | some p =>
    have row := placeOf_wf h hp
    have hmv := movedTo_of_mem h.places (assoc_mem hp)
    exact ⟨packAddr_lt row.kind hi row.offset, (regAtBus_moved row.kind hi row.offset hmv).trans (by rw [atInst_instOf_nameOf])⟩
  | none =>
    obtain ⟨k, o, hk, ho, hr, hname⟩ := busAddr_place hf
    have hreg : regAt k (instOf r) o = some r := by rw [← regOfNat_packAddr hi ho, ← hr, regOfNat_busAddr hf]
    have hmv := movedTo_default h hm hf hp ho hname
    simp only [hr]
    exact ⟨packAddr_lt hk hi ho, (regAtBus_default hk hi ho hmv).trans hreg⟩

theorem mappedReg_eq_some {c : Config} {a : Word} {r : Reg} :
    mappedReg c a = some r ↔ regAtBus c a = some r ∧ mapped c r = true ∧ busOf c r = a.toNat := by
  unfold mappedReg
  cases regAtBus c a with
  | none => simp
  | some r' =>
    simp only [Option.ite_none_right_eq_some, Bool.and_eq_true, decide_eq_true_eq, Option.some.injEq]
    constructor
    · rintro ⟨h, rfl⟩
      exact ⟨rfl, h⟩
    · rintro ⟨rfl, h⟩
      exact ⟨h, rfl⟩

/-- R88: every register is at a multiple of 4. -/
theorem busOf_mod_four {c : Config} (h : RegMapWf c) (r : Reg) : busOf c r % 4 = 0 := by
  unfold busOf
  cases hp : placeOf c r with
  | some p => exact packAddr_mod_four (placeOf_wf h hp).four
  | none => exact busAddr_mod_four r

theorem busOf_of_regMap_nil {c : Config} (h : c.regMap = []) (r : Reg) : busOf c r = busAddr r := by
  simp only [busOf, placeOf, h, assoc]

/-- A value put on the bus and taken off it, or the other way, is the value. -/
theorem fromBus_toBus {c : Config} (h : RegMapWf c) (r : Reg) (v : Word) :
    fromBus c r (toBus c r v) = v ∧ toBus c r (fromBus c r v) = v := by
  unfold fromBus toBus
  cases hp : placeOf c r with
  | none => exact ⟨rfl, rfl⟩
  | some p =>
    rcases (placeOf_wf h hp).layout with hl | hl
    · simp only [hl, if_true, and_self]
    · by_cases he : p.layout.isEmpty = true
      · simp only [he, if_true, and_self]
      · simp only [he]
        exact ⟨gatherBits_spreadBits hl v, spreadBits_gatherBits hl v⟩

/-- Settles O6: a row of REGMAP has its place alone, which gives both directions; a row's layout is a permutation of the bits. -/
theorem registerMapRoundTrip : Obligations.RegisterMapRoundTrip := by
  intro c hc
  have h := configWf_regMap hc
  refine ⟨fun r hm => ?_, fun a r hr => ?_, busOf_of_regMap_nil, fromBus_toBus h⟩
  · obtain ⟨hlt, hreg⟩ := regAtBus_busOf h hm (mapped_fits hc hm)
    exact ⟨hlt, mappedReg_eq_some.mpr ⟨hreg, hm, by rw [BitVec.toNat_ofNat, Nat.mod_eq_of_lt hlt]⟩⟩
  · obtain ⟨-, hm, hb⟩ := mappedReg_eq_some.mp hr
    exact ⟨hm, hb, aligned_iff.mpr (hb ▸ busOf_mod_four h r)⟩

end Sys2Proof.Machine

/-! PROOFS. Family 40_register_access: RD32 and WR32 of every register, by its access kind (R150, R151). -/

namespace Sys2Proof.Machine

/-! ## What a read hands back (R150) -/

/-- R87: a write-only register reads 0. -/
theorem readReg_writeOnly (s : State) {r : Reg} (h : access r = .wo) : readReg s r = 0#32 := by
  cases r with
  | ringCmd | hostEoi | tagpoolInit _ => rfl
  | node k i r => cases r <;> cases h
  | _ => cases h

/-- A register that is storage reads its defined bits. -/
theorem readReg_stored (s : State) {r : Reg} (h : access r = .ro ∨ access r = .rw ∨ access r = .w1c) : readReg s r = s.field r := by
  unfold readReg
  split
  case h_9 => rfl
  all_goals rcases h with h | h | h <;> cases h

/-- R47: a read of an indexed DATA register finds the entry its ADDR register names. -/
theorem readReg_ramData_of_lt (s : State) {m : Ram} {l : Nat} (h : (s.field (ramAddr m l)).toNat < ramDepth s.cfg m) :
    readReg s (ramData m l) = s.ramEntry m l (s.field (ramAddr m l)).toNat :=
  (readReg_ramData s m l).trans (s.ramRead_of_lt h)

/-! ## An address that names no register (R88) -/

theorem exec_rd32_unmapped {s : State} {a : Word} (h : mappedReg s.cfg a = none) :
    exec (.rd32 a) s = .refused (.unmappedAccess a) := by
  change execRd32 a s = _
  simp only [execRd32, h]

theorem exec_wr32_unmapped {s : State} {a : Word} (h : mappedReg s.cfg a = none) (v : Word) :
    exec (.wr32 a v) s = .refused (.unmappedAccess a) := by
  change execWr32 a v s = _
  simp only [execWr32, h]

/-- Settles O7: the value is `readReg`'s, by the access kind of the register. -/
theorem readReturnsTheRegister : Obligations.ReadReturnsTheRegister := by
  refine fun s a => ⟨exec_rd32_unmapped, fun r hm => ⟨readReg s r, exec_rd32_mapped hm, readReg_writeOnly s, ?_, ?_, ?_, ?_, ?_, ?_⟩⟩
  · rintro rfl
    rfl
  · rintro t w rfl
    rfl
  · rintro l rfl hlt
    exact readReg_ramData_of_lt s (m := .crumb) hlt
  · rintro l rfl hlt
    exact readReg_ramData_of_lt s (m := .cam) hlt
  · rintro l rfl hlt
    exact readReg_ramData_of_lt s (m := .ganged) hlt
  · intro h
    rw [readReg_stored s h, State.field_eq_cellAt]

/-! ## What a write leaves (R151) -/

/-- WR32 of a mapped register is `writeReg`, which always ends with a value. -/
theorem exec_wr32_mapped {s t : State} {a w : Word} {r : Reg} (h : mappedReg s.cfg a = some r)
    (hw : writeReg r (fromBus s.cfg r w) s = .ok () t) : exec (.wr32 a w) s = .next t := by
  change execWr32 a w s = _
  simp only [execWr32, h, hw]
  rfl

/-- Settles O8: `writeReg_ok` gives the state; without a contain latch it is the one that asked nothing (`exec_wr32_plain`). -/
theorem writeCompletesAndIsRecorded : Obligations.WriteCompletesAndIsRecorded := by
  refine fun s a v => ⟨fun h => exec_wr32_unmapped h v, fun r hm => ?_⟩
  obtain ⟨t, hw, hcfg, hfault, hseq, hio⟩ := writeReg_ok r (fromBus s.cfg r v) s
  have hexec := exec_wr32_mapped hm hw
  refine ⟨t, hexec, hcfg, hfault, hseq, hio, fun hr => ?_⟩
  obtain rfl : _ = t := Host.Outcome.next.inj ((exec_wr32_plain hm hr v).symm.trans hexec)
  obtain ⟨-, -, -, hio⟩ := ((s.emit (.write r (fromBus s.cfg r v))).applyWrite_hardwareOnly r (fromBus s.cfg r v) false).parts
  rw [hio]
  rfl

end Sys2Proof.Machine

/-! PROOFS. Family 40_register_access: the steps of agent SRC (R160 to R169). Each operation of an arrival stores to a few
registers of the node (`StoredIn`); what a register holds afterwards is then read at the one operation that stores to it. -/

namespace Sys2Proof.Machine

/-! ## Stores to listed registers -/

/-- Only the cells of the listed registers change. -/
structure StoredIn (rs : List Reg) (s t : State) : Prop where
  only : CellsOnly s t
  frame : SameCellsBut rs s t

section
variable {rs rs' : List Reg} {s t u : State}

theorem StoredIn.refl (rs : List Reg) (s : State) : StoredIn rs s s := ⟨CellsOnly.refl s, fun _ _ => rfl⟩

theorem StoredIn.trans (h : StoredIn rs s t) (h' : StoredIn rs t u) : StoredIn rs s u :=
  ⟨h.only.trans h'.only, fun a ha => (h'.frame a ha).trans (h.frame a ha)⟩

theorem StoredIn.mono (h : StoredIn rs s t) (hrs : rs ⊆ rs') : StoredIn rs' s t :=
  ⟨h.only, fun a ha => h.frame a fun hm => ha (List.map_subset busAddr hrs hm)⟩

theorem StoredIn.store (s : State) {r : Reg} (hr : r ∈ rs) (v : Word) : StoredIn rs s (s.store r v) :=
  StoredIn.mono ⟨CellsOnly.store s r v, s.store_sameCellsBut r v⟩ (by simpa using hr)

/-- A register of the map that is not listed keeps its value. -/
theorem StoredIn.field (h : StoredIn rs s t) (hrs : ∀ q ∈ rs, fits q = true) {r : Reg} (hr : fits r = true) (hne : r ∉ rs) :
    t.field r = s.field r := by
  refine State.field_congr h.only.cfg (h.frame _ fun hm => ?_)
  obtain ⟨q, hq, he⟩ := List.mem_map.mp hm
  exact busAddr_ne hr (hrs q hq) (fun e => hne (e ▸ hq)) he

end

/-! ## The registers of an arrival -/

/-- The links of `latchLinks` are those whose latch the node owns (R162, R231). -/
theorem mem_latchLinks {c : Config} {k : Kind} {i l : Nat} : l ∈ latchLinks c k i ↔ ownsLatch c k i l := by
  have hcommon : ownerLink .lmcommon i = none := rfl
  unfold ownsLatch latchLinks
  split
  · simp [hcommon]
  · rename_i hk
    simp [Option.mem_toList, show k ≠ .lmcommon from hk]

/-- Only kinds with the full register set own a contain latch (R27, R231). -/
theorem hasFullSet_of_ownsLatch {c : Config} {k : Kind} {i l : Nat} (h : ownsLatch c k i l) : hasFullSet k = true := by
  rcases h with h | ⟨rfl, -⟩
  · cases k <;> first | rfl | cases h
  · rfl

theorem ownsLatch_lt {c : Config} {k : Kind} {i l : Nat} (hn : nodeExists c k i = true) (h : ownsLatch c k i l) : l < c.nLink := by
  rcases h with h | ⟨-, h⟩
  · exact ownerLink_lt hn h
  · exact mem_linksOfLm h

/-- The diagnostic registers of a node (R29, R31, R168). -/
def drawnRegs (k : Kind) (i : Nat) : List Reg :=
  .node k i .errAddr :: (List.range 8).map (fun j => .node k i (.diagLog j)) ++ (List.range 4).map (fun u => .node k i (.eccAddr u))

/-- The registers an arrival can change once the first latch is done. -/
def afterFirstLatch (c : Config) (k : Kind) (i : Nat) : List Reg :=
  .node k i .errStatus :: drawnRegs k i ++ (latchLinks c k i).map Reg.containLatch

theorem mem_drawnRegs {k : Kind} {i : Nat} {r : Reg} : r ∈ drawnRegs k i ↔ r = .node k i .errAddr
    ∨ (∃ j, j < 8 ∧ r = .node k i (.diagLog j)) ∨ ∃ u, u < 4 ∧ r = .node k i (.eccAddr u) := by
  simp [drawnRegs, eq_comm]

theorem mem_arrivalWrites {c : Config} {k : Kind} {i : Nat} {r : Reg} : r ∈ arrivalWrites c k i ↔
    r = .node k i .errStatus ∨ r = .node k i .errFirst ∨ r ∈ drawnRegs k i ∨ ∃ l, ownsLatch c k i l ∧ r = .containLatch l := by
  simp only [arrivalWrites, drawnRegs, List.mem_append, List.mem_cons, List.not_mem_nil, or_false, or_assoc, List.mem_map,
    mem_latchLinks, eq_comm (b := r)]

theorem mem_afterFirstLatch {c : Config} {k : Kind} {i : Nat} {r : Reg} : r ∈ afterFirstLatch c k i ↔
    r = .node k i .errStatus ∨ r ∈ drawnRegs k i ∨ ∃ l, ownsLatch c k i l ∧ r = .containLatch l := by
  simp only [afterFirstLatch, List.mem_append, List.mem_cons, or_assoc, List.mem_map, mem_latchLinks, eq_comm (b := r)]

theorem afterFirstLatch_subset (c : Config) (k : Kind) (i : Nat) : afterFirstLatch c k i ⊆ arrivalWrites c k i := fun _ h =>
  mem_arrivalWrites.mpr ((mem_afterFirstLatch.mp h).imp_right Or.inr)

theorem containLatch_fits {c : Config} {k : Kind} {i l : Nat} (hw : configWf c = true) (hn : nodeExists c k i = true)
    (h : ownsLatch c k i l) : fits (.containLatch l) = true :=
  decide_eq_true (lt_of_lt_of_le (ownsLatch_lt hn h) (configWf_sizes hw).links.2)

section
variable {c : Config} {k : Kind} {i : Nat} (hw : configWf c = true) (hn : nodeExists c k i = true) (hk : k ≠ .mctrl)
include hw hn hk

theorem node_fits {r : NodeReg} (hr : nodeFits r = true) : fits (.node k i r) = true := by
  simp [fits, hk, hr, nodeExists_lt hw hn]

theorem drawnRegs_fits {r : Reg} (h : r ∈ drawnRegs k i) : fits r = true := by
  rcases mem_drawnRegs.mp h with rfl | ⟨j, hj, rfl⟩ | ⟨u, hu, rfl⟩
  · exact node_fits hw hn hk rfl
  · exact node_fits hw hn hk (decide_eq_true hj)
  · exact node_fits hw hn hk (decide_eq_true hu)

theorem arrivalWrites_fits {r : Reg} (h : r ∈ arrivalWrites c k i) : fits r = true := by
  rcases mem_arrivalWrites.mp h with rfl | rfl | h | ⟨l, hl, rfl⟩
  · exact node_fits hw hn hk rfl
  · exact node_fits hw hn hk rfl
  · exact drawnRegs_fits hw hn hk h
  · exact containLatch_fits hw hn hl

end

/-! ## What each operation of an arrival stores to -/

theorem latchFirst_storedIn (s : State) (k : Kind) (i : Nat) (p e : Word) : StoredIn [.node k i .errFirst] s (s.latchFirst k i p e) := by
  unfold State.latchFirst
  split
  · exact StoredIn.store s (List.mem_singleton_self _) _
  · exact StoredIn.refl _ s

theorem setLatches_storedIn (s : State) {ls links : List Nat} (h : ls ⊆ links) : StoredIn (links.map Reg.containLatch) s (s.setLatches ls) := by
  induction ls generalizing s with
  | nil => exact StoredIn.refl _ s
  | cons l ls ih =>
    obtain ⟨hl, hls⟩ := List.cons_subset.mp h
    exact (StoredIn.store s (List.mem_map_of_mem hl) _).trans (ih _ hls)

theorem latchContain_storedIn (s : State) (k : Kind) (i : Nat) (e : Word) :
    StoredIn ((latchLinks s.cfg k i).map Reg.containLatch) s (s.latchContain k i e) := by
  unfold State.latchContain
  split
  · exact setLatches_storedIn s (List.Subset.refl _)
  · exact StoredIn.refl _ s

theorem drawDiag_storedIn (s : State) (k : Kind) (i j : Nat) (vs : List Word) : StoredIn (drawnRegs k i) s (s.drawDiag k i j vs) := by
  induction vs generalizing s j with
  | nil => exact StoredIn.refl _ s
  | cons v vs ih =>
    unfold State.drawDiag
    split
    · rename_i hj
      exact (StoredIn.store s (mem_drawnRegs.mpr (.inr (.inl ⟨j, hj, rfl⟩))) v).trans (ih _ _)
    · exact StoredIn.refl _ s

/-- An ECC unit a kind has is one of four (table P, R122). -/
theorem eccUnit_lt {c : Config} (hw : configWf c = true) {k : Kind} {u : Nat} (h : hasReg c k (.eccAddr u) = true) : u < 4 :=
  of_decide_eq_true (hasReg_fits hw h).2

theorem drawEccAddr_storedIn {s : State} (hw : configWf s.cfg = true) (k : Kind) (i : Nat) (e : Word) (ds : List (Nat × Word)) :
    StoredIn (drawnRegs k i) s (s.drawEccAddr k i e ds) := by
  induction ds generalizing s with
  | nil => exact StoredIn.refl _ s
  | cons d ds ih =>
    obtain ⟨u, v⟩ := d
    unfold State.drawEccAddr
    cases bitWithTag s.cfg k (.eccDbe u) with
    | none => exact ih hw
    | some b =>
      by_cases hb : (e.getLsbD b && hasReg s.cfg k (.eccAddr u)) = true
      · have hu := eccUnit_lt hw (Bool.and_eq_true _ _ ▸ hb).2
        simp only [if_pos hb]
        exact (StoredIn.store s (mem_drawnRegs.mpr (.inr (.inr ⟨u, hu, rfl⟩))) v).trans (ih hw)
      · simp only [if_neg hb]
        exact ih hw

theorem drawDiagnostics_storedIn {s : State} (hw : configWf s.cfg = true) (k : Kind) (i : Nat) (e : Word) (d : Draw) :
    StoredIn (drawnRegs k i) s (s.drawDiagnostics k i e d) := by
  have logs : ∀ u : State, u.cfg = s.cfg → StoredIn (drawnRegs k i) u ((u.drawDiag k i 0 d.diagLog).drawEccAddr k i e d.eccAddr) := by
    intro u hu
    have hdiag := drawDiag_storedIn u k i 0 d.diagLog
    exact hdiag.trans (drawEccAddr_storedIn (by rw [hdiag.only.cfg, hu]; exact hw) k i e _)
  unfold State.drawDiagnostics
  split
  · cases d.errAddr with
    | none => exact logs s rfl
    | some v => exact (StoredIn.store s (mem_drawnRegs.mpr (.inl rfl)) v).trans (logs _ rfl)
  · exact StoredIn.refl _ s

/-! ## An arrival at a node (R160 to R162, R168) -/

theorem arrive_node {s : State} {k : Kind} {i : Nat} {e : Word} (hn : nodeExists s.cfg k i = true) (hk : k ≠ .mctrl) (he : e ≠ 0#32)
    (d : Draw) : s.arrive k i e d = s.arriveNode k i e d := by
  unfold State.arrive
  rw [if_neg (by simp [he, hn]), if_neg hk]

theorem arrive_mctrl {s : State} {m : Nat} {e : Word} (hn : nodeExists s.cfg .mctrl m = true) (he : e ≠ 0#32) (d : Draw) :
    s.arrive .mctrl m e d = s.arriveMctrl m e := by
  unfold State.arrive
  rw [if_neg (by simp [he, hn]), if_pos rfl]

theorem arrive_nothing {s : State} {k : Kind} {i : Nat} {e : Word} (h : e = 0#32 ∨ nodeExists s.cfg k i = false) (d : Draw) :
    s.arrive k i e d = s := if_pos h

/-- R161: the first latch takes the bits where the status was 0. -/
theorem latchFirst_errFirst (s : State) (k : Kind) (i : Nat) (p e : Word) : (s.latchFirst k i p e).field (.node k i .errFirst)
    = if p = 0#32 then s.field (.node k i .errFirst) ||| e else s.field (.node k i .errFirst) := by
  unfold State.latchFirst
  split
  · rw [State.store_field_same, definedMask, BitVec.and_allOnes]
  · rfl

theorem setLatches_field (s : State) {ls : List Nat} (hls : ∀ l ∈ ls, fits (.containLatch l) = true) {l : Nat} (hl : l ∈ ls) :
    (s.setLatches ls).field (.containLatch l) = 1#32 := by
  induction ls generalizing s with
  | nil => cases hl
  | cons j ls ih =>
    obtain ⟨hj, hrest⟩ := List.forall_mem_cons.mp hls
    by_cases hmem : l ∈ ls
    · exact ih _ hrest hmem
    · obtain rfl : l = j := (List.mem_cons.mp hl).resolve_right hmem
      have hfits : ∀ q ∈ ls.map Reg.containLatch, fits q = true := List.forall_mem_map.mpr hrest
      have hother : Reg.containLatch l ∉ ls.map Reg.containLatch := by simpa using hmem
      exact ((setLatches_storedIn _ (List.Subset.refl ls)).field hfits hj hother).trans (by simp [definedMask])

/-- R162: the latch of an owned link is 1 if one of the bits is contain-enabled. -/
theorem latchContain_field {s : State} {k : Kind} {i : Nat} (hw : configWf s.cfg = true) (hn : nodeExists s.cfg k i = true) (e : Word)
    {l : Nat} (hl : ownsLatch s.cfg k i l) : (s.latchContain k i e).field (.containLatch l)
      = if e &&& s.field (.node k i .containEn) ≠ 0#32 then 1#32 else s.field (.containLatch l) := by
  have hreg : hasReg s.cfg k .containEn = true := hasFullSet_of_ownsLatch hl
  unfold State.latchContain
  simp only [hreg, true_and]
  split
  · exact setLatches_field s (fun j hj => containLatch_fits hw hn (mem_latchLinks.mp hj)) (mem_latchLinks.mpr hl)
  · rfl

theorem arriveNode_afterLatchContain {s : State} (hw : configWf s.cfg = true) (k : Kind) (i : Nat) (e : Word) (d : Draw) :
    StoredIn (.node k i .errStatus :: drawnRegs k i) ((s.latchFirst k i (s.field (.node k i .errStatus)) e).latchContain k i e)
      (s.arriveNode k i e d) := by
  have hcfg := ((latchFirst_cellsOnly s k i (s.field (.node k i .errStatus)) e).trans (latchContain_cellsOnly _ k i e)).cfg
  exact ((drawDiagnostics_storedIn (by rw [hcfg]; exact hw) k i e d).mono (List.subset_cons_self _ _)).trans
    (StoredIn.store _ List.mem_cons_self _)

theorem arriveNode_afterLatchFirst {s : State} (hw : configWf s.cfg = true) (k : Kind) (i : Nat) (e : Word) (d : Draw) :
    StoredIn (afterFirstLatch s.cfg k i) (s.latchFirst k i (s.field (.node k i .errStatus)) e) (s.arriveNode k i e d) := by
  have hlatch := latchContain_storedIn (s.latchFirst k i (s.field (.node k i .errStatus)) e) k i e
  rw [(latchFirst_cellsOnly s k i _ e).cfg] at hlatch
  exact (hlatch.mono (List.subset_append_right _ _)).trans
    ((arriveNode_afterLatchContain hw k i e d).mono (List.subset_append_left _ _))

theorem arriveNode_storedIn {s : State} (hw : configWf s.cfg = true) (k : Kind) (i : Nat) (e : Word) (d : Draw) :
    StoredIn (arrivalWrites s.cfg k i) s (s.arriveNode k i e d) := by
  have hfirst : [Reg.node k i .errFirst] ⊆ arrivalWrites s.cfg k i :=
    List.cons_subset.mpr ⟨mem_arrivalWrites.mpr (.inr (.inl rfl)), List.nil_subset _⟩
  exact ((latchFirst_storedIn s k i _ e).mono hfirst).trans
    ((arriveNode_afterLatchFirst hw k i e d).mono (afterFirstLatch_subset _ k i))

section
variable {s : State} {k : Kind} {i : Nat} (hw : configWf s.cfg = true) (hn : nodeExists s.cfg k i = true) (hk : k ≠ .mctrl)
include hw hn hk

theorem arriveNode_errFirst (e : Word) (d : Draw) : (s.arriveNode k i e d).field (.node k i .errFirst)
    = if s.field (.node k i .errStatus) = 0#32 then s.field (.node k i .errFirst) ||| e else s.field (.node k i .errFirst) := by
  have hne : Reg.node k i .errFirst ∉ afterFirstLatch s.cfg k i := by simp [mem_afterFirstLatch, mem_drawnRegs]
  rw [(arriveNode_afterLatchFirst hw k i e d).field (fun q hq => arrivalWrites_fits hw hn hk (afterFirstLatch_subset _ k i hq))
    (node_fits hw hn hk rfl) hne, latchFirst_errFirst]

theorem arriveNode_containLatch (e : Word) (d : Draw) {l : Nat} (hl : ownsLatch s.cfg k i l) :
    (s.arriveNode k i e d).field (.containLatch l)
      = if e &&& s.field (.node k i .containEn) ≠ 0#32 then 1#32 else s.field (.containLatch l) := by
  let u := s.latchFirst k i (s.field (.node k i .errStatus)) e
  have hfirst : StoredIn [.node k i .errFirst] s u := latchFirst_storedIn s k i _ e
  have hcfg : u.cfg = s.cfg := hfirst.only.cfg
  have before : ∀ r, fits r = true → r ≠ .node k i .errFirst → u.field r = s.field r := fun r hr hne =>
    hfirst.field (by simpa using node_fits hw hn hk rfl) hr (by simpa using hne)
  have hlast : ∀ q ∈ .node k i .errStatus :: drawnRegs k i, fits q = true :=
    List.forall_mem_cons.mpr ⟨node_fits hw hn hk rfl, fun q hq => drawnRegs_fits hw hn hk hq⟩
  have hne : Reg.containLatch l ∉ .node k i .errStatus :: drawnRegs k i := by simp [mem_drawnRegs]
  rw [(arriveNode_afterLatchContain hw k i e d).field hlast (containLatch_fits hw hn hl) hne,
    latchContain_field (by rw [hcfg]; exact hw) (by rw [hcfg]; exact hn) e (by rw [hcfg]; exact hl),
    before _ (node_fits hw hn hk rfl) (by simp), before _ (containLatch_fits hw hn hl) (by simp)]

end

/-- R160: the status gains the bits that arrive. -/
theorem arrive_errStatus {s : State} {k : Kind} {i : Nat} (hw : configWf s.cfg = true) (hn : nodeExists s.cfg k i = true)
    (hk : k ≠ .mctrl) (e : Word) (d : Draw) :
    (s.arrive k i e d).field (.node k i .errStatus) = s.field (.node k i .errStatus) ||| e := by
  rw [arrive_status hw hn e d (.node k i .errStatus) (if_neg hk).symm, definedMask, BitVec.and_allOnes]

/-- An arrival at a node, of some bits or none, stores to the node's registers of `arrivalWrites`. -/
theorem arrive_storedIn {s : State} {k : Kind} {i : Nat} (hw : configWf s.cfg = true) (hn : nodeExists s.cfg k i = true)
    (hk : k ≠ .mctrl) (e : Word) (d : Draw) : StoredIn (arrivalWrites s.cfg k i) s (s.arrive k i e d) := by
  by_cases he : e = 0#32
  · rw [arrive_nothing (.inl he)]
    exact StoredIn.refl _ s
  · rw [arrive_node hn hk he]
    exact arriveNode_storedIn hw k i e d

/-! ## The step of a move -/

theorem step_move {s : State} {m : Move} {later : List Input} (h : s.io.inbox = .move m :: later) :
    step s = outcomeOf s (applyMove m (s.setInbox later)) := by
  simp only [step, fetch, h, stepOf]

theorem step_arrive {s : State} {k : Kind} {i : Nat} {e : Word} {d : Draw} {later : List Input}
    (h : s.io.inbox = .move (.arrive k i e d) :: later) : step s = .next ((s.setInbox later).arrive k i e d) := by
  rw [step_move h]
  rfl

theorem step_eccTick {s : State} {k : Kind} {i u : Nat} {a : Word} {d : Draw} {later : List Input}
    (h : s.io.inbox = .move (.eccTick k i u a d) :: later) : step s = .next ((s.setInbox later).eccTick k i u a d) := by
  rw [step_move h]
  rfl

theorem step_rstseqAck {s : State} {l : Nat} {later : List Input} (h : s.io.inbox = .move (.rstseqAck l) :: later) :
    step s = .next ((s.setInbox later).ackRstseq l) := by
  rw [step_move h]
  rfl

theorem step_ramInitDone {s : State} {l : Nat} {later : List Input} (h : s.io.inbox = .move (.ramInitDone l) :: later) :
    step s = .next ((s.setInbox later).finishRamInit l) := by
  rw [step_move h]
  rfl

theorem step_ringAck {s : State} {later : List Input} (h : s.io.inbox = .move .ringAck :: later) :
    step s = .next (s.setInbox later).ackRing := by
  rw [step_move h]
  rfl

/-- Settles O19: each register is read at the one operation of the arrival that stores to it. -/
theorem arrivalAtANode : Obligations.ArrivalAtANode := by
  intro s k i e d later hw hin hn hk he
  have hstep := step_arrive hin
  rw [arrive_node (s := s.setInbox later) hn hk he] at hstep
  have hstored := arriveNode_storedIn (s := s.setInbox later) hw k i e d
  refine ⟨_, hstep, ?_, arriveNode_errFirst (s := s.setInbox later) hw hn hk e d, fun l hl => ?_, hstored.frame, hstored.only.hw,
    hstored.only.fault, hstored.only.seq, hstored.only.io⟩
  · rw [← arrive_node (s := s.setInbox later) hn hk he]
    exact arrive_errStatus (s := s.setInbox later) hw hn hk e d
  · rw [arriveNode_containLatch (s := s.setInbox later) hw hn hk e d hl]
    split
    · rename_i hmeets
      simp [show e &&& s.field (.node k i .containEn) ≠ 0#32 from hmeets]
    · rename_i hmeets
      simp [show e &&& s.field (.node k i .containEn) = 0#32 from not_not.mp hmeets]

/-- Settles O20: an arrival at a microcontroller is one store. -/
theorem arrivalAtAMicrocontroller : Obligations.ArrivalAtAMicrocontroller := by
  intro s m e d later hw hin hn he
  have hstep := step_arrive hin
  rw [arrive_mctrl (s := s.setInbox later) hn he] at hstep
  have hstatus := arrive_status (s := s.setInbox later) hw hn e d (.intrStatus m) rfl
  rw [arrive_mctrl (s := s.setInbox later) hn he] at hstatus
  exact ⟨_, hstep, hstatus, (s.setInbox later).store_sameCellsBut _ _, rfl, rfl, rfl, rfl⟩

/-! ## The ECC rows of TABLE (R8, R31) -/

theorem table_of_mem {c : Config} (hw : configWf c = true) {r : TableRow} (hr : r ∈ c.table) : table c r.kind r.bit = some r.entry := by
  have listed : ∀ rows : List TableRow, r ∈ rows → findRow r.kind r.bit rows ≠ none := by
    intro rows
    induction rows with
    | nil => nofun
    | cons q rows ih =>
      intro hm
      unfold findRow
      split
      · nofun
      · rename_i hq
        exact ih ((List.mem_cons.mp hm).resolve_left (by rintro rfl; exact hq ⟨rfl, rfl⟩))
  have hunique := (configWf_parts hw).unique
  simp only [tableUnique, Bool.and_eq_true, decide_eq_true_eq] at hunique
  cases ht : table c r.kind r.bit with
  | none => exact absurd ht (listed c.table hr)
  | some e =>
    obtain ⟨q, hq, hkind, hbit, rfl⟩ := table_row ht
    rw [List.inj_on_of_nodup_map hunique.1 hq hr (by rw [hkind, hbit])]

/-- A row of a kind with an ECC tag is the only one (R374). -/
theorem row_of_tag_unique {c : Config} (hw : configWf c = true) {q r : TableRow} (hq : q ∈ c.table) (hr : r ∈ c.table)
    (hkind : q.kind = r.kind) (hecc : q.entry.ecc = r.entry.ecc) (htag : r.entry.ecc ≠ .notEcc) : q = r := by
  have hunique := (configWf_parts hw).unique
  simp only [tableUnique, Bool.and_eq_true, decide_eq_true_eq] at hunique
  exact List.inj_on_of_nodup_map hunique.2 (List.mem_filter.mpr ⟨hq, decide_eq_true (hecc ▸ htag)⟩)
    (List.mem_filter.mpr ⟨hr, decide_eq_true htag⟩) (by rw [hkind, hecc])

/-- The bit of an ECC tag is the one whose entry has it. -/
theorem bitWithTag_eq_some {c : Config} (hw : configWf c = true) {k : Kind} {tag : EccTag} (htag : tag ≠ .notEcc) {b : Nat} :
    bitWithTag c k tag = some b ↔ ∃ e, table c k b = some e ∧ e.ecc = tag := by
  unfold bitWithTag
  constructor
  · intro h
    obtain ⟨r, hfind, rfl⟩ := Option.map_eq_some_iff.mp h
    have hr := List.find?_some hfind
    simp only [Bool.and_eq_true, decide_eq_true_eq] at hr
    obtain ⟨rfl, hecc⟩ := hr
    exact ⟨r.entry, table_of_mem hw (List.mem_of_find?_eq_some hfind), hecc⟩
  · rintro ⟨e, ht, rfl⟩
    obtain ⟨r, hr, rfl, rfl, rfl⟩ := table_row ht
    cases hfind : c.table.find? (fun q => decide (q.kind = r.kind) && decide (q.entry.ecc = r.entry.ecc)) with
    | none => exact absurd (List.find?_eq_none.mp hfind r hr) (by simp)
    | some q =>
      have hq := List.find?_some hfind
      simp only [Bool.and_eq_true, decide_eq_true_eq] at hq
      rw [row_of_tag_unique hw (List.mem_of_find?_eq_some hfind) hr hq.1 hq.2 htag]
      rfl

/-! ## An ECC tick (R166) -/

/-- What a tick makes of the counter. -/
def State.countUp (s : State) (k : Kind) (i u : Nat) : Word := (s.field (.node k i (.eccCount u)) + 1#32) &&& eccMask s.cfg

/-- The state with the counter and the victim's address in place. -/
def State.counted (s : State) (k : Kind) (i u : Nat) (addr : Word) : State :=
  (s.store (.node k i (.eccCount u)) (s.countUp k i u)).store (.node k i (.eccAddr u)) addr

/-- The bits that arrive at a tick: the unit's limit bit where the count reaches a limit that is not 0. -/
def State.tickRaises (s : State) (k : Kind) (i u : Nat) : Word :=
  if s.field (.node k i (.eccLimit u)) ≠ 0#32 ∧ s.field (.node k i (.eccLimit u)) ≤ s.countUp k i u then
    ((bitWithTag s.cfg k (.eccLimit u)).map bit).getD 0#32
  else 0#32

theorem counted_storedIn (s : State) (k : Kind) (i u : Nat) (a : Word) :
    StoredIn [.node k i (.eccCount u), .node k i (.eccAddr u)] s (s.counted k i u a) :=
  (StoredIn.store s (by simp) _).trans (StoredIn.store _ (by simp) a)

theorem and_lowMask_toNat (x : Word) {n : Nat} (hn : n ≤ 32) : (x &&& lowMask n).toNat = x.toNat % 2 ^ n := by
  have hle : 2 ^ n ≤ 2 ^ 32 := Nat.pow_le_pow_right (by decide) hn
  have hpos : 0 < 2 ^ n := Nat.two_pow_pos n
  rw [BitVec.toNat_and, lowMask, BitVec.toNat_ofNat, Nat.mod_eq_of_lt (by omega), Nat.and_two_pow_sub_one_eq_mod]

/-- The counter counts modulo 2^ECC_CW. -/
theorem State.countUp_toNat {s : State} (hw : configWf s.cfg = true) (k : Kind) (i u : Nat) :
    (s.countUp k i u).toNat = ((s.field (.node k i (.eccCount u))).toNat + 1) % 2 ^ s.cfg.eccCw := by
  have hcw := (configWf_sizes hw).counter.2
  rw [State.countUp, eccMask, and_lowMask_toNat _ hcw, BitVec.toNat_add, Nat.mod_mod_of_dvd _ (Nat.pow_dvd_pow 2 hcw)]
  rfl

section
variable {s : State} {k : Kind} {i u : Nat} (hw : configWf s.cfg = true) (hn : nodeExists s.cfg k i = true)
  (hu : hasReg s.cfg k (.eccCount u) = true)
include hw hn hu

theorem eccRegs_fit {q : Reg} (hq : q ∈ [Reg.node k i (.eccCount u), .node k i (.eccAddr u), .node k i (.eccLimit u)]) :
    fits q = true := by
  obtain ⟨hk, hfit⟩ := hasReg_fits hw hu
  simp only [List.mem_cons, List.not_mem_nil, or_false] at hq
  rcases hq with rfl | rfl | rfl <;> exact node_fits hw hn hk hfit

theorem counted_field (a : Word) {r : Reg} (hr : fits r = true) (hc : r ≠ .node k i (.eccCount u)) (ha : r ≠ .node k i (.eccAddr u)) :
    (s.counted k i u a).field r = s.field r := by
  refine (counted_storedIn s k i u a).field (fun q hq => eccRegs_fit hw hn hu ?_) hr (by simp [hc, ha])
  simp only [List.mem_cons, List.not_mem_nil, or_false] at hq ⊢
  exact hq.imp_right Or.inl

theorem counted_eccCount (a : Word) : (s.counted k i u a).field (.node k i (.eccCount u)) = s.countUp k i u := by
  rw [State.counted, State.store_field _ _ (eccRegs_fit hw hn hu (by simp)) (eccRegs_fit hw hn hu (by simp)), if_neg (by simp),
    State.store_field_same]
  simp only [definedMask, State.countUp, BitVec.and_assoc, BitVec.and_self]

/-- A tick is the count and the arrival of what it raises, which may be nothing (log 36). -/
theorem eccTick_eq (a : Word) (d : Draw) : s.eccTick k i u a d = (s.counted k i u a).arrive k i (s.tickRaises k i u) d := by
  have hlimit : (s.counted k i u a).field (.node k i (.eccLimit u)) = s.field (.node k i (.eccLimit u)) :=
    counted_field hw hn hu a (eccRegs_fit hw hn hu (by simp)) (by simp) (by simp)
  unfold State.eccTick
  rw [if_pos ⟨hn, hu⟩]
  change (if (s.counted k i u a).field (.node k i (.eccLimit u)) ≠ 0#32
      ∧ (s.counted k i u a).field (.node k i (.eccLimit u)) ≤ s.countUp k i u then _ else s.counted k i u a) = _
  rw [hlimit, State.tickRaises]
  split
  · cases bitWithTag s.cfg k (.eccLimit u) with
    | some b => rfl
    | none => exact (arrive_nothing (.inl rfl) d).symm
  · exact (arrive_nothing (.inl rfl) d).symm

end

theorem eccTick_storedIn {s : State} {k : Kind} {i u : Nat} (hw : configWf s.cfg = true) (hn : nodeExists s.cfg k i = true)
    (hu : hasReg s.cfg k (.eccCount u) = true) (a : Word) (d : Draw) :
    StoredIn (.node k i (.eccCount u) :: arrivalWrites s.cfg k i) s (s.eccTick k i u a d) := by
  obtain ⟨hk, hlt⟩ := hasReg_fits hw hu
  have haddr : Reg.node k i (.eccAddr u) ∈ arrivalWrites s.cfg k i :=
    mem_arrivalWrites.mpr (.inr (.inr (.inl (mem_drawnRegs.mpr (.inr (.inr ⟨u, of_decide_eq_true hlt, rfl⟩))))))
  have hcounter : [Reg.node k i (.eccCount u), .node k i (.eccAddr u)] ⊆ .node k i (.eccCount u) :: arrivalWrites s.cfg k i :=
    List.cons_subset_cons _ (List.cons_subset.mpr ⟨haddr, List.nil_subset _⟩)
  rw [eccTick_eq hw hn hu]
  exact ((counted_storedIn s k i u a).mono hcounter).trans
    ((arrive_storedIn (s := s.counted k i u a) hw hn hk _ d).mono (List.subset_cons_self _ _))

theorem eccTick_eccCount {s : State} {k : Kind} {i u : Nat} (hw : configWf s.cfg = true) (hn : nodeExists s.cfg k i = true)
    (hu : hasReg s.cfg k (.eccCount u) = true) (a : Word) (d : Draw) :
    (s.eccTick k i u a d).field (.node k i (.eccCount u)) = s.countUp k i u := by
  have hk := (hasReg_fits hw hu).1
  have hne : Reg.node k i (.eccCount u) ∉ arrivalWrites s.cfg k i := by simp [mem_arrivalWrites, mem_drawnRegs]
  rw [eccTick_eq hw hn hu, (arrive_storedIn (s := s.counted k i u a) hw hn hk _ d).field
    (fun q hq => arrivalWrites_fits hw hn hk hq) (eccRegs_fit hw hn hu (by simp)) hne, counted_eccCount hw hn hu]

theorem eccTick_errStatus {s : State} {k : Kind} {i u : Nat} (hw : configWf s.cfg = true) (hn : nodeExists s.cfg k i = true)
    (hu : hasReg s.cfg k (.eccCount u) = true) (a : Word) (d : Draw) :
    (s.eccTick k i u a d).field (.node k i .errStatus) = s.field (.node k i .errStatus) ||| s.tickRaises k i u := by
  have hk := (hasReg_fits hw hu).1
  rw [eccTick_eq hw hn hu, arrive_errStatus (s := s.counted k i u a) hw hn hk,
    counted_field hw hn hu a (node_fits hw hn hk rfl) (by simp) (by simp)]

/-- Settles O21: the limit bit of TABLE is the one `bitWithTag` finds, since a kind has at most one. -/
theorem eccTickCounts : Obligations.EccTickCounts := by
  intro s k i u addr d later hw hin hn hu
  have hstored := eccTick_storedIn (s := s.setInbox later) hw hn hu addr d
  have hcount := eccTick_eccCount (s := s.setInbox later) hw hn hu addr d
  have hstatus := eccTick_errStatus (s := s.setInbox later) hw hn hu addr d
  refine ⟨_, step_eccTick hin, ?_, fun b e ht hecc => ?_, fun hnone => ?_, hstored.frame, hstored.only.hw, hstored.only.fault,
    hstored.only.seq⟩
  · rw [hcount]
    exact State.countUp_toNat (s := s.setInbox later) hw k i u
  · have htag : bitWithTag s.cfg k (.eccLimit u) = some b := (bitWithTag_eq_some hw (tag := .eccLimit u) nofun).mpr ⟨e, ht, hecc⟩
    rw [hstatus, hcount]
    simp only [State.tickRaises, State.setInbox_cfg, State.setInbox_read_field, htag]
    rfl
  · have htag : bitWithTag s.cfg k (.eccLimit u) = none := by
      cases h : bitWithTag s.cfg k (.eccLimit u) with
      | none => rfl
      | some b =>
        obtain ⟨e, ht, hecc⟩ := (bitWithTag_eq_some hw (tag := .eccLimit u) nofun).mp h
        exact absurd hecc (hnone b e ht)
    rw [hstatus]
    simp [State.tickRaises, htag]

/-! ## No step of SRC clears a bit (R169) -/

/-- What R169 says of a step: no W1C bit is lost, no RW register but an ECC counter changes, nor does the fault state, the
sequencers' or `armed`. -/
structure SourceStep (s t : State) : Prop where
  sticky : ∀ r, fits r = true → access r = .w1c → ∀ b, (s.field r).getLsbD b = true → (t.field r).getLsbD b = true
  written : ∀ r, fits r = true → access r = .rw → (∀ k i u, r ≠ .node k i (.eccCount u)) → t.field r = s.field r
  fault : t.fault = s.fault
  seq : t.seq = s.seq
  armed : t.hw.armed = s.hw.armed

theorem SourceStep.refl (s : State) : SourceStep s s := ⟨fun _ _ _ _ h => h, fun _ _ _ _ => rfl, rfl, rfl, rfl⟩

theorem SourceStep.trans {s t u : State} (h : SourceStep s t) (h' : SourceStep t u) : SourceStep s u :=
  ⟨fun r hf hr b hb => h'.sticky r hf hr b (h.sticky r hf hr b hb),
    fun r hf hr hc => (h'.written r hf hr hc).trans (h.written r hf hr hc),
    h'.fault.trans h.fault, h'.seq.trans h.seq, h'.armed.trans h.armed⟩

theorem CellsOnly.armed {s t : State} (h : CellsOnly s t) : t.hw.armed = s.hw.armed := by rw [h.hw]

/-- Whether a store to a register is beside R169: an RO register, or an ECC counter. -/
def besideR169 : Reg → Bool
  | .node _ _ (.eccCount _) => true
  | r => decide (access r = .ro)

theorem besideR169_of {r : Reg} (h : besideR169 r = true) : access r = .ro ∨ ∃ k i u, r = .node k i (.eccCount u) := by
  unfold besideR169 at h
  split at h
  · exact .inr ⟨_, _, _, rfl⟩
  · exact .inl (of_decide_eq_true h)

/-- Stores to registers that R169 does not speak of. -/
theorem StoredIn.sourceStep {rs : List Reg} {s t : State} (h : StoredIn rs s t) (hfits : ∀ q ∈ rs, fits q = true)
    (hrs : ∀ q ∈ rs, besideR169 q = true) : SourceStep s t where
  sticky r hf hr b hb := by
    have hne : r ∉ rs := fun hm => by
      rcases besideR169_of (hrs r hm) with ho | ⟨k, i, u, rfl⟩
      · cases hr.symm.trans ho
      · cases hr
    rwa [h.field hfits hf hne]
  written r hf hr hc := by
    refine h.field hfits hf fun hm => ?_
    rcases besideR169_of (hrs r hm) with ho | ⟨k, i, u, rfl⟩
    · cases hr.symm.trans ho
    · exact hc k i u rfl
  fault := h.only.fault
  seq := h.only.seq
  armed := h.only.armed

/-- An arrival at a microcontroller adds bits to INTR_STATUS. -/
theorem arriveMctrl_sourceStep {s : State} {m : Nat} (hw : configWf s.cfg = true) (hn : nodeExists s.cfg .mctrl m = true) (e : Word)
    (he : e ≠ 0#32) (d : Draw) : SourceStep s (s.arrive .mctrl m e d) := by
  have hstatus := arrive_status hw hn e d (.intrStatus m) rfl
  have hfits : fits (.intrStatus m) = true := decide_eq_true (nodeExists_lt hw hn)
  have hother : ∀ r, fits r = true → r ≠ .intrStatus m → (s.arrive .mctrl m e d).field r = s.field r := fun r hf hne => by
    rw [arrive_mctrl hn he, State.arriveMctrl, State.store_field _ _ hfits hf, if_neg hne]
  have honly := arrive_cellsOnly s .mctrl m e d
  refine ⟨fun r hf _ b hb => ?_, fun r hf hr _ => hother r hf (by rintro rfl; cases hr), honly.fault, honly.seq, honly.armed⟩
  by_cases hr : r = .intrStatus m
  · rw [hr] at hb ⊢
    rw [hstatus, BitVec.getLsbD_or, hb, Bool.true_or]
  · rwa [hother r hf hr]

/-- CONTAIN_LATCH has bit 0 only (R45). -/
theorem containLatch_bit {s : State} {l b : Nat} (h : (s.field (.containLatch l)).getLsbD b = true) : b = 0 := by
  rw [State.field, BitVec.getLsbD_and, Bool.and_eq_true] at h
  simpa [definedMask] using h.2

/-- An arrival at a node adds bits to ERR_STATUS, ERR_FIRST and the contain latches (R160 to R162). -/
theorem arriveNode_sourceStep {s : State} {k : Kind} {i : Nat} (hw : configWf s.cfg = true) (hn : nodeExists s.cfg k i = true)
    (hk : k ≠ .mctrl) (e : Word) (he : e ≠ 0#32) (d : Draw) : SourceStep s (s.arrive k i e d) := by
  have hstored := arrive_storedIn hw hn hk e d
  have hother : ∀ r, fits r = true → r ∉ arrivalWrites s.cfg k i → (s.arrive k i e d).field r = s.field r := fun r hf hne =>
    hstored.field (fun q hq => arrivalWrites_fits hw hn hk hq) hf hne
  have hdrawn : ∀ r ∈ drawnRegs k i, access r = .ro := fun r hr => by
    rcases mem_drawnRegs.mp hr with rfl | ⟨j, -, rfl⟩ | ⟨u, -, rfl⟩ <;> rfl
  refine ⟨fun r hf hr b hb => ?_, fun r hf hr _ => hother r hf fun hm => ?_, hstored.only.fault, hstored.only.seq, hstored.only.armed⟩
  · by_cases hm : r ∈ arrivalWrites s.cfg k i
    · rcases mem_arrivalWrites.mp hm with rfl | rfl | hd | ⟨l, hl, rfl⟩
      · rw [arrive_errStatus hw hn hk, BitVec.getLsbD_or, hb, Bool.true_or]
      · rw [arrive_node hn hk he, arriveNode_errFirst hw hn hk]
        split
        · rw [BitVec.getLsbD_or, hb, Bool.true_or]
        · exact hb
      · cases hr.symm.trans (hdrawn r hd)
      · rw [arrive_node hn hk he, arriveNode_containLatch hw hn hk e d hl]
        split
        · rw [containLatch_bit hb]
          rfl
        · exact hb
    · rwa [hother r hf hm]
  · rcases mem_arrivalWrites.mp hm with rfl | rfl | hd | ⟨l, -, rfl⟩
    · cases hr
    · cases hr
    · cases hr.symm.trans (hdrawn r hd)
    · cases hr

theorem arrive_sourceStep {s : State} (hw : configWf s.cfg = true) (k : Kind) (i : Nat) (e : Word) (d : Draw) :
    SourceStep s (s.arrive k i e d) := by
  by_cases he : e = 0#32
  · rw [arrive_nothing (.inl he)]
    exact SourceStep.refl s
  · cases hn : nodeExists s.cfg k i with
    | false =>
      rw [arrive_nothing (.inr hn)]
      exact SourceStep.refl s
    | true =>
      by_cases hk : k = .mctrl
      · subst hk
        exact arriveMctrl_sourceStep hw hn e he d
      · exact arriveNode_sourceStep hw hn hk e he d

theorem eccTick_sourceStep {s : State} (hw : configWf s.cfg = true) (k : Kind) (i u : Nat) (a : Word) (d : Draw) :
    SourceStep s (s.eccTick k i u a d) := by
  by_cases h : nodeExists s.cfg k i = true ∧ hasReg s.cfg k (.eccCount u) = true
  · obtain ⟨hn, hu⟩ := h
    have hcounted : SourceStep s (s.counted k i u a) :=
      (counted_storedIn s k i u a).sourceStep (by simp [eccRegs_fit hw hn hu]) (by simp [besideR169, access])
    rw [eccTick_eq hw hn hu]
    exact hcounted.trans (arrive_sourceStep (s := s.counted k i u a) hw k i _ d)
  · rw [State.eccTick, if_neg h]
    exact SourceStep.refl s

/-! ## The responders (R167) -/

theorem ackRstseq_pending {s : State} {l : Nat} (h : s.rstseqPending l = true) :
    s.ackRstseq l = (s.store (.rstseqStatus l) 1#32).setRstseqPending l false := if_pos h

theorem finishRamInit_pending {s : State} {l : Nat} (h : s.ramInitPending l = true) :
    s.finishRamInit l = ((s.store (.ramInitStatus l) 1#32).setTagpoolClean l true).setRamInitPending l false := if_pos h

theorem ackRing_pending {s : State} (h : s.hw.ringPending = true) :
    s.ackRing = (s.store .ringStatus 1#32).setRingPending false := if_pos h

/-- A responder's status register is RO. -/
theorem store_sourceStep (s : State) {r : Reg} (hf : fits r = true) (hr : besideR169 r = true) (v : Word) :
    SourceStep s (s.store r v) :=
  (StoredIn.store (rs := [r]) s (List.mem_singleton_self r) v).sourceStep (by simpa using hf) (by simpa using hr)

theorem ackRstseq_sourceStep {s : State} {l : Nat} (hf : fits (.rstseqStatus l) = true) : SourceStep s (s.ackRstseq l) := by
  cases h : s.rstseqPending l with
  | false =>
    rw [State.ackRstseq, h]
    exact SourceStep.refl s
  | true =>
    obtain ⟨sticky, written, fault, seq, armed⟩ := store_sourceStep s hf rfl 1#32
    rw [ackRstseq_pending h]
    exact ⟨sticky, written, fault, seq, armed⟩

theorem finishRamInit_sourceStep {s : State} {l : Nat} (hf : fits (.ramInitStatus l) = true) : SourceStep s (s.finishRamInit l) := by
  cases h : s.ramInitPending l with
  | false =>
    rw [State.finishRamInit, h]
    exact SourceStep.refl s
  | true =>
    obtain ⟨sticky, written, fault, seq, armed⟩ := store_sourceStep s hf rfl 1#32
    rw [finishRamInit_pending h]
    exact ⟨sticky, written, fault, seq, armed⟩

theorem ackRing_sourceStep (s : State) : SourceStep s s.ackRing := by
  cases h : s.hw.ringPending with
  | false =>
    rw [State.ackRing, h]
    exact SourceStep.refl s
  | true =>
    obtain ⟨sticky, written, fault, seq, armed⟩ := store_sourceStep s (r := .ringStatus) rfl rfl 1#32
    rw [ackRing_pending h]
    exact ⟨sticky, written, fault, seq, armed⟩

/-- R169 of every step of SRC. -/
theorem step_sourceStep {s t : State} {m : Move} {later : List Input} (hw : configWf s.cfg = true) (hin : s.io.inbox = .move m :: later)
    (hm : isSourceMove s.cfg m) (h : step s = .next t) : SourceStep (s.setInbox later) t := by
  have hlink : ∀ l, l < s.cfg.nLink → l < 4096 := fun l hl => lt_of_lt_of_le hl (configWf_sizes hw).links.2
  cases m with
  | arrive k i e d =>
    cases (step_arrive hin).symm.trans h
    exact arrive_sourceStep (s := s.setInbox later) hw k i e d
  | eccTick k i u a d =>
    cases (step_eccTick hin).symm.trans h
    exact eccTick_sourceStep (s := s.setInbox later) hw k i u a d
  | rstseqAck l =>
    cases (step_rstseqAck hin).symm.trans h
    exact ackRstseq_sourceStep (decide_eq_true (hlink l hm))
  | ramInitDone l =>
    cases (step_ramInitDone hin).symm.trans h
    exact finishRamInit_sourceStep (decide_eq_true (hlink l hm))
  | ringAck =>
    cases (step_ringAck hin).symm.trans h
    exact ackRing_sourceStep _
  | _ => exact hm.elim

/-- Settles O22: a step of SRC is a `SourceStep`. -/
theorem sourcesNeverClear : Obligations.SourcesNeverClear := by
  intro s t m later hw hin hm h
  obtain ⟨sticky, written, fault, seq, armed⟩ := step_sourceStep hw hin hm h
  refine ⟨fun r hr ha => ?_, fun r hr ha hc => written r (mapped_fits hw hr) ha hc, fault, seq, armed⟩
  refine BitVec.eq_of_getLsbD_eq fun b hb => ?_
  have hkeep := sticky r (mapped_fits hw hr) ha b
  rw [State.setInbox_read_field] at hkeep
  cases hs : (s.field r).getLsbD b with
  | false => simp [hs]
  | true => simp [hkeep hs]

/-- Settles O23: each responder, asked, is a store of 1 and the end of its request. -/
theorem respondersAnswerRequests : Obligations.RespondersAnswerRequests := by
  intro s l later _ _
  refine ⟨fun hin hp => ?_, fun hin hp => ?_, fun hin hp => ?_⟩
  · refine ⟨_, (step_rstseqAck hin).trans (congrArg _ (ackRstseq_pending (s := s.setInbox later) hp)), ?_, ?_, ?_⟩
    · simp [definedMask]
    · simp [State.setRstseqPending_read]
    · exact (s.setInbox later).store_sameCellsBut _ _
  · refine ⟨_, (step_ramInitDone hin).trans (congrArg _ (finishRamInit_pending (s := s.setInbox later) hp)), ?_, ?_, ?_, ?_⟩
    · simp [definedMask]
    · exact (State.setTagpoolClean_read _ l l true).trans (if_pos rfl)
    · simp [State.setRamInitPending_read]
    · exact (s.setInbox later).store_sameCellsBut _ _
  · refine ⟨_, (step_ringAck hin).trans (congrArg _ (ackRing_pending (s := s.setInbox later) hp)), ?_, rfl, ?_⟩
    · simp [definedMask]
    · exact (s.setInbox later).store_sameCellsBut _ _

end Sys2Proof.Machine

/-! PROOFS. Family 40_register_access: the cascade (R163 to R165). The bits of a summary word follow the engines, an engine its
nodes, and TOP_PENDING the summary words. -/

namespace Sys2Proof.Machine

/-! ## One node (R163) -/

theorem State.gate_iff (s : State) (k : Kind) (i : Nat) (t : Tree) :
    s.gate k i t = true ↔ (k ∈ portKinds → (s.field (.portIntrCtrl i)).getLsbD t.code = true)
      ∧ (k ∈ lmKinds → (s.field (.lmIntrCtrl i)).getLsbD t.code = true) := by
  have disjoint : k ∈ portKinds → k ∉ lmKinds := by revert k; decide
  unfold State.gate
  by_cases hp : k ∈ portKinds
  · simp [hp, disjoint hp]
  · by_cases hl : k ∈ lmKinds <;> simp [hp, hl]

theorem State.contributes_iff (s : State) (k : Kind) (i : Nat) (t : Tree) :
    s.contributes k i t = true ↔ t ∈ treesOfKind s.cfg k
      ∧ (k ∈ portKinds → (s.field (.portIntrCtrl i)).getLsbD t.code = true)
      ∧ (k ∈ lmKinds → (s.field (.lmIntrCtrl i)).getLsbD t.code = true)
      ∧ s.field (.node k i .errStatus) &&& s.field (.node k i (.reportEn t)) ≠ 0#32 := by
  simp only [State.contributes, Bool.and_eq_true, State.gate_iff, List.contains_iff_mem, decide_eq_true_eq, and_assoc]
  rfl

/-! ## One engine (R164) -/

theorem nodeExists_instances {c : Config} {k : Kind} {i : Nat} (h : nodeExists c k i = true) : i < instances c k := by
  simp only [nodeExists, Bool.and_eq_true, decide_eq_true_eq] at h
  exact h.1

/-- The nodes of the given kinds on the links that pass a test. -/
theorem mem_linkNodes {n i : Nat} {k : Kind} {ks : List Kind} {p : Nat → Bool} :
    (k, i) ∈ ((List.range n).filter p).flatMap (fun l => ks.map (fun k => (k, l))) ↔ (i < n ∧ p i = true) ∧ k ∈ ks := by
  simp only [List.mem_flatMap, List.mem_filter, List.mem_range, List.mem_map, Prod.mk.injEq]
  constructor
  · rintro ⟨l, hl, k', hk, rfl, rfl⟩
    exact ⟨hl, hk⟩
  · rintro ⟨hi, hk⟩
    exact ⟨i, hi, k, hk, rfl, rfl⟩

/-- The listed nodes of an engine are the existing ones that belong to it: an existing node of a link's kind is on a link there is. -/
theorem mem_engineNodes {c : Config} {f : Family} {e i : Nat} {k : Kind} :
    (k, i) ∈ engineNodes c f e ↔ ofEngine c f e k i ∧ nodeExists c k i = true := by
  unfold engineNodes
  rw [List.mem_filter]
  refine and_congr_left fun hn => ?_
  have hi := nodeExists_instances hn
  cases f with
  | portgrp =>
    have hlink : k ∈ portKinds → i < c.nLink := fun hk => by
      cases k <;> first | exact hi | (exact absurd hk (by decide))
    simp only [mem_linkNodes, beq_iff_eq, ofEngine, pg]
    exact ⟨fun ⟨hl, hk⟩ => ⟨hk, hl.2⟩, fun ⟨hk, he⟩ => ⟨⟨hlink hk, he⟩, hk⟩⟩
  | linkmgmt =>
    have hlink : k ∈ lmKinds → i < c.nLink := fun hk => by
      cases k <;> first | exact hi | (exact absurd hk (by decide))
    simp only [List.mem_cons, mem_linkNodes, beq_iff_eq, ofEngine, lm, Prod.mk.injEq]
    exact or_congr_right ⟨fun ⟨hl, hk⟩ => ⟨hk, hl.2⟩, fun ⟨hk, he⟩ => ⟨⟨hlink hk, he⟩, hk⟩⟩
  | xbar =>
    simp only [List.mem_append, List.mem_map, List.mem_range, Prod.mk.injEq, ofEngine]
    constructor
    · rintro (⟨j, -, hk, -⟩ | ⟨j, -, hk, -⟩)
      · exact Or.inl hk.symm
      · exact Or.inr hk.symm
    · rintro (rfl | rfl)
      · exact Or.inl ⟨i, hi, rfl, rfl⟩
      · exact Or.inr ⟨i, hi, rfl, rfl⟩
  | mctrlf => simp [ofEngine]

theorem State.mctrlAsserts_iff (s : State) (m : Nat) (t : Tree) :
    s.mctrlAsserts m t = true ↔ t ≠ .correctable ∧ nodeExists s.cfg .mctrl m = true
      ∧ s.field (.intrStatus m) &&& s.field (.intrStallEn m) ≠ 0#32 := by
  have htree : (treesOfFamily .mctrlf).contains t = true ↔ t ≠ .correctable := by cases t <;> decide
  simp only [State.mctrlAsserts, Bool.and_eq_true, htree, decide_eq_true_eq, and_assoc]

/-- An engine asserts by its microcontroller, or by a node that contributes. -/
theorem State.engineAsserts_iff (s : State) (f : Family) (e : Nat) (t : Tree) :
    s.engineAsserts f e t = true ↔ (f = .mctrlf ∧ s.mctrlAsserts e t = true)
      ∨ ∃ k i, ofEngine s.cfg f e k i ∧ nodeExists s.cfg k i = true ∧ s.contributes k i t = true := by
  have hnodes : (engineNodes s.cfg f e).any (fun n => s.contributes n.1 n.2 t) = true
      ↔ ∃ k i, ofEngine s.cfg f e k i ∧ nodeExists s.cfg k i = true ∧ s.contributes k i t = true := by
    simp only [List.any_eq_true, Prod.exists, mem_engineNodes, and_assoc]
  cases f with
  | mctrlf => simp [State.engineAsserts, ofEngine]
  | portgrp | linkmgmt | xbar => simpa [State.engineAsserts] using hnodes

/-! ## The summary words (R39, R164) -/

/-- What engine number `e` asserts in a tree; nothing where there is no such engine. -/
def State.engineBit (s : State) (t : Tree) (e : Nat) : Bool :=
  match engineOf s.cfg e with
  | some (f, i) => s.engineAsserts f i t
  | none => false

theorem State.engineBit_iff (s : State) (t : Tree) (e : Nat) :
    s.engineBit t e = true ↔ ∃ f i, engineOf s.cfg e = some (f, i) ∧ s.engineAsserts f i t = true := by
  unfold State.engineBit
  cases engineOf s.cfg e with
  | none => simp
  | some fi => simp [Prod.ext_iff]

theorem State.getLsbD_summaryWord (s : State) (t : Tree) (w : Nat) {j : Nat} (hj : j < 32) :
    (s.summaryWord t w).getLsbD j = s.engineBit t (32 * w + j) := by
  have hword : s.summaryWord t w
      = (List.range 32).foldl (fun acc j => if s.engineBit t (32 * w + j) then acc ||| bit j else acc) 0#32 := by
    unfold State.summaryWord State.engineBit
    congr 1
    funext acc j
    cases engineOf s.cfg (32 * w + j) <;> rfl
  rw [hword, getLsbD_foldl_or _ _ _ _ (fun b hb => List.mem_range.mp hb)]
  simp [hj]

/-- Settles O24: a summary bit is its engine's, which is its microcontroller's or its nodes'. -/
theorem summaryBitsFollowTheNodes : Obligations.SummaryBitsFollowTheNodes := by
  intro s t w j hj
  change (s.summaryWord t w).getLsbD j = true ↔ _
  rw [s.getLsbD_summaryWord t w hj, State.engineBit_iff]
  simp only [State.engineAsserts_iff, State.mctrlAsserts_iff, State.contributes_iff]

/-! ## TOP_PENDING and the host line (R165, R345) -/

theorem State.anySummary_iff (s : State) : s.anySummary = true ↔ ∃ t w, w < sumw s.cfg ∧ s.summaryWord t w ≠ 0#32 := by
  have hall : ∀ t, t ∈ allTrees := fun t => by cases t <;> decide
  simp only [State.anySummary, List.any_eq_true, List.mem_range, decide_eq_true_eq, hall, true_and]

theorem State.directPending_iff (s : State) (k : Kind) : s.directPending k = true ↔ nodeExists s.cfg k 0 = true
    ∧ s.field (.node k 0 .errStatus) &&& s.field (.node k 0 (.reportEn .fatal)) ≠ 0#32 := by
  simp only [State.directPending, Bool.and_eq_true, decide_eq_true_eq]
  rfl

theorem State.getLsbD_topPending (s : State) (b : Nat) : s.topPending.getLsbD b = true ↔
    (b = 0 ∧ s.anySummary = true) ∨ (b = 1 ∧ s.directPending .pci = true) ∨ (b = 2 ∧ s.directPending .priv = true) := by
  have hbit : ∀ (p : Bool) (n : Nat), n < 32 → ((if p then bit n else 0#32).getLsbD b = true ↔ b = n ∧ p = true) := by
    intro p n hn
    cases p <;> simp [getLsbD_bit, hn]
  simp only [State.topPending, BitVec.getLsbD_or, Bool.or_eq_true, hbit _ 0 (by decide), hbit _ 1 (by decide),
    hbit _ 2 (by decide), or_assoc]

theorem State.hostLine_iff (s : State) :
    s.hostLine = true ↔ s.hw.armed = true ∧ s.topPending &&& s.field .topEnable ≠ 0#32 := by
  simp only [State.hostLine, Bool.and_eq_true, decide_eq_true_eq]

/-- Settles O25: the three bits, each by its own condition. -/
theorem topPendingBits : Obligations.TopPendingBits := by
  refine fun s b => ⟨s.hostLine_iff, ?_⟩
  change s.topPending.getLsbD b = true ↔ _
  rw [s.getLsbD_topPending, s.anySummary_iff, s.directPending_iff, s.directPending_iff]
  rfl

end Sys2Proof.Machine

/-! PROOFS. Family 41_tree_walk: the aggregation of Results (R190). -/

namespace Sys2Proof.Machine

/-- R190: MoreProcessingRequired wins over everything. -/
theorem agg_eq_more_iff (rs : List Result3) : agg rs = .moreProcessingRequired ↔ .moreProcessingRequired ∈ rs := by
  unfold agg
  split_ifs with hm hs
  · simpa using hm
  · simpa using hm
  · simpa using hm

/-- R190: NotFound is left where nothing else is. -/
theorem agg_eq_notFound_iff (rs : List Result3) : agg rs = .notFound ↔ ∀ r ∈ rs, r = .notFound := by
  unfold agg
  split_ifs with hm hs
  · refine ⟨nofun, fun h => ?_⟩
    cases h _ (List.contains_iff_mem.mp hm)
  · refine ⟨nofun, fun h => ?_⟩
    cases h _ (List.contains_iff_mem.mp hs)
  · refine ⟨fun _ r hr => ?_, fun _ => rfl⟩
    cases r with
    | notFound => rfl
    | success => exact absurd (List.contains_iff_mem.mpr hr) hs
    | moreProcessingRequired => exact absurd (List.contains_iff_mem.mpr hr) hm

/-- The two ends of the order of R190 fix a Result. -/
theorem Result3.eq_of_ends {a b : Result3} (hm : a = .moreProcessingRequired ↔ b = .moreProcessingRequired)
    (hn : a = .notFound ↔ b = .notFound) : a = b := by
  cases a <;> cases b <;> simp_all

/-- The aggregate depends on which Results are in the list, in no order. -/
theorem agg_congr {rs rs' : List Result3} (h : ∀ r, r ∈ rs ↔ r ∈ rs') : agg rs = agg rs' :=
  Result3.eq_of_ends (by simp only [agg_eq_more_iff, h]) (by simp only [agg_eq_notFound_iff, h])

/-- R190: aggregating per level is aggregating all leaves. -/
theorem agg_map_agg (rss : List (List Result3)) : agg (rss.map agg) = agg rss.flatten := by
  refine Result3.eq_of_ends ?_ ?_
  · simp only [agg_eq_more_iff, List.mem_map, List.mem_flatten]
  · simp only [agg_eq_notFound_iff, List.mem_map, List.mem_flatten, forall_exists_index, and_imp]
    exact ⟨fun h r rs hrs hr => (agg_eq_notFound_iff rs).mp (h _ rs hrs rfl) r hr,
      fun h r rs hrs e => e ▸ (agg_eq_notFound_iff rs).mpr (fun x hx => h x rs hrs hx)⟩

/-- Two parts of a list may be aggregated apart. -/
theorem agg_append_congr {as as' bs bs' : List Result3} (ha : agg as = agg as') (hb : agg bs = agg bs') :
    agg (as ++ bs) = agg (as' ++ bs') := by
  have hpair := fun xs ys : List Result3 => agg_map_agg [xs, ys]
  simp only [List.map_cons, List.map_nil, List.flatten_cons, List.flatten_nil, List.append_nil] at hpair
  rw [← hpair, ← hpair, ha, hb]

/-- The aggregate of one Result is that Result. -/
theorem agg_singleton (r : Result3) : agg [r] = r := by cases r <;> rfl

/-- Settles O29: the order and the nesting play no part in which Results are among the leaves. -/
theorem aggregationIsFlat : Obligations.AggregationIsFlat := by
  refine ⟨fun rs => ⟨(agg_eq_more_iff rs).mpr, fun hm hs => ?_, fun hm hs => ?_⟩, agg_map_agg, fun rs rs' h => agg_congr fun _ => h.mem_iff⟩
  · unfold agg
    rw [if_neg (by simpa using hm), if_pos (by simpa using hs)]
  · unfold agg
    rw [if_neg (by simpa using hm), if_neg (by simpa using hs)]

end Sys2Proof.Machine

/-! PROOFS. Family 41_tree_walk: a pass of the walker with no other agent moving, under any configuration. `Runs` says of an
action what it may change (`Passed`), which HANDLEs it records, and that it does the same from every state that looks the same
to a sequencer inside a command (`State.bare`). -/

namespace Sys2Proof.Machine

variable {α β : Type} {c : Config} {G : List Nat → Prop}

/-! ## What a command can see -/

/-- The state without what no part of a command reads once the mutex is taken: who holds it, the cursor, what is owed, where
RCV is, the frames presented and the answers given. -/
def State.bare (s : State) : State :=
  { s with seq := { leaf := s.seq.leaf, cap := s.seq.cap, captured := s.seq.captured }
           io := { s.io with inbox := [], responses := [], readData := [] } }

/-- What is a function of the bare state is the same in states that look the same. -/
theorem eq_of_bare {γ : Sort _} {f : State → γ} (hf : ∀ s, f s = f s.bare) {s s' : State} (h : s'.bare = s.bare) : f s' = f s := by
  rw [hf s', h, ← hf s]

theorem readReg_bare (s : State) (r : Reg) : readReg s r = readReg s.bare r := by cases r <;> rfl

theorem ask_fst_bare (s : State) (q : EnvQuery) : (s.ask q).1 = (s.bare.ask q).1 := State.ask_congr (by rfl) q

theorem ask_snd_bare (s : State) (q : EnvQuery) : (s.ask q).2.bare = (s.bare.ask q).2.bare := by
  cases h : (s.io.env.get favourable q.key).script with
  | nil => rw [State.ask_nil h, State.ask_nil (s := s.bare) h]; rfl
  | cons b bs => rw [State.ask_cons h, State.ask_cons (s := s.bare) h]; rfl

/-! ## The HANDLEs in H -/

/-- The HANDLEs recorded in H, each with its Result. -/
abbrev Leaves := List (Kind × Nat × Tree × Result3)

/-- Which nodes they are, each in its tree. -/
def Leaves.nodes (hs : Leaves) : List (Kind × Nat × Tree) := hs.map (fun x => (x.1, x.2.1, x.2.2.1))

/-- What they answered. -/
def Leaves.results (hs : Leaves) : List Result3 := hs.map (fun x => x.2.2.2)

@[simp] theorem Leaves.nodes_append (hs ks : Leaves) : Leaves.nodes (hs ++ ks) = hs.nodes ++ ks.nodes := List.map_append

@[simp] theorem Leaves.results_append (hs ks : Leaves) : Leaves.results (hs ++ ks) = hs.results ++ ks.results := List.map_append

theorem handleResults_append (es fs : List Event) : handleResults (es ++ fs) = handleResults es ++ handleResults fs :=
  List.filterMap_append

/-- An event inside a HANDLE: neither the Result of a HANDLE nor an end of interrupt. -/
def Inner (e : Event) : Prop := handleResults [e] = [] ∧ isEoiWrite e = false

/-! ## What a pass may change -/

/-- A register the walker may write: one of `isWalkerWritten`, and mapped where the configuration is well-formed (R88). -/
def WalkerMay (c : Config) (r : Reg) : Prop := isWalkerWritten r = true ∧ (configWf c = true → mapped c r = true)

/-- The frame of a part of a command of the walker, and the HANDLEs it records. -/
structure Passed (c : Config) (s t : State) (hs : Leaves) : Prop where
  cells : ∀ a, (∀ r, WalkerMay c r → busAddr r ≠ a) → t.cellAt a = s.cellAt a
  hw : t.hw = { s.hw with regs := t.hw.regs, ringPending := t.hw.ringPending }
  phase : t.fault.phase = s.fault.phase
  registered : t.fault.registered = s.fault.registered
  calm : Calm s t
  history : ∃ es, t.io.history = s.io.history ++ es ∧ handleResults es = hs ∧ ∀ e ∈ es, isEoiWrite e = false

theorem Passed.refl (s : State) : Passed c s s [] :=
  ⟨fun _ _ => rfl, rfl, rfl, rfl, rfl, [], (List.append_nil _).symm, rfl, nofun⟩

theorem Passed.trans {s t u : State} {hs ks : Leaves} (h : Passed c s t hs) (k : Passed c t u ks) : Passed c s u (hs ++ ks) := by
  obtain ⟨es, ehist, eres, eeoi⟩ := h.history
  obtain ⟨fs, fhist, fres, feoi⟩ := k.history
  refine ⟨fun a ha => (k.cells a ha).trans (h.cells a ha), ?_, k.phase.trans h.phase, k.registered.trans h.registered,
    Calm.chains.trans h.calm k.calm, es ++ fs, ?_, ?_, fun e he => ?_⟩
  · rw [k.hw, h.hw]
  · rw [fhist, ehist, List.append_assoc]
  · rw [handleResults_append, eres, fres]
  · exact (List.mem_append.mp he).elim (eeoi e) (feoi e)

/-- An event, recorded. -/
theorem Passed.emit (s : State) {e : Event} {hs : Leaves} (he : handleResults [e] = hs) (heoi : isEoiWrite e = false) :
    Passed c s (s.emit e) hs :=
  ⟨fun _ _ => rfl, rfl, rfl, rfl, rfl, [e], rfl, he, by simpa using heoi⟩

/-- An update of what only the sequencer sees, of the flags, or of the environment. -/
theorem Passed.unseen {s t : State} (hcell : ∀ a, t.cellAt a = s.cellAt a) (hhw : t.hw = s.hw) (hph : t.fault.phase = s.fault.phase)
    (hreg : t.fault.registered = s.fault.registered) (hcalm : Calm s t) (hhist : t.io.history = s.io.history) : Passed c s t [] :=
  ⟨fun a _ => hcell a, by rw [hhw], hph, hreg, hcalm, [], by rw [hhist, List.append_nil], rfl, nofun⟩

/-- A store to a register the walker may write. -/
theorem Passed.store (s : State) {r : Reg} (hr : WalkerMay c r) (v : Word) : Passed c s (s.store r v) [] :=
  ⟨fun a ha => by rw [State.store_cellAt, if_neg (ha r hr).symm], rfl, rfl, rfl, rfl, [], (List.append_nil _).symm, rfl, nofun⟩

theorem Passed.ringPending (s : State) (b : Bool) : Passed c s (s.setRingPending b) [] :=
  ⟨fun _ _ => rfl, rfl, rfl, rfl, rfl, [], (List.append_nil _).symm, rfl, nofun⟩

/-! ## Actions -/

/-- Nobody else moves, the configuration is `c`, and the units touched so far are as `G` says. -/
def Within (c : Config) (G : List Nat → Prop) (s : State) : Prop := Alone c s ∧ G s.seq.leaf.units

/-- From two states that look the same the action reaches its end with the same value in states that look the same; it stays
in its frame, and `P` says how its value and the HANDLEs it recorded belong together. -/
def Runs (c : Config) (G : List Nat → Prop) (P : α → Leaves → Prop) (x : Act α) : Prop :=
  ∀ s s', Within c G s → s'.bare = s.bare →
    ∃ a t t' hs, x s = .ok a t ∧ x s' = .ok a t' ∧ t'.bare = t.bare ∧ Within c G t ∧ Passed c s t hs ∧ P a hs

/-- It records no HANDLE. -/
abbrev Silent (c : Config) (G : List Nat → Prop) (x : Act α) : Prop := Runs c G (fun _ hs => hs = []) x

theorem Within.bare {s s' : State} (hs : Within c G s) (h : s'.bare = s.bare) : Within c G s' :=
  ⟨⟨(eq_of_bare (f := fun s => s.io.sched) (fun _ => rfl) h).trans hs.1.1, (eq_of_bare (f := State.cfg) (fun _ => rfl) h).trans hs.1.2⟩,
    eq_of_bare (f := fun s => s.seq.leaf.units) (fun _ => rfl) h ▸ hs.2⟩

/-- The value of a lone run. -/
theorem Runs.run {P : α → Leaves → Prop} {x : Act α} (hx : Runs c G P x) {s : State} (hs : Within c G s) :
    ∃ a t hs, x s = .ok a t ∧ Within c G t ∧ Passed c s t hs ∧ P a hs := by
  obtain ⟨a, t, -, hs, e, -, -, ht, hp, h⟩ := hx s s hs rfl
  exact ⟨a, t, hs, e, ht, hp, h⟩

theorem Runs.mono {P Q : α → Leaves → Prop} {x : Act α} (hx : Runs c G P x) (h : ∀ a hs, P a hs → Q a hs) : Runs c G Q x := by
  intro s s' hs hb
  obtain ⟨a, t, t', hs', e, e', hb', ht, hp, k⟩ := hx s s' hs hb
  exact ⟨a, t, t', hs', e, e', hb', ht, hp, h _ _ k⟩

theorem Runs.pure {P : α → Leaves → Prop} {a : α} (h : P a []) : Runs c G P (pure a : Act α) :=
  fun s s' hs hb => ⟨a, s, s', [], rfl, rfl, hb, hs, Passed.refl s, h⟩

theorem Runs.bind {P : α → Leaves → Prop} {R : β → Leaves → Prop} {x : Act α} {f : α → Act β} (hx : Runs c G P x)
    (hf : ∀ a hs, P a hs → Runs c G (fun b ks => R b (hs ++ ks)) (f a)) : Runs c G R (x >>= f) := by
  intro s s' hs hb
  obtain ⟨a, t, t', ls, e, e', hb', ht, hp, k⟩ := hx s s' hs hb
  obtain ⟨b, u, u', ks, g, g', hb'', hu, hp', k'⟩ := hf a ls k t t' ht hb'
  exact ⟨b, u, u', ls ++ ks, by rw [Act.bind_of_ok e, g], by rw [Act.bind_of_ok e', g'], hb'', hu, hp.trans hp', k'⟩

/-- What follows an action that records no HANDLE. -/
theorem Silent.bind {R : β → Leaves → Prop} {x : Act α} {f : α → Act β} (hx : Silent c G x) (hf : ∀ a, Runs c G R (f a)) :
    Runs c G R (x >>= f) := Runs.bind hx (fun a _ h => by subst h; exact hf a)

theorem Silent.pure (a : α) : Silent c G (pure a : Act α) := Runs.pure rfl

theorem Runs.ite {P : α → Leaves → Prop} {p : Prop} [Decidable p] {x y : Act α} (hx : p → Runs c G P x) (hy : ¬ p → Runs c G P y) :
    Runs c G P (if p then x else y) := by
  split
  · exact hx ‹_›
  · exact hy ‹_›

/-- Reading the state, and going on by what can be seen of it. -/
theorem Runs.get {P : β → Leaves → Prop} {f : State → Act β} (hf : ∀ s, Within c G s → Runs c G P (f s)) (hb : ∀ s, f s = f s.bare) :
    Runs c G P ((get : Act State) >>= f) := by
  intro s s' hs h
  rw [Act.get_bind, Act.get_bind, eq_of_bare hb h]
  exact hf s hs s s' hs h

/-- One update of the state, by what can be seen of it. -/
theorem Silent.update {x : Act PUnit} {g : State → State} (hx : ∀ s : State, s.io.sched = [] → x s = .ok ⟨⟩ (g s))
    (hb : ∀ s, (g s).bare = (g s.bare).bare) (hg : ∀ s, Within c G s → Within c G (g s) ∧ Passed c s (g s) []) : Silent c G x := by
  intro s s' hs h
  exact ⟨⟨⟩, g s, g s', [], hx s hs.1.1, hx s' (hs.bare h).1.1, eq_of_bare (f := fun s => (g s).bare) hb h, (hg s hs).1, (hg s hs).2, rfl⟩

theorem Silent.modify {g : State → State} (hb : ∀ s, (g s).bare = (g s.bare).bare)
    (hg : ∀ s, Within c G s → Within c G (g s) ∧ Passed c s (g s) []) : Silent c G (modify g : Act PUnit) :=
  Silent.update (fun _ _ => rfl) hb hg

theorem Silent.emit {e : Event} (he : Inner e) : Silent c G (emit e) :=
  Silent.modify (fun _ => rfl) (fun s hs => ⟨hs, Passed.emit s he.1 he.2⟩)

/-- One update of the cursor, the capture buffer, the flags or U: none of what the frame speaks of. -/
theorem silent_unseen {g : State → State} (hb : ∀ s, (g s).bare = (g s.bare).bare)
    (h : ∀ s, ((g s).cfg, (g s).hw, (g s).fault.phase, (g s).fault.registered, (g s).watched, (g s).io.history, (g s).io.sched,
        (g s).seq.leaf.units)
      = (s.cfg, s.hw, s.fault.phase, s.fault.registered, s.watched, s.io.history, s.io.sched, s.seq.leaf.units)) :
    Silent c G (modify g : Act PUnit) := by
  refine Silent.modify hb (fun s hs => ?_)
  have hg := h s
  simp only [Prod.mk.injEq] at hg
  obtain ⟨hcfg, hhw, hphase, hreg, hcalm, hhist, hsched, hunits⟩ := hg
  refine ⟨⟨⟨hsched.trans hs.1.1, hcfg.trans hs.1.2⟩, hunits ▸ hs.2⟩, Passed.unseen (fun a => ?_) hhw hphase hreg hcalm hhist⟩
  unfold State.cellAt
  rw [hhw, hcfg]

theorem Silent.setCursor (q : Cursor) : Silent c G (setCursor q) := silent_unseen (fun _ => rfl) (fun _ => rfl)

theorem Silent.askEnv (q : EnvQuery) : Silent c G (askEnv q) := by
  intro s s' hs h
  refine ⟨_, _, (s'.ask q).2, [], askEnv_apply q s, ?_, eq_of_bare (f := fun s => (s.ask q).2.bare) (ask_snd_bare · q) h,
    ⟨Alone.ask hs.1 q, by rw [State.ask_seq]; exact hs.2⟩, ?_, rfl⟩
  · rw [askEnv_apply, eq_of_bare (f := fun s => (s.ask q).1) (ask_fst_bare · q) h]
  · exact Passed.unseen (State.ask_read_cellAt s q) (State.ask_hw s q) (by rw [State.ask_fault]) (by rw [State.ask_fault])
      (Calm.of (State.ask_seq s q) (State.ask_io_inbox s q) (State.ask_io_responses s q) (State.ask_io_readData s q)) (State.ask_io_history s q)

/-- A read gives what the register reads as in a state of the run (R150). -/
theorem Runs.rd (r : Reg) : Runs c G (fun v hs => hs = [] ∧ ∃ s, Alone c s ∧ v = readReg s r) (rd r) := by
  intro s s' hs h
  refine ⟨_, s, s', [], rd_quiet hs.1.1 r, ?_, h, hs, Passed.refl s, rfl, s, hs.1, rfl⟩
  rw [rd_quiet (hs.bare h).1.1, eq_of_bare (f := fun s => readReg s r) (readReg_bare · r) h]

theorem Silent.rd (r : Reg) : Silent c G (rd r) := (Runs.rd r).mono (fun _ _ h => h.1)

theorem inner_write {r : Reg} (hr : isWalkerWritten r = true) (v : Word) : Inner (.write r v) :=
  ⟨rfl, by
    cases r with
    | hostEoi => cases hr
    | _ => rfl⟩

/-- A write of a register the walker may write stores to it (R86, R87). -/
theorem Silent.wr {r : Reg} (hr : WalkerMay c r) (v : Word) : Silent c G (wr r v) := by
  have hemit : ∀ (s : State) w, Passed c s ((s.emit (.write r v)).store r w) [] := fun s w =>
    (Passed.emit s (inner_write hr.1 v).1 (inner_write hr.1 v).2).trans (Passed.store _ hr w)
  have hw1c : access r = .w1c → stuckQuery r v = none → Silent c G (Machine.wr r v) := fun ha hq =>
    Silent.update (fun s hs => wr_w1c hs hq ha) (fun _ => rfl) (fun s hs => ⟨hs, hemit s _⟩)
  have hrw : access r = .rw → stuckQuery r v = none → (∀ t old new, State.rwEffect t r old new = t) → Silent c G (Machine.wr r v) :=
    fun ha hq he => Silent.update (fun s hs => wr_store hs hq ha he) (fun _ => rfl) (fun s hs => ⟨hs, hemit s _⟩)
  have hwr := hr.1
  cases r with
  | node k i r =>
    cases r with
    | errStatus | errFirst => exact hw1c rfl rfl
    | reportEn | eccCount => exact hrw rfl rfl (fun _ _ _ => rfl)
    | _ => cases hwr
  | intrStatus => exact hw1c rfl rfl
  | intrStallEn | scratchDevice | scratchPort => exact hrw rfl rfl (fun _ _ _ => rfl)
  | ringStatus =>
    exact Silent.update (fun s hs => wr_quiet hs rfl) (fun _ => rfl) (fun s hs => ⟨hs, Passed.emit s rfl rfl⟩)
  | _ => cases hwr

end Sys2Proof.Machine

/-! PROOFS. Family 41_tree_walk: every part of a HANDLE (R211 to R245) records no HANDLE of its own and writes what the walker
may; the HANDLE records itself. -/

namespace Sys2Proof.Machine

variable {c : Config} {G : List Nat → Prop}

/-! ## The registers of a node that is there -/

/-- A HANDLE of the node in the tree finds its registers mapped (R88); for MCTRL `i` is the link. -/
def Serves (c : Config) (k : Kind) (i : Nat) (t : Tree) : Prop :=
  if k = .mctrl then i < c.nLink ∧ nodeExists c .mctrl (mc c i) = true
  else nodeExists c k i = true ∧ hasReg c k (.reportEn t) = true

section
variable {k : Kind} {i : Nat} {t : Tree}

theorem Serves.node (h : Serves c k i t) (hk : k ≠ .mctrl) : nodeExists c k i = true ∧ hasReg c k (.reportEn t) = true := by
  rwa [Serves, if_neg hk] at h

theorem Serves.mctrl (h : Serves c .mctrl i t) : i < c.nLink ∧ nodeExists c .mctrl (mc c i) = true := by
  rwa [Serves, if_pos rfl] at h

/-- The links of its reports are links there are (R224). -/
theorem Serves.targets (h : Serves c k i t) : targetsIn c (targets c k i) := by
  intro l hl
  unfold Machine.targets at hl
  split at hl
  · split at hl
    · simp at hl
    · obtain ⟨j, hj, e⟩ := List.mem_map.mp hl
      cases e
      exact mem_linksOfLm hj
  · cases List.mem_singleton.mp hl
    exact h.mctrl.1
  · rename_i hk
    exact ownerLink_lt (h.node hk).1 (List.mem_singleton.mp hl).symm

theorem may_node (h : configWf c = true → Serves c k i t) (hk : k ≠ .mctrl) {r : NodeReg} (hr : isWalkerWritten (.node k i r) = true)
    (hreg : hasReg c k (.reportEn t) = true → hasReg c k r = true) : WalkerMay c (.node k i r) :=
  ⟨hr, fun hw => by simp [mapped, ((h hw).node hk).1, hreg ((h hw).node hk).2]⟩

theorem may_errStatus (h : configWf c = true → Serves c k i t) (hk : k ≠ .mctrl) : WalkerMay c (.node k i .errStatus) :=
  may_node h hk rfl (fun _ => by simpa [hasReg] using hk)

theorem may_errFirst (h : configWf c = true → Serves c k i t) (hk : k ≠ .mctrl) : WalkerMay c (.node k i .errFirst) :=
  may_node h hk rfl (fun _ => by simpa [hasReg] using hk)

theorem may_reportEn (h : configWf c = true → Serves c k i t) (hk : k ≠ .mctrl) : WalkerMay c (.node k i (.reportEn t)) :=
  may_node h hk rfl id

theorem may_eccCount (h : configWf c = true → Serves c k i t) (hk : k ≠ .mctrl) {u : Nat}
    (hu : configWf c = true → hasReg c k (.eccCount u) = true) : WalkerMay c (.node k i (.eccCount u)) :=
  ⟨rfl, fun hw => by simp [mapped, ((h hw).node hk).1, hu hw]⟩

theorem may_intr (h : configWf c = true → Serves c .mctrl i t) :
    WalkerMay c (.intrStatus (mc c i)) ∧ WalkerMay c (.intrStallEn (mc c i)) :=
  ⟨⟨rfl, fun hw => (h hw).mctrl.2⟩, ⟨rfl, fun hw => (h hw).mctrl.2⟩⟩

theorem may_ringStatus (h : configWf c = true → Serves c .priv i t) : WalkerMay c .ringStatus := by
  refine ⟨rfl, fun hw => ?_⟩
  have hn := ((h hw).node (by decide)).1
  have hi : i = 0 := by
    have := nodeExists_instances hn
    simpa [instances] using this
  subst hi
  exact hn

theorem may_scratchDevice : WalkerMay c .scratchDevice := ⟨rfl, fun _ => rfl⟩

theorem may_scratchPort {l : Nat} (h : configWf c = true → l < c.nLink) : WalkerMay c (.scratchPort (l / 32)) :=
  ⟨rfl, fun hw => by simpa [mapped] using div_lt_lmw (h hw)⟩

end

/-! ## The units touched (R223, R227) -/

/-- In a well-formed configuration the touched units have a counter. -/
def Counted (c : Config) (k : Kind) (us : List Nat) : Prop :=
  configWf c = true → ∀ u ∈ us, hasReg c k (.eccCount u) = true

/-- A row found is a row of the table. -/
theorem findRow_mem {k : Kind} {b : Nat} {e : Entry} : ∀ {rows : List TableRow}, findRow k b rows = some e →
    ∃ r ∈ rows, r.kind = k ∧ r.entry = e := by
  intro rows
  induction rows with
  | nil => intro h; cases h
  | cons r rows ih =>
    intro h
    unfold findRow at h
    split at h
    · rename_i hr
      cases h
      exact ⟨r, List.mem_cons_self, by simp_all, rfl⟩
    · obtain ⟨r', hr', h'⟩ := ih h
      exact ⟨r', List.mem_cons_of_mem _ hr', h'⟩

/-- The ECC unit of an entry has a counter (R8, R374). -/
theorem unitOf_counted {k : Kind} {b u : Nat} {e : Entry} (he : table c k b = some e) (hu : unitOf e = some u)
    (hw : configWf c = true) : hasReg c k (.eccCount u) = true := by
  obtain ⟨r, hr, hk, hentry⟩ := findRow_mem he
  have row := (configWf_parts hw).rows r hr
  simp only [rowWf, Bool.and_eq_true, hentry, hk] at row
  obtain ⟨⟨-, tagged⟩, -⟩ := row
  unfold unitOf at hu
  simp only [hasReg, Bool.and_eq_true]
  cases hecc : e.ecc with
  | notEcc => rw [hecc] at hu; cases hu
  | eccLimit v | eccDbe v =>
    rw [hecc] at hu
    cases hu
    simp only [hecc, Bool.and_eq_true] at tagged
    exact tagged.symm

/-! ## Marking (R217, R251) -/

theorem silent_forward (e : SinkEvent) : Silent c G (forward e) := by
  refine Silent.bind (Silent.emit ?_) (fun _ => Silent.bind (Silent.askEnv _) (fun _ =>
    Runs.ite (fun _ => Silent.pure _) (fun _ => Silent.emit ⟨rfl, rfl⟩)))
  cases e <;> exact ⟨rfl, rfl⟩

theorem silent_markLink {l : Nat} (h : configWf c = true → l < c.nLink) : Silent c G (markLink l) := by
  unfold markLink
  refine Runs.get (fun _ _ => Runs.ite (fun _ => Silent.pure _) (fun _ => ?_)) (fun _ => rfl)
  refine Silent.bind (x := modify _) (silent_unseen (fun _ => rfl) (fun _ => rfl)) (fun _ => ?_)
  exact Silent.bind (Silent.rd _) (fun _ => Silent.bind (Silent.wr (may_scratchPort h) _) (fun _ => silent_forward _))

theorem silent_markDevice : Silent c G markDevice := by
  unfold markDevice
  refine Runs.get (fun _ _ => Runs.ite (fun _ => Silent.pure _) (fun _ => ?_)) (fun _ => rfl)
  refine Silent.bind (x := modify _) (silent_unseen (fun _ => rfl) (fun _ => rfl)) (fun _ => ?_)
  exact Silent.bind (Silent.wr may_scratchDevice _) (fun _ => silent_forward _)

theorem silent_setfatalCore {tgt : Option Nat} (h : configWf c = true → ∀ l, tgt = some l → l < c.nLink) (dw : Bool) :
    Silent c G (setfatalCore tgt dw) := by
  have device : Silent c G (if dw then markDevice else pure ()) := Runs.ite (fun _ => silent_markDevice) (fun _ => Silent.pure _)
  unfold setfatalCore
  cases tgt with
  | none => exact device
  | some l => exact Silent.bind (silent_markLink (fun hw => h hw l rfl)) (fun _ => device)

/-! ## Capture and classification (R215, R216, R220 to R224) -/

theorem silent_capture (k : Kind) (i : Nat) (rs : List NodeReg) : Silent c G (capture k i rs) := by
  induction rs with
  | nil => exact Silent.pure _
  | cons r rs ih =>
    unfold capture
    refine Runs.get (fun _ _ => Runs.get (fun _ _ => Runs.ite (fun _ => ?_) (fun _ => ih)) (fun _ => rfl)) (fun _ => rfl)
    exact Silent.bind (Silent.rd _) (fun _ => Silent.bind (x := modify _) (silent_unseen (fun _ => rfl) (fun _ => rfl)) (fun _ => ih))

theorem silent_diagnostic (k : Kind) (i : Nat) (e : Entry) : Silent c G (diagnostic k i e) := by
  unfold diagnostic
  cases e.diag with
  | none => exact Silent.pure _
  | rawBlock => exact Runs.get (fun _ _ => Runs.get (fun _ _ => Silent.pure _) (fun _ => rfl)) (fun _ => rfl)
  | addressFault => exact Silent.bind (Silent.rd _) (fun _ => Silent.pure _)
  | eccCounter =>
    cases e.ecc with
    | notEcc => exact Silent.pure _
    | eccLimit u | eccDbe u => exact Silent.bind (Silent.rd _) (fun _ => Silent.pure _)

theorem silent_reportTo (k : Kind) (b i : Nat) (sev : Severity) (dw : Bool) (d : Diagnostic) {tgts : List (Option Nat)}
    (h : configWf c = true → targetsIn c tgts) : Silent c G (reportTo k b i sev dw d tgts) := by
  induction tgts with
  | nil => exact Silent.pure _
  | cons tgt rest ih =>
    have hrest := ih (fun hw l hl => h hw l (List.mem_cons_of_mem _ hl))
    unfold reportTo
    refine Silent.bind (Silent.emit ⟨rfl, rfl⟩) (fun _ => ?_)
    split
    · exact Silent.bind (silent_setfatalCore (fun hw l hl => h hw l (hl ▸ List.mem_cons_self)) _) (fun _ => hrest)
    · exact hrest

theorem silent_eccLog (k : Kind) (i u : Nat) (un : Bool) (d : Diagnostic) : Silent c G (eccLog k i u un d) := by
  unfold eccLog
  refine Silent.bind (Silent.rd _) (fun _ => ?_)
  split
  · exact silent_forward _
  · exact Silent.bind (Silent.rd _) (fun _ => silent_forward _)

/-- A unit with a counter joins the touched ones. -/
theorem counted_touchUnit {k : Kind} {u : Nat} {s : State} (hu : configWf c = true → hasReg c k (.eccCount u) = true)
    (hs : Counted c k s.seq.leaf.units) : Counted c k (s.touchUnit u).seq.leaf.units := by
  intro hw v hv
  change v ∈ (if s.seq.leaf.units.contains u then s.seq.leaf.units else s.seq.leaf.units ++ [u]) at hv
  split at hv
  · exact hs hw v hv
  · rcases List.mem_append.mp hv with hv | hv
    · exact hs hw v hv
    · exact List.mem_singleton.mp hv ▸ hu hw

theorem silent_touchUnit {k : Kind} {u : Nat} (hu : configWf c = true → hasReg c k (.eccCount u) = true) :
    Silent c (Counted c k) (modify (fun s => s.touchUnit u) : Act PUnit) :=
  Silent.modify (fun _ => rfl) (fun _ hs => ⟨⟨hs.1, counted_touchUnit hu hs.2⟩, Passed.unseen (fun _ => rfl) rfl rfl rfl rfl rfl⟩)

theorem silent_logIfEcc {k : Kind} (i : Nat) {e : Entry} (d : Diagnostic)
    (h : ∀ u, unitOf e = some u → configWf c = true → hasReg c k (.eccCount u) = true) : Silent c (Counted c k) (logIfEcc k i e d) := by
  unfold logIfEcc
  unfold unitOf at h
  cases hecc : e.ecc with
  | notEcc => exact Silent.pure _
  | eccLimit u | eccDbe u =>
    rw [hecc] at h
    exact Silent.bind (silent_eccLog _ _ _ _ _) (fun _ => silent_touchUnit (h u rfl))

theorem silent_recognise (b : Nat) : Silent c G (modify (fun s => s.recognise b) : Act PUnit) :=
  silent_unseen (fun _ => rfl) (fun _ => rfl)

theorem silent_touchUnitOf {k : Kind} {e : Entry} (h : ∀ u, unitOf e = some u → configWf c = true → hasReg c k (.eccCount u) = true)
    (b : Nat) : Silent c (Counted c k) (modify (fun s => (touchUnitOf e s).recognise b) : Act PUnit) := by
  unfold touchUnitOf
  unfold unitOf at h
  cases hecc : e.ecc with
  | notEcc => exact silent_recognise b
  | eccLimit u | eccDbe u =>
    rw [hecc] at h
    exact Silent.bind (silent_touchUnit (h u rfl)) (fun _ => silent_recognise b)

theorem silent_classifyBit {k : Kind} {i : Nat} (h : configWf c = true → targetsIn c (targets c k i)) (b : Nat) :
    Silent c (Counted c k) (classifyBit k i b) := by
  unfold classifyBit
  refine Runs.get (fun s hs => ?_) (fun _ => rfl)
  cases he : table s.cfg k b with
  | none => exact Silent.pure _
  | some e =>
    rw [hs.1.2] at he
    have hunit : ∀ u, unitOf e = some u → configWf c = true → hasReg c k (.eccCount u) = true := fun u hu hw => unitOf_counted he hu hw
    refine Runs.ite (fun _ => silent_touchUnitOf hunit b) (fun _ => Silent.bind (silent_diagnostic _ _ _) (fun d => ?_))
    rw [hs.1.2]
    exact Silent.bind (silent_reportTo _ _ _ _ _ _ h) (fun _ => Silent.bind (silent_logIfEcc i d hunit) (fun _ => silent_recognise b))

theorem silent_classifyBits {k : Kind} {i : Nat} (h : configWf c = true → targetsIn c (targets c k i)) (bs : List Nat) :
    Silent c (Counted c k) (classifyBits k i bs) := by
  induction bs with
  | nil => exact Silent.pure _
  | cons b bs ih =>
    unfold classifyBits
    refine Runs.get (fun s _ => ?_) (fun _ => rfl)
    split
    · exact Silent.bind (silent_classifyBit h b) (fun _ => ih)
    · exact ih

/-! ## The writes and the end (R219, R225 to R227, R245) -/

theorem silent_zeroCounters {k : Kind} {i : Nat} {us : List Nat} (h : ∀ u ∈ us, WalkerMay c (.node k i (.eccCount u))) :
    Silent c G (zeroCounters k i us) := by
  induction us with
  | nil => exact Silent.pure _
  | cons u us ih =>
    exact Silent.bind (Silent.wr (h u List.mem_cons_self) _) (fun _ => ih (fun v hv => h v (List.mem_cons_of_mem _ hv)))

theorem silent_ackRing (hr : WalkerMay c .ringStatus) : Silent c G (modify State.ackRing : Act PUnit) := by
  refine Silent.modify (fun s => ?_) (fun s hs => ?_)
  · unfold State.ackRing
    change (if s.hw.ringPending then _ else _ : State).bare = (if s.hw.ringPending then _ else _ : State).bare
    split <;> rfl
  · unfold State.ackRing
    split
    · exact ⟨hs, (Passed.store s hr _).trans (Passed.ringPending _ _)⟩
    · exact ⟨hs, Passed.refl s⟩

theorem silent_privHandshake (hr : WalkerMay c .ringStatus) : Silent c G privHandshake := by
  have request : Silent c G (wr .ringCmd 1#32) := by
    refine Silent.update (g := fun s => ((s.emit (.write .ringCmd 1#32)).store .ringStatus 0#32).setRingPending true)
      (fun s hs => ?_) (fun _ => rfl) (fun s hs => ⟨hs, ?_⟩)
    · rw [wr_quiet hs rfl]
      rfl
    · exact ((Passed.emit s (e := .write .ringCmd 1#32) rfl rfl).trans (Passed.store _ hr _)).trans (Passed.ringPending _ _)
  have answer : Silent c G (poll .ringStatus .privAck State.ackRing) := by
    unfold poll
    refine Silent.bind (Silent.rd _) (fun _ => Runs.ite (fun _ => Silent.pure _) (fun _ => Silent.bind (Silent.askEnv _) (fun _ =>
      Runs.ite (fun _ => ?_) (fun _ => Silent.pure _))))
    exact Silent.bind (silent_ackRing hr) (fun _ => Silent.pure _)
  unfold privHandshake
  exact Silent.bind request (fun _ => Silent.bind answer (fun _ => Runs.ite (fun _ => Silent.pure _)
    (fun _ => Silent.bind (Silent.emit ⟨rfl, rfl⟩) (fun _ => Silent.pure _))))

theorem silent_stepEight (k : Kind) (i : Nat) (t : Tree) (ok : Bool) : Silent c G (stepEight k i t ok) := by
  unfold stepEight
  refine Silent.bind (Silent.setCursor _) (fun _ => Runs.get (fun _ _ => ?_) (fun _ => rfl))
  exact Runs.ite (fun _ => Silent.pure _) (fun _ => Silent.bind (Silent.emit ⟨rfl, rfl⟩) (fun _ => Silent.pure _))

/-! ## The template (R211) and MCTRL (R243) -/

section
variable {k : Kind} {i : Nat} {t : Tree}

theorem silent_templateTail (h : configWf c = true → Serves c k i t) (hk : k ≠ .mctrl) (en m f : Word) (wf : Bool) :
    Silent c (Counted c k) (templateTail k i t en m f wf) := by
  have suppress : Silent c (Counted c k) (if wf then wr (.node k i (.reportEn t)) (en &&& ~~~m) else pure ()) :=
    Runs.ite (fun _ => Silent.wr (may_reportEn h hk) _) (fun _ => Silent.pure _)
  have handshake : Silent c (Counted c k) (if k = .priv then privHandshake else pure true) :=
    Runs.ite (fun hp => silent_privHandshake (may_ringStatus (hp ▸ h))) (fun _ => Silent.pure _)
  unfold templateTail
  refine Silent.bind (Silent.bind (Silent.setCursor _) (fun _ => suppress)) (fun _ => Silent.bind (Silent.setCursor _) (fun _ =>
    Silent.bind (Silent.wr (may_errFirst h hk) _) (fun _ => Silent.bind (Silent.wr (may_errStatus h hk) _) (fun _ =>
      Silent.bind (Silent.setCursor _) (fun _ => Runs.get (fun s hs => ?_) (fun _ => rfl))))))
  refine Silent.bind (silent_zeroCounters (fun u hu => ?_)) (fun _ => Silent.bind handshake (fun ok => silent_stepEight _ _ _ _))
  refine may_eccCount h hk (fun hw => hs.2 hw u ?_)
  simpa using (List.mem_filter.mp hu).2

/-- The values of step 1 are taken: no unit is touched yet. -/
theorem silent_setLeaf {r : LeafRegs} (hr : r.units = []) : Silent c (Counted c k) (modify (fun s => s.setLeaf r) : Act PUnit) :=
  Silent.modify (fun _ => rfl) (fun s hs => ⟨⟨hs.1, fun _ u hu => by
    change u ∈ r.units at hu
    rw [hr] at hu
    cases hu⟩, Passed.unseen (fun _ => rfl) rfl rfl rfl rfl rfl⟩)

theorem silent_templateRest (h : configWf c = true → Serves c k i t) (hk : k ≠ .mctrl) (p en cn : Word) (wf : Bool) :
    Silent c (Counted c k) (templateRest k i t p en cn wf) := by
  rw [templateRest_eq]
  refine Silent.bind (Silent.setCursor _) (fun _ => Silent.bind (Silent.rd _) (fun f => Silent.bind (silent_setLeaf rfl) (fun _ =>
    Silent.bind (Silent.setCursor _) (fun _ => Runs.get (fun s _ => ?_) (fun _ => rfl)))))
  refine Silent.bind (Runs.ite (fun _ => Silent.pure _) (fun _ => silent_capture _ _ _)) (fun _ => Silent.bind (Silent.setCursor _) (fun _ => ?_))
  exact Silent.bind (silent_classifyBits (fun hw => (h hw).targets) _) (fun _ => silent_templateTail h hk _ _ _ _)

theorem silent_template (h : configWf c = true → Serves c k i t) (hk : k ≠ .mctrl) : Silent c (Counted c k) (template k i t) := by
  have rest : ∀ p en cn, Silent c (Counted c k) (do templateRest k i t p en cn (suppressFlag (← get) k i)) := fun p en cn =>
    Runs.get (fun s _ => silent_templateRest h hk _ _ _ _) (fun s => by
      have hsup : suppressFlag s k i = suppressFlag s.bare k i := by cases k <;> rfl
      rw [hsup])
  unfold template
  refine Silent.bind (Silent.setCursor _) (fun _ => Silent.bind (Silent.rd _) (fun p => Silent.bind (Silent.rd _) (fun en =>
    Runs.ite (fun _ => Silent.pure _) (fun _ => ?_))))
  split
  · exact Silent.bind (Silent.rd _) (fun cn => rest _ _ _)
  · exact Silent.bind (Silent.pure _) (fun cn => rest _ _ _)

theorem silent_mctrlRest {l : Nat} (h : configWf c = true → Serves c .mctrl l t) (p en : Word) (wf : Bool) :
    Silent c (Counted c .mctrl) (mctrlRest l t p en wf) := by
  unfold mctrlRest
  refine Runs.get (fun s hs => ?_) (fun _ => rfl)
  rw [hs.1.2]
  have clear : Silent c (Counted c .mctrl) (do
      setCursor (.leaf .mctrl l t 6)
      wr (.intrStatus (mc c l)) (p &&& en)
      stepEight .mctrl l t true) :=
    Silent.bind (Silent.setCursor _) (fun _ => Silent.bind (Silent.wr (may_intr h).1 _) (fun _ => silent_stepEight _ _ _ _))
  refine Silent.bind (silent_setLeaf rfl) (fun _ => Silent.bind (Silent.setCursor _) (fun _ =>
    Silent.bind (silent_classifyBits (fun hw => (h hw).targets) _) (fun _ => Silent.bind (Silent.setCursor _) (fun _ => ?_))))
  split
  · exact Silent.bind (Silent.wr (may_intr h).2 _) (fun _ => clear)
  · exact clear

theorem silent_mctrlTemplate {l : Nat} (h : configWf c = true → Serves c .mctrl l t) : Silent c (Counted c .mctrl) (mctrlTemplate l t) := by
  unfold mctrlTemplate
  refine Silent.bind (Silent.setCursor _) (fun _ => Runs.get (fun s _ => ?_) (fun _ => rfl))
  exact Silent.bind (Silent.rd _) (fun _ => Silent.bind (Silent.rd _) (fun _ => Runs.ite (fun _ => Silent.pure _)
    (fun _ => Runs.get (fun _ _ => silent_mctrlRest h _ _ _) (fun _ => rfl))))

/-! ## HANDLE -/

/-- Between two HANDLEs nothing is asked of the touched units: a HANDLE begins without them (R65). -/
abbrev AnyUnits : List Nat → Prop := fun _ => True

/-- One HANDLE records itself with its Result, and no other (R211). -/
theorem runs_handle (h : configWf c = true → Serves c k i t) : Runs c AnyUnits (fun r hs => hs = [(k, i, t, r)]) (handle k i t) := by
  have body : Silent c (Counted c k) (if k = .mctrl then mctrlTemplate i t else template k i t) :=
    Runs.ite (fun hk => by subst hk; exact silent_mctrlTemplate h) (fun hk => silent_template h hk)
  intro s s' hs hb
  have hs0 : Within c (Counted c k) (s.setLeaf {}).clearCap := ⟨hs.1, fun _ _ hu => by cases hu⟩
  obtain ⟨r, t1, t1', ls, e, e', hb', ht, hp, rfl⟩ := body _ (s'.setLeaf {}).clearCap hs0
    (eq_of_bare (f := fun s => ((s.setLeaf {}).clearCap).bare) (fun _ => rfl) hb)
  have run : ∀ {w v : State}, (if k = .mctrl then mctrlTemplate i t else template k i t : Act Result3) ((w.setLeaf {}).clearCap) = .ok r v →
      handle k i t w = .ok r (((v.setLeaf {}).clearCap).emit (.result (.handle k i t r))) := by
    intro w v hv
    unfold handle
    rw [Act.modify_bind, ← Act.ite_bind, Act.bind_of_ok hv]
    rfl
  refine ⟨r, _, _, [(k, i, t, r)], run e, run e',
    eq_of_bare (f := fun s => (((s.setLeaf {}).clearCap).emit (.result (.handle k i t r))).bare) (fun _ => rfl) hb',
    ⟨ht.1, trivial⟩, ?_, rfl⟩
  have before : Passed c s (s.setLeaf {}).clearCap [] := Passed.unseen (fun _ => rfl) rfl rfl rfl rfl rfl
  have after : Passed c t1 (t1.setLeaf {}).clearCap [] := Passed.unseen (fun _ => rfl) rfl rfl rfl rfl rfl
  exact ((before.trans hp).trans after).trans (Passed.emit _ rfl rfl)

end

end Sys2Proof.Machine

/-! PROOFS. Family 41_tree_walk: the walks over HANDLEs (R181 to R190), with no other agent moving, under any configuration. -/

namespace Sys2Proof.Machine

variable {c : Config}

/-! ## The children of a family handler (R186 to R189) -/

theorem mem_linksOfLm_iff {m l : Nat} : l ∈ linksOfLm c m ↔ l < c.nLink ∧ linkEnabled c l = true ∧ lm c l = m := by
  simp [linksOfLm]

/-- A child is an existing node summarised in the tree; under MCTRLF it is a link of the microcontroller. -/
theorem mem_children {f : Family} {i : Nat} {t : Tree} {n : Kind × Nat} (h : n ∈ children c f i t) :
    t ∈ treesOfKind c n.1 ∧ (if f = .mctrlf then n.1 = .mctrl ∧ n.2 ∈ linksOfLm c i ∧ nodeExists c .mctrl i = true
      else (n.1 ≠ .mctrl ∧ n.1 ≠ .priv) ∧ nodeExists c n.1 n.2 = true) := by
  unfold children at h
  obtain ⟨hall, htree⟩ := List.mem_filter.mp h
  refine ⟨List.contains_iff_mem.mp htree, ?_⟩
  have port : ∀ k ∈ portKinds, k ≠ .mctrl ∧ k ≠ .priv := by decide
  have management : ∀ k ∈ lmKinds, k ≠ .mctrl ∧ k ≠ .priv := by decide
  cases f with
  | xbar =>
    obtain ⟨hmem, hn⟩ := List.mem_filter.mp hall
    refine ⟨?_, hn⟩
    rcases List.mem_append.mp hmem with hmem | hmem <;> obtain ⟨j, -, rfl⟩ := List.mem_map.mp hmem <;> exact ⟨nofun, nofun⟩
  | portgrp =>
    obtain ⟨hmem, hn⟩ := List.mem_filter.mp hall
    obtain ⟨l, -, hpair⟩ := List.mem_flatMap.mp hmem
    obtain ⟨k, hk, rfl⟩ := List.mem_map.mp hpair
    exact ⟨port k hk, hn⟩
  | linkmgmt =>
    obtain ⟨hmem, hn⟩ := List.mem_filter.mp hall
    refine ⟨?_, hn⟩
    rcases List.mem_cons.mp hmem with rfl | hmem
    · exact ⟨nofun, nofun⟩
    · obtain ⟨l, -, hpair⟩ := List.mem_flatMap.mp hmem
      obtain ⟨k, hk, rfl⟩ := List.mem_map.mp hpair
      exact management k hk
  | mctrlf =>
    change n ∈ (if nodeExists c .mctrl i then (linksOfLm c i).map (fun l => (Kind.mctrl, l)) else []) at hall
    split at hall
    · obtain ⟨l, hl, rfl⟩ := List.mem_map.mp hall
      exact ⟨rfl, hl, ‹_›⟩
    · cases hall

/-- A family handler invokes HANDLEs that are admitted on the command port (R139). -/
theorem children_admitted {f : Family} {i : Nat} {t : Tree} {n : Kind × Nat} (h : n ∈ children c f i t) :
    handleAdmitted c n.1 n.2 t = true := by
  obtain ⟨k, j⟩ := n
  obtain ⟨htree, hnode⟩ := mem_children h
  simp only at htree hnode
  unfold handleAdmitted
  rw [List.contains_iff_mem.mpr htree, Bool.true_and]
  split at hnode
  · obtain ⟨rfl, hl, hn⟩ := hnode
    obtain ⟨hlt, -, hlm⟩ := mem_linksOfLm_iff.mp hl
    simp only [mc, hlm, hn, hlt, decide_true, Bool.and_self]
  · obtain ⟨⟨hk, -⟩, hn⟩ := hnode
    cases k with
    | mctrl => exact absurd rfl hk
    | _ => exact hn

/-- An admitted HANDLE finds its registers (R88, R374). -/
theorem serves_of_admitted (hw : configWf c = true) {k : Kind} {i : Nat} {t : Tree} (h : handleAdmitted c k i t = true) :
    Serves c k i t := by
  unfold Serves
  split
  · rename_i hk
    subst hk
    exact handleAdmitted_mctrl h
  · rename_i hk
    obtain ⟨htree, hn⟩ := handleAdmitted_node hk h
    have trees := (configWf_parts hw).trees k (by cases k <;> simp [allKinds])
    simp only [treesWf, List.all_eq_true] at trees
    exact ⟨hn, trees t htree⟩

/-! ## One walk after the other -/

theorem runs_handleAll {t : Tree} {ns : List (Kind × Nat)} (h : ∀ n ∈ ns, configWf c = true → Serves c n.1 n.2 t) :
    Runs c AnyUnits (fun rs hs => hs.results = rs ∧ hs.nodes = ns.map (fun n => (n.1, n.2, t))) (handleAll t ns) := by
  induction ns with
  | nil => exact Runs.pure ⟨rfl, rfl⟩
  | cons n ns ih =>
    refine Runs.bind (runs_handle (h n List.mem_cons_self)) (fun r hs hhs => ?_)
    refine Runs.bind (ih (fun m hm => h m (List.mem_cons_of_mem _ hm))) (fun rs ks hks => Runs.pure ?_)
    subst hhs
    simp [Leaves.results, Leaves.nodes, ← hks.1, ← hks.2]

theorem runs_walkfam (f : Family) (i : Nat) (t : Tree) :
    Runs c AnyUnits (fun r hs => r = agg hs.results ∧ hs.nodes = (children c f i t).map (fun n => (n.1, n.2, t))) (walkfam f i t) := by
  unfold walkfam
  refine Silent.bind (Silent.setCursor _) (fun _ => Runs.get (fun s hs => ?_) (fun _ => rfl))
  rw [hs.1.2]
  refine Runs.bind (runs_handleAll (fun n hn hw => serves_of_admitted hw (children_admitted hn))) (fun rs hs hhs => ?_)
  exact Silent.bind (Silent.emit ⟨rfl, rfl⟩) (fun _ => Runs.pure ⟨by rw [List.append_nil, hhs.1], by rw [List.append_nil, hhs.2]⟩)

/-- The Results at hand aggregate to what the leaves below aggregate to (R190). -/
def Aggregates (rs : List Result3) (hs : Leaves) : Prop := agg rs = agg hs.results

theorem Aggregates.nil : Aggregates [] [] := rfl

theorem Aggregates.append {rs rs' : List Result3} {hs ks : Leaves} (h : Aggregates rs hs) (k : Aggregates rs' ks) :
    Aggregates (rs ++ rs') (hs ++ ks) := by
  unfold Aggregates
  rw [Leaves.results_append, agg_append_congr h k]

theorem Aggregates.one {r : Result3} {hs : Leaves} (h : r = agg hs.results) : Aggregates [r] hs := (agg_singleton r).trans h

theorem runs_walkEngines (t : Tree) (w : Nat) (js : List Nat) : Runs c AnyUnits Aggregates (walkEngines t w js) := by
  induction js with
  | nil => exact Runs.pure Aggregates.nil
  | cons j js ih =>
    unfold walkEngines
    refine Runs.get (fun s _ => ?_) (fun _ => rfl)
    cases engineOf s.cfg (32 * w + j) with
    | some e =>
      exact Silent.bind (Silent.setCursor _) (fun _ => Runs.bind (runs_walkfam _ _ _) (fun r hs hr => Runs.bind ih (fun rs ks hrs =>
        Runs.pure (by rw [List.append_nil]; exact (Aggregates.one hr.1).append hrs))))
    | none => exact ih

theorem runs_walkWords (t : Tree) (ws : List Nat) : Runs c AnyUnits Aggregates (walkWords t ws) := by
  induction ws with
  | nil => exact Runs.pure Aggregates.nil
  | cons w ws ih =>
    unfold walkWords
    refine Silent.bind (Silent.setCursor _) (fun _ => Silent.bind (Silent.rd _) (fun v => Runs.get (fun s _ => ?_) (fun _ => rfl)))
    exact Runs.bind (runs_walkEngines t w _) (fun rs hs hrs => Runs.bind ih (fun rest ks hrest =>
      Runs.pure (by rw [List.append_nil]; exact hrs.append hrest)))

theorem runs_walkTrees (ts : List Tree) : Runs c AnyUnits Aggregates (walkTrees ts) := by
  induction ts with
  | nil => exact Runs.pure Aggregates.nil
  | cons t ts ih =>
    unfold walkTrees
    refine Runs.get (fun s _ => ?_) (fun _ => rfl)
    exact Runs.bind (runs_walkWords t _) (fun rs hs hrs => Runs.bind ih (fun rest ks hrest =>
      Runs.pure (by rw [List.append_nil]; exact hrs.append hrest)))

theorem runs_summary : Runs c AnyUnits (fun r hs => r = agg hs.results) summary :=
  Runs.bind (runs_walkTrees allTrees) (fun _ hs h => Runs.pure (by rw [List.append_nil]; exact h))

theorem runs_topItem {top : Word} {b : Nat} {x : Act Result3}
    (hx : top.getLsbD b = true → Runs c AnyUnits (fun r hs => r = agg hs.results) x) : Runs c AnyUnits Aggregates (topItem top b x) :=
  Runs.ite (fun hb => Silent.bind (Silent.setCursor _) (fun _ => Runs.bind (hx hb) (fun r hs hr =>
    Runs.pure (by rw [List.append_nil]; exact Aggregates.one hr)))) (fun _ => Runs.pure Aggregates.nil)

theorem runs_handle_agg {k : Kind} {i : Nat} {t : Tree} (h : configWf c = true → Serves c k i t) :
    Runs c AnyUnits (fun r hs => r = agg hs.results) (handle k i t) :=
  (runs_handle h).mono (fun r _ e => by subst e; exact (agg_singleton r).symm)

/-- The top-level bits 1 and 2 stand for nodes that are there (R165). -/
theorem topPending_serves {s : State} {b : Nat} {k : Kind} (hk : b = 1 ∧ k = .pci ∨ b = 2 ∧ k = .priv)
    (h : s.topPending.getLsbD b = true) : Serves s.cfg k 0 .fatal := by
  rw [s.getLsbD_topPending] at h
  have hdirect : s.directPending k = true := by rcases hk with ⟨rfl, rfl⟩ | ⟨rfl, rfl⟩ <;> simpa using h
  have hn := ((s.directPending_iff k).mp hdirect).1
  rcases hk with ⟨rfl, rfl⟩ | ⟨rfl, rfl⟩ <;> exact ⟨hn, rfl⟩

theorem runs_dispatch : Runs c AnyUnits (fun r hs => r = agg hs.results) dispatch := by
  unfold dispatch
  refine Silent.bind (Silent.setCursor _) (fun _ => Runs.bind (Runs.rd _) (fun v _ hv => ?_))
  obtain ⟨rfl, w, hw, rfl⟩ := hv
  refine Runs.get (fun s _ => ?_) (fun _ => rfl)
  have serves : ∀ {b : Nat} {k : Kind}, (b = 1 ∧ k = .pci ∨ b = 2 ∧ k = .priv) →
      (readReg w .topPending &&& s.cfg.topEnableCfg).getLsbD b = true →
      Runs c AnyUnits (fun r hs => r = agg hs.results) (handle k 0 .fatal) := by
    intro b k hk hb
    rw [BitVec.getLsbD_and, Bool.and_eq_true] at hb
    exact runs_handle_agg (fun _ => hw.2 ▸ topPending_serves hk hb.1)
  exact Runs.bind (runs_topItem (fun _ => runs_summary)) (fun a0 hs0 h0 =>
    Runs.bind (runs_topItem (serves (.inl ⟨rfl, rfl⟩))) (fun a1 hs1 h1 =>
      Runs.bind (runs_topItem (serves (.inr ⟨rfl, rfl⟩))) (fun a2 hs2 h2 => Runs.pure (by
        rw [List.append_nil, List.nil_append, ← List.append_assoc]
        exact (h0.append h1).append h2))))

end Sys2Proof.Machine

/-! PROOFS. Family 41_tree_walk: a SERVICE does what the WALKFAM and HANDLE commands it stands for do one after the other
(R181 to R185). -/

namespace Sys2Proof.Machine

variable {α β : Type} {c : Config} {s₀ s t : State} {z : Calls}

/-- Inside a SERVICE that began in `s₀`, in state `s`: the commands of `z`, one after the other, have led to a state that looks
the same, and invoked the HANDLEs recorded since. -/
structure Twin (c : Config) (s₀ s : State) (z : Calls) : Prop where
  alone : Alone c s
  quiet : Quiet z.2
  bare : z.2.bare = s.bare
  calls : ∃ es, s.io.history = s₀.io.history ++ es ∧ z.1 = Leaves.nodes (handleResults es)

theorem Twin.cfg (h : Twin c s₀ s z) : z.2.cfg = c := (eq_of_bare (f := State.cfg) (fun _ => rfl) h.bare).trans h.alone.2

/-- Nothing happened that either side sees. -/
theorem Twin.same (h : Twin c s₀ s z) (hb : t.bare = s.bare) : Twin c s₀ t z := by
  refine ⟨(Within.bare (c := c) (G := AnyUnits) ⟨h.alone, trivial⟩ hb).1, h.quiet, h.bare.trans hb.symm, ?_⟩
  rw [eq_of_bare (f := fun s => s.io.history) (fun _ => rfl) hb]
  exact h.calls

/-- The part of a SERVICE does what the commands that `F` adds do. -/
def Mirrors (c : Config) (x : Act α) (F : Calls → Calls) : Prop :=
  ∀ s₀ s a t z, Twin c s₀ s z → x s = .ok a t → Twin c s₀ t (F z)

theorem Mirrors.pure (a : α) : Mirrors c (pure a : Act α) id := by
  intro s₀ s b t z h e
  cases e
  exact h

theorem Mirrors.bind {x : Act α} {f : α → Act β} {F K : Calls → Calls} (hx : Mirrors c x F) (hf : ∀ a, Mirrors c (f a) K) :
    Mirrors c (x >>= f) (fun z => K (F z)) := by
  intro s₀ s b u z h e
  rw [Act.bind_apply] at e
  cases hxs : x s with
  | error k t => rw [hxs] at e; cases e
  | ok a t => rw [hxs] at e; exact hf a s₀ t b u (F z) (hx s₀ s a t z h hxs) e

/-- What follows by giving back a value. -/
theorem Mirrors.map {x : Act α} {f : α → β} {F : Calls → Calls} (hx : Mirrors c x F) :
    Mirrors c (x >>= fun a => (Pure.pure (f a) : Act β)) F := hx.bind (fun a => Mirrors.pure (f a))

theorem Mirrors.setCursor (q : Cursor) {f : PUnit → Act β} {F : Calls → Calls} (hf : ∀ a, Mirrors c (f a) F) :
    Mirrors c (setCursor q >>= f) F := by
  intro s₀ s b t z h e
  exact hf _ s₀ _ b t z (h.same (t := s.setCursor (some q)) rfl) e

/-- Reading the state: what of it can be seen is the same on either side. -/
theorem Mirrors.get {γ : Type} (g : State → γ) (hg : ∀ s, g s = g s.bare) {f : State → Act β} {F : γ → Calls → Calls}
    (hf : ∀ s, Alone c s → Mirrors c (f s) (F (g s))) : Mirrors c ((get : Act State) >>= f) (fun z => F (g z.2) z) := by
  intro s₀ s b t z h e
  change Twin c s₀ t (F (g z.2) z)
  rw [eq_of_bare hg h.bare]
  exact hf s h.alone s₀ s b t z h e

theorem Mirrors.rd (r : Reg) {f : Word → Act β} {F : Word → Calls → Calls}
    (hf : ∀ s, Alone c s → Mirrors c (f (readReg s r)) (F (readReg s r))) :
    Mirrors c (rd r >>= f) (fun z => F (readReg z.2 r) z) := by
  intro s₀ s b t z h e
  rw [Act.bind_of_ok (rd_quiet h.alone.1 r)] at e
  change Twin c s₀ t (F (readReg z.2 r) z)
  rw [eq_of_bare (f := fun s => readReg s r) (readReg_bare · r) h.bare]
  exact hf s h.alone s₀ s b t z h e

/-! ## One command -/

/-- A body run under the mutex by a command of its own: it is as in the SERVICE, and the command leaves the block quiet. -/
theorem Twin.command {P : Result3 → Leaves → Prop} {x : Act Result3} {calls : List (Kind × Nat × Tree)} (h : Twin c s₀ s z)
    (hx : Runs c AnyUnits P x) (hP : ∀ r hs, P r hs → hs.nodes = calls) {r : Result3} (e : x s = .ok r t) :
    ∃ u, x (z.2.setLock .wlk) = .ok r u ∧ Twin c s₀ t (z.1 ++ calls, answered u r) := by
  have hb : s.bare = (z.2.setLock .wlk).bare := h.bare.symm
  have hw : Within c AnyUnits (z.2.setLock .wlk) := Within.bare (c := c) (s := s) ⟨h.alone, trivial⟩ hb.symm
  obtain ⟨r', u, t', hs, eu, et, hbare, hu, hp, hr⟩ := hx _ s hw hb
  rw [e] at et
  cases et
  obtain ⟨es, hhist, hcalls⟩ := h.calls
  obtain ⟨fs, fhist, fres, -⟩ := hp.history
  have hsame : ∀ {v w : State}, v.bare = w.bare → v.io.history = w.io.history :=
    fun hvw => eq_of_bare (f := fun s => s.io.history) (fun _ => rfl) hvw
  refine ⟨u, eu, ((hu.bare hbare).1), ⟨hu.1.1, hp.calm.tail.trans h.quiet.2.1, rfl⟩, hbare.symm, es ++ fs, ?_, ?_⟩
  · rw [hsame hbare, fhist, ← hsame hb, hhist, List.append_assoc]
  · rw [handleResults_append, Leaves.nodes_append, ← hcalls, fres, hP _ _ hr]

theorem State.after_of_exec {i : Instr} {u : State} (h : exec i s = .next u) : s.after i = u := by
  unfold State.after
  rw [h]

theorem mirrors_walkfam {f : Family} {i : Nat} {t : Tree} (ha : walkAdmitted c f i t = true) (hi : i < 4096) :
    Mirrors c (walkfam f i t) (fun z => z.walk f i t) := by
  intro s₀ s r u z h e
  have hinst : (BitVec.ofNat 12 i).toNat = i := by rw [BitVec.toNat_ofNat]; exact Nat.mod_eq_of_lt hi
  obtain ⟨v, ev, hv⟩ := h.command (runs_walkfam f i t) (fun _ _ hr => hr.2) e
  have hexec := exec_walk_of (i := BitVec.ofNat 12 i) h.quiet (by rw [h.cfg, hinst]; exact ha) (by rw [hinst]; exact ev)
  change Twin c s₀ u (z.1 ++ (children z.2.cfg f i t).map (fun n => (n.1, n.2, t)), z.2.after (walkInstr f (BitVec.ofNat 12 i) t))
  rw [State.after_of_exec hexec, h.cfg]
  exact hv

theorem mirrors_handle (hw : configWf c = true) {k : Kind} {t : Tree} (ha : handleAdmitted c k 0 t = true) :
    Mirrors c (handle k 0 t) (fun z => z.handle k t) := by
  intro s₀ s r u z h e
  obtain ⟨v, ev, hv⟩ := h.command (calls := [(k, 0, t)]) (runs_handle (fun _ => serves_of_admitted hw ha)) (fun r hs e => by subst e; rfl) e
  have hexec := exec_handle_of (i := 0#12) h.quiet (by rw [h.cfg]; exact ha) ev
  change Twin c s₀ u (z.1 ++ [(k, 0, t)], z.2.after (handleInstr k 0#12 t))
  rw [State.after_of_exec hexec]
  exact hv

/-! ## The summary (R183) -/

/-- One engine of a summary word (R183). -/
def Calls.engine (t : Tree) (w : Nat) (z : Calls) (j : Nat) : Calls :=
  match engineOf z.2.cfg (32 * w + j) with
  | some (f, i) => z.walk f i t
  | none => z

/-- The number of an engine within its family fits the field of WALKFAM, and WALKFAM of it is admitted in the trees of the family
(R111, R139). -/
theorem engineOf_admitted (hw : configWf c = true) {e i : Nat} {f : Family} (h : engineOf c e = some (f, i)) :
    i < 4096 ∧ ∀ t ∈ treesOfFamily f, walkAdmitted c f i t = true := by
  have z := configWf_sizes hw
  have hlinks := z.links.2
  have hpg : nPg c ≤ 4096 := (ceilDiv_le _ z.ports.1).trans hlinks
  have hlm : nLm c ≤ 4096 := (ceilDiv_le _ z.locals.1).trans hlinks
  unfold engineOf nMc at h
  simp only [walkAdmitted, Bool.and_eq_true, List.contains_iff_mem]
  split_ifs at h <;> cases h
  · exact ⟨by omega, fun t ht => ⟨ht, by simpa using ‹_›⟩⟩
  · exact ⟨by omega, fun t ht => ⟨ht, by rw [decide_eq_true_eq]; omega⟩⟩
  · exact ⟨by omega, fun t ht => ⟨ht, by rw [decide_eq_true_eq, nMc]; omega⟩⟩
  · exact ⟨by omega, fun t ht => ⟨ht, rfl⟩⟩

/-- A bit set in a summary word is an engine's, in a tree of its family (R144, R164). -/
theorem summary_admitted (hw : configWf c = true) {s : State} (hs : s.cfg = c) {t : Tree} {w j : Nat} {m : Word} {f : Family} {i : Nat}
    (hj : j ∈ setBits (readReg s (.summary t w) &&& m)) (he : engineOf c (32 * w + j) = some (f, i)) :
    walkAdmitted c f i t = true := by
  rw [mem_setBits, BitVec.getLsbD_and, Bool.and_eq_true] at hj
  have hj32 : j < 32 := BitVec.lt_of_getLsbD hj.1
  have hbit : (s.summaryWord t w).getLsbD j = true := hj.1
  rw [s.getLsbD_summaryWord t w hj32, State.engineBit_iff, hs] at hbit
  obtain ⟨f', i', he', hassert⟩ := hbit
  rw [he] at he'
  cases he'
  refine (engineOf_admitted hw he).2 t ?_
  cases f with
  | mctrlf =>
    simp only [State.engineAsserts, State.mctrlAsserts, Bool.and_eq_true, List.contains_iff_mem] at hassert
    exact hassert.1.1
  | xbar | portgrp | linkmgmt => cases t <;> decide

theorem mirrors_walkEngines (hw : configWf c = true) {t : Tree} {w : Nat} {js : List Nat}
    (h : ∀ j ∈ js, ∀ f i, engineOf c (32 * w + j) = some (f, i) → walkAdmitted c f i t = true) :
    Mirrors c (walkEngines t w js) (fun z => js.foldl (Calls.engine t w) z) := by
  induction js with
  | nil => exact Mirrors.pure _
  | cons j js ih =>
    have rest := ih (fun j hj => h j (List.mem_cons_of_mem _ hj))
    unfold walkEngines
    refine Mirrors.get State.cfg (fun _ => rfl) (F := fun cfg z => js.foldl (Calls.engine t w)
      (match engineOf cfg (32 * w + j) with
        | some (f, i) => z.walk f i t
        | none => z)) (fun s hs => ?_)
    cases he : engineOf s.cfg (32 * w + j) with
    | none => exact rest
    | some e =>
      rw [hs.2] at he
      have hwalk := h j List.mem_cons_self e.1 e.2 he
      exact Mirrors.setCursor _ (fun _ => (mirrors_walkfam hwalk (engineOf_admitted hw he).1).bind (fun r => rest.map))

theorem mirrors_walkWords (hw : configWf c = true) (t : Tree) (ws : List Nat) :
    Mirrors c (walkWords t ws) (fun z => ws.foldl (Calls.word t) z) := by
  induction ws with
  | nil => exact Mirrors.pure _
  | cons w ws ih =>
    unfold walkWords
    refine Mirrors.setCursor _ (fun _ => Mirrors.rd _ (F := fun v z => ws.foldl (Calls.word t)
      ((setBits (v &&& existMask z.2.cfg t w)).foldl (Calls.engine t w) z)) (fun u hu => ?_))
    refine Mirrors.get State.cfg (fun _ => rfl) (F := fun cfg z => ws.foldl (Calls.word t)
      ((setBits (readReg u (.summary t w) &&& existMask cfg t w)).foldl (Calls.engine t w) z)) (fun s hs => ?_)
    exact (mirrors_walkEngines hw (fun j hj f i he => summary_admitted hw hu.2 hj he)).bind (fun rs => ih.map)

theorem mirrors_walkTrees (hw : configWf c = true) (ts : List Tree) :
    Mirrors c (walkTrees ts) (fun z => ts.foldl (fun y t => (List.range (sumw y.2.cfg)).foldl (Calls.word t) y) z) := by
  induction ts with
  | nil => exact Mirrors.pure _
  | cons t ts ih =>
    unfold walkTrees
    refine Mirrors.get State.cfg (fun _ => rfl) (F := fun cfg z =>
      ts.foldl (fun y t => (List.range (sumw y.2.cfg)).foldl (Calls.word t) y) ((List.range (sumw cfg)).foldl (Calls.word t) z)) (fun s _ => ?_)
    exact (mirrors_walkWords hw t _).bind (fun rs => ih.map)

theorem mirrors_summary (hw : configWf c = true) : Mirrors c summary Calls.summary := (mirrors_walkTrees hw allTrees).map

/-! ## DISPATCH (R181) -/

theorem mirrors_topItem {top : Word} {b : Nat} {x : Act Result3} {F : Calls → Calls} (hx : top.getLsbD b = true → Mirrors c x F) :
    Mirrors c (topItem top b x) (fun z => if top.getLsbD b then F z else z) := by
  unfold topItem
  split
  · exact Mirrors.setCursor _ (fun _ => (hx ‹_›).map)
  · exact Mirrors.pure _

/-- What DISPATCH invokes after `z`, the masked top-level register being `top` (R181). -/
def Calls.dispatch (top : Word) (z : Calls) : Calls :=
  let x : Calls := if top.getLsbD 0 then z.summary else z
  let y : Calls := if top.getLsbD 1 then x.handle .pci .fatal else x
  if top.getLsbD 2 then y.handle .priv .fatal else y

theorem State.serviceCalls_eq (s : State) : s.serviceCalls = Calls.dispatch (readReg s .topPending &&& s.cfg.topEnableCfg) ([], s) := rfl

/-- DISPATCH, where the top-level bits that are set name nodes that a HANDLE of the command port would be admitted for. -/
theorem twin_dispatch (hw : configWf c = true) {s t : State} {r : Result3} (hc : s.cfg = c) (hq : Quiet s)
    (hpci : (readReg s .topPending &&& c.topEnableCfg).getLsbD 1 = true → handleAdmitted c .pci 0 .fatal = true)
    (hpriv : (readReg s .topPending &&& c.topEnableCfg).getLsbD 2 = true → handleAdmitted c .priv 0 .fatal = true)
    (e : dispatch (s.setLock .wlk) = .ok r t) : Twin c s t s.serviceCalls := by
  have start : Twin c s (s.setLock .wlk) ([], s) := ⟨⟨hq.1, hc⟩, hq, rfl, [], (List.append_nil _).symm, rfl⟩
  have items : Mirrors c (do
      let a0 ← topItem (readReg s .topPending &&& c.topEnableCfg) 0 summary
      let a1 ← topItem (readReg s .topPending &&& c.topEnableCfg) 1 (handle .pci 0 .fatal)
      let a2 ← topItem (readReg s .topPending &&& c.topEnableCfg) 2 (handle .priv 0 .fatal)
      return agg (a0 ++ a1 ++ a2)) (Calls.dispatch (readReg s .topPending &&& c.topEnableCfg)) :=
    (mirrors_topItem (fun _ => mirrors_summary hw)).bind (fun a0 => (mirrors_topItem (fun hb => mirrors_handle hw (hpci hb))).bind
      (fun a1 => (mirrors_topItem (fun hb => mirrors_handle hw (hpriv hb))).map))
  have hcur : ((s.setLock .wlk).setCursor (some (.top none))).cfg = c := hc
  have hread : readReg ((s.setLock .wlk).setCursor (some (.top none))) .topPending = readReg s .topPending := rfl
  unfold dispatch at e
  rw [Act.bind_of_ok (setCursor_apply _ _), Act.bind_of_ok (rd_quiet (by exact hq.1) _), Act.get_bind, hcur, hread] at e
  rw [s.serviceCalls_eq, hc]
  exact items s _ r t _ (start.same (t := (s.setLock .wlk).setCursor (some (.top none))) rfl) e

end Sys2Proof.Machine

/-! PROOFS. Family 41_tree_walk: SERVICE (R180 to R185, R191): the pass under the mutex, then the end of interrupt; and the end of
interrupt of a SERVICE that owes it. -/

namespace Sys2Proof.Machine

/-! ## The end of interrupt (R180, R191) -/

/-- The end of interrupt that is owed: one write, the Result, the response. -/
theorem completeTail_owed {s : State} {r : Result3} (h : s.seq.wlkTail = some r) : completeTail s = .ok () (s.tailDone r) := by
  unfold completeTail
  rw [Act.get_bind, h]
  have hw : writeReg .hostEoi 1#32 s = .ok () ((s.emit (.write .hostEoi 1#32)).setArmed true) := writeReg_plain rfl s
  change (writeReg .hostEoi 1#32 >>= fun _ => _) s = _
  rw [Act.bind_of_ok hw]
  unfold State.tailDone
  rw [show [Event.write .hostEoi 1#32, .result (.service r)] = [.write .hostEoi 1#32] ++ [.result (.service r)] from rfl,
    ← List.append_assoc]
  rfl

/-- The state in which a pass that ended in `t` with Result `r` owes its end of interrupt. -/
def State.passDone (t : State) (r : Result3) : State := ((t.setLock .free).setCursor none).setTail (some r)

/-- SERVICE, from what its pass does under the mutex. -/
theorem exec_service_of {s t : State} {r : Result3} (hq : Quiet s) (ht : t.io.sched = []) (h : dispatch (s.setLock .wlk) = .ok r t) :
    exec .service s = .next ((t.passDone r).tailDone r) := by
  have hpass : servicePass s = .ok () (t.passDone r) := by
    unfold servicePass
    rw [Act.bind_of_ok (walkerBegin_quiet hq), Act.bind_of_ok h, Act.bind_of_ok (unlock_apply t)]
    rfl
  have hrun : progService s = .ok () ((t.passDone r).tailDone r) := by
    unfold progService
    rw [Act.bind_of_ok hpass, Act.bind_of_ok (tick_quiet (by exact ht))]
    exact completeTail_owed rfl
  change runCommand .service progService s = _
  rw [runCommand_admitted rfl, hrun]
  rfl

/-! ## Nothing pending (R182) -/

/-- DISPATCH with no top-level bit set reads TOP_PENDING and invokes nothing. -/
theorem dispatch_nothing {s : State} (hs : s.io.sched = []) (h : readReg s .topPending &&& s.cfg.topEnableCfg = 0#32) :
    dispatch s = .ok .notFound (s.setCursor (some (.top none))) := by
  have skip : ∀ b (x : Act Result3) (u : State), topItem 0#32 b x u = .ok [] u := fun b x u => by
    unfold topItem
    rw [BitVec.getLsbD_zero, if_neg Bool.false_ne_true]
    rfl
  have hmask : readReg (s.setCursor (some (.top none))) .topPending &&& (s.setCursor (some (.top none))).cfg.topEnableCfg = 0#32 := h
  unfold dispatch
  rw [Act.bind_of_ok (setCursor_apply _ s), Act.bind_of_ok (rd_quiet (by exact hs) _), Act.get_bind, hmask,
    Act.bind_of_ok (skip 0 _ _), Act.bind_of_ok (skip 1 _ _), Act.bind_of_ok (skip 2 _ _)]
  rfl

/-- Settles O26: the pass invokes nothing, so that of the SERVICE only its end is left. -/
theorem serviceWithNothingPending : Obligations.ServiceWithNothingPending := by
  intro s hq h
  rw [exec_service_of (t := (s.setLock .wlk).setCursor (some (.top none))) hq hq.1 (dispatch_nothing hq.1 h)]
  obtain ⟨-, htail, hlock⟩ := hq
  unfold State.passDone State.tailDone
  have hseq : ({ s.seq with lock := .free, wlkTail := none } : Sequencer) = s.seq := by rw [← htail, ← hlock]
  rw [← hseq]
  rfl

/-! ## What a walker command begins with (R62, R180) -/

variable {α : Type}

/-- The mutex is taken first, and with no other agent moving the rest reaches its end. -/
def TakesMutex (p : Act Unit) : Prop :=
  ∃ body : Act Unit, p = (walkerBegin >>= fun _ => body) ∧ ∀ s, Alone s.cfg s → ∃ t, body s = .ok () t

/-- A part that is calm, and an end that cannot stop. -/
theorem takesMutex_of {x : Act α} {f : α → Act Unit} (hx : ∀ c, Quietly c Calm x)
    (hf : ∀ a t, t.io.sched = [] → ∃ u, f a t = .ok () u) : TakesMutex (walkerBegin >>= fun _ => x >>= f) := by
  refine ⟨x >>= f, rfl, fun s hs => ?_⟩
  obtain ⟨a, t, e, ht, -⟩ := hx s.cfg s hs
  rw [Act.bind_of_ok e]
  exact hf a t ht.1

theorem takesMutex_service : TakesMutex progService := by
  have hassoc : progService = (walkerBegin >>= fun _ => dispatch >>= fun r => unlock >>= fun _ =>
      (modify (fun s => s.setTail (some r)) : Act PUnit) >>= fun _ => tick >>= fun _ => completeTail) := by
    unfold progService servicePass
    simp only [Act.bind_assoc]
  rw [hassoc]
  refine takesMutex_of (fun _ => calm_dispatch) (fun r t ht => ⟨(t.passDone r).tailDone r, ?_⟩)
  rw [Act.bind_of_ok (unlock_apply t), Act.modify_bind, Act.bind_of_ok (tick_quiet (by exact ht))]
  exact completeTail_owed rfl

theorem takesMutex_walkCommand (f : Family) (i : Nat) (t : Tree) : TakesMutex (walkCommand f i t) :=
  takesMutex_of (fun _ => calm_walkfam f i t) (fun _ _ _ => ⟨_, rfl⟩)

theorem takesMutex_handleCommand (k : Kind) (i : Nat) (t : Tree) : TakesMutex (handleCommand k i t) :=
  takesMutex_of (fun _ => calm_handle k i t) (fun _ _ _ => ⟨_, rfl⟩)

theorem takesMutex_progSetfatal (l : Option (BitVec 12)) (dw : Bool) : TakesMutex (progSetfatal l dw) :=
  takesMutex_of (fun _ => calm_setfatalCore _ dw) (fun _ _ _ => ⟨_, rfl⟩)

/-- The queries read the flag between taking the mutex and releasing it. -/
theorem takesMutex_query {f : State → Act Unit} (hf : ∀ s t, t.io.sched = [] → ∃ u, f s t = .ok () u) :
    TakesMutex (walkerBegin >>= fun _ => (get : Act State) >>= f) :=
  takesMutex_of (fun _ s hs => ⟨s, s, rfl, hs, rfl⟩) hf

theorem walkerCommand_takesMutex {i : Instr} (h : isWalkerCommand i = true) : ∃ p, commandProgram i = some p ∧ TakesMutex p := by
  cases i with
  | service => exact ⟨_, rfl, takesMutex_service⟩
  | walkXbar | walkPortgrp | walkLinkmgmt | walkMctrlf => exact ⟨_, rfl, takesMutex_walkCommand _ _ _⟩
  | setfatal => exact ⟨_, rfl, takesMutex_progSetfatal _ _⟩
  | qlink | qdev => exact ⟨_, rfl, takesMutex_query (fun _ _ _ => ⟨_, rfl⟩)⟩
  | rstdrain | rd32 | wr32 => cases h
  | _ => exact ⟨_, rfl, takesMutex_handleCommand _ _ _⟩

/-- A walker command first ends the SERVICE that owes its end of interrupt (R313). -/
theorem walkerBegin_owed {s : State} {r : Result3} (h : s.seq.wlkTail = some r) (hs : s.io.sched = []) :
    walkerBegin s = lock .wlk (s.tailDone r) := by
  unfold walkerBegin
  rw [Act.get_bind, h]
  change (tick >>= fun _ => completeTail >>= fun _ => lock .wlk) s = _
  rw [Act.bind_of_ok (tick_quiet hs), Act.bind_of_ok (completeTail_owed h)]

theorem exec_owed {s : State} {r : Result3} {i : Instr} (h : s.seq.wlkTail = some r) (hs : s.io.sched = []) (hl : s.seq.lock = .free)
    (hi : isWalkerCommand i = true) (ha : admitted s.cfg i = true) : exec i s = exec i (s.tailDone r) := by
  obtain ⟨p, hp, body, rfl, hbody⟩ := walkerCommand_takesMutex hi
  obtain ⟨t, ht⟩ := hbody ((s.tailDone r).setLock .wlk) ⟨hs, rfl⟩
  have begun : walkerBegin (s.tailDone r) = .ok () ((s.tailDone r).setLock .wlk) := walkerBegin_quiet ⟨hs, rfl, hl⟩
  have owed : walkerBegin s = .ok () ((s.tailDone r).setLock .wlk) := (walkerBegin_owed h hs).trans (lock_free (s := s.tailDone r) hl _)
  have ran : (walkerBegin >>= fun _ => body) s = .ok () t := (Act.bind_of_ok owed).trans ht
  have ran' : (walkerBegin >>= fun _ => body) (s.tailDone r) = .ok () t := (Act.bind_of_ok begun).trans ht
  rw [exec_commandProgram hp, exec_commandProgram hp, runCommand_admitted ha,
    runCommand_admitted (s := s.tailDone r) ha, ran, ran']
  rfl

/-! ## Any pass (R180 to R185, R191) -/

/-- Settles O27: the pass is a `Runs` and stays in its frame, its HANDLEs are those of the commands it mirrors (`Twin`), and its end
is `completeTail`'s, wherever that falls. -/
theorem serviceEndsWithOneEoi : Obligations.ServiceEndsWithOneEoi := by
  refine ⟨fun s hq => ?_, fun s r h => ⟨fun later hin => ?_, fun hin => ?_, fun i hs hl hi ha => exec_owed h hs hl hi ha⟩⟩
  · have hstart : Within s.cfg AnyUnits (s.setLock .wlk) := ⟨hq.alone, trivial⟩
    obtain ⟨r, t, hs, e, ht, hp, hr⟩ := runs_dispatch.run hstart
    obtain ⟨es, hist, rfl, eoi⟩ := hp.history
    refine ⟨_, es, exec_service_of hq ht.1.1 e, ?_, eoi, ?_, rfl, rfl, rfl, rfl, ht.1.2, hp.calm.inbox, hp.calm.readData, ?_, hp.phase,
      hp.registered, fun hw a ha => hp.cells a (fun q hmay => ha q (hmay.2 hw) hmay.1), fun hw hpci hpriv => ?_⟩
    · subst hr
      exact congrArg (· ++ _) hist
    · subst hr
      exact congrArg (· ++ _) hp.calm.responses
    · exact congrArg (fun w : Hardware => { w with armed := true }) hp.hw
    · have twin := twin_dispatch hw rfl hq hpci hpriv e
      obtain ⟨fs, fhist, fcalls⟩ := twin.calls
      have hes : fs = es := List.append_cancel_left (fhist.symm.trans hist)
      subst hes
      have same : ∀ {γ : Type} (f : State → γ), (∀ s, f s = f s.bare) → f s.serviceCalls.2 = f t := fun f hf => eq_of_bare hf twin.bare
      refine ⟨fcalls.symm, (same (fun s => s.io.history) (fun _ => rfl)).trans fhist, ?_, (same State.fault (fun _ => rfl)).symm⟩
      exact congrArg (fun w : Hardware => { w with armed := true }) (same State.hw (fun _ => rfl)).symm
  · have hfetch : fetch s = .move .walkerTail (s.setInbox later) := by unfold fetch; rw [hin]
    unfold step
    rw [hfetch]
    change outcomeOf s (completeTail (s.setInbox later)) = _
    rw [completeTail_owed (s := s.setInbox later) h]
    rfl
  · have hfetch : fetch s = .tail := by unfold fetch; rw [hin, h]; rfl
    unfold step
    rw [hfetch]
    change outcomeOf s (completeTail s) = _
    rw [completeTail_owed h]
    rfl

end Sys2Proof.Machine

/-! PROOFS. Family 41_tree_walk: WALKFAM (R186 to R190): a HANDLE leaves the masks of the other children, so that each child is
serviced as in the state the family handler starts in. -/

namespace Sys2Proof.Machine

variable {c : Config} {s u : State} {k k' : Kind} {i i' : Nat} {t : Tree}

/-! ## One child -/

/-- What a HANDLE leaves, whether it found something or not: its mask is gone from status, the enable lost at most the mask, and
nothing else of the hardware changed but the registers it may write (R211, R212). -/
structure Treated (c : Config) (k : Kind) (i : Nat) (t : Tree) (s u : State) : Prop where
  before : s.cfg = c
  after : u.cfg = c
  status : u.field (statusReg c k i) = s.field (statusReg c k i) &&& ~~~s.maskOf k i t
  enable : u.field (enableReg c k i t) = s.field (enableReg c k i t)
    ∨ u.field (enableReg c k i t) = s.field (enableReg c k i t) &&& ~~~s.maskOf k i t
  cells : SameCellsBut (handleWrites c k i t) s u
  hardware : k ≠ .priv → SameHardwareButCells s u

/-- A HANDLE that finds nothing changes no register; one that finds something is `Serviced`. -/
theorem handle_treated (hw : configWf c = true) (hs : Alone c s) (ha : handleAdmitted c k i t = true) :
    ∃ u, handle k i t s = .ok (s.childResult t (k, i)) u ∧ Alone c u ∧ Treated c k i t s u := by
  unfold State.childResult
  by_cases hm : s.maskOf k i t = 0#32
  · obtain ⟨u, e, hc, hh, -, -, hio⟩ := handle_notFound hs.1 hm
    have hfield : ∀ r, u.field r = s.field r := fun r => by unfold State.field State.load; rw [hh, hc]
    have hcu := hc.trans hs.2
    refine ⟨u, by rw [if_pos hm]; exact e, ⟨by rw [hio]; exact hs.1, hcu⟩, hs.2, hcu, ?_, .inl (hfield _), fun a _ => ?_, fun _ => ?_⟩
    · rw [hfield, hm]
      exact BitVec.and_allOnes.symm
    · unfold State.cellAt
      rw [hh, hc]
    · unfold SameHardwareButCells
      rw [hh]
  · obtain ⟨u, -, e, hu, hserv, -⟩ := handle_serviced hw hs ha hm
    have hc := hs.2
    subst hc
    refine ⟨u, by rw [if_neg hm]; exact e, hu, rfl, hu.2, hserv.status, ?_, hserv.cells, fun hk => ?_⟩
    · rw [hserv.enable]
      split
      · exact .inr rfl
      · exact .inl rfl
    · unfold SameHardwareButCells
      rw [hserv.hardware, hserv.ring hk]

theorem Treated.pending (h : Treated c k i t s u) : u.pendingOf k i = s.pendingOf k i &&& ~~~s.maskOf k i t := by
  unfold State.pendingOf
  rw [h.before, h.after, h.status]
  split
  · rw [BitVec.and_assoc, BitVec.and_comm (~~~_), BitVec.and_assoc]
  · rfl

/-- Afterwards no enabled bit of the child is pending. -/
theorem Treated.mask_eq_zero (h : Treated c k i t s u) : u.maskOf k i t = 0#32 := by
  have hmask : s.maskOf k i t = s.pendingOf k i &&& s.field (enableReg c k i t) := by unfold State.maskOf; rw [h.before]
  have hafter : u.maskOf k i t = u.pendingOf k i &&& u.field (enableReg c k i t) := by unfold State.maskOf; rw [h.after]
  rw [hafter, h.pending]
  have cleared : ∀ p e : Word, p &&& ~~~(p &&& e) &&& e = 0#32 := fun p e => by
    ext j hj
    simp only [BitVec.getElem_and, BitVec.getElem_not, BitVec.getElem_zero]
    cases p[j] <;> cases e[j] <;> rfl
  rcases h.enable with he | he
  · rw [he, hmask, cleared]
  · rw [he, ← BitVec.and_assoc, hmask, cleared, BitVec.zero_and]

/-! ## The other children -/

/-- A HANDLE of `n` leaves what a HANDLE of `m` would find. -/
def LeavesMask (c : Config) (t : Tree) (n m : Kind × Nat) : Prop :=
  ∀ s u, Treated c n.1 n.2 t s u → u.maskOf m.1 m.2 t = s.maskOf m.1 m.2 t

/-- The registers a HANDLE may write are registers of the map; of nodes, those of its own. -/
theorem handleWrites_spec (hw : configWf c = true) (hk : k ≠ .mctrl) (hi : i < 4096) {q : Reg} (hq : q ∈ handleWrites c k i t) :
    fits q = true ∧ ∀ k' i' r, q = .node k' i' r → k' = k ∧ i' = i := by
  have hwords := (configWf_sizes hw).words.2
  have node : ∀ r, nodeFits r = true → fits (.node k i r) = true := fun r hr => by simp [fits, hk, hi, hr]
  unfold handleWrites statusReg enableReg at hq
  rw [if_neg hk, if_neg hk, if_neg hk] at hq
  simp only [List.mem_append, List.mem_cons, List.mem_map, List.mem_range, List.not_mem_nil, or_false] at hq
  rcases hq with (((rfl | rfl | rfl) | ⟨w, hlt, rfl⟩) | rfl | ⟨v, hlt, rfl⟩) | hring
  · exact ⟨node _ rfl, fun _ _ _ e => by cases e; exact ⟨rfl, rfl⟩⟩
  · exact ⟨node _ rfl, fun _ _ _ e => by cases e; exact ⟨rfl, rfl⟩⟩
  · exact ⟨rfl, nofun⟩
  · exact ⟨by simp only [fits, decide_eq_true_eq]; omega, nofun⟩
  · exact ⟨node _ rfl, fun _ _ _ e => by cases e; exact ⟨rfl, rfl⟩⟩
  · exact ⟨node _ (by simpa [nodeFits] using hlt), fun _ _ _ e => by cases e; exact ⟨rfl, rfl⟩⟩
  · split at hring
    · cases List.mem_singleton.mp hring
      exact ⟨rfl, nofun⟩
    · cases hring

/-- A node's HANDLE writes no register of another node. -/
theorem leavesMask_node (hw : configWf c = true) (hk : k ≠ .mctrl) (hk' : k' ≠ .mctrl) (hn : nodeExists c k i = true)
    (hn' : nodeExists c k' i' = true) (hne : (k', i') ≠ (k, i)) : LeavesMask c t (k, i) (k', i') := by
  intro s u h
  have hfield : ∀ r, nodeFits r = true → u.field (.node k' i' r) = s.field (.node k' i' r) := fun r hr => by
    refine State.field_congr (h.after.trans h.before.symm) (h.cells _ fun hmem => ?_)
    obtain ⟨q, hq, e⟩ := List.mem_map.mp hmem
    obtain ⟨hfit, hown⟩ := handleWrites_spec hw hk (nodeExists_lt hw hn) hq
    refine busAddr_ne (r := .node k' i' r) (r' := q) (by simp [fits, hk', hr, nodeExists_lt hw hn']) hfit (fun eq => ?_) e
    obtain ⟨rfl, rfl⟩ := hown _ _ _ eq
    exact hne rfl
  unfold State.maskOf State.pendingOf statusReg enableReg
  simp only [hk', if_false]
  rw [hfield _ rfl, hfield _ rfl]

/-- Two links of one microcontroller have two bits of its status (R243). -/
theorem ll_ne {l l' : Nat} (hlm : lm c l = lm c l') (hne : l ≠ l') : ll c l ≠ ll c l' := by
  intro h
  apply hne
  rw [← Nat.div_add_mod l c.lmSize, ← Nat.div_add_mod l' c.lmSize, show l / c.lmSize = l' / c.lmSize from hlm,
    show l % c.lmSize = l' % c.lmSize from h]

/-- HANDLE.MCTRL of one link leaves the bits of the others (R243). -/
theorem leavesMask_mctrl {l l' : Nat} (hlm : lm c l = lm c l') (hne : l ≠ l') : LeavesMask c t (.mctrl, l) (.mctrl, l') := by
  intro s u h
  have hbit : ll c l ≠ ll c l' := ll_ne hlm hne
  have hmask : ∀ (v : State) (j : Nat), v.cfg = c → v.maskOf .mctrl j t
      = v.field (.intrStatus (mc c j)) &&& bit (ll c j) &&& v.field (.intrStallEn (mc c j)) := by rintro v j rfl; rfl
  have hmc : mc c l' = mc c l := hlm.symm
  have hstatus : u.field (.intrStatus (mc c l)) = s.field (.intrStatus (mc c l)) &&& ~~~s.maskOf .mctrl l t := h.status
  have henable : u.field (.intrStallEn (mc c l)) = s.field (.intrStallEn (mc c l))
      ∨ u.field (.intrStallEn (mc c l)) = s.field (.intrStallEn (mc c l)) &&& ~~~s.maskOf .mctrl l t := h.enable
  have hoff : (s.maskOf .mctrl l t).getLsbD (ll c l') = false := by
    rw [hmask s l h.before, BitVec.getLsbD_and, BitVec.getLsbD_and, getLsbD_bit]
    simp [hbit.symm]
  rw [hmask u l' h.after, hmask s l' h.before, hmc, hstatus]
  apply BitVec.eq_of_getLsbD_eq
  intro j hj
  by_cases hjl : j = ll c l'
  · subst hjl
    rcases henable with he | he <;>
      simp only [he, BitVec.getLsbD_and, BitVec.getLsbD_not, hoff, hj, decide_true, Bool.not_false, Bool.and_true]
  · simp [getLsbD_bit, hjl]

/-- The children of a family handler do not meet. -/
theorem children_leaveMasks (hw : configWf c = true) {f : Family} {n m : Kind × Nat} (hn : n ∈ children c f i t)
    (hm : m ∈ children c f i t) (hne : n ≠ m) : LeavesMask c t n m := by
  obtain ⟨k, j⟩ := n
  obtain ⟨k', j'⟩ := m
  have nodeN := (mem_children hn).2
  have nodeM := (mem_children hm).2
  simp only at nodeN nodeM
  by_cases hf : f = .mctrlf
  · rw [if_pos hf] at nodeN nodeM
    obtain ⟨rfl, hj, -⟩ := nodeN
    obtain ⟨rfl, hj', -⟩ := nodeM
    refine leavesMask_mctrl ?_ (fun e => hne (by rw [e]))
    rw [(mem_linksOfLm_iff.mp hj).2.2, (mem_linksOfLm_iff.mp hj').2.2]
  · rw [if_neg hf] at nodeN nodeM
    exact leavesMask_node hw nodeN.1.1 nodeM.1.1 nodeN.2 nodeM.2 hne.symm

/-- Nodes of several kinds on several links, each once. -/
theorem nodup_linkNodes {ls : List Nat} {ks : List Kind} (hl : ls.Nodup) (hk : ks.Nodup) :
    (ls.flatMap (fun l => ks.map (fun k => (k, l)))).Nodup := by
  refine List.nodup_flatMap.mpr ⟨fun l _ => hk.map (fun _ _ e => (Prod.mk.inj e).1), hl.imp fun hne => ?_⟩
  intro n hn hn'
  obtain ⟨k, -, rfl⟩ := List.mem_map.mp hn
  obtain ⟨k', -, e⟩ := List.mem_map.mp hn'
  exact hne (Prod.mk.inj e).2.symm

/-- Each child is listed once. -/
theorem children_nodup (f : Family) : (children c f i t).Nodup := by
  have hrange : ∀ n, (List.range n).Nodup := fun n => List.nodup_range
  have hlinks : (linksOfLm c i).Nodup := (hrange _).filter _
  unfold children
  refine List.Nodup.filter _ ?_
  cases f with
  | xbar =>
    refine List.Nodup.filter _ (List.Nodup.append ?_ ?_ ?_)
    · exact (hrange _).map (fun _ _ e => (Prod.mk.inj e).2)
    · exact (hrange _).map (fun _ _ e => (Prod.mk.inj e).2)
    · intro n hn hn'
      obtain ⟨j, -, rfl⟩ := List.mem_map.mp hn
      obtain ⟨j', -, e⟩ := List.mem_map.mp hn'
      cases (Prod.mk.inj e).1
  | portgrp => exact List.Nodup.filter _ (nodup_linkNodes ((hrange _).filter _) (by decide))
  | linkmgmt =>
    refine List.Nodup.filter _ (List.nodup_cons.mpr ⟨fun hmem => ?_, nodup_linkNodes hlinks (by decide)⟩)
    obtain ⟨l, -, hpair⟩ := List.mem_flatMap.mp hmem
    obtain ⟨k, hk, e⟩ := List.mem_map.mp hpair
    rw [(Prod.mk.inj e).1] at hk
    exact absurd hk (by decide)
  | mctrlf =>
    change (if nodeExists c .mctrl i then (linksOfLm c i).map (fun l => (Kind.mctrl, l)) else []).Nodup
    split
    · exact hlinks.map (fun _ _ e => (Prod.mk.inj e).2)
    · exact List.nodup_nil

/-- No family has a child of kind PRIV. -/
theorem children_ne_priv {f : Family} {n : Kind × Nat} (h : n ∈ children c f i t) : n.1 ≠ .priv := by
  have hnode := (mem_children h).2
  split at hnode
  · rw [hnode.1]
    nofun
  · exact hnode.1.2

/-! ## All children -/

/-- What a child's HANDLE answers depends on its mask alone. -/
theorem childResult_congr {n : Kind × Nat} (hn : n.1 ≠ .priv) (hc : u.cfg = s.cfg) (hm : u.maskOf n.1 n.2 t = s.maskOf n.1 n.2 t) :
    u.childResult t n = s.childResult t n := by
  have hok : ∀ v : State, v.handshakeOk n.1 = true := fun v => by unfold State.handshakeOk; rw [if_neg hn]
  unfold State.childResult State.handleResult
  rw [hm, hc, hok, hok]

theorem SameCellsBut.trans {rs rs' : List Reg} {v : State} (h : SameCellsBut rs s u) (k : SameCellsBut rs' u v) :
    SameCellsBut (rs ++ rs') s v := by
  intro a ha
  rw [List.map_append, List.mem_append, not_or] at ha
  exact (k a ha.2).trans (h a ha.1)

/-- HANDLEs of nodes that leave each other's masks: each answers as in the state the first starts in, and afterwards nothing is
left to find. -/
theorem handleAll_treated (hw : configWf c = true) {ns : List (Kind × Nat)} (hs : Alone c s)
    (ha : ∀ n ∈ ns, handleAdmitted c n.1 n.2 t = true ∧ n.1 ≠ .priv)
    (hpair : ns.Pairwise (fun n m => LeavesMask c t n m ∧ LeavesMask c t m n)) :
    ∃ u, handleAll t ns s = .ok (ns.map (s.childResult t)) u ∧ Alone c u ∧ (∀ n ∈ ns, u.maskOf n.1 n.2 t = 0#32)
      ∧ (∀ m, (∀ n ∈ ns, LeavesMask c t n m) → u.maskOf m.1 m.2 t = s.maskOf m.1 m.2 t)
      ∧ SameCellsBut (ns.flatMap (fun n => handleWrites c n.1 n.2 t)) s u ∧ SameHardwareButCells s u := by
  induction ns generalizing s with
  | nil => exact ⟨s, rfl, hs, nofun, fun _ _ => rfl, fun _ _ => rfl, rfl⟩
  | cons n ns ih =>
    obtain ⟨hfirst, hrest⟩ := List.pairwise_cons.mp hpair
    obtain ⟨hadm, hpriv⟩ := ha n List.mem_cons_self
    obtain ⟨v, ev, hv, treated⟩ := handle_treated hw hs hadm
    obtain ⟨u, eu, hu, hdone, hleft, hcells, hhw⟩ := ih hv (fun m hm => ha m (List.mem_cons_of_mem _ hm)) hrest
    have same : ∀ m ∈ ns, v.childResult t m = s.childResult t m := fun m hm =>
      childResult_congr (ha m (List.mem_cons_of_mem _ hm)).2 (hv.2.trans hs.2.symm) ((hfirst m hm).1 s v treated)
    refine ⟨u, ?_, hu, ?_, fun m hm => ?_, ?_, ?_⟩
    · unfold handleAll
      rw [Act.bind_of_ok ev, Act.bind_of_ok eu, List.map_congr_left same]
      rfl
    · intro m hm
      rcases List.mem_cons.mp hm with rfl | hm
      · rw [hleft m (fun n' hn' => (hfirst n' hn').2), treated.mask_eq_zero]
      · exact hdone m hm
    · rw [hleft m (fun n' hn' => hm n' (List.mem_cons_of_mem _ hn')), hm n List.mem_cons_self s v treated]
    · exact SameCellsBut.trans treated.cells hcells
    · have := treated.hardware hpriv
      unfold SameHardwareButCells at *
      rw [hhw, this]

/-! ## WALKFAM -/

theorem childResult_bare (s : State) (t : Tree) (n : Kind × Nat) : s.childResult t n = s.bare.childResult t n := by
  have hok : s.handshakeOk n.1 = s.bare.handshakeOk n.1 := by
    unfold State.handshakeOk
    rw [ask_fst_bare]
  unfold State.childResult State.handleResult
  rw [hok]
  rfl

/-- Leaves by their nodes and what they answered. -/
theorem Leaves.eq_map {hs : Leaves} {ns : List (Kind × Nat)} {g : Kind × Nat → Result3} (hres : hs.results = ns.map g)
    (hnodes : hs.nodes = ns.map (fun n => (n.1, n.2, t))) : hs = ns.map (fun n => (n.1, n.2, t, g n)) := by
  induction ns generalizing hs with
  | nil => exact List.map_eq_nil_iff.mp hres
  | cons n ns ih =>
    cases hs with
    | nil => cases hres
    | cons x hs =>
      obtain ⟨k, i, t', r⟩ := x
      simp only [Leaves.results, Leaves.nodes, List.map_cons, List.cons.injEq, Prod.mk.injEq] at hres hnodes
      obtain ⟨rfl, hres⟩ := hres
      obtain ⟨⟨rfl, rfl, rfl⟩, hnodes⟩ := hnodes
      rw [ih hres hnodes, List.map_cons]

/-- Settles O28: the children are each listed once and leave each other's masks, so `handleAll_treated` gives their Results and
registers, and `Runs` the frame and the events. -/
theorem walkServicesEveryChild : Obligations.WalkServicesEveryChild := by
  intro s f inst t hw hq ha
  obtain ⟨w, hwdef⟩ : ∃ w, w = (s.setLock .wlk).setCursor (some (.family f inst.toNat t)) := ⟨_, rfl⟩
  have hwithin : Within s.cfg AnyUnits w := by rw [hwdef]; exact ⟨hq.alone, trivial⟩
  have hbare : w.bare = s.bare := by rw [hwdef]; rfl
  obtain ⟨ns, hns⟩ : ∃ ns, ns = children s.cfg f inst.toNat t := ⟨_, rfl⟩
  have hmem : ∀ n ∈ ns, n ∈ children s.cfg f inst.toNat t := fun n hn => hns ▸ hn
  have hpair : ns.Pairwise (fun n m => LeavesMask s.cfg t n m ∧ LeavesMask s.cfg t m n) := by
    have hnodup : ns.Nodup := hns ▸ children_nodup f
    exact hnodup.pairwise_of_forall_ne (fun n hn m hm hne =>
      ⟨children_leaveMasks hw (hmem n hn) (hmem m hm) hne, children_leaveMasks hw (hmem m hm) (hmem n hn) hne.symm⟩)
  obtain ⟨u, eu, hu, hdone, -, hcells, hhw⟩ := handleAll_treated hw hwithin.1
    (fun n hn => ⟨children_admitted (hmem n hn), children_ne_priv (hmem n hn)⟩) hpair
  have hresults : ns.map (w.childResult t) = ns.map (s.childResult t) :=
    List.map_congr_left (fun n _ => eq_of_bare (f := fun s => s.childResult t n) (childResult_bare · t n) hbare)
  rw [hresults] at eu
  obtain ⟨rs, u', hs, eu', -, hp, hres, hnodes⟩ :=
    (runs_handleAll (t := t) (ns := ns) (fun n hn hw => serves_of_admitted hw (children_admitted (hmem n hn)))).run hwithin
  rw [eu] at eu'
  cases eu'
  obtain ⟨es, hist, hleaves, eoi⟩ := hp.history
  have ewalk : walkfam f inst.toNat t (s.setLock .wlk) = .ok (agg (ns.map (s.childResult t)))
      (u.emit (.result (.walkfam f inst.toNat t (agg (ns.map (s.childResult t)))))) := by
    unfold walkfam
    rw [Act.bind_of_ok (setCursor_apply _ _), Act.get_bind, ← hwdef, show w.cfg = s.cfg from hwithin.1.2, ← hns, Act.bind_of_ok eu]
    rfl
  rw [← hns]
  subst hwdef
  refine ⟨_, es, exec_walk_of hq ha ewalk, hdone, ?_, ?_, ?_, eoi, hcells, hhw, hp.phase, hp.registered, rfl, hu.2, hp.calm.inbox,
    hp.calm.readData⟩
  · rw [hleaves]
    exact Leaves.eq_map hres hnodes
  · exact congrArg (· ++ _) hist
  · exact congrArg (· ++ _) hp.calm.responses

end Sys2Proof.Machine

/-! PROOFS. Family 42_leaf_handler: what one HANDLE command does when it runs alone (R211, R212), and the statements that
follow from it. `HandleRun` says it once for a HANDLE that finds something; what the statements say of reports and log calls is
then read off `State.expectedEvents`. -/

namespace Sys2Proof.Machine

/-! ## A HANDLE that finds nothing (R212) -/

/-- Settles O31: the template ends at its first comparison, before any write. -/
theorem handleFindsNothing : Obligations.HandleFindsNothing := by
  intro s k i t hq ha hm
  obtain ⟨u, he, hcfg, hhw, hfault, hseq, hio⟩ := handle_notFound (s := s.setLock .wlk) hq.1 hm
  have hdone : answered u .notFound = { s with
      seq := { s.seq with cursor := none, leaf := {}, cap := [], captured := 0 }
      io := { s.io with
        history := s.io.history ++ [.result (.handle k i.toNat t .notFound)]
        responses := s.io.responses ++ [[1#32]] } } := by
    have hlock : s.seq.lock = .free := hq.2.2
    cases u
    simp only at hcfg hhw hfault hseq hio
    subst hcfg hhw hfault hseq hio
    simp only [answered, State.respond, State.setLock, State.setCursor, seqAfterHandle, ← hlock]
    rfl
  rw [exec_handle_of hq ha he, hdone]

/-! ## A HANDLE that finds something (R211) -/

/-- What the tail of a HANDLE can hold: writes, the timeout of PRIV's poll where the ring master does not answer, and the line about
the bits left in U. -/
theorem mem_handleTail {s : State} {k : Kind} {i : Nat} {t : Tree} {e : Event} (h : e ∈ s.handleTail k i t) :
    (∃ r v, e = .write r v) ∨ (e = .log .privAckTimeout ∧ k = .priv ∧ s.handshakeOk k = false)
      ∨ e = .unhandled k i t (unrecognised s.cfg k (s.maskOf k i t)) := by
  simp only [State.handleTail, List.mem_append, List.mem_ite_nil_left, List.mem_ite_nil_right, List.mem_cons, List.mem_map,
    List.not_mem_nil, or_false] at h
  rcases h with ((((⟨-, h⟩ | ⟨-, h⟩) | h) | ⟨-, u, -, h⟩) | ⟨hk, h | ⟨hno, h⟩⟩) | ⟨-, h⟩
  · exact .inl ⟨_, _, h⟩
  · exact .inl ⟨_, _, h⟩
  · exact .inl ⟨_, _, h⟩
  · exact .inl ⟨_, _, h.symm⟩
  · exact .inl ⟨_, _, h⟩
  · exact .inr (.inl ⟨h, hk, by simpa using hno⟩)
  · exact .inr (.inr h)

/-- The tail of a HANDLE holds no report and no log call. -/
theorem filter_handleTail_classified (s : State) (k : Kind) (i : Nat) (t : Tree) :
    (s.handleTail k i t).filter isClassified = [] := by
  refine List.filter_eq_nil_iff.mpr fun e he => ?_
  rcases mem_handleTail he with ⟨r, v, rfl⟩ | ⟨rfl, -⟩ | rfl <;> nofun

/-- What a HANDLE command that finds something leaves: the hardware and the flags as `Serviced` says, nothing of it carried on,
and in H `es`: classification's events, then the tail, then the Result. -/
structure HandleRun (s : State) (k : Kind) (i : Nat) (t : Tree) (u : State) (es : List Event) : Prop where
  serviced : Serviced s k i t u
  seq : u.seq = { s.seq with cursor := none, leaf := {}, cap := [], captured := 0 }
  inbox : u.io.inbox = s.io.inbox
  readData : u.io.readData = s.io.readData
  responses : u.io.responses = s.io.responses ++ [[resultWord (s.handleResult k i t)]]
  history : u.io.history = s.io.history ++ es
  events : ∃ fs, (∀ e ∈ fs, markEvent e) ∧ es = fs ++ s.handleTail k i t ++ [.result (.handle k i t (s.handleResult k i t))]
  classified : es.filter isClassified = s.expectedEvents k i t

/-- A HANDLE command that finds something, run alone: its body `handle` under the mutex, then the answer. -/
theorem exec_handle_run {s : State} {k : Kind} {i : BitVec 12} {t : Tree} (hw : configWf s.cfg = true) (hq : Quiet s)
    (ha : handleAdmitted s.cfg k i.toNat t = true) (hm : s.maskOf k i.toNat t ≠ 0#32) :
    ∃ u es, handle k i.toNat t (s.setLock .wlk) = .ok (s.handleResult k i.toNat t) u
      ∧ exec (handleInstr k i t) s = .next (answered u (s.handleResult k i.toNat t))
      ∧ HandleRun s k i.toNat t (answered u (s.handleResult k i.toNat t)) es := by
  obtain ⟨u, fs, he, -, hserv, hseq, hin, hres, hrd, hmark, hclass, hhist⟩ := handle_serviced hw hq.alone ha (s := s.setLock .wlk) hm
  rw [handleResult_setLock] at he hhist
  rw [handleTail_setLock] at hhist
  have hes : (fs ++ s.handleTail k i.toNat t ++ [Event.result (.handle k i.toNat t (s.handleResult k i.toNat t))]).filter isClassified
      = s.expectedEvents k i.toNat t := by
    rw [List.filter_append, List.filter_append, hclass, filter_handleTail_classified]
    exact (List.append_nil _).trans (List.append_nil _)
  refine ⟨u, _, he, exec_handle_of hq ha he, hserv.congr rfl rfl rfl rfl rfl rfl, ?_, hin, hrd, congrArg (· ++ _) hres,
    hhist.trans (by simp [List.append_assoc]), ⟨fs, hmark, rfl⟩, hes⟩
  have hlock : s.seq.lock = .free := hq.2.2
  simp only [answered, State.respond, State.setLock, State.setCursor, hseq, seqAfterHandle, hlock]

/-- Settles O33: what `exec_handle_run` says of the reports and log calls. -/
theorem handleReportsTheBits : Obligations.HandleReportsTheBits := by
  intro s k i t hw hq ha hm
  obtain ⟨u, es, -, hexec, hrun⟩ := exec_handle_run hw hq ha hm
  exact ⟨_, es, hexec, hrun.history, hrun.classified⟩

/-! ## Reports and log calls by the bits of the mask (R216, R220 to R224) -/

section
variable {s : State} {k : Kind} {i : Nat} {t : Tree}

/-- A report or log call is one of an unsuppressed bit of the mask with its entry. -/
theorem mem_bitEvents {p cn : Word} {cap : List Word} {b : Nat} {e : Event} : e ∈ s.bitEvents k i p cn cap b ↔
    ∃ x, reportable s.cfg k p b = some x
      ∧ ((∃ tgt ∈ targets s.cfg k i, e = reportEvent k b i tgt (effSev x (cn.getLsbD b)) (s.diagnosticOf k i cap x))
        ∨ e ∈ s.eccLogsOf k i x) := by
  unfold State.bitEvents
  cases reportable s.cfg k p b with
  | none => simp
  | some x => simp [eq_comm]

theorem mem_expectedEvents {e : Event} (h : e ∈ s.expectedEvents k i t) : ∃ b x, reportable s.cfg k (s.pendingOf k i) b = some x
    ∧ (s.maskOf k i t).getLsbD b = true
    ∧ ((∃ tgt ∈ targets s.cfg k i, e = reportEvent k b i tgt (effSev x ((s.containOf k i).getLsbD b))
          (s.diagnosticOf k i (s.captureOf k i (s.maskOf k i t)) x))
      ∨ e ∈ s.eccLogsOf k i x) := by
  obtain ⟨b, hb, he⟩ := List.mem_flatMap.mp h
  obtain ⟨x, hx, he⟩ := mem_bitEvents.mp he
  exact ⟨b, x, hx, (List.mem_filter.mp hb).2, he⟩

/-- Every unsuppressed bit of the mask is reported once a target; ORDER(k) leaves none out (R374). -/
theorem report_mem_expectedEvents (hw : configWf s.cfg = true) {b : Nat} {x : Entry} (hb : (s.maskOf k i t).getLsbD b = true)
    (hx : reportable s.cfg k (s.pendingOf k i) b = some x) {tgt : Option Nat} (htgt : tgt ∈ targets s.cfg k i) :
    reportEvent k b i tgt (effSev x ((s.containOf k i).getLsbD b)) (s.diagnosticOf k i (s.captureOf k i (s.maskOf k i t)) x)
      ∈ s.expectedEvents k i t := by
  have htab := reportable_table hx
  have hord : b ∈ order s.cfg k := configWf_order hw (by rw [htab]; rfl) (configWf_bit hw htab)
  exact List.mem_flatMap.mpr ⟨b, List.mem_filter.mpr ⟨hord, hb⟩, mem_bitEvents.mpr ⟨x, hx, .inl ⟨tgt, htgt, rfl⟩⟩⟩

/-- Some target there always is (R224). -/
theorem exists_mem_targets (c : Config) (k : Kind) (i : Nat) : ∃ tgt, tgt ∈ targets c k i := by
  refine List.exists_mem_of_ne_nil _ ?_
  unfold targets
  split
  · split
    · nofun
    · rename_i h
      simpa using h
  · nofun
  · nofun

/-- A log call is of the unit of the entry's tag, and uncorrectable for a double-bit-error bit (R223). -/
theorem mem_eccLogsOf {x : Entry} {l : EccLogEvent} (h : .eccLog l ∈ s.eccLogsOf k i x) :
    (x.ecc = .eccLimit l.unit ∧ l.uncorrectable = false) ∨ (x.ecc = .eccDbe l.unit ∧ l.uncorrectable = true) := by
  unfold State.eccLogsOf at h
  cases hx : x.ecc with
  | notEcc => rw [hx] at h; cases h
  | eccLimit u =>
    rw [hx] at h
    cases List.mem_singleton.mp h
    exact .inl ⟨rfl, rfl⟩
  | eccDbe u =>
    rw [hx] at h
    cases List.mem_singleton.mp h
    exact .inr ⟨rfl, rfl⟩

/-- A limit bit whose unit's double-bit error is pending is not reportable (R223). -/
theorem reportable_suppressed {c : Config} {p : Word} {b d unit : Nat} {x : Entry} (hx : table c k b = some x)
    (hecc : x.ecc = .eccLimit unit) (hd : bitWithTag c k (.eccDbe unit) = some d) (hp : p.getLsbD d = true) :
    reportable c k p b = none := by
  simp [reportable, hx, dbeSuppresses, hecc, hd, hp]

/-- A bit with an entry is reportable, or a suppressed limit bit. -/
theorem reportable_or_suppressed {c : Config} {p : Word} {b : Nat} {x : Entry} (hx : table c k b = some x) :
    reportable c k p b = some x ∨ ∃ unit d, x.ecc = .eccLimit unit ∧ bitWithTag c k (.eccDbe unit) = some d ∧ p.getLsbD d = true := by
  unfold reportable
  rw [hx]
  by_cases hsup : dbeSuppresses c k x p = true
  · right
    unfold dbeSuppresses at hsup
    split at hsup
    · rename_i unit hecc
      split at hsup
      · rename_i d hd
        exact ⟨unit, d, hecc, hd, hsup⟩
      · cases hsup
    · cases hsup
  · exact .inl (by simp [hsup])

variable {u : State} {es : List Event}

theorem HandleRun.mem_classified (h : HandleRun s k i t u es) {e : Event} (he : isClassified e = true) :
    e ∈ es ↔ e ∈ s.expectedEvents k i t := by
  rw [← h.classified, List.mem_filter, and_iff_left he]

theorem HandleRun.mem_report (h : HandleRun s k i t u es) {ev : ErrorEvent} : .report ev ∈ es ↔ .report ev ∈ s.expectedEvents k i t :=
  h.mem_classified rfl

theorem HandleRun.mem_eccLog (h : HandleRun s k i t u es) {l : EccLogEvent} : .eccLog l ∈ es ↔ .eccLog l ∈ s.expectedEvents k i t :=
  h.mem_classified rfl

theorem HandleRun.mem_tail (h : HandleRun s k i t u es) {e : Event} (he : e ∈ s.handleTail k i t) : e ∈ es := by
  obtain ⟨fs, -, rfl⟩ := h.events
  simp [he]

end

/-! ## The statements about reports -/

/-- The word of a mask with a bit is not 0. -/
theorem ne_zero_of_getLsbD {m : Word} {b : Nat} (h : m.getLsbD b = true) : m ≠ 0#32 := by
  rintro rfl
  simp at h

/-- Settles O38: contained and enabled the entry's severity is Fatal (R222), and the owner link is the one target. -/
theorem containedBitIsFatal : Obligations.ContainedBitIsFatal := by
  intro s k i t b x hw hq ha hb hx hcontain hfull hcn
  obtain ⟨u, es, -, hexec, hrun⟩ := exec_handle_run hw hq ha (ne_zero_of_getLsbD hb)
  have hcn' : (s.containOf k i.toNat).getLsbD b = true := by rw [State.containOf, if_pos hfull]; exact hcn
  have hsev : effSev x ((s.containOf k i.toNat).getLsbD b) = .fatal := by simp [effSev, hcontain, hcn']
  refine ⟨_, es, hexec, hrun.history, ?_, fun l hl => ?_⟩
  · obtain ⟨tgt, htgt⟩ := exists_mem_targets s.cfg k i.toNat
    exact ⟨_, hrun.mem_report.mpr (report_mem_expectedEvents hw hb hx htgt), rfl, rfl, rfl, hsev⟩
  · have htgts : targets s.cfg k i.toNat = [some l] := by
      have hk : k ≠ .lmcommon ∧ k ≠ .mctrl := by constructor <;> rintro rfl <;> cases hl
      unfold targets
      split
      · exact absurd rfl hk.1
      · exact absurd rfl hk.2
      · rw [hl]
    exact (hrun.serviced.links l).mpr (.inr ⟨b, hb, x, hx, by simp [marksLink, hsev, htgts]⟩)

/-- Settles O39: the limit bit is not reportable, and an entry with the same limit tag neither; `Serviced` clears the bit and the
counter all the same. -/
theorem doubleBitErrorSuppressesTheLimit : Obligations.DoubleBitErrorSuppressesTheLimit := by
  intro s k i t b d unit x hw hq hk ha hb hx hecc hd hp
  obtain ⟨u, es, -, hexec, hrun⟩ := exec_handle_run hw hq ha (ne_zero_of_getLsbD hb)
  have hunit : unitOf x = some unit := by simp [unitOf, hecc]
  have hstatus := hrun.serviced.status
  rw [statusReg, if_neg hk] at hstatus
  refine ⟨_, es, hexec, hrun.history, fun ev hev hbit => ?_, fun l hl hlu => ?_, ?_, ?_⟩
  · obtain ⟨b', x', hx', -, ⟨tgt, -, he⟩ | he⟩ := mem_expectedEvents (hrun.mem_report.mp hev)
    · cases he
      cases hbit
      rw [reportable_suppressed hx hecc hd hp] at hx'
      cases hx'
    · unfold State.eccLogsOf at he
      split at he <;> simp [State.eccLogOf] at he
  · obtain ⟨b', x', hx', -, ⟨tgt, -, he⟩ | he⟩ := mem_expectedEvents (hrun.mem_eccLog.mp hl)
    · cases he
    · rcases mem_eccLogsOf he with ⟨hlimit, -⟩ | ⟨-, hun⟩
      · rw [hlu] at hlimit
        rw [reportable_suppressed (reportable_table hx') hlimit hd hp] at hx'
        cases hx'
      · exact hun
  · rw [hstatus, BitVec.getLsbD_and, BitVec.getLsbD_not, hb]
    simp
  · have hreg : hasReg s.cfg k (.eccCount unit) = true := by
      obtain ⟨-, hlt, hfull⟩ := configWf_unit hw hx hunit
      simp [hasReg, hfull, hlt]
    rw [hrun.serviced.counters hk unit hreg, if_pos (touches_iff.mpr ⟨b, hb, x, hx, hunit⟩)]

/-! ## A second HANDLE (R229) -/

/-- Whatever a HANDLE finds, run alone it leaves nothing to find, and no other agent's step to come. -/
theorem exec_handle_treated {s u : State} {k : Kind} {i : BitVec 12} {t : Tree} (hw : configWf s.cfg = true) (hq : Quiet s)
    (ha : handleAdmitted s.cfg k i.toNat t = true) (he : exec (handleInstr k i t) s = .next u) :
    Quiet u ∧ u.cfg = s.cfg ∧ u.maskOf k i.toNat t = 0#32 := by
  obtain ⟨w, ew, hwalone, treated⟩ := handle_treated (s := s.setLock .wlk) hw hq.alone ha
  obtain ⟨_, w', ew', -, hcalm⟩ := (calm_handle k i.toNat t).run hq.alone
  rw [ew] at ew'
  cases ew'
  rw [exec_handle_of hq ha ew] at he
  cases he
  exact ⟨⟨hwalone.1, hcalm.tail.trans hq.2.1, rfl⟩, hwalone.2, treated.mask_eq_zero⟩

/-- Settles O36: the first HANDLE leaves an empty mask, and `handleFindsNothing` says what the second then does. -/
theorem secondHandleFindsNothing : Obligations.SecondHandleFindsNothing := by
  intro s u k i t hw hq ha he
  obtain ⟨hu, hcfg, hm⟩ := exec_handle_treated hw hq ha he
  exact ⟨_, handleFindsNothing u k i t hu (by rw [hcfg]; exact ha) hm, rfl, rfl, rfl⟩

/-! ## The fan-out of a common fault (R242, R224) -/

/-- ORDER(k) names no bit twice (R7, R374). -/
theorem order_nodup {c : Config} (hw : configWf c = true) (k : Kind) : (order c k).Nodup := by
  have h := (configWf_parts hw).orders k (by cases k <;> simp [allKinds])
  simp only [orderWf, permutes, Bool.or_eq_true, Bool.and_eq_true, decide_eq_true_eq] at h
  rcases h with ⟨⟨h, -⟩, -⟩ | ⟨⟨h, -⟩, -⟩ <;> exact h

/-- Only reports carry links. -/
theorem reportLinks_filter (b : Nat) (es : List Event) : reportLinks b (es.filter isClassified) = reportLinks b es := by
  unfold reportLinks
  rw [List.filterMap_filter]
  congr 1
  funext e
  cases e <;> rfl

theorem reportLinks_flatMap (b : Nat) (f : Nat → List Event) (l : List Nat) :
    reportLinks b (l.flatMap f) = l.flatMap (fun x => reportLinks b (f x)) := List.filterMap_flatMap

/-- The links of the reports of bit `b` among the events of bit `b'`: the targets, if it is the same bit and reportable. -/
theorem reportLinks_bitEvents (s : State) (k : Kind) (i : Nat) (p cn : Word) (cap : List Word) (b b' : Nat) :
    reportLinks b (s.bitEvents k i p cn cap b')
      = if b' = b ∧ (reportable s.cfg k p b').isSome then targets s.cfg k i else [] := by
  unfold State.bitEvents
  cases hx : reportable s.cfg k p b' with
  | none => simp [reportLinks]
  | some x =>
    have hlogs : reportLinks b (s.eccLogsOf k i x) = [] := by
      unfold State.eccLogsOf
      split <;> rfl
    have happ : ∀ es fs, reportLinks b (es ++ fs) = reportLinks b es ++ reportLinks b fs := fun es fs => List.filterMap_append
    rw [happ, hlogs, List.append_nil]
    by_cases hb : b' = b <;> simp [reportLinks, List.filterMap_map, reportEvent, hb]

/-- A list without duplicates gives what one of its elements gives, where the others give nothing. -/
theorem flatMap_eq_of_nodup {l : List Nat} {f : Nat → List (Option Nat)} {b : Nat} (hl : l.Nodup) (hb : b ∈ l)
    (hf : ∀ x, x ≠ b → f x = []) : l.flatMap f = f b := by
  obtain ⟨l₁, l₂, rfl⟩ := List.append_of_mem hb
  obtain ⟨-, hcons, hdis⟩ := List.nodup_append.mp hl
  have nothing : ∀ m : List Nat, b ∉ m → m.flatMap f = [] := fun m hm =>
    List.flatMap_eq_nil_iff.mpr fun x hx => hf x (by rintro rfl; exact hm hx)
  rw [List.flatMap_append, List.flatMap_cons, nothing l₁ (fun h => hdis b h b List.mem_cons_self rfl),
    nothing l₂ (List.nodup_cons.mp hcons).1, List.nil_append, List.append_nil]

/-- The links of the reports of an unsuppressed bit of the mask are the targets, in order and once each. -/
theorem reportLinks_expectedEvents {s : State} {k : Kind} {i : Nat} {t : Tree} (hw : configWf s.cfg = true) {b : Nat} {x : Entry}
    (hb : (s.maskOf k i t).getLsbD b = true) (hx : reportable s.cfg k (s.pendingOf k i) b = some x) :
    reportLinks b (s.expectedEvents k i t) = targets s.cfg k i := by
  have htab := reportable_table hx
  have hord : b ∈ order s.cfg k := configWf_order hw (by rw [htab]; rfl) (configWf_bit hw htab)
  rw [State.expectedEvents, reportLinks_flatMap, flatMap_eq_of_nodup ((order_nodup hw k).filter _) (List.mem_filter.mpr ⟨hord, hb⟩)]
  · rw [reportLinks_bitEvents, if_pos ⟨rfl, by rw [hx]; rfl⟩]
  · intro y hy
    rw [reportLinks_bitEvents, if_neg fun h => hy h.1]

/-- Settles O40: the targets of the common part are the enabled links of the link-management part (R224). -/
theorem commonFaultFansOut : Obligations.CommonFaultFansOut := by
  intro s m t b x hw hq ha hb hx
  obtain ⟨u, es, -, hexec, hrun⟩ := exec_handle_run hw hq ha (ne_zero_of_getLsbD hb)
  have htgts : linksOfLm s.cfg m.toNat ≠ [] → targets s.cfg .lmcommon m.toNat = (linksOfLm s.cfg m.toNat).map some := fun h => by
    simp [targets, h]
  refine ⟨_, es, hexec, hrun.history, fun hne => ?_, fun hsev l hl => ?_⟩
  · rw [← reportLinks_filter, hrun.classified, reportLinks_expectedEvents hw hb hx, htgts hne]
  · have hsev : effSev x ((s.containOf .lmcommon m.toNat).getLsbD b) = .fatal := by simp [effSev, hsev]
    have hmem : some l ∈ targets s.cfg .lmcommon m.toNat := by
      rw [htgts (List.ne_nil_of_mem hl)]
      exact List.mem_map_of_mem hl
    exact (hrun.serviced.links l).mpr (.inr ⟨b, hb, x, hx, by simp [marksLink, hsev, hmem]⟩)

/-! ## No bit is dropped (R228) -/

/-- Every bit a HANDLE found is reported, or suppressed by its unit's double-bit error, or named in the Unhandled event; then the
Result is MoreProcessingRequired. -/
theorem exec_handle_drops_no_bit {s : State} {k : Kind} {i : BitVec 12} {t : Tree} {b : Nat} (hw : configWf s.cfg = true) (hq : Quiet s)
    (ha : handleAdmitted s.cfg k i.toNat t = true) (hb : (s.maskOf k i.toNat t).getLsbD b = true) :
    ∃ u es, exec (handleInstr k i t) s = .next u ∧ u.io.history = s.io.history ++ es
      ∧ ((∃ ev, .report ev ∈ es ∧ ev.kind = k ∧ ev.bit = b ∧ ev.inst = i.toNat)
        ∨ (∃ e unit d, table s.cfg k b = some e ∧ e.ecc = .eccLimit unit
            ∧ bitWithTag s.cfg k (.eccDbe unit) = some d ∧ (s.pendingOf k i.toNat).getLsbD d = true)
        ∨ (∃ bits, .unhandled k i.toNat t bits ∈ es ∧ bits.getLsbD b = true
            ∧ u.io.responses = s.io.responses ++ [[2#32]])) := by
  obtain ⟨u, es, -, hexec, hrun⟩ := exec_handle_run hw hq ha (ne_zero_of_getLsbD hb)
  refine ⟨_, es, hexec, hrun.history, ?_⟩
  cases htab : table s.cfg k b with
  | none =>
    have hun : (unrecognised s.cfg k (s.maskOf k i.toNat t)).getLsbD b = true := by rw [getLsbD_unrecognised, hb, htab]; rfl
    refine .inr (.inr ⟨_, hrun.mem_tail ?_, hun, ?_⟩)
    · simp [State.handleTail, ne_zero_of_getLsbD hun]
    · rw [hrun.responses, State.handleResult, if_neg fun h => ne_zero_of_getLsbD hun h.1]
      rfl
  | some x =>
    rcases reportable_or_suppressed (p := s.pendingOf k i.toNat) htab with hx | ⟨unit, d, hecc, hd, hp⟩
    · obtain ⟨tgt, htgt⟩ := exists_mem_targets s.cfg k i.toNat
      exact .inl ⟨_, hrun.mem_report.mpr (report_mem_expectedEvents hw hb hx htgt), rfl, rfl, rfl⟩
    · exact .inr (.inl ⟨x, unit, d, rfl, hecc, hd, hp⟩)

end Sys2Proof.Machine

/-! PROOFS. Family 42_leaf_handler: a fault condition that arrives inside a HANDLE (R380, R381). `Late` is what is known of the
status register while the arrival is to come or past; every access of the HANDLE keeps it, and the status write takes the mask
from it. -/

namespace Sys2Proof.Machine

variable {α β : Type} {I J K : State → Prop}

/-! ## From one invariant to the next -/

/-- From a state with the first property the action ends with a value, in a state with the second. -/
def Leads (I J : State → Prop) (x : Act α) : Prop := ∀ s, I s → ∃ a t, x s = .ok a t ∧ J t

theorem Leads.bind {x : Act α} {f : α → Act β} (hx : Leads I J x) (hf : ∀ a, Leads J K (f a)) : Leads I K (x >>= f) := by
  intro s hs
  obtain ⟨a, t, e, ht⟩ := hx s hs
  obtain ⟨b, u, e', hu⟩ := hf a t ht
  exact ⟨b, u, by rw [Act.bind_of_ok e, e'], hu⟩

theorem Leads.get {f : State → Act β} (hf : ∀ s, I s → Leads I J (f s)) : Leads I J ((get : Act State) >>= f) :=
  fun s hs => hf s hs s hs

/-- An action that keeps the first property may come first. -/
theorem Keeps.andThen {x : Act α} {f : α → Act β} (hx : Keeps I x) (hf : ∀ a, Leads I J (f a)) : Leads I J (x >>= f) :=
  Leads.bind (J := I) hx hf

/-- What is known of the status register `r` of a node at which `e` arrives late, `m` being the mask and `F` what the register
reads without the arrival. -/
abbrev LateAt (c : Config) (k : Kind) (i : Nat) (e : Word) (d : Draw) (r : Reg) (m F : Word) : State → Prop :=
  Late c r (.arrive k i e d) (e &&& definedMask c r) m F

/-! ## The accesses before the arrival can be seen -/

theorem rd_skips {s : State} {rest : List (List Move)} (h : s.io.sched = [] :: rest) (r : Reg) :
    rd r s = .ok (readReg s r) (s.setSched rest) := by
  have htick : tick s = .ok () (s.setSched rest) := by
    unfold tick
    rw [Act.get_bind, h]
    rfl
  unfold rd
  rw [Act.bind_of_ok htick]
  cases r <;> rfl

theorem walkerBegin_free {s : State} (htail : s.seq.wlkTail = none) (hlock : s.seq.lock = .free) :
    walkerBegin s = .ok () (s.setLock .wlk) := by
  unfold walkerBegin
  rw [Act.get_bind, htail]
  exact lock_free hlock .wlk

/-- HANDLE from what its body does under the mutex, whatever the schedule. -/
theorem exec_handle_of_free {s u : State} {k : Kind} {i : BitVec 12} {t : Tree} {r : Result3} (htail : s.seq.wlkTail = none)
    (hlock : s.seq.lock = .free) (ha : handleAdmitted s.cfg k i.toNat t = true) (h : handle k i.toNat t (s.setLock .wlk) = .ok r u) :
    exec (handleInstr k i t) s = .next (answered u r) := by
  rw [exec_handleInstr, runCommand_admitted (by rw [admitted_handleInstr]; exact ha)]
  unfold handleCommand
  rw [Act.bind_of_ok (walkerBegin_free htail hlock), Act.bind_of_ok h, Act.bind_of_ok (unlock_apply u)]
  rfl

/-! ## The parts of a HANDLE around the status write (R211, R243) -/

section
variable {c : Config} (hw : configWf c = true) {k : Kind} {i : Nat} (hn : nodeExists c k i = true) {e m F : Word} {d : Draw} {r : Reg}
  (hr : r = if k = .mctrl then .intrStatus i else .node k i .errStatus)
include hw hn hr

/-- A read of an enable register sees its value: an arrival leaves it (R160, R169). -/
theorem late_reads_enable {s : State} {n : Nat} (hs : LateAt c k i e d r m F s)
    (hsched : s.io.sched = onlyBefore n (.arrive k i e d)) {q : Reg} (hq : fits q = true) (ha : access q = .rw)
    (hcount : ∀ k i u, q ≠ .node k i (.eccCount u)) (hread : ∀ u : State, readReg u q = u.field q) :
    ∃ u, rd q s = .ok (s.field q) u ∧ LateAt c k i e d r m F u := by
  obtain ⟨u, etick, hu⟩ := (late_steady hw hn e m F d hr).tick s hs
  have hfield : u.field q = s.field q := by
    cases n with
    | zero =>
      have happ : tick s = .ok () ((s.setSched []).arrive k i e d) := by
        unfold tick
        rw [Act.get_bind, show s.io.sched = [[.arrive k i e d]] from hsched]
        rfl
      rw [etick] at happ
      cases happ
      exact (arrive_sourceStep (s := s.setSched []) (by rw [State.setSched_cfg, hs.1]; exact hw) k i e d).written q hq ha hcount
    | succ n =>
      have happ : tick s = .ok () (s.setSched (onlyBefore n (.arrive k i e d))) := by
        unfold tick
        rw [Act.get_bind, show s.io.sched = [] :: onlyBefore n (.arrive k i e d) from hsched]
        rfl
      rw [etick] at happ
      cases happ
      rfl
  refine ⟨u, ?_, hu⟩
  unfold rd
  rw [Act.bind_of_ok etick, ← hfield, ← hread]
  rfl

/-- The two reads a HANDLE begins with, the arrival being still to come after the first: the status register and the enable. -/
theorem late_first_reads {s : State} {n : Nat} (hc : s.cfg = c) (hsched : s.io.sched = onlyBefore (n + 1) (.arrive k i e d))
    (hF : s.field r = F) {q : Reg} (hq : fits q = true) (ha : access q = .rw) (hcount : ∀ k i u, q ≠ .node k i (.eccCount u))
    (hread : ∀ u : State, readReg u q = u.field q) :
    ∃ v u, rd r s = .ok F v ∧ rd q v = .ok (s.field q) u ∧ LateAt c k i e d r m F u := by
  have hlate : LateAt c k i e d r m F (s.setSched (onlyBefore n (.arrive k i e d))) :=
    ⟨hc, .inl ⟨n, rfl, hF⟩⟩
  obtain ⟨u, eu, hu⟩ := late_reads_enable hw hn hr hlate rfl hq ha hcount hread
  have hvalue : readReg s r = F := by rw [← hF, hr]; split <;> rfl
  refine ⟨_, u, ?_, eu, hu⟩
  rw [rd_skips (rest := onlyBefore n _) hsched, hvalue]

/-- The status write, the mask still to be taken from the register before it and taken after it. -/
theorem leads_status_write : Leads (LateAt c k i e d r m F)
    (LateAt c k i e d r m (F &&& ~~~m)) (wr r m) := fun _ hs => by
  obtain ⟨u, eu, hu⟩ := late_status_write hw hn hr hs
  exact ⟨(), u, eu, hu⟩

/-- Steps 2 to 8 of the template. -/
theorem templateRest_leads (hk : k ≠ .mctrl) (ht : targetsIn c (targets c k i)) (t : Tree) {p en : Word} (hm : p &&& en = m) (cn : Word)
    (wf : Bool) : Leads (LateAt c k i e d r m F)
      (LateAt c k i e d r m (F &&& ~~~m)) (templateRest k i t p en cn wf) := by
  have before := late_steady hw hn e m F d hr
  have after := late_steady hw hn e m (F &&& ~~~m) d hr
  rw [if_neg hk] at hr
  subst hr
  have hown : ∀ x, nodeFits x = true → x ≠ .errStatus → fits (.node k i x) = true ∧ Reg.node k i x ≠ .node k i .errStatus :=
    fun x hx hne => ⟨node_fits hw hn hk hx, by simpa using hne⟩
  have hscratch : ∀ s : State, s.cfg = c → ∀ l, some l ∈ targets s.cfg k i →
      fits (.scratchPort (l / 32)) = true ∧ Reg.scratchPort (l / 32) ≠ .node k i .errStatus := by
    rintro s rfl l hl
    have hword := div_lt_lmw (ht l hl)
    have hwords := (configWf_sizes hw).words.2
    exact ⟨by simp only [fits, decide_eq_true_eq]; omega, nofun⟩
  have hunits : ∀ us, ∀ x ∈ unitsAscending us, x < 4 := fun us x hx => List.mem_range.mp (List.mem_of_mem_filter hx)
  rw [templateRest_eq, hm]
  unfold templateTail
  refine Keeps.andThen (keeps_setCursor before _) fun _ => Keeps.andThen (keeps_rd before _) fun f =>
    Keeps.andThen (keeps_modify before fun _ => rfl) fun _ => Keeps.andThen (keeps_setCursor before _) fun _ =>
    Leads.get fun x hx => Keeps.andThen (.ite (.pure _) (keeps_capture before _ _ _)) fun _ =>
    Keeps.andThen (keeps_setCursor before _) fun _ =>
    Keeps.andThen (keeps_classifyBits before (fun s hs => hscratch s hs.1) ⟨rfl, nofun⟩ _) fun _ =>
    Keeps.andThen (.bind (keeps_setCursor before _) fun _ => .ite (keeps_wr before rfl (hown _ rfl (by simp)) _) (.pure _)) fun _ =>
    Keeps.andThen (keeps_setCursor before _) fun _ => Keeps.andThen (keeps_wr before rfl (hown _ rfl (by simp)) _) fun _ =>
    Leads.bind (leads_status_write hw hn (if_neg hk).symm) fun _ => ?_
  refine Keeps.andThen (keeps_setCursor after _) fun _ => Leads.get fun y _ =>
    Keeps.andThen (keeps_zeroCounters after fun u hu => hown _ (by simpa [nodeFits] using hunits _ u hu) (by simp)) fun _ =>
    Keeps.andThen (.ite (keeps_privHandshake after ⟨rfl, nofun⟩) (.pure _)) fun ok => keeps_stepEight after k i t ok

/-- The template, the arrival being still to come after its first access. -/
theorem template_late (hk : k ≠ .mctrl) (ht : targetsIn c (targets c k i)) (t : Tree) {s : State} {n : Nat} (hc : s.cfg = c)
    (hsched : s.io.sched = onlyBefore (n + 1) (.arrive k i e d)) (hm : s.maskOf k i t = m) (hF : s.field r = F) :
    ∃ a u, template k i t s = .ok a u ∧ LateAt c k i e d r m (F &&& ~~~m) u := by
  have hreg : r = .node k i .errStatus := hr.trans (if_neg hk)
  have hmask : s.field (.node k i .errStatus) &&& s.field (.node k i (.reportEn t)) = m := by
    rw [← hm]
    simp only [State.maskOf, State.pendingOf, statusReg, enableReg, if_neg hk]
  have before := late_steady hw hn e m F d hr
  obtain ⟨v, w, efirst, esecond, hlate⟩ := late_first_reads hw hn hr (m := m) (s := s.setCursor (some (.leaf k i t 1))) hc hsched hF
    (node_fits hw hn hk (r := .reportEn t) rfl) rfl nofun (fun _ => rfl)
  rw [State.setCursor_read_field] at esecond
  have hstatus : s.field (.node k i .errStatus) = F := by rw [← hreg, hF]
  rw [hstatus] at hmask
  rw [hreg] at efirst
  unfold template
  rw [Act.bind_of_ok (setCursor_apply _ s), Act.bind_of_ok efirst, Act.bind_of_ok esecond, hmask]
  split
  · rename_i h0
    refine ⟨.notFound, w, rfl, ?_⟩
    have hkeep : F &&& ~~~m = F := by rw [h0]; exact BitVec.and_allOnes
    rw [hkeep]
    exact hlate
  · have hrest : ∀ cn, Leads (LateAt c k i e d r m F) (LateAt c k i e d r m (F &&& ~~~m)) ((get : Act State) >>= fun x =>
        templateRest k i t F (s.field (.node k i (.reportEn t))) cn (suppressFlag x k i)) := fun cn =>
      Leads.get fun x _ => templateRest_leads hw hn hr hk ht t hmask cn (suppressFlag x k i)
    split
    · exact Keeps.andThen (keeps_rd before _) hrest w hlate
    · exact hrest _ w hlate

end

/-- HANDLE.MCTRL, the arrival being still to come after its first access (R243). -/
theorem mctrlTemplate_late {c : Config} (hw : configWf c = true) {l : Nat} (hn : nodeExists c .mctrl (mc c l) = true) (hl : l < c.nLink)
    {e m F : Word} {d : Draw} (t : Tree) {s : State} {n : Nat} (hc : s.cfg = c)
    (hsched : s.io.sched = onlyBefore (n + 1) (.arrive .mctrl (mc c l) e d)) (hm : s.maskOf .mctrl l t = m)
    (hF : s.field (.intrStatus (mc c l)) = F) :
    ∃ a u, mctrlTemplate l t s = .ok a u
      ∧ LateAt c .mctrl (mc c l) e d (.intrStatus (mc c l)) m (F &&& ~~~m) u := by
  have before := late_steady hw hn e m F d (r := .intrStatus (mc c l)) rfl
  have after := late_steady hw hn e m (F &&& ~~~m) d (r := .intrStatus (mc c l)) rfl
  have hmask : s.field (.intrStatus (mc c l)) &&& bit (ll c l) &&& s.field (.intrStallEn (mc c l)) = m := by
    subst hc
    exact hm
  rw [hF] at hmask
  obtain ⟨v, w, efirst, esecond, hlate⟩ := late_first_reads hw hn (r := .intrStatus (mc c l)) rfl (m := m)
    (s := s.setCursor (some (.leaf .mctrl l t 1))) hc hsched hF (fits_intr (nodeExists_lt hw hn)).2 rfl nofun (fun _ => rfl)
  rw [State.setCursor_read_field] at esecond
  have hscratch : ∀ s : State, s.cfg = c → ∀ j, some j ∈ targets s.cfg .mctrl l →
      fits (.scratchPort (j / 32)) = true ∧ Reg.scratchPort (j / 32) ≠ .intrStatus (mc c l) := by
    rintro s rfl j hj
    obtain rfl : j = l := by simpa [targets] using hj
    have hword := div_lt_lmw hl
    have hwords := (configWf_sizes hw).words.2
    exact ⟨by simp only [fits, decide_eq_true_eq]; omega, nofun⟩
  unfold mctrlTemplate
  rw [Act.bind_of_ok (setCursor_apply _ s), Act.get_bind, State.setCursor_cfg, hc, Act.bind_of_ok efirst, Act.bind_of_ok esecond]
  simp only [hmask]
  split
  · rename_i h0
    refine ⟨.notFound, w, rfl, ?_⟩
    have hkeep : F &&& ~~~m = F := by rw [h0]; exact BitVec.and_allOnes
    rw [hkeep]
    exact hlate
  · refine Leads.get (fun x _ => ?_) w hlate
    unfold mctrlRest
    refine Leads.get fun y hy => ?_
    rw [hy.1, hmask]
    have hlast : Leads _ _ (do
        setCursor (.leaf .mctrl l t 6)
        wr (.intrStatus (mc c l)) m
        stepEight .mctrl l t true) :=
      Keeps.andThen (keeps_setCursor before _) fun _ =>
        Leads.bind (leads_status_write hw hn (r := .intrStatus (mc c l)) rfl) fun _ => keeps_stepEight after _ _ _ _
    refine Keeps.andThen (keeps_modify before fun _ => rfl) fun _ => Keeps.andThen (keeps_setCursor before _) fun _ =>
      Keeps.andThen (keeps_classifyBits before (fun s hs => hscratch s hs.1) ⟨rfl, nofun⟩ _) fun _ =>
      Keeps.andThen (keeps_setCursor before _) fun _ => ?_
    split
    · exact Keeps.andThen (keeps_wr before rfl ⟨(fits_intr (nodeExists_lt hw hn)).2, nofun⟩ _) fun _ => hlast
    · exact hlast

/-- The status register is that of the node `statusNode`. -/
theorem statusReg_eq (c : Config) (k : Kind) (i : Nat) : statusReg c k i
    = if k = .mctrl then .intrStatus (statusNode c k i) else .node k (statusNode c k i) .errStatus := by
  unfold statusReg statusNode
  split <;> rfl

/-- R380, R381: a fault condition that arrives after the first access of a HANDLE. -/
theorem handle_late {c : Config} (hw : configWf c = true) {k : Kind} {i : Nat} {t : Tree} (ha : handleAdmitted c k i t = true)
    {e : Word} {d : Draw} {s : State} {n : Nat} (hc : s.cfg = c)
    (hsched : s.io.sched = onlyBefore (n + 1) (.arrive k (statusNode c k i) e d)) :
    ∃ a u, handle k i t s = .ok a u ∧ LateAt c k (statusNode c k i) e d (statusReg c k i) (s.maskOf k i t)
      (s.field (statusReg c k i) &&& ~~~s.maskOf k i t) u := by
  obtain ⟨a, u, eu, hu⟩ : ∃ a u, (if k = .mctrl then mctrlTemplate i t else template k i t : Act Result3) ((s.setLeaf {}).clearCap) = .ok a u
      ∧ LateAt c k (statusNode c k i) e d (statusReg c k i) (s.maskOf k i t) (s.field (statusReg c k i) &&& ~~~s.maskOf k i t) u := by
    by_cases hk : k = .mctrl
    · subst hk
      obtain ⟨hl, hn⟩ := handleAdmitted_mctrl ha
      exact mctrlTemplate_late hw hn hl t (s := (s.setLeaf {}).clearCap) hc hsched rfl rfl
    · have hnode : statusNode c k i = i := if_neg hk
      rw [hnode] at hsched ⊢
      rw [if_neg hk]
      exact template_late hw (handleAdmitted_node hk ha).2 (by rw [statusReg, if_neg hk, if_neg hk]) hk (handleAdmitted_targets ha) t
        (s := (s.setLeaf {}).clearCap) hc hsched rfl rfl
  refine ⟨a, ((u.setLeaf {}).clearCap).emit (.result (.handle k i t a)), ?_, hu⟩
  unfold handle
  rw [Act.modify_bind]
  have hrun := Act.bind_of_ok (f := fun r => (do
      modify fun s => ((s.setLeaf {}).clearCap).emit (.result (.handle k i t r))
      return r : Act Result3)) eu
  rw [Act.ite_bind] at hrun
  exact hrun

/-- Settles O35: by `exec_handle_drops_no_bit` and `handle_late`. -/
theorem noBitIsDropped : Obligations.NoBitIsDropped := by
  refine ⟨fun s k i t b hw hq ha hb => exec_handle_drops_no_bit hw hq ha hb, ?_⟩
  intro s k i t n e d hw hlock htail ha hn hsched
  obtain ⟨n, rfl⟩ : ∃ j, n = j + 1 := ⟨n - 1, by omega⟩
  obtain ⟨a, u, eu, -, hlate⟩ := handle_late (s := s.setLock .wlk) hw ha rfl hsched
  refine ⟨_, exec_handle_of_free htail hlock ha eu, ?_⟩
  rcases hlate with ⟨j, hj, hfield⟩ | hpast
  · refine .inl ⟨?_, hfield⟩
    change u.io.sched ≠ []
    rw [hj]
    simp [onlyBefore]
  · exact .inr hpast

end Sys2Proof.Machine

/-! PROOFS. Family 42_leaf_handler: the parts of a HANDLE up to PRIV's handshake, for any relation that the steps beside a marking
and the markings themselves respect (`Respects`); then the two such relations: the answer the ring master will give (R245), and the
record of the markings (R251). -/

namespace Sys2Proof.Machine

variable {c : Config} {R : State → State → Prop}

/-! ## What a HANDLE does, step by step -/

/-- Reading the state and going on. -/
theorem Quietly.get {β : Type} {f : State → Act β} (hf : ∀ s, s.cfg = c → Quietly c R (f s)) :
    Quietly c R ((MonadStateOf.get : Act State) >>= f) := fun s hs => hf s hs.2 s hs

/-- The relation can be chained, every step of a HANDLE beside a marking and PRIV's handshake keeps it, and so does a marking. -/
structure Respects (c : Config) (R : State → State → Prop) : Prop where
  chains : Chains R
  unseen : ∀ {s t}, t.cfg = s.cfg → t.hw = s.hw → t.fault = s.fault → t.io = s.io → R s t
  emit : ∀ s {e}, (∀ n, e ≠ .notify n) → R s (s.emit e)
  ask : ∀ s, R s (s.ask .sinkOk).2
  store : ∀ {s r} v, s.cfg = c → ¬ scratchCell c (busAddr r) → R s (s.store r v)
  link : ∀ {l}, l < c.nLink → Quietly c R (markLink l)
  device : Quietly c R markDevice

section
variable (H : Respects c R)
include H

theorem respects_pure {α : Type} (a : α) : Quietly c R (pure a : Act α) := Quietly.pure H.chains a

theorem respects_bind {α β : Type} {x : Act α} {f : α → Act β} (hx : Quietly c R x) (hf : ∀ a, Quietly c R (f a)) :
    Quietly c R (x >>= f) := Quietly.bind H.chains hx hf

theorem respects_rd (r : Reg) : Quietly c R (rd r) := Quietly.rd H.chains r

theorem respects_setCursor (q : Cursor) : Quietly c R (setCursor q) := Quietly.setCursor fun _ => H.unseen rfl rfl rfl rfl

/-- An update of the sequencer's own values. -/
theorem respects_modify {g : State → State} (hg : ∀ s, ((g s).cfg, (g s).hw, (g s).fault, (g s).io) = (s.cfg, s.hw, s.fault, s.io)) :
    Quietly c R (modify g : Act PUnit) := by
  simp only [Prod.mk.injEq] at hg
  refine Quietly.modify (fun s _ => ?_) fun s hs => ?_
  · obtain ⟨hcfg, hhw, hfault, hio⟩ := hg s
    exact H.unseen hcfg hhw hfault hio
  · obtain ⟨hcfg, -, -, hio⟩ := hg s
    exact ⟨by rw [hio]; exact hs.1, hcfg.trans hs.2⟩

/-- A write of a W1C register, or of an RW register without a side effect, that is no scratch register. -/
theorem respects_wr {r : Reg} (hcell : ¬ scratchCell c (busAddr r)) (hstuck : ∀ v, stuckQuery r v = none)
    (ha : access r = .w1c ∨ (access r = .rw ∧ ∀ t old new, State.rwEffect t r old new = t)) (v : Word) : Quietly c R (wr r v) := by
  have stored : ∀ (s : State) w, Alone c s → R s ((s.emit (.write r v)).store r w) := fun s w hs =>
    H.chains.trans (H.emit s (e := .write r v) nofun) (H.store w hs.2 hcell)
  intro s hs
  rcases ha with ha | ⟨ha, heffect⟩
  · exact ⟨(), _, wr_w1c hs.1 (hstuck v) ha, hs, stored s _ hs⟩
  · exact ⟨(), _, wr_store hs.1 (hstuck v) ha heffect, hs, stored s _ hs⟩

theorem respects_forward_eccLog (l : EccLogEvent) : Quietly c R (forward (.eccLog l)) := by
  unfold forward
  refine respects_bind H (Quietly.emit fun s => H.emit s nofun) fun _ => respects_bind H (Quietly.askEnv H.ask) fun ok => ?_
  exact Quietly.ite (respects_pure H _) (Quietly.emit fun s => H.emit s nofun)

theorem respects_setfatalCore {tgt : Option Nat} (h : ∀ l, tgt = some l → l < c.nLink) (dw : Bool) :
    Quietly c R (setfatalCore tgt dw) := by
  unfold setfatalCore
  have device : Quietly c R (if dw then markDevice else Pure.pure ()) := Quietly.ite H.device (respects_pure H _)
  cases tgt with
  | none => exact device
  | some l => exact respects_bind H (H.link (h l rfl)) fun _ => device

theorem respects_reportTo (k : Kind) (b i : Nat) (sev : Severity) (dw : Bool) (d : Diagnostic) {tgts : List (Option Nat)}
    (h : targetsIn c tgts) : Quietly c R (reportTo k b i sev dw d tgts) := by
  induction tgts with
  | nil => exact respects_pure H _
  | cons tgt rest ih =>
    have hrest := ih fun l hl => h l (List.mem_cons_of_mem _ hl)
    unfold reportTo
    refine respects_bind H (Quietly.emit fun s => H.emit s nofun) fun _ => ?_
    split
    · exact respects_bind H (respects_setfatalCore H (fun l hl => h l (by simp [hl])) _) fun _ => hrest
    · exact hrest

theorem respects_diagnostic (k : Kind) (i : Nat) (e : Entry) : Quietly c R (diagnostic k i e) := by
  unfold diagnostic
  cases e.diag with
  | none => exact respects_pure H _
  | rawBlock => exact Quietly.get fun s _ => Quietly.get fun x _ => respects_pure H _
  | addressFault => exact respects_bind H (respects_rd H _) fun _ => respects_pure H _
  | eccCounter =>
    cases e.ecc with
    | notEcc => exact respects_pure H _
    | eccLimit u => exact respects_bind H (respects_rd H _) fun _ => respects_pure H _
    | eccDbe u => exact respects_bind H (respects_rd H _) fun _ => respects_pure H _

theorem respects_logIfEcc (k : Kind) (i : Nat) (e : Entry) (d : Diagnostic) : Quietly c R (logIfEcc k i e d) := by
  have log : ∀ u un, Quietly c R (eccLog k i u un d) := fun u un => by
    unfold eccLog
    refine respects_bind H (respects_rd H _) fun _ => ?_
    split
    · exact respects_forward_eccLog H _
    · exact respects_bind H (respects_rd H _) fun _ => respects_forward_eccLog H _
  unfold logIfEcc
  cases e.ecc with
  | notEcc => exact respects_pure H _
  | eccLimit u => exact respects_bind H (log _ _) fun _ => respects_modify H fun _ => rfl
  | eccDbe u => exact respects_bind H (log _ _) fun _ => respects_modify H fun _ => rfl

theorem respects_classifyBit {k : Kind} {i : Nat} (ht : targetsIn c (targets c k i)) (b : Nat) : Quietly c R (classifyBit k i b) := by
  unfold classifyBit
  refine Quietly.get fun s hs => ?_
  rw [hs]
  cases table c k b with
  | none => exact respects_pure H _
  | some e =>
    have htouch : ∀ s : State, (touchUnitOf e s).cfg = s.cfg ∧ (touchUnitOf e s).hw = s.hw := fun s => by
      unfold touchUnitOf
      cases e.ecc <;> exact ⟨rfl, rfl⟩
    refine Quietly.ite (respects_modify H fun x => ?_) ?_
    · obtain ⟨-, hfault, hio⟩ := touchUnitOf_leaf e x
      obtain ⟨hcfg, hhw⟩ := htouch x
      simp only [State.recognise, State.setLeaf_cfg, State.setLeaf_hw, State.setLeaf_fault, State.setLeaf_io, hcfg, hhw, hfault, hio]
    · exact respects_bind H (respects_diagnostic H k i e) fun _ => respects_bind H (respects_reportTo H _ _ _ _ _ _ ht) fun _ =>
        respects_bind H (respects_logIfEcc H _ _ _ _) fun _ =>
        respects_modify H fun _ => rfl

theorem respects_classifyBits {k : Kind} {i : Nat} (ht : targetsIn c (targets c k i)) (bs : List Nat) :
    Quietly c R (classifyBits k i bs) := by
  induction bs with
  | nil => exact respects_pure H _
  | cons b bs ih =>
    unfold classifyBits
    refine Quietly.get fun s _ => ?_
    split
    · exact respects_bind H (respects_classifyBit H ht b) fun _ => ih
    · exact ih

theorem respects_capture (k : Kind) (i : Nat) (rs : List NodeReg) : Quietly c R (capture k i rs) := by
  induction rs with
  | nil => exact respects_pure H _
  | cons r rs ih =>
    unfold capture
    refine Quietly.get fun s _ => Quietly.get fun x _ => ?_
    split
    · exact respects_bind H (respects_rd H _) fun _ =>
        respects_bind H (respects_modify H (g := fun s => s.pushCap _) fun _ => rfl) fun _ => ih
    · exact ih

/-! ## Steps 2 to 7, and the whole of a HANDLE -/

theorem respects_zeroCounters (k : Kind) {i : Nat} (hi : i < 4096) {us : List Nat} (hus : ∀ u ∈ us, u < 4) :
    Quietly c R (zeroCounters k i us) := by
  induction us with
  | nil => exact respects_pure H _
  | cons u us ih =>
    have hu : nodeFits (.eccCount u) = true := by simpa [nodeFits] using hus u List.mem_cons_self
    exact respects_bind H (respects_wr H (node_not_scratch hi hu) (fun _ => rfl) (.inr ⟨rfl, fun _ _ _ => rfl⟩) _) fun _ =>
      ih fun x hx => hus x (List.mem_cons_of_mem _ hx)

end

/-- Steps 2 to 7 of the template (R211): all of it between its first reads and PRIV's handshake. -/
def templateBody (k : Kind) (i : Nat) (t : Tree) (p en cn : Word) (wf : Bool) : Act Unit :=
  setCursor (.leaf k i t 2) >>= fun _ => rd (.node k i .errFirst) >>= fun f =>
  (modify (fun s => s.setLeaf ⟨p, en, p &&& en, cn, f, p &&& en, [], wf⟩) : Act PUnit) >>= fun _ =>
  setCursor (.leaf k i t 3) >>= fun _ => (get : Act State) >>= fun x =>
  (if p &&& en &&& diagBits x.cfg k = 0#32 then pure () else capture k i (diagRegs x.cfg k) : Act Unit) >>= fun _ =>
  setCursor (.leaf k i t 4) >>= fun _ => classifyBits k i (order x.cfg k) >>= fun _ =>
  setCursor (.leaf k i t 5) >>= fun _ => (if wf then wr (.node k i (.reportEn t)) (en &&& ~~~(p &&& en)) else pure () : Act Unit) >>= fun _ =>
  setCursor (.leaf k i t 6) >>= fun _ => wr (.node k i .errFirst) (f &&& (p &&& en)) >>= fun _ => wr (.node k i .errStatus) (p &&& en) >>= fun _ =>
  setCursor (.leaf k i t 7) >>= fun _ => (get : Act State) >>= fun y => zeroCounters k i (unitsAscending y.seq.leaf.units)

/-- Step 8, with PRIV's handshake before it (R219, R245). -/
def templateEnd (k : Kind) (i : Nat) (t : Tree) : Act Result3 :=
  (if k = .priv then privHandshake else pure true : Act Bool) >>= fun ok => stepEight k i t ok

theorem templateRest_eq_body (k : Kind) (i : Nat) (t : Tree) (p en cn : Word) (wf : Bool) :
    templateRest k i t p en cn wf = templateBody k i t p en cn wf >>= fun _ => templateEnd k i t := by
  rw [templateRest_eq]
  unfold templateTail templateBody templateEnd
  simp only [Act.bind_assoc]

theorem respects_templateBody (H : Respects c R) {k : Kind} {i : Nat} (hi : i < 4096) (ht : targetsIn c (targets c k i)) (t : Tree)
    (p en cn : Word) (wf : Bool) : Quietly c R (templateBody k i t p en cn wf) := by
  have hunits : ∀ us, ∀ x ∈ unitsAscending us, x < 4 := fun us x hx => List.mem_range.mp (List.mem_of_mem_filter hx)
  have clear : ∀ r v, nodeFits r = true → (∀ v, stuckQuery (.node k i r) v = none) → access (.node k i r) = .w1c →
      Quietly c R (wr (.node k i r) v) :=
    fun r v hr hstuck ha => respects_wr H (node_not_scratch hi hr) hstuck (.inl ha) v
  have enable : ∀ v, Quietly c R (wr (.node k i (.reportEn t)) v) :=
    respects_wr H (node_not_scratch hi rfl) (fun _ => rfl) (.inr ⟨rfl, fun _ _ _ => rfl⟩)
  unfold templateBody
  refine respects_bind H (respects_setCursor H _) fun _ => respects_bind H (respects_rd H _) fun f =>
    respects_bind H (respects_modify H fun _ => rfl) fun _ => respects_bind H (respects_setCursor H _) fun _ =>
    Quietly.get fun s _ => ?_
  exact respects_bind H (Quietly.ite (respects_pure H _) (respects_capture H k i _)) fun _ =>
    respects_bind H (respects_setCursor H _) fun _ => respects_bind H (respects_classifyBits H ht _) fun _ =>
    respects_bind H (respects_setCursor H _) fun _ => respects_bind H (Quietly.ite (enable _) (respects_pure H _)) fun _ =>
    respects_bind H (respects_setCursor H _) fun _ => respects_bind H (clear _ _ rfl (fun _ => rfl) rfl) fun _ =>
    respects_bind H (clear _ _ rfl (fun _ => rfl) rfl) fun _ => respects_bind H (respects_setCursor H _) fun _ =>
    Quietly.get fun y _ => respects_zeroCounters H k hi (hunits _)

/-! ## The answer the ring master will give (R245) -/

/-- The next answer of the ring master is as it was. -/
def SameAnswer (s t : State) : Prop := (t.ask .privAck).1 = (s.ask .privAck).1

theorem respects_sameAnswer (c : Config) : Respects c SameAnswer where
  chains := ⟨fun _ => rfl, fun h k => k.trans h⟩
  unseen _ _ _ hio := State.ask_congr (by rw [hio]) _
  emit _ _ _ := State.ask_congr (by rfl) _
  ask s := State.ask_other s nofun
  store _ _ _ := State.ask_congr (by rfl) _
  link hl := Quietly.mono (fun _ _ h => h.env _ nofun) (markLink_quietly hl)
  device := Quietly.mono (fun _ _ h => h.env _ nofun) (markDevice_quietly c)

/-- What the handshake leaves (R167, R245): RING_STATUS as the ring master answered, the request open where it did not. -/
def RingAnswered (ok : Bool) (s : State) : Prop :=
  s.field .ringStatus = (if ok then 1#32 else 0#32) ∧ s.hw.ringPending = !ok

theorem privHandshake_ring {s : State} (hs : Alone c s) :
    ∃ t, privHandshake s = .ok (s.ask .privAck).1 t ∧ Alone c t ∧ RingAnswered (s.ask .privAck).1 t := by
  obtain ⟨u, hwr, hu, hzero, -, hhw, -, -, hio⟩ := wr_ringCmd hs
  have hpending : u.hw.ringPending = true := by rw [hhw]
  have hread : (readReg u .ringStatus).getLsbD 0 = false := by
    rw [show readReg u .ringStatus = u.field .ringStatus from rfl, hzero]
    rfl
  have hask : (u.ask .privAck).1 = (s.ask .privAck).1 := State.ask_congr (by rw [hio]) _
  unfold privHandshake poll
  rw [Act.bind_of_ok hwr, Act.bind_apply, Act.bind_of_ok (rd_quiet hu.1 _)]
  simp only [hread, Bool.false_eq_true, if_false]
  rw [Act.bind_of_ok (askEnv_apply _ _), hask]
  cases (s.ask .privAck).1
  · exact ⟨_, rfl, Alone.ask hu _, by rw [State.emit_read_field, State.ask_read_field]; exact hzero,
      by rw [State.emit_hw, State.ask_hw, hpending]; rfl⟩
  · have hack : ((u.ask .privAck).2).ackRing = ((u.ask .privAck).2.store .ringStatus 1#32).setRingPending false :=
      ackRing_pending (by rw [State.ask_hw, hpending])
    refine ⟨((u.ask .privAck).2).ackRing, rfl, ?_, ?_, ?_⟩
    · rw [hack]
      exact Alone.ask hu _
    · rw [hack, State.setRingPending_read_field, State.store_field_same]
      simp [definedMask]
    · rw [hack]
      rfl

/-- Steps 2 to 8 of PRIV end with RING_STATUS as the ring master answered. -/
theorem templateRest_ring {i : Nat} (t : Tree) (p en cn : Word) (wf : Bool) {s : State} (hs : Alone c s) (hi : i < 4096)
    (ht : targetsIn c (targets c .priv i)) :
    ∃ a u, templateRest .priv i t p en cn wf s = .ok a u ∧ RingAnswered (s.ask .privAck).1 u := by
  obtain ⟨_, v, ev, hv, hsame⟩ := respects_templateBody (respects_sameAnswer c) hi ht t p en cn wf s hs
  obtain ⟨w, ew, hwalone, hring⟩ := privHandshake_ring hv
  obtain ⟨u, eu, hu, hhw, -⟩ := stepEight_spec .priv i t (v.ask .privAck).1 hwalone
  have hfield : u.field .ringStatus = w.field .ringStatus := by unfold State.field State.load; rw [hhw, hu.2, hwalone.2]
  rw [templateRest_eq_body, Act.bind_of_ok ev, templateEnd, if_pos rfl, Act.bind_of_ok ew, ← show _ = (s.ask .privAck).1 from hsame]
  exact ⟨_, u, eu, hfield.trans hring.1, by rw [hhw]; exact hring.2⟩

/-- The template of PRIV finds nothing, or ends so. -/
theorem template_ring {i : Nat} {t : Tree} {s : State} (hs : Alone c s) (hi : i < 4096) (ht : targetsIn c (targets c .priv i)) :
    ∃ a u, template .priv i t s = .ok a u ∧ (a = .notFound ∨ RingAnswered (s.ask .privAck).1 u) := by
  have hs1 : Alone c (s.setCursor (some (.leaf .priv i t 1))) := hs
  have hask : ((s.setCursor (some (.leaf .priv i t 1))).ask .privAck).1 = (s.ask .privAck).1 := State.ask_congr (by rfl) _
  unfold template
  rw [Act.bind_of_ok (setCursor_apply _ s), Act.bind_of_ok (rd_quiet hs1.1 _), Act.bind_of_ok (rd_quiet hs1.1 _)]
  split
  · exact ⟨.notFound, _, rfl, .inl rfl⟩
  · rw [if_neg (by decide), Act.pure_bind]
    obtain ⟨a, u, eu, hu⟩ := templateRest_ring t _ _ 0#32 _ hs1 hi ht
    exact ⟨a, u, eu, .inr (hask ▸ hu)⟩

/-- HANDLE.PRIV likewise. -/
theorem handle_ring {i : Nat} {t : Tree} {s : State} (hs : Alone c s) (hi : i < 4096) (ht : targetsIn c (targets c .priv i)) :
    ∃ a u, handle .priv i t s = .ok a u ∧ (a = .notFound ∨ RingAnswered (s.ask .privAck).1 u) := by
  obtain ⟨a, u, eu, hu⟩ := template_ring (s := (s.setLeaf {}).clearCap) (t := t) hs hi ht
  have hask : (((s.setLeaf {}).clearCap).ask .privAck).1 = (s.ask .privAck).1 := State.ask_congr (by rfl) _
  rw [hask] at hu
  refine ⟨a, ((u.setLeaf {}).clearCap).emit (.result (.handle .priv i t a)), ?_, hu⟩
  unfold handle
  rw [Act.modify_bind, if_neg (by decide), Act.bind_of_ok eu]
  rfl

/-- Settles O41: the tail names the request and the timeout, `handle_ring` what RING_STATUS then reads. -/
theorem privRingHandshake : Obligations.PrivRingHandshake := by
  intro s t hw hq ha hm
  obtain ⟨u, es, eu, hexec, hrun⟩ := exec_handle_run (k := .priv) (i := 0#12) hw hq ha hm
  obtain ⟨a, u', eu', hring⟩ := handle_ring (t := t) hq.alone (show 0 < 4096 by decide) (handleAdmitted_targets ha)
  rw [show (0#12).toNat = 0 from rfl] at eu
  rw [eu] at eu'
  cases eu'
  have hask : ((s.setLock .wlk).ask .privAck).1 = (s.ask .privAck).1 := State.ask_congr (by rfl) _
  have hok : s.handshakeOk .priv = (s.ask .privAck).1 := rfl
  have hfound : s.handleResult .priv 0 t ≠ .notFound := by unfold State.handleResult; split <;> nofun
  obtain ⟨hstatus, hpending⟩ := hask ▸ hring.resolve_left hfound
  refine ⟨_, es, hexec, hrun.history, hrun.mem_tail ?_, ⟨fun hlog => ?_, fun hno => hrun.mem_tail ?_⟩, fun hyes => ?_, fun hno => ?_⟩
  · simp [State.handleTail]
  · obtain ⟨fs, hmark, rfl⟩ := hrun.events
    simp only [List.mem_append, List.mem_singleton] at hlog
    rcases hlog with (hlog | hlog) | hlog
    · exact (hmark _ hlog).elim
    · rcases mem_handleTail hlog with ⟨_, _, h⟩ | ⟨-, -, h⟩ | h
      · cases h
      · rwa [hok] at h
      · cases h
    · cases hlog
  · simp [State.handleTail, hok, hno]
  · rw [hyes] at hstatus hpending
    exact ⟨hstatus, hpending⟩
  · rw [hno] at hstatus hpending
    refine ⟨hstatus, hpending, ?_⟩
    rw [hrun.responses, State.handleResult, if_neg fun h => by rw [hok, hno] at h; cases h.2]
    rfl

end Sys2Proof.Machine

/-! PROOFS. Family 42_leaf_handler: the record a HANDLE makes of its markings (R251, R41), and with it the whole effect of a HANDLE
that finds something (R211 to R227, R243, R245). -/

namespace Sys2Proof.Machine

variable {c : Config}

/-! ## Flags that rise -/

/-- A flag that only rises rises once. -/
theorem rises_trans {a b d : Bool} (hab : a = true → b = true) (hbd : b = true → d = true) :
    ((a = false ∧ b = true) ∨ (b = false ∧ d = true)) ↔ (a = false ∧ d = true) := by
  revert a b d
  decide

theorem rises_count {a b d : Bool} (hab : a = true → b = true) (hbd : b = true → d = true) :
    (if a = false ∧ b = true then 1 else 0) + (if b = false ∧ d = true then 1 else 0) = if a = false ∧ d = true then 1 else 0 := by
  revert a b d
  decide

/-- Between the two states every marking was recorded and announced, and no mark was taken back (R251). -/
structure Recorded (s u : State) : Prop where
  cfg : u.cfg = s.cfg
  fatal : ∀ l, s.fatalOccurred l = true → u.fatalOccurred l = true
  reset : s.fault.resetRequired = true → u.fault.resetRequired = true
  markings : MarkingsRecorded s u

/-- Where nothing is marked, no scratch register changes and nothing is announced. -/
theorem Recorded.unmarked {s u : State} (hcfg : u.cfg = s.cfg) (hfault : u.fault = s.fault)
    (hcells : ∀ a, scratchCell s.cfg a → u.cellAt a = s.cellAt a)
    (hcount : ∀ n, u.occurrences (.notify n) = s.occurrences (.notify n)) : Recorded s u := by
  have hlink : ∀ l, u.fatalOccurred l = s.fatalOccurred l := fun l => by unfold State.fatalOccurred; rw [hfault]
  refine ⟨hcfg, fun l h => (hlink l).trans h, fun h => by rw [hfault]; exact h, fun w b hw hb => ?_, ?_, fun l => ?_, ?_⟩
  · rw [State.field_congr hcfg (hcells _ (.inr ⟨w, hw, rfl⟩)), hlink]
    simp
  · rw [State.field_congr hcfg (hcells _ (.inl rfl)), hfault]
    simp
  · rw [hcount, hlink]
    simp
  · rw [hcount, hfault]
    simp

/-- Events that announce nothing. -/
theorem Recorded.append {s u : State} {es : List Event} (hcfg : u.cfg = s.cfg) (hfault : u.fault = s.fault)
    (hcells : ∀ a, scratchCell s.cfg a → u.cellAt a = s.cellAt a) (hhist : u.io.history = s.io.history ++ es)
    (hes : ∀ n, .notify n ∉ es) : Recorded s u :=
  Recorded.unmarked hcfg hfault hcells fun n => by
    unfold State.occurrences
    rw [hhist, List.count_append, List.count_eq_zero.mpr (hes n), Nat.add_zero]

theorem Recorded.chains : Chains Recorded where
  refl _ := Recorded.unmarked rfl rfl (fun _ _ => rfl) (fun _ => rfl)
  trans {s t u} h k := by
    refine ⟨k.cfg.trans h.cfg, fun l x => k.fatal l (h.fatal l x), fun x => k.reset (h.reset x), fun w b hw hb => ?_, ?_, fun l => ?_, ?_⟩
    · rw [k.markings.ports w b (by rw [h.cfg]; exact hw) hb, h.markings.ports w b hw hb, or_assoc, rises_trans (h.fatal _) (k.fatal _)]
    · rw [k.markings.device, h.markings.device]
      simp only [← rises_trans h.reset k.reset]
      by_cases hlate : t.fault.resetRequired = false ∧ u.fault.resetRequired = true <;> simp [hlate]
    · rw [k.markings.portNotices, h.markings.portNotices, Nat.add_assoc, rises_count (h.fatal _) (k.fatal _)]
    · rw [k.markings.deviceNotices, h.markings.deviceNotices, Nat.add_assoc, rises_count h.reset k.reset]

/-! ## One marking (R251) -/

/-- The notification of a marking stands in H once, whatever becomes of it (R217). -/
theorem forward_notify (n : Notice) (s : State) : ∃ u, forward (.notify n) s = .ok () u ∧ u.cfg = s.cfg ∧ u.hw = s.hw ∧ u.fault = s.fault
    ∧ u.io.sched = s.io.sched
    ∧ ∀ m, u.occurrences (.notify m) = s.occurrences (.notify m) + (if m = n then 1 else 0) := by
  have hcount : ∀ (u : State) (es : List Event) (m : Notice), u.io.history = s.io.history ++ .notify n :: es → .notify m ∉ es →
      u.occurrences (.notify m) = s.occurrences (.notify m) + (if m = n then 1 else 0) := fun u es m hh hes => by
    unfold State.occurrences
    rw [hh, List.count_append, List.count_cons, List.count_eq_zero.mpr hes]
    by_cases h : m = n
    · simp [h]
    · simp [h, Ne.symm h]
  unfold forward
  simp only []
  rw [Act.bind_of_ok (emit_apply _ s), Act.bind_of_ok (askEnv_apply _ _)]
  split
  · exact ⟨_, rfl, by simp, by simp, by simp, by simp, fun m => hcount _ [] m (by simp) (by simp)⟩
  · exact ⟨_, rfl, by simp, by simp, by simp, by simp, fun m => hcount _ [.sinkFailure (.notify n)] m (by simp) (by simp)⟩

/-- The second half of a marking: the scratch register written, the notification made. -/
theorem announce_run {s : State} (hs : s.io.sched = []) {r : Reg} (hr : r = .scratchDevice ∨ ∃ w, r = .scratchPort w) (v : Word) (n : Notice) :
    ∃ u, (wr r v >>= fun _ => forward (.notify n)) s = .ok () u ∧ Alone s.cfg u ∧ u.fault = s.fault
      ∧ (∀ q, u.field q = (s.store r (v &&& definedMask s.cfg r)).field q)
      ∧ ∀ m, u.occurrences (.notify m) = s.occurrences (.notify m) + (if m = n then 1 else 0) := by
  have hwr : wr r v s = .ok () ((s.emit (.write r v)).store r (v &&& definedMask s.cfg r)) := by
    rcases hr with rfl | ⟨w, rfl⟩ <;> exact wr_store hs rfl rfl fun _ _ _ => rfl
  obtain ⟨u, eu, hcfg, hhw, hfault, hsched, hcount⟩ := forward_notify n ((s.emit (.write r v)).store r (v &&& definedMask s.cfg r))
  refine ⟨u, (Act.bind_of_ok hwr).trans eu, ⟨hsched.trans hs, hcfg⟩, hfault, fun q => ?_, fun m => ?_⟩
  · unfold State.field State.load
    rw [hhw, hcfg]
    rfl
  · rw [hcount m]
    simp [State.occurrences]

/-- The words of SCRATCH_PORT fit the map (R125). -/
theorem scratchPort_fits (hw : configWf c = true) {w : Nat} (h : w < lmw c) : fits (.scratchPort w) = true := by
  have hwords := (configWf_sizes hw).words.2
  simp only [fits, decide_eq_true_eq]
  omega

theorem markLink_recorded (hw : configWf c = true) {l : Nat} (hl : l < c.nLink) : Quietly c Recorded (markLink l) := by
  unfold markLink
  refine Quietly.get_bind fun s hs => ?_
  obtain ⟨hsched, rfl⟩ := hs
  by_cases hmarked : s.fatalOccurred l = true
  · rw [if_pos hmarked]
    exact ⟨(), s, rfl, ⟨hsched, rfl⟩, Recorded.chains.refl s⟩
  · rw [if_neg hmarked, Act.modify_bind, Act.bind_of_ok (rd_quiet (by exact hsched) _)]
    obtain ⟨v, hv⟩ : ∃ v, v = s.field (.scratchPort (l / 32)) ||| bit (l % 32) := ⟨_, rfl⟩
    rw [show readReg (s.setFatalOccurred l true) (.scratchPort (l / 32)) = s.field (.scratchPort (l / 32)) from rfl, ← hv]
    obtain ⟨u, eu, hu, hfault, hfield, hcount⟩ :=
      announce_run (s := s.setFatalOccurred l true) hsched (.inr ⟨l / 32, rfl⟩) v (.portDown l)
    have hfield : ∀ q, u.field q = (s.store (.scratchPort (l / 32)) (v &&& definedMask s.cfg (.scratchPort (l / 32)))).field q := hfield
    have hcount : ∀ n, u.occurrences (.notify n) = s.occurrences (.notify n) + (if n = .portDown l then 1 else 0) := hcount
    have hflag : ∀ j, u.fatalOccurred j = if j = l then true else s.fatalOccurred j := fun j => by
      rw [← State.setFatalOccurred_read s l j true]
      unfold State.fatalOccurred
      rw [hfault]
    have hdev : u.fault.resetRequired = s.fault.resetRequired := by rw [hfault]; rfl
    refine ⟨(), u, eu, hu, hu.2, fun j h => ?_, fun h => hdev.trans h, fun w b hlt hb => ?_, ?_, fun j => ?_, ?_⟩
    · rw [hflag, h, ite_self]
    · rw [hfield, State.store_field s _ (scratchPort_fits hw (div_lt_lmw hl)) (scratchPort_fits hw hlt), hflag]
      by_cases hword : w = l / 32
      · subst hword
        rw [if_pos rfl, definedMask, BitVec.and_allOnes, BitVec.and_allOnes, hv, BitVec.getLsbD_or, getLsbD_bit]
        by_cases hbit : b = l % 32
        · have hlink : 32 * (l / 32) + b = l := by omega
          rw [hlink, if_pos rfl]
          simp [hbit, hmarked, Nat.mod_lt]
        · have hlink : 32 * (l / 32) + b ≠ l := by omega
          simp [hbit, hlink]
      · have hlink : 32 * w + b ≠ l := by omega
        rw [if_neg (by simpa using hword), if_neg hlink]
        simp
    · rw [hfield, State.store_field s _ (scratchPort_fits hw (div_lt_lmw hl)) rfl, if_neg (by simp), hdev]
      simp
    · rw [hcount, hflag]
      by_cases hj : j = l
      · simp [hj, hmarked]
      · simp [hj]
    · rw [hcount, hdev]
      simp

theorem markDevice_recorded (hw : configWf c = true) : Quietly c Recorded markDevice := by
  unfold markDevice
  refine Quietly.get_bind fun s hs => ?_
  obtain ⟨hsched, rfl⟩ := hs
  by_cases hmarked : s.fault.resetRequired = true
  · rw [if_pos hmarked]
    exact ⟨(), s, rfl, ⟨hsched, rfl⟩, Recorded.chains.refl s⟩
  · rw [if_neg hmarked, Act.modify_bind]
    obtain ⟨u, eu, hu, hfault, hfield, hcount⟩ :=
      announce_run (s := s.setResetRequired true) hsched (.inl rfl) 1#32 .deviceDown
    have hfield : ∀ q, u.field q = (s.store .scratchDevice (1#32 &&& definedMask s.cfg .scratchDevice)).field q := hfield
    have hcount : ∀ n, u.occurrences (.notify n) = s.occurrences (.notify n) + (if n = .deviceDown then 1 else 0) := hcount
    have hlink : ∀ j, u.fatalOccurred j = s.fatalOccurred j := fun j => by
      unfold State.fatalOccurred
      rw [hfault]
      rfl
    have hdev : u.fault.resetRequired = true := by rw [hfault]; rfl
    refine ⟨(), u, eu, hu, hu.2, fun j h => (hlink j).trans h, fun _ => hdev, fun w b hlt hb => ?_, ?_, fun j => ?_, ?_⟩
    · rw [hfield, State.store_field s (r := .scratchDevice) _ rfl (scratchPort_fits hw hlt), if_neg (by simp), hlink]
      simp
    · rw [hfield, State.store_field_same, hdev]
      simp [definedMask, hmarked]
    · rw [hcount, hlink]
      simp
    · rw [hcount, hdev]
      simp [hmarked]

/-! ## The whole of a HANDLE -/

/-- The steps beside a marking record nothing and the markings record themselves. -/
theorem respects_recorded (hw : configWf c = true) : Respects c Recorded where
  chains := Recorded.chains
  unseen hcfg hhw hfault hio := Recorded.append (es := []) hcfg hfault (fun a _ => by unfold State.cellAt; rw [hhw, hcfg])
    (by rw [hio, List.append_nil]) (fun _ => List.not_mem_nil)
  emit s e he := Recorded.append (es := [e]) rfl rfl (fun _ _ => rfl) rfl fun n h => he n (List.mem_singleton.mp h).symm
  ask s := Recorded.append (es := []) (State.ask_cfg _ _) (State.ask_fault _ _) (fun _ _ => State.ask_read_cellAt _ _ _)
    (by rw [State.ask_io_history, List.append_nil]) (fun _ => List.not_mem_nil)
  store {s r} v hc hr := Recorded.append (es := []) rfl rfl
    (fun a ha => by rw [State.store_cellAt, if_neg (by rintro rfl; exact hr (hc ▸ ha))]) (List.append_nil _).symm (fun _ => List.not_mem_nil)
  link hl := markLink_recorded hw hl
  device := markDevice_recorded hw

theorem ringStatus_not_scratch : ¬ scratchCell c (busAddr .ringStatus) := by
  rintro (h | ⟨w, -, h⟩) <;> simp only [busAddr, packAddr] at h <;> omega

theorem privHandshake_recorded : Quietly c Recorded privHandshake := by
  intro s hs
  obtain ⟨ok, u, eu, hu, hcells, -, hfault, -, -, -, -, hhist, -⟩ := privHandshake_spec hs
  refine ⟨ok, u, eu, hu, Recorded.append (hu.2.trans hs.2.symm) hfault (fun a ha => hcells a ?_) hhist fun n => ?_⟩
  · rintro rfl
    exact ringStatus_not_scratch ha
  · cases ok <;> simp

theorem stepEight_recorded (k : Kind) (i : Nat) (t : Tree) (ok : Bool) : Quietly c Recorded (stepEight k i t ok) := by
  intro s hs
  obtain ⟨u, eu, hu, hhw, hfault, -, hio⟩ := stepEight_spec k i t ok hs
  have hcfg := hu.2.trans hs.2.symm
  refine ⟨_, u, eu, hu, Recorded.append hcfg hfault (fun a _ => ?_) (congrArg Outside.history hio) fun n => ?_⟩
  · unfold State.cellAt
    rw [hhw, hcfg]
  · split <;> simp

section
variable (hw : configWf c = true) {k : Kind} {i : Nat} (ht : targetsIn c (targets c k i))
include hw ht

theorem template_recorded (hi : i < 4096) (t : Tree) : Quietly c Recorded (template k i t) := by
  have H := respects_recorded hw
  have rest : ∀ p en cn wf, Quietly c Recorded (templateRest k i t p en cn wf) := fun p en cn wf => by
    rw [templateRest_eq_body]
    exact respects_bind H (respects_templateBody H hi ht t p en cn wf) fun _ =>
      respects_bind H (Quietly.ite privHandshake_recorded (respects_pure H _)) fun ok => stepEight_recorded k i t ok
  unfold template
  refine respects_bind H (respects_setCursor H _) fun _ => respects_bind H (respects_rd H _) fun p =>
    respects_bind H (respects_rd H _) fun en => Quietly.ite (respects_pure H _) ?_
  split
  · exact respects_bind H (respects_rd H _) fun cn => Quietly.get fun s _ => rest _ _ _ _
  · exact respects_bind H (respects_pure H _) fun cn => Quietly.get fun s _ => rest _ _ _ _

end

theorem mctrlTemplate_recorded (hw : configWf c = true) {l : Nat} (ht : targetsIn c (targets c .mctrl l)) (hi : mc c l < 4096) (t : Tree) :
    Quietly c Recorded (mctrlTemplate l t) := by
  have H := respects_recorded hw
  obtain ⟨hstatus, henable⟩ := intr_not_scratch (c := c) hi
  have last : ∀ m, Quietly c Recorded (do
      setCursor (.leaf .mctrl l t 6)
      wr (.intrStatus (mc c l)) m
      stepEight .mctrl l t true) := fun m =>
    respects_bind H (respects_setCursor H _) fun _ => respects_bind H (respects_wr H hstatus (fun _ => rfl) (.inl rfl) _) fun _ =>
      stepEight_recorded _ _ _ _
  have rest : ∀ p en wf, Quietly c Recorded (mctrlRest l t p en wf) := fun p en wf => by
    unfold mctrlRest
    refine Quietly.get fun s hs => ?_
    rw [hs]
    refine respects_bind H (respects_modify H fun _ => rfl) fun _ => respects_bind H (respects_setCursor H _) fun _ =>
      respects_bind H (respects_classifyBits H ht _) fun _ => respects_bind H (respects_setCursor H _) fun _ => ?_
    split
    · exact respects_bind H (respects_wr H henable (fun _ => rfl) (.inr ⟨rfl, fun _ _ _ => rfl⟩) _) fun _ => last _
    · exact last _
  unfold mctrlTemplate
  refine respects_bind H (respects_setCursor H _) fun _ => Quietly.get fun s _ => ?_
  exact respects_bind H (respects_rd H _) fun p => respects_bind H (respects_rd H _) fun en => Quietly.ite (respects_pure H _)
    (Quietly.get fun x _ => rest _ _ _)

/-- A HANDLE records and announces the markings it makes. -/
theorem handle_recorded (hw : configWf c = true) {k : Kind} {i : Nat} {t : Tree} (ha : handleAdmitted c k i t = true) :
    Quietly c Recorded (handle k i t) := by
  have H := respects_recorded hw
  have ht := handleAdmitted_targets ha
  have last : ∀ r, Quietly c Recorded (do
      modify (fun s => ((s.setLeaf {}).clearCap).emit (.result (.handle k i t r)))
      return r : Act Result3) := fun r =>
    respects_bind H (Quietly.modify (g := fun s => ((s.setLeaf {}).clearCap).emit (.result (.handle k i t r)))
      (fun s _ => H.chains.trans (t := (s.setLeaf {}).clearCap) (H.unseen rfl rfl rfl rfl)
        (H.emit ((s.setLeaf {}).clearCap) (e := .result (.handle k i t r)) nofun)) fun _ h => h) fun _ => respects_pure H _
  unfold handle
  refine respects_bind H (respects_modify H (g := fun s => (s.setLeaf {}).clearCap) fun _ => rfl) fun _ => ?_
  by_cases hk : k = .mctrl
  · subst hk
    exact respects_bind H (mctrlTemplate_recorded hw ht (nodeExists_lt hw (handleAdmitted_mctrl ha).2) t) last
  · rw [if_neg hk]
    exact respects_bind H (template_recorded hw ht (nodeExists_lt hw (handleAdmitted_node hk ha).2) t) last

/-- Settles O32: `exec_handle_run` gives the hardware, the flags and the answer, `handle_recorded` the record of the markings. -/
theorem handleServicesTheMask : Obligations.HandleServicesTheMask := by
  intro s k i t hw hq ha hm
  obtain ⟨u, es, eu, hexec, hrun⟩ := exec_handle_run hw hq ha hm
  obtain ⟨_, u', eu', -, hrec⟩ := handle_recorded hw ha _ hq.alone
  rw [eu] at eu'
  cases eu'
  obtain ⟨hports, hdevice, hportNotices, hdeviceNotices⟩ := hrec.markings
  exact ⟨_, hexec, hrun.serviced, ⟨hports, hdevice, hportNotices, hdeviceNotices⟩, hrun.responses, hrun.seq, hrun.inbox, hrun.readData⟩

end Sys2Proof.Machine

/-! PROOFS. Family 43_fault_state: the queries QLINK and QDEV (R256, R257), and the flags a soft reset reloads from the scratch
registers (R258, R371). -/

namespace Sys2Proof.Machine

/-! ## Queries (R256, R257) -/

/-- A query that runs alone: what follows `walkerBegin` sees the state with the mutex taken. -/
theorem exec_query {i : Instr} {f : State → Act Unit} {s u : State} (hp : commandProgram i = some (walkerBegin >>= fun _ => get >>= f))
    (hq : Quiet s) (ha : admitted s.cfg i = true) (hf : f (s.setLock .wlk) (s.setLock .wlk) = .ok () u) : exec i s = .next u := by
  rw [exec_commandProgram hp, runCommand_admitted ha, Act.bind_of_ok (walkerBegin_quiet hq), Act.get_bind, hf]
  rfl

/-- The end of a query: the mutex is free as before, the cursor gone, and there is the answer. -/
theorem query_answered {s : State} (hq : Quiet s) (e : ResultEvent) (ws : List Word) :
    (unlock >>= fun _ => finishCommand e ws) (s.setLock .wlk) = .ok () { s with
      seq := { s.seq with cursor := none }
      io := { s.io with history := s.io.history ++ [.result e], responses := s.io.responses ++ [ws] } } := by
  obtain ⟨-, -, hlock⟩ := hq
  rw [Act.bind_of_ok (unlock_apply _), ← hlock]
  rfl

/-- Settles O43: an admitted QLINK is a query, any other is refused (R139). -/
theorem qlinkAnswersTheFlag : Obligations.QlinkAnswersTheFlag := by
  intro s l hq
  refine ⟨fun hl => exec_query (i := .qlink l) rfl hq (decide_eq_true hl) (query_answered hq _ _), fun hl => ?_⟩
  exact runCommand_refused (i := .qlink l) (decide_eq_false (Nat.not_lt.mpr hl)) _

/-- Settles O44: QDEV has no operand, so that it is never refused. -/
theorem qdevAnswersTheFlag : Obligations.QdevAnswersTheFlag :=
  fun _ hq => exec_query (i := .qdev) rfl hq rfl (query_answered hq _ _)

/-! ## The flags after a soft reset (R371) -/

/-- A soft reset reloads the flag of each link from its bit of SCRATCH_PORT (R41). -/
theorem State.softReset_fatalOccurred (s : State) {l : Nat} (hl : l < s.cfg.nLink) :
    s.softReset.fatalOccurred l = (s.field (.scratchPort (l / 32))).getLsbD (l % 32) :=
  (Memory.get_ofList_map (fun _ => false) s.portResetRequired (List.range s.cfg.nLink) l).trans (if_pos (List.mem_range.mpr hl))

theorem State.softReset_resetRequired (s : State) : s.softReset.fault.resetRequired = (s.field .scratchDevice).getLsbD 0 := rfl

/-- A bus write to a scratch register stores its defined bits, and leaves the configuration and every flag (R40, R41, R258). -/
theorem exec_wr32_scratch {s : State} {a : Word} {r : Reg} (hm : mappedReg s.cfg a = some r)
    (hr : r = .scratchDevice ∨ ∃ w, r = .scratchPort w) (v : Word) :
    ∃ t, exec (.wr32 a v) s = .next t ∧ t.cfg = s.cfg ∧ t.fault = s.fault
      ∧ t.field r = fromBus s.cfg r v &&& definedMask s.cfg r := by
  have hexec : exec (.wr32 a v) s = .next ((s.emit (.write r (fromBus s.cfg r v))).store r (fromBus s.cfg r v &&& definedMask s.cfg r)) := by
    rcases hr with rfl | ⟨w, rfl⟩ <;> exact exec_wr32_plain hm nofun v
  refine ⟨_, hexec, rfl, rfl, ?_⟩
  rw [State.store_field_same, BitVec.and_assoc]
  exact congrArg _ BitVec.and_self

/-- Settles O45: the write reaches no flag, and the soft reset reads the register that was written. -/
theorem flagsReloadOnlyAtSoftReset : Obligations.FlagsReloadOnlyAtSoftReset := by
  refine ⟨fun s a v w _ hm => ?_, fun s a v hm => ?_⟩
  · obtain ⟨t, hexec, hcfg, hfault, hfield⟩ := exec_wr32_scratch hm (.inr ⟨w, rfl⟩) v
    refine ⟨t, hexec, fun l => by unfold State.fatalOccurred; rw [hfault], by rw [hfault], fun l hl hw => ?_⟩
    rw [t.softReset_fatalOccurred (by rw [hcfg]; exact hl), hw, hfield, definedMask, BitVec.and_allOnes]
  · obtain ⟨t, hexec, -, hfault, hfield⟩ := exec_wr32_scratch hm (.inl rfl) v
    refine ⟨t, hexec, fun l => by unfold State.fatalOccurred; rw [hfault], by rw [hfault], ?_⟩
    rw [t.softReset_resetRequired, hfield, definedMask, BitVec.getLsbD_and]
    simp

end Sys2Proof.Machine

/-! PROOFS. Family 43_fault_state: SETFATAL (R251, R252). `Announced` says of a marking which registers it wrote and which events,
failures of the sink apart, it put into H. -/

namespace Sys2Proof.Machine

variable {c : Config} {s t u : State}

/-! ## What a marking announces (R217, R251) -/

/-- Of the registers at most those of `rs` changed, and H gained `es`, failures of the sink apart. -/
structure Announced (rs : List Reg) (es : List Event) (s u : State) : Prop where
  cells : SameCellsBut rs s u
  events : ∃ fs, u.io.history = s.io.history ++ fs ∧ fs.filter (fun e => !isSinkFailure e) = es

theorem Announced.refl (s : State) : Announced [] [] s s := ⟨fun _ _ => rfl, [], (List.append_nil _).symm, rfl⟩

theorem Announced.trans {rs rs' : List Reg} {es es' : List Event} (h : Announced rs es s t) (k : Announced rs' es' t u) :
    Announced (rs' ++ rs) (es ++ es') s u := by
  obtain ⟨fs, hhist, hfilter⟩ := h.events
  obtain ⟨fs', hhist', hfilter'⟩ := k.events
  refine ⟨fun a ha => ?_, fs ++ fs', by rw [hhist', hhist, List.append_assoc], by rw [List.filter_append, hfilter, hfilter']⟩
  rw [List.map_append, List.mem_append, not_or] at ha
  exact (k.cells a ha.1).trans (h.cells a ha.2)

/-- A notification, and perhaps the failure of its forward. -/
theorem forward_announced (n : Notice) (s : State) : ∃ u, forward (.notify n) s = .ok () u ∧ u.cfg = s.cfg
    ∧ Announced [] [.notify n] s u := by
  unfold forward
  simp only []
  rw [Act.bind_of_ok (emit_apply _ s), Act.bind_of_ok (askEnv_apply _ _)]
  split
  · exact ⟨_, rfl, by simp, fun a _ => by simp, [.notify n], by simp, rfl⟩
  · exact ⟨_, rfl, by simp, fun a _ => by simp, [.notify n, .sinkFailure (.notify n)], by simp, rfl⟩

/-- The second half of a marking: the write of the scratch register, then the notification. -/
theorem scratch_announced (hs : s.io.sched = []) {r : Reg} (hr : r = .scratchDevice ∨ ∃ w, r = .scratchPort w) (v : Word) (n : Notice) :
    ∃ u, (wr r v >>= fun _ => forward (.notify n)) s = .ok () u ∧ Announced [r] [.write r v, .notify n] s u
      ∧ u.field r = v &&& definedMask s.cfg r := by
  have hwr : wr r v s = .ok () ((s.emit (.write r v)).store r (v &&& definedMask s.cfg r)) := by
    rcases hr with rfl | ⟨w, rfl⟩ <;> exact wr_store hs rfl rfl fun _ _ _ => rfl
  have hwrote : Announced [r] [.write r v] s ((s.emit (.write r v)).store r (v &&& definedMask s.cfg r)) :=
    ⟨(s.emit _).store_sameCellsBut r _, [.write r v], rfl, by rcases hr with rfl | ⟨w, rfl⟩ <;> rfl⟩
  obtain ⟨u, eu, hcfg, hann⟩ := forward_announced n ((s.emit (.write r v)).store r (v &&& definedMask s.cfg r))
  refine ⟨u, (Act.bind_of_ok hwr).trans eu, hwrote.trans hann, ?_⟩
  rw [State.field_congr hcfg (hann.cells _ List.not_mem_nil), State.store_field_same, BitVec.and_assoc]
  exact congrArg _ BitVec.and_self

/-! ## The two parts of SETFATAL_core (R251, R254) -/

/-- The link part writes and announces what it has to, and nothing for a link that is marked already. -/
theorem markLink_announced (hs : Alone c s) (l : Nat) :
    ∃ u, markLink l s = .ok () u ∧ Announced (s.markCells (some l) false) (s.linkMarkEvents (some l)) s u
      ∧ (s.fatalOccurred l = false →
          u.field (.scratchPort (l / 32)) = s.field (.scratchPort (l / 32)) ||| bit (l % 32)) := by
  unfold markLink
  rw [Act.get_bind]
  cases hmarked : s.fatalOccurred l with
  | true => exact ⟨s, rfl, by simpa [State.markCells, State.linkMarkEvents, hmarked] using Announced.refl s, nofun⟩
  | false =>
    obtain ⟨u, eu, hann, hfield⟩ := scratch_announced (s := s.setFatalOccurred l true) hs.1 (.inr ⟨l / 32, rfl⟩)
      (s.field (.scratchPort (l / 32)) ||| bit (l % 32)) (.portDown l)
    refine ⟨u, ?_, ?_, fun _ => hfield.trans BitVec.and_allOnes⟩
    · rw [if_neg Bool.false_ne_true, Act.modify_bind, Act.bind_of_ok (rd_quiet (by exact hs.1) _)]
      exact eu
    · simp only [State.markCells, State.linkMarkEvents, hmarked]
      exact ⟨hann.cells, hann.events⟩

/-- So does the device part. -/
theorem markDevice_announced (hs : Alone c s) :
    ∃ u, markDevice s = .ok () u ∧ Announced (s.markCells none true) (s.deviceMarkEvents true) s u
      ∧ (s.fault.resetRequired = false → u.field .scratchDevice = 1#32) := by
  unfold markDevice
  rw [Act.get_bind]
  cases hmarked : s.fault.resetRequired with
  | true => exact ⟨s, rfl, by simpa [State.markCells, State.deviceMarkEvents, hmarked] using Announced.refl s, nofun⟩
  | false =>
    obtain ⟨u, eu, hann, hfield⟩ := scratch_announced (s := s.setResetRequired true) hs.1 (.inl rfl) 1#32 .deviceDown
    refine ⟨u, ?_, ?_, fun _ => hfield.trans (by simp [definedMask])⟩
    · rw [if_neg Bool.false_ne_true]
      exact eu
    · simp only [State.markCells, State.deviceMarkEvents, hmarked]
      exact ⟨hann.cells, hann.events⟩

/-! ## SETFATAL_core (R251) -/

/-- What SETFATAL_core writes and announces. -/
structure CoreMarked (tgt : Option Nat) (dw : Bool) (s u : State) : Prop where
  announced : Announced (s.markCells tgt dw) (s.linkMarkEvents tgt ++ s.deviceMarkEvents dw) s u
  port : ∀ l, tgt = some l → s.fatalOccurred l = false →
    u.field (.scratchPort (l / 32)) = s.field (.scratchPort (l / 32)) ||| bit (l % 32)
  device : dw = true → s.fault.resetRequired = false → u.field .scratchDevice = 1#32

theorem markCells_append (s : State) (tgt : Option Nat) (dw : Bool) : s.markCells none dw ++ s.markCells tgt false = s.markCells tgt dw := by
  cases tgt <;> simp [State.markCells]

/-- The device part beside a link part that is done or has nothing to do. -/
theorem markDeviceIf_announced (hs : Alone c s) (dw : Bool) :
    ∃ u, (if dw then markDevice else pure () : Act Unit) s = .ok () u ∧ Announced (s.markCells none dw) (s.deviceMarkEvents dw) s u
      ∧ u.cfg = s.cfg ∧ (dw = true → s.fault.resetRequired = false → u.field .scratchDevice = 1#32) := by
  cases dw with
  | false => exact ⟨s, rfl, Announced.refl s, rfl, nofun⟩
  | true =>
    obtain ⟨u, eu, hann, hfield⟩ := markDevice_announced hs
    obtain ⟨_, u', eu', -, hmarks⟩ := markDevice_quietly c s hs
    rw [eu] at eu'
    cases eu'
    exact ⟨u, eu, hann, hmarks.cfg, fun _ => hfield⟩

theorem setfatalCore_announced (hw : configWf c = true) (hs : Alone c s) {tgt : Option Nat} (h : ∀ l, tgt = some l → l < c.nLink) (dw : Bool) :
    ∃ u, setfatalCore tgt dw s = .ok () u ∧ CoreMarked tgt dw s u := by
  unfold setfatalCore
  cases tgt with
  | none =>
    obtain ⟨u, eu, hann, -, hdevice⟩ := markDeviceIf_announced hs dw
    exact ⟨u, eu, hann, nofun, hdevice⟩
  | some l =>
    obtain ⟨v, ev, hlink, hport⟩ := markLink_announced hs l
    obtain ⟨_, v', ev', hv, hmarks⟩ := markLink_quietly (h l rfl) s hs
    rw [ev] at ev'
    cases ev'
    obtain ⟨v', ev', -, hreset⟩ := markLink_fault (l := l) hs
    rw [ev] at ev'
    cases ev'
    obtain ⟨u, eu, hann, hcfg, hdevice⟩ := markDeviceIf_announced hv dw
    have hcells : v.markCells none dw = s.markCells none dw := by simp only [State.markCells, hreset]
    have hevents : v.deviceMarkEvents dw = s.deviceMarkEvents dw := by simp only [State.deviceMarkEvents, hreset]
    rw [hcells, hevents] at hann
    refine ⟨u, (Act.bind_of_ok ev).trans eu, ?_, fun j hj hmarked => ?_, fun hd hr => hdevice hd (hreset.trans hr)⟩
    · rw [← markCells_append]
      exact hlink.trans hann
    · cases hj
      rw [← hport hmarked]
      refine State.field_congr hcfg (hann.cells _ ?_)
      have hne : busAddr (.scratchPort (l / 32)) ≠ busAddr .scratchDevice :=
        busAddr_ne (r := .scratchDevice) rfl (scratchPort_fits hw (div_lt_lmw (h l rfl))) nofun
      unfold State.markCells
      split <;> simp [hne]

/-! ## SETFATAL (R252) -/

theorem setfatal_links_lt {link : Option (BitVec 12)} {dw : Bool} (ha : admitted c (.setfatal link dw) = true) :
    ∀ l, link.map BitVec.toNat = some l → l < c.nLink := by
  intro l hl
  cases link with
  | none => cases hl
  | some b =>
    cases hl
    exact of_decide_eq_true ha

/-- Settles O42: `setfatalCore_announced` says what SETFATAL_core writes and announces, `setfatalCore_fault` which flags it sets,
and `Marks` what it leaves. -/
theorem setfatalMarksOnce : Obligations.SetfatalMarksOnce := by
  intro s link dw hw hq ha
  have hl := setfatal_links_lt ha
  obtain ⟨t, et, hcore⟩ := setfatalCore_announced hw hq.alone hl dw
  obtain ⟨_, t', et', -, hmarks⟩ := setfatalCore_quietly hl dw _ hq.alone
  rw [et] at et'
  cases et'
  obtain ⟨t', et', hfatal, hreset⟩ := setfatalCore_fault _ hl dw hq.alone
  rw [et] at et'
  cases et'
  obtain ⟨es, hhist, hfilter⟩ := hcore.announced.events
  have hexec : exec (.setfatal link dw) s
      = .next ((((t.setLock .free).setCursor none).emit (.result .setfatal)).respond [0#32]) := by
    rw [exec_commandProgram (i := .setfatal link dw) rfl, runCommand_admitted ha]
    unfold progSetfatal
    rw [Act.bind_of_ok (walkerBegin_quiet hq), Act.bind_of_ok et, Act.bind_of_ok (unlock_apply t)]
    rfl
  refine ⟨_, es, hexec, congrArg (· ++ _) hhist, hfilter, fun l => (hfatal l).trans (Bool.or_comm _ _), hreset.trans (Bool.or_comm _ _),
    fun l hlink hclear => hcore.port l.toNat (by rw [hlink]; rfl) hclear, hcore.device, hcore.announced.cells, hmarks.hw,
    hmarks.phase, hmarks.registered, ?_, congrArg (· ++ _) hmarks.responses⟩
  have hseq : t.seq = (s.setLock .wlk).seq := by rw [hmarks.seq, hmarks.leaf]
  obtain ⟨-, -, hlock⟩ := hq
  change { t.seq with lock := .free, cursor := none } = _
  rw [hseq, ← hlock]
  rfl

end Sys2Proof.Machine

/-! PROOFS. Family 43_fault_state: the enables under a HANDLE (R262, R225, R243). `EnablesWithin` bounds every report-enable and
stall-enable register from above; each access of a HANDLE keeps the bound, its suppression write since what it writes is part of
what it has read. -/

namespace Sys2Proof.Machine

variable {α : Type} {c : Config} {e : Reg → Word}

/-! ## An upper bound of the enables -/

/-- Nobody else moves, and every enable register there is holds no bit beyond those of `e`. -/
def EnablesWithin (c : Config) (e : Reg → Word) (s : State) : Prop :=
  Alone c s ∧ ∀ r, mapped c r = true → isReportEnable r = true → s.field r &&& ~~~e r = 0#32

/-- Any state is within its own enables. -/
theorem EnablesWithin.self {s : State} (hs : Alone c s) : EnablesWithin c s.field s :=
  ⟨hs, fun r _ _ => BitVec.and_not_self (s.field r)⟩

theorem EnablesWithin.of_field {s t : State} (hs : EnablesWithin c e s) (ht : Alone c t)
    (h : ∀ r, mapped c r = true → isReportEnable r = true → t.field r = s.field r) : EnablesWithin c e t :=
  ⟨ht, fun r hm hr => by rw [h r hm hr]; exact hs.2 r hm hr⟩

/-- A part of a word that is within a bound is within it. -/
theorem and_within {x b : Word} (h : x &&& ~~~b = 0#32) (y : Word) : x &&& y &&& ~~~b = 0#32 := by
  rw [BitVec.and_assoc, BitVec.and_comm y, ← BitVec.and_assoc, h, BitVec.zero_and]

theorem enable_ne_ringStatus {r : Reg} (hr : isReportEnable r = true) : r ≠ .ringStatus := by
  rintro rfl
  cases hr

/-- Two registers of which one is an enable and one is not. -/
theorem ne_of_enable {r q : Reg} (hr : isReportEnable r = true) (hq : isReportEnable q = false) : q ≠ r := by
  rintro rfl
  exact Bool.false_ne_true (hq.symm.trans hr)

/-- The bound is kept by what a HANDLE does beside its status write and the writes of the enables themselves. -/
theorem enablesWithin_steady (hw : configWf c = true) (e : Reg → Word) :
    Steady (fun q => fits q = true ∧ isReportEnable q = false) (EnablesWithin c e) where
  tick s hs := ⟨s, tick_quiet hs.1.1, hs⟩
  frame s t hs hcfg hhw hsched := hs.of_field ⟨hsched.trans hs.1.1, hcfg.trans hs.1.2⟩ fun r _ _ =>
    State.field_congr hcfg (by unfold State.cellAt; rw [hhw, hcfg])
  write s q v hs hq hb := by
    obtain ⟨-, hcfg, hio⟩ := applyWrite_beside (s := s) hq.1 (q := .topEnable) rfl (by rintro rfl; cases hb) nofun hb v
    refine hs.of_field ⟨by rw [hio]; exact hs.1.1, hcfg.trans hs.1.2⟩ fun r hm hr => ?_
    exact (applyWrite_beside hq.1 (mapped_fits hw hm) (ne_of_enable hr hq.2) (enable_ne_ringStatus hr) hb v).1
  ring s hs := by
    obtain ⟨hcfg, -, hio⟩ := (s.responder_frame 0).2.2
    refine hs.of_field ⟨by rw [hio]; exact hs.1.1, hcfg.trans hs.1.2⟩ fun r hm hr => ?_
    unfold State.ackRing
    split
    · rw [State.setRingPending_read_field, State.store_field s _ rfl (mapped_fits hw hm), if_neg (enable_ne_ringStatus hr)]
    · rfl

/-! ## The accesses to the enables and the status registers -/

/-- What is read from an enable register is within the bound (R150). -/
theorem keeps_rd_enable {q : Reg} (hm : mapped c q = true) (hq : isReportEnable q = true) {f : Word → Act α}
    (hf : ∀ v, v &&& ~~~e q = 0#32 → Keeps (EnablesWithin c e) (f v)) : Keeps (EnablesWithin c e) (rd q >>= f) := by
  intro s hs
  have hread : readReg s q = s.field q := by
    cases q with
    | node | intrStallEn => rfl
    | _ => cases hq
  rw [Act.bind_of_ok (rd_quiet hs.1.1 q), hread]
  exact hf _ (hs.2 q hm hq) s hs

section
variable (hw : configWf c = true)
include hw

/-- A status write, whose register is no enable (R86). -/
theorem keeps_clear {q : Reg} (ha : access q = .w1c) (hstuck : ∀ v, stuckQuery q v = none) (hq : fits q = true)
    (he : isReportEnable q = false) (v : Word) : Keeps (EnablesWithin c e) (wr q v) := by
  intro s hs
  refine ⟨(), _, wr_w1c hs.1.1 (hstuck v) ha, hs.of_field hs.1 fun r hm hr => ?_⟩
  rw [State.store_field _ _ hq (mapped_fits hw hm), if_neg (ne_of_enable hr he).symm]
  rfl

/-- The suppression write: a value within the bound (R225, R243). -/
theorem keeps_wr_enable {q : Reg} (hm : mapped c q = true) (hq : isReportEnable q = true) {v : Word} (hv : v &&& ~~~e q = 0#32) :
    Keeps (EnablesWithin c e) (wr q v) := by
  intro s hs
  have hwr : wr q v s = .ok () ((s.emit (.write q v)).store q (v &&& definedMask s.cfg q)) := by
    cases q with
    | node k i r =>
      cases r with
      | reportEn => exact wr_store hs.1.1 rfl rfl fun _ _ _ => rfl
      | _ => cases hq
    | intrStallEn => exact wr_store hs.1.1 rfl rfl fun _ _ _ => rfl
    | _ => cases hq
  refine ⟨(), _, hwr, hs.1, fun r hmr hr => ?_⟩
  rw [State.store_field _ _ (mapped_fits hw hm) (mapped_fits hw hmr)]
  split
  · rename_i h
    subst h
    exact and_within (and_within hv _) _
  · exact hs.2 r hmr hr

/-! ## HANDLE (R211, R243) -/

theorem targets_scratch {k : Kind} {i : Nat} (ht : targetsIn c (targets c k i)) (s : State) (hs : EnablesWithin c e s) :
    ∀ l, some l ∈ targets s.cfg k i → fits (.scratchPort (l / 32)) = true ∧ isReportEnable (.scratchPort (l / 32)) = false := by
  obtain ⟨⟨-, rfl⟩, -⟩ := hs
  exact fun l hl => ⟨scratchPort_fits hw (div_lt_lmw (ht l hl)), rfl⟩

variable {k : Kind} {i : Nat} {t : Tree}

theorem keeps_templateRest (h : Serves c k i t) (hk : k ≠ .mctrl) (p : Word) {en : Word} (hen : en &&& ~~~e (.node k i (.reportEn t)) = 0#32)
    (cn : Word) (wf : Bool) : Keeps (EnablesWithin c e) (templateRest k i t p en cn wf) := by
  have H := enablesWithin_steady hw e
  have hfits : ∀ r, nodeFits r = true → fits (.node k i r) = true := fun _ => node_fits hw (h.node hk).1 hk
  have hunits : ∀ us, ∀ x ∈ unitsAscending us, x < 4 := fun us x hx => List.mem_range.mp (List.mem_of_mem_filter hx)
  have suppress : Keeps (EnablesWithin c e) (if wf then wr (.node k i (.reportEn t)) (en &&& ~~~(p &&& en)) else pure ()) :=
    .ite (keeps_wr_enable hw ((may_reportEn (fun _ => h) hk).2 hw) rfl (and_within hen _)) (.pure _)
  rw [templateRest_eq]
  unfold templateTail
  refine .bind (keeps_setCursor H _) fun _ => .bind (keeps_rd H _) fun f => .bind (keeps_modify H fun _ => rfl) fun _ =>
    .bind (keeps_setCursor H _) fun _ => .get fun x => .bind (.ite (.pure _) (keeps_capture H _ _ _)) fun _ =>
    .bind (keeps_setCursor H _) fun _ => .bind (keeps_classifyBits H (targets_scratch hw h.targets) ⟨rfl, rfl⟩ _) fun _ => ?_
  refine .bind (.bind (keeps_setCursor H _) fun _ => suppress) fun _ => .bind (keeps_setCursor H _) fun _ =>
    .bind (keeps_clear hw rfl (fun _ => rfl) (hfits _ rfl) rfl _) fun _ => .bind (keeps_clear hw rfl (fun _ => rfl) (hfits _ rfl) rfl _) fun _ =>
    .bind (keeps_setCursor H _) fun _ => .get fun y => ?_
  exact .bind (keeps_zeroCounters H fun u hu => ⟨hfits _ (by simpa [nodeFits] using hunits _ u hu), rfl⟩) fun _ =>
    .bind (.ite (keeps_privHandshake H ⟨rfl, rfl⟩) (.pure _)) fun ok => keeps_stepEight H k i t ok

theorem keeps_template (h : Serves c k i t) (hk : k ≠ .mctrl) : Keeps (EnablesWithin c e) (template k i t) := by
  have H := enablesWithin_steady hw e
  unfold template
  refine .bind (keeps_setCursor H _) fun _ => .bind (keeps_rd H _) fun p =>
    keeps_rd_enable ((may_reportEn (fun _ => h) hk).2 hw) rfl fun en hen => .ite (.pure _) ?_
  have rest : ∀ cn, Keeps (EnablesWithin c e) (do templateRest k i t p en cn (suppressFlag (← get) k i)) := fun cn =>
    .get fun x => keeps_templateRest hw h hk p hen cn _
  split
  · exact .bind (keeps_rd H _) rest
  · exact .bind (.pure _) rest

theorem keeps_mctrlTemplate {l : Nat} (h : Serves c .mctrl l t) : Keeps (EnablesWithin c e) (mctrlTemplate l t) := by
  have H := enablesWithin_steady hw e
  obtain ⟨hstatus, henable⟩ := may_intr fun _ => h
  have last : ∀ m, Keeps (EnablesWithin c e) (do
      setCursor (.leaf .mctrl l t 6)
      wr (.intrStatus (mc c l)) m
      stepEight .mctrl l t true) := fun m =>
    .bind (keeps_setCursor H _) fun _ => .bind (keeps_clear hw rfl (fun _ => rfl) (mapped_fits hw (hstatus.2 hw)) rfl _) fun _ =>
      keeps_stepEight H _ _ _ _
  have rest : ∀ p {en : Word}, en &&& ~~~e (.intrStallEn (mc c l)) = 0#32 → ∀ wf, Keeps (EnablesWithin c e) (mctrlRest l t p en wf) := by
    intro p en hen wf
    unfold mctrlRest
    refine Leads.get fun x hx => ?_
    rw [hx.1.2]
    refine .bind (keeps_modify H fun _ => rfl) fun _ => .bind (keeps_setCursor H _) fun _ =>
      .bind (keeps_classifyBits H (targets_scratch hw h.targets) ⟨rfl, rfl⟩ _) fun _ => .bind (keeps_setCursor H _) fun _ => ?_
    split
    · exact .bind (keeps_wr_enable hw (henable.2 hw) rfl (and_within hen _)) fun _ => last _
    · exact last _
  unfold mctrlTemplate
  refine .bind (keeps_setCursor H _) fun _ => Leads.get fun x hx => ?_
  rw [hx.1.2]
  exact .bind (keeps_rd H _) fun st => keeps_rd_enable (henable.2 hw) rfl fun en hen => .ite (.pure _)
    (.get fun y => rest _ hen _)

/-- A HANDLE keeps any bound of the enables. -/
theorem keeps_handle (h : Serves c k i t) : Keeps (EnablesWithin c e) (handle k i t) := by
  have H := enablesWithin_steady hw e
  unfold handle
  refine .bind (keeps_modify H fun _ => rfl) fun _ => ?_
  have last : ∀ r, Keeps (EnablesWithin c e) (do
      modify (fun s => ((s.setLeaf {}).clearCap).emit (.result (.handle k i t r)))
      return r : Act Result3) := fun r => .bind (keeps_modify H fun _ => rfl) fun _ => .pure _
  by_cases hk : k = .mctrl
  · subst hk
    exact .bind (keeps_mctrlTemplate hw h) last
  · rw [if_neg hk]
    exact .bind (keeps_template hw h hk) last

end

end Sys2Proof.Machine

/-! PROOFS. Family 43_fault_state: what every walker command keeps (R251, R255, R260, R262). `Ratchets` says it of two states: flags
only rise and their rise is recorded, enables only fall, phases and registrations stay. HANDLE and SETFATAL_core keep it, so the
walks do, and so does every command. -/

namespace Sys2Proof.Machine

variable {α β : Type} {c : Config}

/-! ## The relation -/

/-- Between the two states every marking was recorded, no phase or registration changed, and no enable was added. -/
structure Ratchets (s u : State) : Prop where
  recorded : Recorded s u
  phase : u.fault.phase = s.fault.phase
  registered : u.fault.registered = s.fault.registered
  enables : ∀ r, mapped s.cfg r = true → isReportEnable r = true → u.field r &&& ~~~s.field r = 0#32

/-- Being part of a word chains. -/
theorem within_trans {x y z : Word} (hxy : x &&& ~~~y = 0#32) (hyz : y &&& ~~~z = 0#32) : x &&& ~~~z = 0#32 := by
  ext j hj
  have hx := congrArg (fun w : Word => w[j]) hxy
  have hy := congrArg (fun w : Word => w[j]) hyz
  simp only [BitVec.getElem_and, BitVec.getElem_not, BitVec.getElem_zero] at hx hy ⊢
  cases hxj : x[j] <;> cases hyj : y[j] <;> simp_all

theorem Ratchets.chains : Chains Ratchets where
  refl s := ⟨Recorded.chains.refl s, rfl, rfl, fun r _ _ => BitVec.and_not_self (s.field r)⟩
  trans h k := ⟨Recorded.chains.trans h.recorded k.recorded, k.phase.trans h.phase, k.registered.trans h.registered, fun r hm hr =>
    within_trans (k.enables r (by rw [h.recorded.cfg]; exact hm) hr) (h.enables r hm hr)⟩

/-- Events that announce nothing, where no register and no flag changes. -/
theorem Ratchets.append {s u : State} {es : List Event} (hcfg : u.cfg = s.cfg) (hfault : u.fault = s.fault)
    (hregs : u.hw.regs = s.hw.regs) (hhist : u.io.history = s.io.history ++ es) (hes : ∀ n, .notify n ∉ es) : Ratchets s u := by
  have hcell : ∀ a, u.cellAt a = s.cellAt a := fun a => by unfold State.cellAt; rw [hregs, hcfg]
  refine ⟨Recorded.append hcfg hfault (fun a _ => hcell a) hhist hes, by rw [hfault], by rw [hfault], fun r _ _ => ?_⟩
  rw [State.field_congr hcfg (hcell _)]
  exact BitVec.and_not_self (s.field r)

/-- An update of the sequencer's own values. -/
theorem Ratchets.unseen {s u : State} (hcfg : u.cfg = s.cfg) (hhw : u.hw = s.hw) (hfault : u.fault = s.fault)
    (hhist : u.io.history = s.io.history) : Ratchets s u :=
  Ratchets.append (es := []) hcfg hfault (by rw [hhw]) (by rw [hhist, List.append_nil]) fun _ => List.not_mem_nil

/-! ## Actions -/

abbrev Ratcheting (c : Config) (x : Act α) : Prop := Quietly c Ratchets x

theorem ratchet_pure (a : α) : Ratcheting c (pure a : Act α) := Quietly.pure Ratchets.chains a

theorem ratchet_bind {x : Act α} {f : α → Act β} (hx : Ratcheting c x) (hf : ∀ a, Ratcheting c (f a)) : Ratcheting c (x >>= f) :=
  Quietly.bind Ratchets.chains hx hf

theorem ratchet_setCursor (q : Cursor) : Ratcheting c (setCursor q) := Quietly.setCursor fun _ => Ratchets.unseen rfl rfl rfl rfl

theorem ratchet_result (e : ResultEvent) : Ratcheting c (emit (.result e)) :=
  Quietly.emit fun _ => Ratchets.append rfl rfl rfl rfl fun n => by simp

/-- A read, and going on by what the register reads in a state of the run. -/
theorem ratchet_rd {r : Reg} {f : Word → Act β} (hf : ∀ s, s.cfg = c → Ratcheting c (f (readReg s r))) : Ratcheting c (rd r >>= f) := by
  intro s hs
  rw [Act.bind_of_ok (rd_quiet hs.1 r)]
  exact hf s hs.2 s hs

theorem ratchet_unlock : Ratcheting c unlock :=
  Quietly.modify (fun _ _ => Ratchets.unseen rfl rfl rfl rfl) fun _ hs => hs

theorem ratchet_respond (ws : List Word) : Ratcheting c (modify fun s => s.respond ws) :=
  Quietly.modify (fun _ _ => Ratchets.unseen rfl rfl rfl rfl) fun _ hs => hs

theorem ratchet_finishCommand (e : ResultEvent) (ws : List Word) : Ratcheting c (finishCommand e ws) :=
  Quietly.modify (fun _ _ => Ratchets.append (es := [.result e]) rfl rfl rfl rfl fun n => by simp) fun _ hs => hs

/-! ## SETFATAL_core and HANDLE -/

/-- What is known of the outcome of an action in three ways. -/
theorem ratchet_of {x : Act α} (hrec : Quietly c Recorded x)
    (hkeep : ∀ e, Keeps (EnablesWithin c e) x) (hfault : Quietly c (fun s u => u.fault.phase = s.fault.phase
      ∧ u.fault.registered = s.fault.registered) x) : Ratcheting c x := by
  intro s hs
  obtain ⟨a, u, eu, hu, hr⟩ := hrec s hs
  obtain ⟨_, u', eu', -, hphase, hreg⟩ := hfault s hs
  rw [eu] at eu'
  cases eu'
  obtain ⟨_, u', eu', -, henables⟩ := hkeep s.field s (EnablesWithin.self hs)
  rw [eu] at eu'
  cases eu'
  exact ⟨a, u, eu, hu, hr, hphase, hreg, fun r hm hr => henables r (hs.2 ▸ hm) hr⟩

theorem ratchet_setfatalCore (hw : configWf c = true) {tgt : Option Nat} (h : ∀ l, tgt = some l → l < c.nLink) (dw : Bool) :
    Ratcheting c (setfatalCore tgt dw) :=
  ratchet_of (respects_setfatalCore (respects_recorded hw) h dw)
    (fun e => keeps_setfatalCore (enablesWithin_steady hw e) (fun l hl => ⟨scratchPort_fits hw (div_lt_lmw (h l hl)), rfl⟩) ⟨rfl, rfl⟩ dw)
    (Quietly.mono (fun _ _ hm => ⟨hm.phase, hm.registered⟩) (setfatalCore_quietly h dw))

/-- A HANDLE of a node that is there records its markings, whether HANDLE of it is a command or not (R139). -/
theorem handle_recorded_of_serves (hw : configWf c = true) {k : Kind} {i : Nat} {t : Tree} (h : Serves c k i t) :
    Quietly c Recorded (handle k i t) := by
  have H := respects_recorded hw
  have last : ∀ r, Quietly c Recorded (do
      modify (fun s => ((s.setLeaf {}).clearCap).emit (.result (.handle k i t r)))
      return r : Act Result3) := fun r =>
    respects_bind H (Quietly.modify (fun _ _ => Recorded.append rfl rfl (fun _ _ => rfl) rfl fun n => by simp) fun _ hs => hs) fun _ =>
      respects_pure H _
  unfold handle
  refine respects_bind H (respects_modify H (g := fun s => (s.setLeaf {}).clearCap) fun _ => rfl) fun _ => ?_
  by_cases hk : k = .mctrl
  · subst hk
    exact respects_bind H (mctrlTemplate_recorded hw h.targets (nodeExists_lt hw h.mctrl.2) t) last
  · rw [if_neg hk]
    exact respects_bind H (template_recorded hw h.targets (nodeExists_lt hw (h.node hk).1) t) last

theorem ratchet_handle (hw : configWf c = true) {k : Kind} {i : Nat} {t : Tree} (h : Serves c k i t) : Ratcheting c (handle k i t) := by
  refine ratchet_of (handle_recorded_of_serves hw h) (fun e => keeps_handle hw h) fun s hs => ?_
  obtain ⟨a, u, hs', eu, hu, hpassed, -⟩ := (runs_handle (c := c) fun _ => h).run ⟨hs, trivial⟩
  exact ⟨a, u, eu, hu.1, hpassed.phase, hpassed.registered⟩

/-! ## Walks (R181 to R189) -/

section
variable (hw : configWf c = true)
include hw

theorem ratchet_handleAll {t : Tree} {ns : List (Kind × Nat)} (h : ∀ n ∈ ns, Serves c n.1 n.2 t) : Ratcheting c (handleAll t ns) := by
  induction ns with
  | nil => exact ratchet_pure _
  | cons n ns ih =>
    exact ratchet_bind (ratchet_handle hw (h n List.mem_cons_self)) fun r =>
      ratchet_bind (ih fun m hm => h m (List.mem_cons_of_mem _ hm)) fun rs => ratchet_pure _

theorem ratchet_walkfam (f : Family) (i : Nat) (t : Tree) : Ratcheting c (walkfam f i t) := by
  unfold walkfam
  refine ratchet_bind (ratchet_setCursor _) fun _ => Quietly.get fun s hs => ?_
  rw [hs]
  exact ratchet_bind (ratchet_handleAll hw fun n hn => serves_of_admitted hw (children_admitted hn)) fun rs =>
    ratchet_bind (ratchet_result _) fun _ => ratchet_pure _

theorem ratchet_walkEngines (t : Tree) (w : Nat) (js : List Nat) : Ratcheting c (walkEngines t w js) := by
  induction js with
  | nil => exact ratchet_pure _
  | cons j js ih =>
    unfold walkEngines
    refine Quietly.get fun s _ => ?_
    cases engineOf s.cfg (32 * w + j) with
    | some n =>
      exact ratchet_bind (ratchet_setCursor _) fun _ => ratchet_bind (ratchet_walkfam hw _ _ _) fun r =>
        ratchet_bind ih fun rs => ratchet_pure _
    | none => exact ih

theorem ratchet_walkWords (t : Tree) (ws : List Nat) : Ratcheting c (walkWords t ws) := by
  induction ws with
  | nil => exact ratchet_pure _
  | cons w ws ih =>
    unfold walkWords
    exact ratchet_bind (ratchet_setCursor _) fun _ => ratchet_rd fun _ _ => Quietly.get fun s _ =>
      ratchet_bind (ratchet_walkEngines hw t w _) fun rs => ratchet_bind ih fun rest => ratchet_pure _

theorem ratchet_walkTrees (ts : List Tree) : Ratcheting c (walkTrees ts) := by
  induction ts with
  | nil => exact ratchet_pure _
  | cons t ts ih =>
    unfold walkTrees
    exact Quietly.get fun s _ => ratchet_bind (ratchet_walkWords hw t _) fun rs => ratchet_bind ih fun rest => ratchet_pure _

theorem ratchet_summary : Ratcheting c summary := ratchet_bind (ratchet_walkTrees hw allTrees) fun _ => ratchet_pure _

omit hw in
theorem ratchet_topItem {top : Word} {b : Nat} {x : Act Result3} (hx : top.getLsbD b = true → Ratcheting c x) :
    Ratcheting c (topItem top b x) := by
  unfold topItem
  split
  · exact ratchet_bind (ratchet_setCursor _) fun _ => ratchet_bind (hx ‹_›) fun r => ratchet_pure _
  · exact ratchet_pure _

/-- DISPATCH: bits 1 and 2 of TOP_PENDING stand for nodes that are there, whatever their trees (R165, R181). -/
theorem ratchet_dispatch : Ratcheting c dispatch := by
  unfold dispatch
  refine ratchet_bind (ratchet_setCursor _) fun _ => ratchet_rd fun w hwc => Quietly.get fun s _ => ?_
  have direct : ∀ {b : Nat} {k : Kind}, (b = 1 ∧ k = .pci ∨ b = 2 ∧ k = .priv) →
      (readReg w .topPending &&& s.cfg.topEnableCfg).getLsbD b = true → Ratcheting c (handle k 0 .fatal) := by
    intro b k hk hb
    rw [BitVec.getLsbD_and, Bool.and_eq_true] at hb
    exact ratchet_handle hw (hwc ▸ topPending_serves hk hb.1)
  exact ratchet_bind (ratchet_topItem fun _ => ratchet_summary hw) fun _ => ratchet_bind (ratchet_topItem (direct (.inl ⟨rfl, rfl⟩))) fun _ =>
    ratchet_bind (ratchet_topItem (direct (.inr ⟨rfl, rfl⟩))) fun _ => ratchet_pure _

end

/-! ## The commands -/

/-- The end of a SERVICE arms the interrupt and changes no register (R180, R191). -/
theorem ratchet_completeTail : Ratcheting c completeTail := by
  intro s hs
  cases htail : s.seq.wlkTail with
  | none =>
    refine ⟨(), s, ?_, hs, Ratchets.chains.refl s⟩
    unfold completeTail
    rw [Act.get_bind, htail]
    rfl
  | some r => exact ⟨(), _, completeTail_owed htail, hs, Ratchets.append rfl rfl rfl rfl fun n => by simp⟩

theorem ratchet_tick : Ratcheting c tick := fun s hs => ⟨(), s, tick_quiet hs.1, hs, Ratchets.chains.refl s⟩

/-- The mutex is taken first, and the rest of the command keeps the relation. -/
def RatchetsAfterLock (c : Config) (p : Act Unit) : Prop := ∃ body : Act Unit, p = (walkerBegin >>= fun _ => body) ∧ Ratcheting c body

theorem service_ratchets (hw : configWf c = true) : RatchetsAfterLock c progService := by
  refine ⟨dispatch >>= fun r => unlock >>= fun _ => (modify (fun s => s.setTail (some r)) : Act PUnit) >>= fun _ =>
    tick >>= fun _ => completeTail, ?_, ?_⟩
  · unfold progService servicePass
    simp only [Act.bind_assoc]
  · exact ratchet_bind (ratchet_dispatch hw) fun r => ratchet_bind ratchet_unlock fun _ => ratchet_bind
      (Quietly.modify (g := fun s => s.setTail (some r)) (fun _ _ => Ratchets.unseen rfl rfl rfl rfl) fun _ hs => hs) fun _ =>
      ratchet_bind ratchet_tick fun _ => ratchet_completeTail

theorem walkCommand_ratchets (hw : configWf c = true) (f : Family) (i : Nat) (t : Tree) : RatchetsAfterLock c (walkCommand f i t) :=
  ⟨_, rfl, ratchet_bind (ratchet_walkfam hw f i t) fun _ => ratchet_bind ratchet_unlock fun _ => ratchet_respond _⟩

theorem handleCommand_ratchets (hw : configWf c = true) {k : Kind} {i : Nat} {t : Tree} (ha : handleAdmitted c k i t = true) :
    RatchetsAfterLock c (handleCommand k i t) :=
  ⟨_, rfl, ratchet_bind (ratchet_handle hw (serves_of_admitted hw ha)) fun _ => ratchet_bind ratchet_unlock fun _ => ratchet_respond _⟩

theorem progSetfatal_ratchets (hw : configWf c = true) {link : Option (BitVec 12)} {dw : Bool}
    (ha : admitted c (.setfatal link dw) = true) : RatchetsAfterLock c (progSetfatal link dw) :=
  ⟨_, rfl, ratchet_bind (ratchet_setfatalCore hw (setfatal_links_lt ha) dw) fun _ => ratchet_bind ratchet_unlock fun _ =>
    ratchet_finishCommand _ _⟩

theorem query_ratchets {e : State → ResultEvent} {ws : State → List Word} :
    RatchetsAfterLock c (walkerBegin >>= fun _ => get >>= fun s => unlock >>= fun _ => finishCommand (e s) (ws s)) :=
  ⟨_, rfl, Quietly.get fun _ _ => ratchet_bind ratchet_unlock fun _ => ratchet_finishCommand _ _⟩

/-- Every admitted walker command. -/
theorem walkerProgram_ratchets (hw : configWf c = true) {i : Instr} (hi : isWalkerCommand i = true) (ha : admitted c i = true) :
    ∃ p, commandProgram i = some p ∧ RatchetsAfterLock c p := by
  cases i with
  | service => exact ⟨_, rfl, service_ratchets hw⟩
  | walkXbar | walkPortgrp | walkLinkmgmt | walkMctrlf => exact ⟨_, rfl, walkCommand_ratchets hw _ _ _⟩
  | setfatal => exact ⟨_, rfl, progSetfatal_ratchets hw ha⟩
  | qlink l =>
    exact ⟨_, rfl, query_ratchets (e := fun s => .qlink l.toNat (s.fatalOccurred l.toNat)) (ws := fun s => [flagWord (s.fatalOccurred l.toNat)])⟩
  | qdev => exact ⟨_, rfl, query_ratchets (e := fun s => .qdev s.fault.resetRequired) (ws := fun s => [flagWord s.fault.resetRequired])⟩
  | rstdrain | rd32 | wr32 => cases hi
  | _ => exact ⟨_, rfl, handleCommand_ratchets hw ha⟩

/-- A walker command in a quiet state, admitted or refused. -/
theorem walkerCommand_ratchets {i : Instr} {s u : State} (hw : configWf s.cfg = true) (hq : Quiet s) (hi : isWalkerCommand i = true)
    (h : exec i s = .next u) : Ratchets s u := by
  cases ha : admitted s.cfg i with
  | false =>
    obtain ⟨p, hp, -⟩ := walkerCommand_takesMutex hi
    rw [exec_commandProgram hp, runCommand_refused ha] at h
    cases h
    exact Ratchets.append rfl rfl rfl rfl fun n => by simp
  | true =>
    obtain ⟨p, hp, body, rfl, hbody⟩ := walkerProgram_ratchets hw hi ha
    obtain ⟨_, t, et, -, ht⟩ := hbody _ hq.alone
    rw [exec_commandProgram hp, runCommand_admitted ha, Act.bind_of_ok (walkerBegin_quiet hq), et] at h
    cases h
    exact Ratchets.chains.trans (t := s.setLock .wlk) (Ratchets.unseen rfl rfl rfl rfl) ht

/-- Settles O46, by `walkerCommand_ratchets`: each HANDLE writes back a part of the enables it has read. -/
theorem walkerOnlyRemovesEnables : Obligations.WalkerOnlyRemovesEnables :=
  fun _ _ _ hw hq hi h => (walkerCommand_ratchets hw hq hi h).enables

/-- Settles O47, by `walkerCommand_ratchets`: the record of each marking chains over all the HANDLEs of a command. -/
theorem walkerNeverClearsAFlag : Obligations.WalkerNeverClearsAFlag := by
  intro i s u hw hq hi h
  obtain ⟨hrec, hphase, hreg, -⟩ := walkerCommand_ratchets hw hq hi h
  exact ⟨hrec.fatal, hrec.reset, hphase, hreg, hrec.markings⟩

end Sys2Proof.Machine

/-! PROOFS. Family 44_recovery: the registers of a recovery whose writes do more than store (R45, R296, R298, R300, R302), and the
settled statements about them. -/

namespace Sys2Proof.Machine

/-! ## Runs of stores -/

theorem State.resetRegs_cfg (s : State) (rs : List Reg) : (s.resetRegs rs).cfg = s.cfg := (s.resetRegs_hardwareOnly rs).parts.1

theorem State.resetRegs_append (s : State) (rs rs' : List Reg) : s.resetRegs (rs ++ rs') = (s.resetRegs rs).resetRegs rs' := by
  induction rs generalizing s with
  | nil => rfl
  | cons r rs ih => exact ih _

/-- R296: the cells of the listed registers are at RESET_VALUE, every other cell is as before. -/
theorem State.resetRegs_cellAt (s : State) (rs : List Reg) (a : Nat) :
    (s.resetRegs rs).cellAt a = if a ∈ rs.map busAddr then resetValue s.cfg a else s.cellAt a := by
  induction rs generalizing s with
  | nil => simp [State.resetRegs]
  | cons r rs ih =>
    rw [State.resetRegs, ih, State.store_cfg, State.store_cellAt]
    by_cases ha : a = busAddr r <;> simp [ha]

/-- R300: the cells of the listed registers are 0, every other cell is as before. -/
theorem State.zeroRegs_cellAt (s : State) (rs : List Reg) (a : Nat) :
    (s.zeroRegs rs).cellAt a = if a ∈ rs.map busAddr then 0#32 else s.cellAt a := by
  induction rs generalizing s with
  | nil => simp [State.zeroRegs]
  | cons r rs ih =>
    rw [State.zeroRegs, ih, State.store_cellAt]
    by_cases ha : a = busAddr r <;> simp [ha]

/-- Stores and zeroings change the register cells only. -/
theorem State.resetRegs_hw (s : State) (rs : List Reg) : SameHardwareButCells s (s.resetRegs rs) := by
  induction rs generalizing s with
  | nil => rfl
  | cons r rs ih => exact (ih _).trans rfl

theorem State.zeroRegs_hw (s : State) (rs : List Reg) : SameHardwareButCells s (s.zeroRegs rs) := by
  induction rs generalizing s with
  | nil => rfl
  | cons r rs ih => exact (ih _).trans rfl

/-! ## What a write of each register does (R90) -/

/-- The registers the warm reset of ports `ps` of a group reaches, ports without a link left out (R296). -/
def warmReached (c : Config) (g : Nat) (ps : List Nat) : List Reg :=
  ps.flatMap (fun p => if g * c.pgSize + p < c.nLink then warmResetSet c (g * c.pgSize + p) else [])

theorem State.warmResetPorts_eq (s : State) (g : Nat) (ps : List Nat) : s.warmResetPorts g ps = s.resetRegs (warmReached s.cfg g ps) := by
  induction ps generalizing s with
  | nil => rfl
  | cons p ps ih =>
    rw [State.warmResetPorts, ih]
    by_cases hp : g * s.cfg.pgSize + p < s.cfg.nLink
    · simp only [if_pos hp, State.resetRegs_cfg, warmReached, List.flatMap_cons, State.resetRegs_append]
    · simp only [if_neg hp, warmReached, List.flatMap_cons, List.nil_append]

theorem mem_warmReached {c : Config} {g : Nat} {ps : List Nat} {r : Reg} : r ∈ warmReached c g ps ↔
    ∃ p ∈ ps, g * c.pgSize + p < c.nLink ∧ r ∈ warmResetSet c (g * c.pgSize + p) := by
  simp [warmReached, List.mem_ite_nil_right]

/-- R296: the port bits are stored, and the sets of the ports whose bit rises are reset. -/
theorem applyWrite_warmReset (s : State) (g : Nat) (v : Word) (stuck : Bool) :
    s.applyWrite (.warmReset g) v stuck = (s.store (.warmReset g) (v &&& lowMask s.cfg.pgSize)).resetRegs
      (warmReached s.cfg g (setBits (v &&& lowMask s.cfg.pgSize &&& ~~~s.field (.warmReset g)))) := by
  change (s.store _ _).warmResetPorts _ _ = _
  rw [State.warmResetPorts_eq]
  rfl

theorem getLsbD_and_one (v : Word) : (v &&& 1#32).getLsbD 0 = v.getLsbD 0 := by simp

/-- R300: bit 0 is stored; where it rises, the status and first registers of the port-family nodes are zeroed. -/
theorem applyWrite_debugClear (s : State) (l : Nat) (v : Word) (stuck : Bool) :
    s.applyWrite (.debugClear l) v stuck =
      if v.getLsbD 0 = true ∧ (s.field (.debugClear l)).getLsbD 0 = false then
        (s.store (.debugClear l) (v &&& 1#32)).zeroRegs (portStatusRegs s.cfg l)
      else s.store (.debugClear l) (v &&& 1#32) := by
  have h : s.applyWrite (.debugClear l) v stuck =
      if (v &&& 1#32).getLsbD 0 && !(s.field (.debugClear l)).getLsbD 0 then
        (s.store (.debugClear l) (v &&& 1#32)).zeroRegs (portStatusRegs s.cfg l)
      else s.store (.debugClear l) (v &&& 1#32) := rfl
  simp only [h, getLsbD_and_one, Bool.and_eq_true, Bool.not_eq_true']

/-- R298: bit 0 is stored; a written 1 clears RSTSEQ_STATUS and asks the reset sequencer. -/
theorem applyWrite_rstseqReq (s : State) (l : Nat) (v : Word) (stuck : Bool) :
    s.applyWrite (.rstseqReq l) v stuck =
      if v.getLsbD 0 then
        ((s.store (.rstseqReq l) (v &&& 1#32)).store (.rstseqStatus l) 0#32).setRstseqPending l true
      else s.store (.rstseqReq l) (v &&& 1#32) := by
  rw [← getLsbD_and_one v]
  rfl

/-- R302: written ones are cleared, unless the environment holds the latch. -/
theorem applyWrite_containLatch (s : State) (l : Nat) (v : Word) (stuck : Bool) :
    s.applyWrite (.containLatch l) v stuck
      = if stuck then s else s.store (.containLatch l) (s.field (.containLatch l) &&& ~~~v) := rfl

/-- R302: a written 1 asks the environment, and clears what it may clear. -/
theorem writeReg_containLatch (s : State) {l : Nat} {v : Word} (hv : v.getLsbD 0 = true) :
    writeReg (.containLatch l) v s = .ok () (if (s.ask (.containStuck l)).1 then ((s.emit (.write (.containLatch l) v)).ask (.containStuck l)).2
      else ((s.emit (.write (.containLatch l) v)).ask (.containStuck l)).2.store (.containLatch l) (s.field (.containLatch l) &&& ~~~v)) := by
  have hq : stuckQuery (.containLatch l) v = some (.containStuck l) := by simp only [stuckQuery, hv, if_true]
  have hask : ((s.emit (.write (.containLatch l) v)).ask (.containStuck l)).1 = (s.ask (.containStuck l)).1 :=
    State.ask_congr (by rfl) _
  rw [writeReg_apply, hq]
  simp only [applyWrite_containLatch, hask, State.ask_read_field, State.emit_read_field]

theorem getLsbD_lowMask {n : Nat} (hn : n ≤ 32) (j : Nat) : (lowMask n).getLsbD j = decide (j < n) := by
  rw [lowMask, BitVec.getLsbD_ofNat, Nat.testBit_two_pow_sub_one]
  by_cases hj : j < n
  · simp [hj, lt_of_lt_of_le hj hn]
  · simp [hj]

/-! ## The settled statements -/

/-- Settles O10: the three writes, of a 0, of a 1 that is let through, and of a 1 the environment refuses. -/
theorem containLatchWrite : Obligations.ContainLatchWrite := by
  intro s a w v l _ hm hv
  subst hv
  have bit0 : ∀ x : Word, (((s.emit (.write (.containLatch l) x)).store (.containLatch l)
      (s.field (.containLatch l) &&& ~~~x)).field (.containLatch l)).getLsbD 0 = (s.field (.containLatch l) &&& ~~~x).getLsbD 0 :=
    fun x => congrArg (BitVec.getLsbD · 0) ((State.store_field_same ..).trans (s.field_and_defined _ _))
  have hrun : exec (.wr32 a w) s = outcomeOf s (writeReg (.containLatch l) (fromBus s.cfg (.containLatch l) w) s) := by
    change execWr32 a w s = _
    simp only [execWr32, hm]
  generalize fromBus s.cfg (.containLatch l) w = v at hrun ⊢
  rw [hrun]
  cases hb : v.getLsbD 0 with
  | false =>
    have hq : stuckQuery (.containLatch l) v = none := by simp only [stuckQuery, hb]; rfl
    rw [writeReg_plain hq]
    refine ⟨_, rfl, ?_, ?_, rfl, rfl, rfl, fun _ => rfl, rfl⟩
    · rw [applyWrite_containLatch]
      exact (bit0 v).trans (by rw [BitVec.getLsbD_and, BitVec.getLsbD_not, hb]; rfl)
    · exact (s.emit _).store_sameCellsBut _ _
  | true =>
    obtain ⟨env, he⟩ := (s.emit (.write (.containLatch l) v)).ask_snd (.containStuck l)
    rw [writeReg_containLatch s hb, he]
    cases hstuck : (s.ask (.containStuck l)).1 with
    | true => exact ⟨_, rfl, (Bool.and_true _).symm, fun _ _ => rfl, rfl, rfl, rfl, nofun, rfl⟩
    | false =>
      refine ⟨_, rfl, ?_, ?_, rfl, rfl, rfl, nofun, rfl⟩
      · exact (bit0 v).trans (by rw [BitVec.getLsbD_and, BitVec.getLsbD_not, hb]; rfl)
      · exact State.store_sameCellsBut { s with io := _ } _ _

/-- Settles O14: a request stores to two registers, which have two addresses; a written 0 stores to one. -/
theorem resetSequencerRequest : Obligations.ResetSequencerRequest := by
  intro s a w v l hw hm hv
  subst hv
  rw [exec_wr32_plain hm nofun]
  generalize fromBus s.cfg (.rstseqReq l) w = v
  have hfit : fits (.rstseqReq l) = true := mapped_fits hw (mappedReg_eq_some.mp hm).2.1
  have hne : busAddr (.rstseqReq l) ≠ busAddr (.rstseqStatus l) := busAddr_ne hfit hfit nofun
  refine ⟨_, rfl, ?_⟩
  rw [applyWrite_rstseqReq]
  have store := (s.emit (.write (.rstseqReq l) v)).store_sameCellsBut (.rstseqReq l) (v &&& 1#32)
  have hfield : ((s.emit (.write (.rstseqReq l) v)).store (.rstseqReq l) (v &&& 1#32)).field (.rstseqReq l) = v &&& 1#32 := by
    rw [State.store_field_same, BitVec.and_assoc]
    exact congrArg (v &&& ·) (BitVec.and_self)
  cases hb : v.getLsbD 0 with
  | false =>
    simp only [Bool.false_eq_true, if_false]
    exact ⟨hfield, nofun, fun _ => ⟨store, rfl⟩, fun _ _ => rfl, fun b hb => store b (by simp_all), rfl, rfl, rfl⟩
  | true =>
    simp only [if_true]
    refine ⟨?_, fun _ => ⟨?_, ?_⟩, nofun, fun j hj => ?_, fun b hb => ?_, rfl, rfl, rfl⟩
    · rw [State.setRstseqPending_read_field, State.store_field_other _ _ hne, hfield]
    · simp
    · simp [State.setRstseqPending_read]
    · simp only [State.setRstseqPending_read, if_neg hj]
      rfl
    · simp only [List.map_cons, List.map_nil, List.mem_cons, List.not_mem_nil, or_false, not_or] at hb
      simp [State.store_cellAt, hb]

/-- Settles O16: the bits of `setBits (new & ~old)` are the ports whose bit rises. -/
theorem warmResetWrite : Obligations.WarmResetWrite := by
  intro s a w v g hw hm hv hself
  subst hv
  rw [exec_wr32_plain hm nofun]
  generalize fromBus s.cfg (.warmReset g) w = v
  refine ⟨_, rfl, ?_⟩
  rw [applyWrite_warmReset]
  simp only [State.emit_cfg, State.emit_read_field]
  generalize hreach : warmReached s.cfg g (setBits (v &&& lowMask s.cfg.pgSize &&& ~~~s.field (.warmReset g))) = rs
  have risen : ∀ r, r ∈ rs ↔ ∃ p, (p < s.cfg.pgSize ∧ v.getLsbD p = true ∧ (s.field (.warmReset g)).getLsbD p = false)
      ∧ g * s.cfg.pgSize + p < s.cfg.nLink ∧ r ∈ warmResetSet s.cfg (g * s.cfg.pgSize + p) := by
    intro r
    have bits : ∀ p, p ∈ setBits (v &&& lowMask s.cfg.pgSize &&& ~~~s.field (.warmReset g)) ↔
        p < s.cfg.pgSize ∧ v.getLsbD p = true ∧ (s.field (.warmReset g)).getLsbD p = false := by
      intro p
      have hp := (configWf_sizes hw).ports.2
      rw [mem_setBits, BitVec.getLsbD_and, BitVec.getLsbD_and, BitVec.getLsbD_not, getLsbD_lowMask hp]
      by_cases h : p < s.cfg.pgSize
      · simp [h, lt_of_lt_of_le h hp]
      · simp [h]
    rw [← hreach, mem_warmReached]
    simp only [bits]
  have cell : ∀ b, (((s.emit (.write (.warmReset g) v)).store (.warmReset g) (v &&& lowMask s.cfg.pgSize)).resetRegs rs).cellAt b
      = if b ∈ rs.map busAddr then resetValue s.cfg b
        else if b = busAddr (.warmReset g) then v &&& lowMask s.cfg.pgSize else s.cellAt b := by
    intro b
    rw [State.resetRegs_cellAt, State.store_cellAt]
    rfl
  have hnot : busAddr (.warmReset g) ∉ rs.map busAddr := by
    intro h
    obtain ⟨r, hr, hb⟩ := List.mem_map.mp h
    obtain ⟨p, -, hl, hr⟩ := (risen r).mp hr
    exact hself _ hl (hb ▸ List.mem_map_of_mem hr)
  refine ⟨?_, fun p r hp hl hv ho hr => ?_, fun b hb hkept => ?_, State.resetRegs_hw _ _, ?_, ?_⟩
  · rw [State.field_eq_cellAt, cell, if_neg hnot, if_pos rfl, State.resetRegs_cfg]
    change v &&& lowMask s.cfg.pgSize &&& lowMask s.cfg.pgSize = _
    rw [BitVec.and_assoc, BitVec.and_self]
  · rw [cell, if_pos (List.mem_map_of_mem ((risen r).mpr ⟨p, ⟨hp, hv, ho⟩, hl, hr⟩))]
  · rw [cell, if_neg, if_neg hb]
    intro h
    obtain ⟨r, hr, rfl⟩ := List.mem_map.mp h
    obtain ⟨p, ⟨hp, hv, ho⟩, hl, hr⟩ := (risen r).mp hr
    exact hkept p hp hl hv ho (List.mem_map_of_mem hr)
  · exact (State.resetRegs_hardwareOnly _ _).parts.2.1
  · exact (State.resetRegs_hardwareOnly _ _).parts.2.2.1

/-- The registers the debug-clear pulse reaches are in the list of all port-family nodes, existing or not. -/
theorem portStatusRegs_subset {c : Config} {l : Nat} {r : Reg} (h : r ∈ portStatusRegs c l) :
    r ∈ portKinds.flatMap (fun k => [Reg.node k l .errStatus, .node k l .errFirst]) := by
  obtain ⟨k, hk, hr⟩ := List.mem_flatMap.mp h
  exact List.mem_flatMap.mpr ⟨k, List.mem_of_mem_filter hk, hr⟩

/-- R300: the pulse reaches no other register, whether it comes or not. -/
theorem zeroRegs_portStatus_cellAt (s : State) (c : Config) (l : Nat) {a : Nat}
    (ha : a ∉ (portKinds.flatMap (fun k => [Reg.node k l .errStatus, .node k l .errFirst])).map busAddr) :
    (s.zeroRegs (portStatusRegs c l)).cellAt a = s.cellAt a := by
  refine (s.zeroRegs_cellAt _ a).trans (if_neg fun h => ha ?_)
  obtain ⟨r, hr, rfl⟩ := List.mem_map.mp h
  exact List.mem_map_of_mem (portStatusRegs_subset hr)

theorem zeroRegs_field_mem (s : State) {rs : List Reg} {r : Reg} (hr : r ∈ rs) : (s.zeroRegs rs).field r = 0#32 := by
  rw [State.field_eq_cellAt, State.zeroRegs_cellAt, if_pos (List.mem_map_of_mem hr), BitVec.zero_and]

/-- Settles O17: the registers zeroed on a rising bit are those of the existing nodes, and none of them is DEBUG_CLEAR. -/
theorem debugClearWrite : Obligations.DebugClearWrite := by
  intro s a w v l hw hm hv
  subst hv
  rw [exec_wr32_plain hm nofun]
  generalize fromBus s.cfg (.debugClear l) w = v
  refine ⟨_, rfl, ?_⟩
  rw [applyWrite_debugClear]
  have hfit : fits (.debugClear l) = true := mapped_fits hw (mappedReg_eq_some.mp hm).2.1
  have stored := (s.emit (.write (.debugClear l) v)).store_sameCellsBut (.debugClear l) (v &&& 1#32)
  have hfield : ((s.emit (.write (.debugClear l) v)).store (.debugClear l) (v &&& 1#32)).field (.debugClear l) = v &&& 1#32 := by
    rw [State.store_field_same, BitVec.and_assoc]
    exact congrArg (v &&& ·) (BitVec.and_self)
  have hparts : HardwareOnly (s.emit (.write (.debugClear l) v)) ((s.emit (.write (.debugClear l) v)).store (.debugClear l) (v &&& 1#32)) := rfl
  have hhw : SameHardwareButCells s ((s.emit (.write (.debugClear l) v)).store (.debugClear l) (v &&& 1#32)) := rfl
  generalize (s.emit (.write (.debugClear l) v)).store (.debugClear l) (v &&& 1#32) = x at stored hfield hparts hhw ⊢
  by_cases hrise : v.getLsbD 0 = true ∧ (s.field (.debugClear l)).getLsbD 0 = false
  · rw [if_pos (by exact hrise)]
    have hnode : ∀ k ∈ portKinds, nodeExists s.cfg k l = true → ∀ r ∈ [Reg.node k l .errStatus, .node k l .errFirst],
        (x.zeroRegs (portStatusRegs s.cfg l)).field r = 0#32 := fun k hk hn r hr =>
      zeroRegs_field_mem x (List.mem_flatMap.mpr ⟨k, List.mem_filter.mpr ⟨hk, hn⟩, hr⟩)
    obtain ⟨-, hfault, hseq, hio⟩ := (hparts.trans (x.zeroRegs_hardwareOnly (portStatusRegs s.cfg l))).parts
    refine ⟨?_, fun _ _ k hk hn => ⟨hnode k hk hn _ (by simp), hnode k hk hn _ (by simp)⟩, fun h => absurd hrise h, fun b hb => ?_,
      (State.zeroRegs_hw x _).trans ?_, hfault, hseq, hio⟩
    · refine (zeroRegs_field (fun r hr => portStatusRegs_fits hw hr) x hfit).trans ((if_neg fun h => ?_).trans hfield)
      cases portStatusRegs_access h
    · rw [List.map_cons, List.mem_cons, not_or] at hb
      exact (zeroRegs_portStatus_cellAt x s.cfg l hb.2).trans (stored b (by simpa using hb.1))
    · rw [hhw]
  · rw [if_neg (by exact hrise)]
    obtain ⟨-, hfault, hseq, hio⟩ := hparts.parts
    refine ⟨hfield, fun h1 h0 => absurd ⟨h1, h0⟩ hrise, fun _ => stored, fun b hb => stored b ?_, hhw, hfault, hseq, hio⟩
    rw [List.map_cons, List.mem_cons, not_or] at hb
    simpa using hb.1

end Sys2Proof.Machine

/-! PROOFS. Family 44_recovery: RSTDRAIN around its links (R281, R309, R310, R313): what is owed once they are behind it, the mutex
taken and released for each, and the response words (R119). A RSTDRAIN of no link, and one whose link is skipped (R282, R283). -/

namespace Sys2Proof.Machine

/-! ## Step 15 and the Result (R309, R310) -/

/-- The events of step 15 (R309). -/
def State.trainingEvents (s : State) : List Event :=
  [.extCall .launchTraining none] ++ (if (s.ask .trainingOk).1 then [] else [.log .trainingFailed])

/-- The environment says whether the training was launched; a failure is logged after the call. -/
theorem asked_training {s a : State} (hh : a.io.history = s.io.history ++ [.extCall .launchTraining none]) (he : a.io.env = s.io.env) :
    ∃ env, (if (a.ask .trainingOk).1 then (a.ask .trainingOk).2 else (a.ask .trainingOk).2.emit (.log .trainingFailed))
      = { a with io := { a.io with history := s.io.history ++ s.trainingEvents, env := env } } := by
  obtain ⟨env, hask⟩ := a.ask_snd .trainingOk
  refine ⟨env, ?_⟩
  rw [hask, State.ask_congr he, State.trainingEvents, ← List.append_assoc, ← hh]
  split_ifs
  · rw [List.append_nil]
  · rfl

/-- Step 15 calls launch_training and asks how it went; of the rest of the machine only the owed steps change. -/
theorem advanceRcv_launches {s : State} {q : RcvTail} (hq : s.seq.rcvTail = some q) (hl : q.launched = false) :
    ∃ env, advanceRcv s = .ok () { s with
      seq := { s.seq with rcvTail := some { q with launched := true } }
      io := { s.io with history := s.io.history ++ s.trainingEvents, env := env } } := by
  obtain ⟨env, he⟩ := asked_training (s := s)
    (a := (s.setRcvTail (some { q with launched := true })).emit (.extCall .launchTraining none)) rfl rfl
  exact ⟨env, (advanceRcv_training hq hl).trans (congrArg _ he)⟩

/-- Both owed steps, one after the other. -/
theorem State.trained_eq (s : State) (sts : List (Nat × LinkStatus × Nat)) : ∃ env, s.trained sts = { s with
    seq := { s.seq with rcvLink := none, rcvStep := none, rcvTail := none }
    io := { s.io with
      history := s.io.history ++ s.trainingEvents ++ [.result (.rstdrain (anyFailed sts) sts)]
      responses := s.io.responses ++ [rstdrainWords (anyFailed sts) sts]
      env := env } } := by
  obtain ⟨env, he⟩ := asked_training (s := s)
    (a := ((s.oweTraining sts).setRcvTail (some { sts := sts, launched := true })).emit (.extCall .launchTraining none)) rfl rfl
  refine ⟨env, ?_⟩
  simp only [State.trained]
  rw [he]
  simp only [State.oweTraining, State.setRcvLink, State.setRcvStep, State.setRcvTail, State.emit, State.respond]

/-! ## The links of a batch (R281) -/

/-- RCV has come to link `l` and holds the mutex for it. -/
def State.enterRecovery (s : State) (l : Nat) : State := ((s.setRcvLink (some l)).setRcvStep (some 1)).setLock (.rcv l)

/-- The mutex is free again. -/
def State.leaveRecovery (s : State) : State := (s.setLock .free).setCursor none

section
variable {s t : State} {forced : Bool} {masks : List Word} {l : Nat} {ls : List Nat} {st : LinkStatus × Nat}

/-- The first link of a batch, then the others. -/
theorem recoverAll_cons (hs : s.io.sched = []) (hl : s.seq.lock = .free) (h : recover l forced (s.enterRecovery l) = .ok st t) :
    recoverAll forced (l :: ls) s = (recoverAll forced ls >>= fun sts => pure ((l, st) :: sts)) t.leaveRecovery := by
  let a := (s.setRcvLink (some l)).setRcvStep (some 1)
  have hwindow : window a = .ok () a := window_quiet hs
  have hlock : lock (.rcv l) a = .ok () (s.enterRecovery l) := lock_free (s := a) hl (.rcv l)
  rw [recoverAll, Act.modify_bind, Act.bind_of_ok hwindow, Act.bind_of_ok hlock, Act.bind_of_ok h, Act.bind_of_ok (unlock_apply t)]
  rfl

theorem recoverAll_single (hs : s.io.sched = []) (hl : s.seq.lock = .free) (h : recover l forced (s.enterRecovery l) = .ok st t) :
    recoverAll forced [l] s = .ok [(l, st)] t.leaveRecovery := recoverAll_cons hs hl h

/-- A RSTDRAIN whose links have been recovered. -/
theorem exec_rstdrain_of {sts : List (Nat × LinkStatus × Nat)} (htail : s.seq.rcvTail = none)
    (ha : admitted s.cfg (.rstdrain forced masks) = true) (h : recoverAll forced (linkSet masks) s = .ok sts t) (ht : t.io.sched = []) :
    exec (.rstdrain forced masks) s = .next (t.trained sts) := by
  rw [exec_commandProgram (p := progRstdrain forced masks) rfl, runCommand_admitted ha, progRstdrain_quiet htail h ht]
  rfl

/-- A RSTDRAIN of one link. -/
theorem exec_rstdrain_single (hq : Quiet s) (htail : s.seq.rcvTail = none) (ha : admitted s.cfg (.rstdrain forced masks) = true)
    (hl : linkSet masks = [l]) (h : recover l forced (s.enterRecovery l) = .ok st t) (ht : t.io.sched = []) :
    exec (.rstdrain forced masks) s = .next (t.leaveRecovery.trained [(l, st)]) :=
  exec_rstdrain_of htail ha (by rw [hl]; exact recoverAll_single hq.1 hq.2.2 h) ht

/-- The mutex and the cursor are no part of what the environment answers from. -/
theorem trainingEvents_leaveRecovery (t : State) : t.leaveRecovery.trainingEvents = t.trainingEvents := by
  rw [State.trainingEvents, State.trainingEvents, State.ask_congr (s := t.leaveRecovery) (t := t) rfl]

/-- What a RSTDRAIN leaves behind: the machine as the links' recoveries left it, step 15, the Result and the response. -/
structure Drained (t : State) (sts : List (Nat × LinkStatus × Nat)) (u : State) : Prop where
  cfg : u.cfg = t.cfg
  hw : u.hw = t.hw
  fault : u.fault = t.fault
  seq : u.seq = { t.seq with rcvLink := none, rcvStep := none, rcvTail := none }
  history : u.io.history = t.io.history ++ (t.trainingEvents ++ [.result (.rstdrain (anyFailed sts) sts)])
  responses : u.io.responses = t.io.responses ++ [rstdrainWords (anyFailed sts) sts]

theorem State.trained_drained (t : State) (sts : List (Nat × LinkStatus × Nat)) : Drained t sts (t.trained sts) := by
  obtain ⟨env, he⟩ := t.trained_eq sts
  rw [he]
  exact ⟨rfl, rfl, rfl, rfl, List.append_assoc _ _ _, rfl⟩

/-- A RSTDRAIN of one link ends as its recovery does, the mutex free. -/
theorem exec_rstdrain_single_leaves (hq : Quiet s) (htail : s.seq.rcvTail = none) (ha : admitted s.cfg (.rstdrain forced masks) = true)
    (hl : linkSet masks = [l]) (h : recover l forced (s.enterRecovery l) = .ok st t) :
    ∃ u, exec (.rstdrain forced masks) s = .next u ∧ u.cfg = t.cfg ∧ u.hw = t.hw ∧ u.fault = t.fault ∧ u.seq.snap = t.seq.snap
      ∧ u.seq.lock = .free
      ∧ u.io.history = t.io.history ++ (t.trainingEvents ++ [.result (.rstdrain (anyFailed [(l, st)]) [(l, st)])])
      ∧ u.io.responses = s.io.responses ++ [rstdrainWords (anyFailed [(l, st)]) [(l, st)]] := by
  obtain ⟨_, _, e, ht, hcalm⟩ := calm_recover (c := s.cfg) l forced (s.enterRecovery l) ⟨hq.1, rfl⟩
  rw [h] at e
  cases e
  have hu := t.leaveRecovery.trained_drained [(l, st)]
  have hhistory := hu.history
  rw [trainingEvents_leaveRecovery] at hhistory
  have hresponses : t.io.responses = s.io.responses := hcalm.responses
  refine ⟨_, exec_rstdrain_single hq htail ha hl h ht.1, hu.cfg, hu.hw, hu.fault, by rw [hu.seq]; rfl, by rw [hu.seq]; rfl, hhistory, ?_⟩
  rw [← hresponses]
  exact hu.responses

theorem linkSet_lt {c : Config} (ha : admitted c (.rstdrain forced masks) = true) : ∀ j ∈ linkSet masks, j < c.nLink := by
  simp only [admitted, Bool.and_eq_true, List.all_eq_true, decide_eq_true_eq] at ha
  exact ha.2

theorem linkSet_single_lt {c : Config} (hw : configWf c = true) (ha : admitted c (.rstdrain forced masks) = true)
    (hl : linkSet masks = [l]) : l < 4096 :=
  lt_of_lt_of_le (linkSet_lt ha l (by rw [hl]; exact List.mem_singleton_self l)) (configWf_sizes hw).links.2

end

/-! ## Response words (R119) -/

/-- The link stands in the low 12 bits of its word. -/
theorem linkWord_eq {l : Nat} (h : l < 4096) (st : LinkStatus) (stp : Nat) :
    linkWord l st stp = linkWord 0 st stp ||| BitVec.ofNat 32 l := by
  refine BitVec.eq_of_getLsbD_eq fun i hi => ?_
  simp only [linkWord, BitVec.getLsbD_or, BitVec.getLsbD_append, BitVec.getLsbD_ofNat]
  by_cases hlow : i < 12
  · simp [hlow, hi]
  · have hbit : l.testBit i = false := Nat.testBit_lt_two_pow (lt_of_lt_of_le h (Nat.pow_le_pow_right (n := 2) (by decide) (by omega : 12 ≤ i)))
    simp [hlow, hbit]

/-- The response to a RSTDRAIN of one link. -/
theorem rstdrainWords_single {l : Nat} (h : l < 4096) (st : LinkStatus) (stp : Nat) :
    rstdrainWords (anyFailed [(l, st, stp)]) [(l, st, stp)]
      = [if st.isError then 0x00001001#32 else 0x00001000#32, linkWord 0 st stp ||| BitVec.ofNat 32 l] := by
  have header : ∀ b, (0#4 ++ BitVec.ofNat 16 1 ++ 0#11 ++ BitVec.ofBool b : Word) = if b then 0x00001001#32 else 0x00001000#32 := by decide
  have hfailed : anyFailed [(l, st, stp)] = st.isError := Bool.or_false _
  rw [← linkWord_eq h, hfailed, ← header]
  rfl

/-! ## The settled statements -/

/-- Settles O48: the batch of no link is empty, and the owed steps are `advanceRcv` twice. -/
theorem rstdrainOfNoLink : Obligations.RstdrainOfNoLink := by
  refine ⟨fun s forced masks hs htail ha hl => ?_, fun s q later hin hq => ⟨fun hl => ?_, fun hl => ?_⟩⟩
  · obtain ⟨env, he⟩ := s.trained_eq []
    have hrun := exec_rstdrain_of htail ha (by rw [hl]; rfl) hs
    rw [he] at hrun
    refine ⟨_, hrun, rfl, rfl, by rw [← htail], ?_⟩
    simp only [State.trainingEvents, List.append_assoc, List.cons_append, List.nil_append]
    rfl
  · obtain ⟨env, he⟩ := advanceRcv_launches (s := s.setInbox later) hq hl
    refine ⟨_, (step_move hin).trans (congrArg (outcomeOf s) he), rfl, rfl, rfl, ?_⟩
    have hask : ((s.setInbox later).ask .trainingOk).1 = (s.ask .trainingOk).1 := State.ask_congr (by rfl) _
    simp only [State.trainingEvents, hask, List.append_assoc, List.cons_append, List.nil_append]
    rfl
  · have he := advanceRcv_result (s := s.setInbox later) hq hl
    exact ⟨_, (step_move hin).trans (congrArg (outcomeOf s) he), rfl, rfl, rfl, rfl⟩

/-- RECOVER of a link the gate excludes ends at step 1 (R282). -/
theorem recover_excluded {s : State} {forced : Bool} {l : Nat} (h : forcedGate s forced l = false) :
    recover l forced s = .ok (.skippedNotForced, 0) (s.setRcvStep (some 1)) := by
  have hg : forcedGate (s.setRcvStep (some 1)) forced l = false :=
    (forcedGate_congr (s := s) (t := s.setRcvStep (some 1)) rfl rfl rfl forced l).trans h
  unfold recover
  rw [Act.bind_of_ok (setStep_apply _ _), Act.get_bind, hg]
  rfl

/-- RECOVER of a link that fails Validate logs it and ends at step 1 (R283). -/
theorem recover_invalid {s : State} {forced : Bool} {l : Nat} (h : forcedGate s forced l = true) (hv : validLink s l = false) :
    recover l forced s = .ok (.skippedInvalid, 0) ((s.setRcvStep (some 1)).emit (.log (.invalidLink l))) := by
  have hg : forcedGate (s.setRcvStep (some 1)) forced l = true :=
    (forcedGate_congr (s := s) (t := s.setRcvStep (some 1)) rfl rfl rfl forced l).trans h
  have hv' : validLink (s.setRcvStep (some 1)) l = false := hv
  unfold recover
  rw [Act.bind_of_ok (setStep_apply _ _), Act.get_bind, hg, if_pos rfl, Act.get_bind, hv']
  rfl

/-- RECOVER of a link that goes through both is steps 2 to 14. -/
theorem recover_valid {s : State} {forced : Bool} {l : Nat} (h : forcedGate s forced l = true) (hv : validLink s l = true) :
    recover l forced s = recoverValid l (s.setRcvStep (some 1)) := by
  have hg : forcedGate (s.setRcvStep (some 1)) forced l = true :=
    (forcedGate_congr (s := s) (t := s.setRcvStep (some 1)) rfl rfl rfl forced l).trans h
  have hv' : validLink (s.setRcvStep (some 1)) l = true := hv
  unfold recover
  rw [Act.bind_of_ok (setStep_apply _ _), Act.get_bind, hg, if_pos rfl, Act.get_bind, hv', if_pos rfl]

/-- RCV's bookkeeping is no part of what the gate sees. -/
theorem forcedGate_enterRecovery (s : State) (forced : Bool) (l j : Nat) : forcedGate (s.enterRecovery l) forced j = forcedGate s forced j :=
  forcedGate_congr (s := s) (t := s.enterRecovery l) rfl rfl rfl forced j

/-- Step 15 and a Result log no invalid link. -/
theorem invalidLink_not_mem_training (s : State) (r : ResultEvent) (j : Nat) : .log (.invalidLink j) ∉ s.trainingEvents ++ [.result r] := by
  unfold State.trainingEvents
  split_ifs <;> simp

/-- Settles O52: a skipped link ends at step 1, and what follows is step 15. -/
theorem rstdrainSkips : Obligations.RstdrainSkips := by
  intro s forced masks l hw hq htail ha hl
  have hlt := linkSet_single_lt hw ha hl
  refine ⟨fun hg => ?_, fun hg hv => ?_⟩
  · have hrec := recover_excluded ((forcedGate_enterRecovery s forced l l).trans hg)
    obtain ⟨u, hu, -, hhw, hfault, -, -, hhist, hresp⟩ := exec_rstdrain_single_leaves hq htail ha hl hrec
    rw [rstdrainWords_single hlt] at hresp
    exact ⟨u, _, hu, hhw, hfault, hhist, invalidLink_not_mem_training _ _, hresp⟩
  · have hrec := recover_invalid ((forcedGate_enterRecovery s forced l l).trans hg) hv
    obtain ⟨u, hu, -, hhw, hfault, -, -, hhist, hresp⟩ := exec_rstdrain_single_leaves hq htail ha hl hrec
    rw [rstdrainWords_single hlt] at hresp
    exact ⟨u, _, hu, hhw, hfault, hhist.trans (List.append_assoc _ [_] _), invalidLink_not_mem_training _ _, hresp⟩

end Sys2Proof.Machine

/-! PROOFS. Family 44_recovery: what the recovery of one link may change, whatever the environment answers, with no other agent
moving. `Covers` says of a relation that it holds across every access to some registers; `recover_covered` that it then holds across
the recovery. Two relations are of this kind: the fault state of the other links is kept (`OthersKept`), and so is, under a
well-formed configuration, all hardware but the link's own (`LinkOnly`). -/

namespace Sys2Proof.Machine

/-! ## Accesses -/

/-- A relation that sees neither the sequencers' own state nor what is added to H. -/
structure Unseeing (R : State → State → Prop) : Prop where
  chains : Chains R
  record : ∀ {s t : State}, t.cfg = s.cfg → t.hw = s.hw → t.fault = s.fault → t.io.env = s.io.env
    → s.io.history <+: t.io.history → R s t

/-- A relation that holds across every access to the registers `W` and every question in `Q`. -/
structure Covers (c : Config) (W : Reg → Prop) (Q : EnvQuery → Prop) (R : State → State → Prop) : Prop extends Unseeing R where
  ask : ∀ (s : State) q, Q q → R s (s.ask q).2
  write : ∀ (s : State) r v b, s.cfg = c → W r → R s (s.applyWrite r v b)
  stuck : ∀ r v q, W r → stuckQuery r v = some q → Q q

/-- The relation holds, and the snapshot is as before. -/
def Covering (R : State → State → Prop) (s t : State) : Prop := R s t ∧ t.seq.snap = s.seq.snap

/-- The snapshot holds registers in `W` only. -/
def SnapIn (W : Reg → Prop) (s : State) : Prop := ∀ w ∈ s.seq.snap, W w.1

theorem SnapIn.of_eq {W : Reg → Prop} {s t : State} (h : SnapIn W s) (e : t.seq.snap = s.seq.snap) : SnapIn W t := by
  unfold SnapIn
  rw [e]
  exact h

variable {c : Config} {W : Reg → Prop} {Q : EnvQuery → Prop} {R : State → State → Prop} {l : Nat}

section
variable (H : Covers c W Q R)
include H

theorem Covers.covering : Chains (Covering R) :=
  ⟨fun s => ⟨H.chains.refl s, rfl⟩, fun h k => ⟨H.chains.trans h.1 k.1, k.2.trans h.2⟩⟩

theorem covered_pure {α : Type} (a : α) : Quietly c (Covering R) (pure a : Act α) := Quietly.pure H.covering a

theorem covered_bind {α β : Type} {x : Act α} {f : α → Act β} (hx : Quietly c (Covering R) x) (hf : ∀ a, Quietly c (Covering R) (f a)) :
    Quietly c (Covering R) (x >>= f) := Quietly.bind H.covering hx hf

/-- An update of the sequencers' own state that leaves the snapshot. -/
theorem covered_modify {g : State → State}
    (hg : ∀ s, ((g s).cfg, (g s).hw, (g s).fault, (g s).io, (g s).seq.snap) = (s.cfg, s.hw, s.fault, s.io, s.seq.snap)) :
    Quietly c (Covering R) (modify g : Act PUnit) := by
  have parts : ∀ s, (g s).cfg = s.cfg ∧ (g s).hw = s.hw ∧ (g s).fault = s.fault ∧ (g s).io = s.io ∧ (g s).seq.snap = s.seq.snap :=
    fun s => by simpa only [Prod.mk.injEq] using hg s
  refine Quietly.modify (fun s _ => ?_) fun s hs => ?_
  · obtain ⟨hc, hh, hf, hio, hsnap⟩ := parts s
    exact ⟨H.record hc hh hf (by rw [hio]) (by rw [hio]), hsnap⟩
  · obtain ⟨hc, -, -, hio, -⟩ := parts s
    exact ⟨by rw [hio]; exact hs.1, hc.trans hs.2⟩

theorem covered_setStep (n : Nat) : Quietly c (Covering R) (setStep n) := covered_modify H fun _ => rfl

theorem covered_emit (e : Event) : Quietly c (Covering R) (emit e) :=
  Quietly.emit fun s => ⟨H.record (t := s.emit e) rfl rfl rfl rfl (List.prefix_append _ _), rfl⟩

theorem covered_askEnv {q : EnvQuery} (hq : Q q) : Quietly c (Covering R) (askEnv q) :=
  Quietly.askEnv fun s => ⟨H.ask s q hq, by rw [State.ask_seq]⟩

theorem covered_rd (r : Reg) : Quietly c (Covering R) (rd r) := Quietly.rd H.covering r

theorem covered_extCall (n : ExtName) (j : Option Nat) : Quietly c (Covering R) (extCall n j) :=
  fun _ hs => ⟨(), _, extCall_quiet hs.1 n j, hs, H.record rfl rfl rfl rfl (List.prefix_append _ _), rfl⟩

/-- A write whose effect the relation covers. -/
theorem covered_effect {s : State} {r : Reg} {v : Word} (hs : Alone c s) (hq : stuckQuery r v = none)
    (h : R (s.emit (.write r v)) ((s.emit (.write r v)).applyWrite r v false)) :
    ∃ t, wr r v s = .ok () t ∧ Alone c t ∧ Covering R s t := by
  obtain ⟨hc, -, hseq, hio⟩ := ((s.emit (.write r v)).applyWrite_hardwareOnly r v false).parts
  refine ⟨_, wr_quiet hs.1 hq, ⟨by rw [hio]; exact hs.1, hc.trans hs.2⟩, ?_, ?_⟩
  · exact H.chains.trans (H.record (t := s.emit (.write r v)) rfl rfl rfl rfl (List.prefix_append _ _)) h
  · rw [hseq]
    rfl

theorem covered_wr {r : Reg} (hr : W r) (v : Word) : Quietly c (Covering R) (wr r v) := by
  intro s hs
  cases hq : stuckQuery r v with
  | none =>
    obtain ⟨t, e, ht, h⟩ := covered_effect H hs hq (H.write _ r v false hs.2 hr)
    exact ⟨(), t, e, ht, h⟩
  | some q =>
    obtain ⟨t, e, hc, -, hseq, hio⟩ := writeReg_ok r v s
    refine ⟨(), t, (Act.bind_of_ok (tick_quiet hs.1)).trans e, ⟨by rw [hio]; exact hs.1, hc.trans hs.2⟩, ?_, ?_⟩
    · rw [writeReg_apply, hq] at e
      cases e
      refine H.chains.trans (H.chains.trans (H.record (t := s.emit (.write r v)) rfl rfl rfl rfl (List.prefix_append _ _))
        (H.ask _ q (H.stuck r v q hr hq))) (H.write _ r v _ ?_ hr)
      rw [State.ask_cfg]
      exact hs.2
    · rw [hseq]

theorem covered_wrAll {ws : List (Reg × Word)} (h : ∀ w ∈ ws, W w.1) : Quietly c (Covering R) (wrAll ws) := by
  induction ws with
  | nil => exact covered_pure H _
  | cons w ws ih =>
    exact covered_bind H (covered_wr H (h w (List.mem_cons_self ..)) _) fun _ => ih fun x hx => h x (List.mem_cons_of_mem _ hx)

/-- A responder changes hardware only (R167). -/
theorem covered_poll (r : Reg) {q : EnvQuery} (hq : Q q) {g : State → State}
    (hg : ∀ s, (g s).cfg = s.cfg ∧ (g s).seq = s.seq ∧ (g s).io = s.io) (hR : ∀ s, s.cfg = c → R s (g s)) :
    Quietly c (Covering R) (poll r q g) := by
  unfold poll
  refine covered_bind H (covered_rd H r) fun _ => Quietly.ite (covered_pure H _) (covered_bind H (covered_askEnv H hq) fun _ =>
    Quietly.ite (covered_bind H (x := modify g) ?_ fun _ => covered_pure H _) (covered_pure H _))
  refine Quietly.modify (fun s hs => ⟨hR s hs.2, by rw [(hg s).2.1]⟩) fun s hs => ⟨?_, (hg s).1.trans hs.2⟩
  rw [(hg s).2.2]
  exact hs.1

theorem covered_zeroRam {addr data : Reg} (ha : W addr) (hd : W data) (is : List Nat) :
    Quietly c (Covering R) (zeroRam addr data is) := by
  induction is with
  | nil => exact covered_pure H _
  | cons i is ih => exact covered_bind H (covered_wr H ha _) fun _ => covered_bind H (covered_wr H hd _) fun _ => ih

theorem covered_seedGanged (ha : W (.tblAddr l)) (hd : W (.tblData l)) (is : List Nat) :
    Quietly c (Covering R) (seedGanged l is) := by
  induction is with
  | nil => exact covered_pure H _
  | cons i is ih =>
    exact covered_bind H (covered_wr H ha _) fun _ => Quietly.get fun _ _ => covered_bind H (covered_wr H hd _) fun _ => ih

/-- Step 4's reads add listed registers to the snapshot (R287). -/
theorem snapshotRegs_covered {rs : List Reg} (h : ∀ r ∈ rs, W r) :
    Quietly c (fun s t => R s t ∧ (SnapIn W s → SnapIn W t)) (snapshotRegs rs) := by
  have chains : Chains fun s t => R s t ∧ (SnapIn W s → SnapIn W t) :=
    ⟨fun s => ⟨H.chains.refl s, id⟩, fun h k => ⟨H.chains.trans h.1 k.1, k.2 ∘ h.2⟩⟩
  induction rs with
  | nil => exact Quietly.pure chains _
  | cons r rs ih =>
    have hrd : Quietly c (fun s t => R s t ∧ (SnapIn W s → SnapIn W t)) (rd r) := fun s hs =>
      ⟨_, s, rd_quiet hs.1 r, hs, H.chains.refl s, id⟩
    refine Quietly.bind chains hrd fun v => Quietly.bind chains (x := modify _) ?_ fun _ => ih fun x hx => h x (List.mem_cons_of_mem _ hx)
    refine Quietly.modify (fun s _ => ⟨H.record rfl rfl rfl rfl List.prefix_rfl, fun hin w hw => ?_⟩) fun _ hs => hs
    rcases List.mem_append.mp hw with hw | hw
    · exact hin w hw
    · rw [List.mem_singleton.mp hw]
      exact h r (List.mem_cons_self ..)

/-! ## The steps that change no fault state (R286 to R305) -/

theorem covered_stepQuiesce (hq : Q (.linkInReset l)) : Quietly c (Covering R) (stepQuiesce l) :=
  covered_bind H (covered_setStep H 3) fun _ => covered_bind H (covered_askEnv H hq) fun _ => Quietly.ite (covered_pure H _)
    (covered_bind H (covered_extCall H _ _) fun _ => covered_extCall H _ _)

/-- After step 4 the snapshot is of SNAP_LIST, whatever it held before (R287). -/
theorem stepSnapshot_covered (hW : ∀ r ∈ snapList c l, W r) {s : State} (hs : Alone c s) :
    ∃ t, stepSnapshot l s = .ok () t ∧ Alone c t ∧ R s t ∧ SnapIn W t := by
  obtain ⟨_, t, e, ht, hR, hin⟩ := snapshotRegs_covered H hW ((s.setRcvStep (some 4)).setSnap []) hs
  have hstart : R s ((s.setRcvStep (some 4)).setSnap []) := H.record rfl rfl rfl rfl List.prefix_rfl
  refine ⟨t, ?_, ht, H.chains.trans hstart hR, hin nofun⟩
  unfold stepSnapshot
  rw [Act.bind_of_ok (setStep_apply _ _), Act.modify_bind, Act.get_bind, show ((s.setRcvStep (some 4)).setSnap []).cfg = c from hs.2]
  exact e

theorem covered_stepStop (hW : W (.ctrlStop l)) : Quietly c (Covering R) (stepStop l) :=
  covered_bind H (covered_setStep H 5) fun _ => covered_bind H (covered_rd H _) fun _ => covered_bind H (covered_wr H hW _) fun _ =>
    covered_emit H _

theorem covered_stepMask (hp : W (.portIntrCtrl l)) (hm : W (.lmIntrCtrl l)) : Quietly c (Covering R) (stepMask l) :=
  covered_bind H (covered_setStep H 6) fun _ => covered_bind H (covered_wr H hp _) fun _ => covered_wr H hm _

/-- The write of step 7, with the value it reads (R295). -/
def WarmCovered (c : Config) (l : Nat) (R : State → State → Prop) : Prop := ∀ s : State, s.cfg = c →
  R s (s.applyWrite (.warmReset (pg c l)) (s.field (.warmReset (pg c l)) ||| bit (pl c l)) false)

/-- The first write of step 9, with the value it reads (R299). -/
def CoolCovered (c : Config) (l : Nat) (R : State → State → Prop) : Prop := ∀ s : State, s.cfg = c →
  R s (s.applyWrite (.warmReset (pg c l)) (s.field (.warmReset (pg c l)) &&& ~~~bit (pl c l)) false)

theorem covered_stepWarmReset (hwarm : WarmCovered c l R) : Quietly c (Covering R) (stepWarmReset l) := by
  refine covered_bind H (covered_setStep H 7) fun _ => fun s hs => ?_
  obtain ⟨t, e, ht, h⟩ := covered_effect H (r := .warmReset (pg c l)) (v := s.field (.warmReset (pg c l)) ||| bit (pl c l)) hs rfl (hwarm (s.emit _) hs.2)
  refine ⟨(), t, ?_, ht, h⟩
  rw [Act.get_bind, Act.bind_of_ok (rd_quiet hs.1 _), hs.2]
  exact e

theorem covered_stepRstseq (hW : W (.rstseqReq l)) (hq : Q (.rstseqAck l)) (hR : ∀ s, s.cfg = c → R s (s.ackRstseq l)) :
    Quietly c (Covering R) (stepRstseq l) :=
  covered_bind H (covered_setStep H 8) fun _ => covered_bind H (covered_wr H hW _) fun _ =>
    covered_poll H _ hq (fun s => (s.responder_frame l).1) hR

theorem covered_stepDeassert (hcool : CoolCovered c l R) (hW : W (.debugClear l)) : Quietly c (Covering R) (stepDeassert l) := by
  refine covered_bind H (covered_setStep H 9) fun _ => fun s hs => ?_
  obtain ⟨t, e, ht, h⟩ := covered_effect H (r := .warmReset (pg c l)) (v := s.field (.warmReset (pg c l)) &&& ~~~bit (pl c l)) hs rfl (hcool (s.emit _) hs.2)
  obtain ⟨a, u, e', hu, h'⟩ := (covered_bind H (covered_wr H hW 1#32) fun _ => covered_wr H hW 0#32) t ht
  refine ⟨a, u, ?_, hu, H.covering.trans h h'⟩
  rw [Act.get_bind, Act.bind_of_ok (rd_quiet hs.1 _), hs.2]
  exact (Act.bind_of_ok e).trans e'

theorem covered_stepContain (hW : W (.containLatch l)) : Quietly c (Covering R) (stepContain l) :=
  covered_bind H (covered_setStep H 10) fun _ => covered_bind H (covered_wr H hW _) fun _ => covered_bind H (covered_rd H _) fun _ =>
    covered_pure H _

theorem covered_stepRams (hW : ∀ r ∈ [Reg.tagpoolInit l, .crumbAddr l, .crumbData l, .camAddr l, .camData l], W r)
    (hq : Q (.raminitDone l)) (hR : ∀ s, s.cfg = c → R s (s.finishRamInit l)) : Quietly c (Covering R) (stepRams l) :=
  covered_bind H (covered_setStep H 11) fun _ => covered_bind H (covered_wr H (hW _ (by simp)) _) fun _ => Quietly.get fun _ _ =>
    covered_bind H (covered_zeroRam H (hW _ (by simp)) (hW _ (by simp)) _) fun _ => Quietly.get fun _ _ =>
      covered_bind H (covered_zeroRam H (hW _ (by simp)) (hW _ (by simp)) _) fun _ =>
        covered_poll H _ hq (fun s => (s.responder_frame l).2.1) hR

end

/-! ## The whole recovery -/

/-- The registers a recovery of link `l` writes by name, WARM_RESET apart (R285 to R308). -/
def recoveryAccesses (c : Config) (l : Nat) : List Reg :=
  [Reg.ctrlStop l, .portIntrCtrl l, .lmIntrCtrl l, .rstseqReq l, .debugClear l, .containLatch l, .tagpoolInit l, .crumbAddr l,
      .crumbData l, .camAddr l, .camData l, .tblAddr l, .tblData l, .scratchPort (l / 32)]
    ++ snapList c l ++ (rearmWrites c l).map (fun w => w.1)

/-- A relation that holds across every part of a recovery of link `l`. -/
structure CoversRecovery (c : Config) (l : Nat) (W : Reg → Prop) (Q : EnvQuery → Prop) (R : State → State → Prop) : Prop extends
    Covers c W Q R where
  registers : ∀ r ∈ recoveryAccesses c l, W r
  questions : ∀ q ∈ [EnvQuery.linkInReset l, .rstseqAck l, .raminitDone l, .registerOk l], Q q
  warm : WarmCovered c l R
  cool : CoolCovered c l R
  acked : ∀ s, s.cfg = c → R s (s.ackRstseq l)
  initialised : ∀ s, s.cfg = c → R s (s.finishRamInit l)
  phase : ∀ (s : State) p, R s (s.setPhase l p)
  registration : ∀ (s : State) b, R s (s.setRegistered l b)
  flag : ∀ s : State, R s (s.setFatalOccurred l false)

section
variable (H : CoversRecovery c l W Q R)
include H

theorem CoversRecovery.named {r : Reg} (h : r ∈ recoveryAccesses c l := by simp [recoveryAccesses]) : W r := H.registers r h

theorem CoversRecovery.asked {q : EnvQuery} (h : q ∈ [EnvQuery.linkInReset l, .rstseqAck l, .raminitDone l, .registerOk l] := by simp) :
    Q q := H.questions q h

omit H in
/-- An update of the link's fault state. -/
theorem covered_faultUpdate {g : State → State} (hg : ∀ s, (g s).cfg = s.cfg ∧ (g s).seq.snap = s.seq.snap ∧ (g s).io.sched = s.io.sched)
    (hR : ∀ s, R s (g s)) : Quietly c (Covering R) (modify g : Act PUnit) := by
  exact Quietly.modify (fun s _ => ⟨hR s, (hg s).2.1⟩) fun s hs => ⟨(hg s).2.2.trans hs.1, (hg s).1.trans hs.2⟩

theorem covered_stepUnregister : Quietly c (Covering R) (stepUnregister l) :=
  covered_bind H.toCovers (covered_setStep H.toCovers 2) fun _ => covered_bind H.toCovers (covered_extCall H.toCovers _ _) fun _ =>
    covered_faultUpdate (fun _ => ⟨rfl, rfl, rfl⟩) fun s => H.chains.trans (H.registration s false) (H.phase _ .reset)

/-- The snapshot is written back and discarded (R306). -/
theorem stepRestore_covered {s : State} (hs : Alone c s) (hin : SnapIn W s) :
    ∃ t, stepRestore l s = .ok () t ∧ Alone c t ∧ R s t := by
  obtain ⟨_, a, ea, ha, hRa, -⟩ := covered_wrAll H.toCovers hin (s.setRcvStep (some 12)) hs
  obtain ⟨_, b, eb, hb, hRb, -⟩ := covered_seedGanged (l := l) H.toCovers (H.named) (H.named) (List.range a.cfg.gangedDepth) a ha
  refine ⟨(b.setSnap []).setPhase l .restored, ?_, hb, ?_⟩
  · unfold stepRestore
    rw [Act.bind_of_ok (setStep_apply _ _), Act.get_bind]
    refine (Act.bind_of_ok ea).trans ?_
    rw [Act.get_bind, Act.bind_of_ok eb]
    rfl
  · have hstart : R s (s.setRcvStep (some 12)) := H.record rfl rfl rfl rfl List.prefix_rfl
    have hend : R b (b.setSnap []) := H.record rfl rfl rfl rfl List.prefix_rfl
    exact H.chains.trans (H.chains.trans hstart hRa) (H.chains.trans hRb (H.chains.trans hend (H.phase _ .restored)))

theorem covered_stepRearm : Quietly c (Covering R) (stepRearm l) := by
  have hrearm : ∀ w ∈ rearmWrites c l, W w.1 := fun w hw =>
    H.registers _ (List.mem_append_right _ (List.mem_map_of_mem (f := fun w : Reg × Word => w.1) hw))
  refine covered_bind H.toCovers (covered_setStep H.toCovers 13) fun _ => Quietly.get fun s hs => ?_
  refine covered_bind H.toCovers (covered_wrAll H.toCovers (by rw [hs]; exact hrearm)) fun _ => Quietly.get fun _ _ => ?_
  refine covered_bind H.toCovers (covered_wr H.toCovers H.named _) fun _ => Quietly.get fun _ _ => ?_
  refine covered_bind H.toCovers (covered_wr H.toCovers H.named _) fun _ => ?_
  refine covered_bind H.toCovers (x := modify _) (covered_faultUpdate (fun _ => ⟨rfl, rfl, rfl⟩) H.flag) fun _ => ?_
  refine covered_bind H.toCovers (covered_rd H.toCovers _) fun _ => covered_bind H.toCovers (covered_wr H.toCovers H.named _) fun _ => ?_
  exact covered_faultUpdate (fun _ => ⟨rfl, rfl, rfl⟩) fun s => H.phase s .rearmed

theorem covered_stepRegister : Quietly c (Covering R) (stepRegister l) := by
  refine covered_bind H.toCovers (covered_setStep H.toCovers 14) fun _ => covered_bind H.toCovers (covered_extCall H.toCovers _ _) fun _ => ?_
  refine covered_bind H.toCovers (covered_askEnv H.toCovers H.asked) fun _ => Quietly.ite ?_ ?_
  · exact covered_bind H.toCovers (x := modify _) (covered_faultUpdate (fun _ => ⟨rfl, rfl, rfl⟩)
      fun s => H.chains.trans (H.registration s true) (H.phase _ .idle)) fun _ => covered_pure H.toCovers _
  · exact covered_bind H.toCovers (x := modify _) (covered_faultUpdate (fun _ => ⟨rfl, rfl, rfl⟩)
      fun s => H.chains.trans (H.phase s .destroyed) (H.record rfl rfl rfl rfl (List.prefix_append _ _))) fun _ => covered_pure H.toCovers _

theorem raiseAbort_covered (st : LinkStatus) (n : Nat) : Quietly c R (raiseAbort st n l) := by
  refine Quietly.bind H.chains (x := modify _) (Quietly.modify (fun s _ => ?_) fun _ hs => hs) fun _ => Quietly.pure H.chains _
  have hlog : R s (s.emit (.log (.recoveryError st n l))) := H.record rfl rfl rfl rfl (List.prefix_append _ _)
  exact H.chains.trans (H.chains.trans hlog (H.phase _ .failed)) (H.record rfl rfl rfl rfl List.prefix_rfl)

/-- Steps 9 to 14 with a snapshot to restore. -/
theorem recoverAfterReset_covered {s : State} (hs : Alone c s) (hin : SnapIn W s) :
    ∃ a t, recoverAfterReset l s = .ok a t ∧ Alone c t ∧ R s t := by
  obtain ⟨_, t9, e9, h9, r9⟩ := covered_stepDeassert (l := l) H.toCovers H.cool H.named s hs
  obtain ⟨cleared, t10, e10, h10, r10⟩ := covered_stepContain (l := l) H.toCovers H.named t9 h9
  unfold recoverAfterReset
  rw [Act.bind_of_ok e9, Act.bind_of_ok e10]
  have r := H.covering.trans r9 r10
  cases cleared with
  | false =>
    obtain ⟨a, t, e, ht, h⟩ := raiseAbort_covered H .containLatchStuck 10 t10 h10
    exact ⟨a, t, e, ht, H.chains.trans r.1 h⟩
  | true =>
    obtain ⟨done, t11, e11, h11, r11⟩ := covered_stepRams (l := l) H.toCovers (by simp; exact ⟨H.named, H.named, H.named, H.named, H.named⟩)
      H.asked H.initialised t10 h10
    rw [if_pos rfl, Act.bind_of_ok e11]
    replace r := H.covering.trans r r11
    cases done with
    | false =>
      obtain ⟨a, t, e, ht, h⟩ := raiseAbort_covered H .timeout 11 t11 h11
      exact ⟨a, t, e, ht, H.chains.trans r.1 h⟩
    | true =>
      obtain ⟨t12, e12, h12, r12⟩ := stepRestore_covered H h11 (hin.of_eq r.2)
      obtain ⟨a, t, e, ht, h⟩ := (covered_bind H.toCovers (covered_stepRearm H) fun _ => covered_stepRegister H) t12 h12
      rw [if_pos rfl, Act.bind_of_ok e12]
      exact ⟨a, t, e, ht, H.chains.trans (H.chains.trans r.1 r12) h.1⟩

theorem recoverValid_covered : Quietly c R (recoverValid l) := by
  intro s hs
  obtain ⟨_, t3, e3, h3, r3⟩ := (covered_bind H.toCovers (covered_stepUnregister H) fun _ => covered_stepQuiesce (l := l) H.toCovers H.asked) s hs
  obtain ⟨t4, e4, h4, r4, hin⟩ := stepSnapshot_covered H.toCovers (l := l)
    (fun r hr => H.registers r (List.mem_append_left _ (List.mem_append_right _ hr))) h3
  obtain ⟨acked, t8, e8, h8, r8⟩ := (covered_bind H.toCovers (covered_stepStop (l := l) H.toCovers H.named) fun _ =>
    covered_bind H.toCovers (covered_stepMask (l := l) H.toCovers H.named H.named) fun _ =>
      covered_bind H.toCovers (covered_stepWarmReset (l := l) H.toCovers H.warm) fun _ =>
        covered_stepRstseq (l := l) H.toCovers H.named H.asked H.acked) t4 h4
  have r := H.chains.trans r3.1 (H.chains.trans r4 r8.1)
  have hrun : recoverValid l s = (if acked then recoverAfterReset l else raiseAbort .timeout 8 l) t8 := by
    have split : recoverValid l = ((stepUnregister l >>= fun _ => stepQuiesce l) >>= fun _ => stepSnapshot l >>= fun _ =>
        (stepStop l >>= fun _ => stepMask l >>= fun _ => stepWarmReset l >>= fun _ => stepRstseq l) >>= fun acked =>
          if acked then recoverAfterReset l else raiseAbort .timeout 8 l) := by
      unfold recoverValid
      simp only [Act.bind_assoc]
    rw [split, Act.bind_of_ok e3, Act.bind_of_ok e4, Act.bind_of_ok e8]
  rw [hrun]
  cases acked with
  | false =>
    obtain ⟨a, t, e, ht, h⟩ := raiseAbort_covered H .timeout 8 t8 h8
    exact ⟨a, t, e, ht, H.chains.trans r h⟩
  | true =>
    obtain ⟨a, t, e, ht, h⟩ := recoverAfterReset_covered H h8 (hin.of_eq r8.2)
    exact ⟨a, t, e, ht, H.chains.trans r h⟩

end

/-- RECOVER of any link, whatever the environment answers: only a link that passes Validate is touched (R282, R283). -/
theorem recover_covered (hbase : Unseeing R) {s : State} (hs : Alone c s)
    (H : validLink s l = true → CoversRecovery c l W Q R) (forced : Bool) :
    ∃ a t, recover l forced s = .ok a t ∧ Alone c t ∧ R s t := by
  have hstep : R s (s.setRcvStep (some 1)) := hbase.record rfl rfl rfl rfl List.prefix_rfl
  cases hg : forcedGate s forced l with
  | false => exact ⟨_, _, recover_excluded hg, hs, hstep⟩
  | true =>
    cases hv : validLink s l with
    | false =>
      exact ⟨_, _, recover_invalid hg hv, hs, hbase.chains.trans hstep (hbase.record rfl rfl rfl rfl (List.prefix_append _ _))⟩
    | true =>
      obtain ⟨a, t, e, ht, h⟩ := recoverValid_covered (H hv) (s.setRcvStep (some 1)) hs
      exact ⟨a, t, (recover_valid hg hv).trans e, ht, hbase.chains.trans hstep h⟩

end Sys2Proof.Machine

/-! PROOFS. Family 44_recovery: which cells a write changes, register by register (R90), the two writes of WARM_RESET a recovery makes
(R295, R299), and the two relations that every recovery keeps: the fault state of the other links, and all hardware but the link's. -/

namespace Sys2Proof.Machine

variable {c : Config} {l : Nat} {s t : State} {r : Reg}

/-! ## The cells a write changes (R86, R87, R90) -/

/-- A write of a register that is neither indexed nor a WARM_RESET changes no cell outside its footprint. -/
theorem applyWrite_cellAt (s : State) {r : Reg} (hn : ∀ g, r ≠ .warmReset g) (v : Word) (b : Bool) {a : Nat}
    (ha : access r ≠ .indexed → a ∉ (writeFoot s.cfg r).map busAddr) : (s.applyWrite r v b).cellAt a = s.cellAt a := by
  have kept : ∀ (x : State) (q : Reg) (w : Word), a ≠ busAddr q → (x.store q w).cellAt a = x.cellAt a := fun x q w h => by
    rw [State.store_cellAt, if_neg h]
  cases hacc : access r with
  | ro => simp only [State.applyWrite, hacc]
  | combinational => simp only [State.applyWrite, hacc]
  | indexed =>
    simp only [State.applyWrite, hacc]
    unfold State.indexedWrite
    split
    · exact State.ramWrite_cellAt ..
    · exact State.ramWrite_cellAt ..
    · exact State.ramWrite_cellAt ..
    · rfl
  | w1c =>
    have hown : a ≠ busAddr r := by
      have := ha (by rw [hacc]; nofun)
      cases r <;> first | simpa [writeFoot] using this | cases hacc
    simp only [State.applyWrite, hacc]
    split
    · rfl
    · exact kept _ _ _ hown
  | wo =>
    replace ha := ha (by rw [hacc]; nofun)
    simp only [State.applyWrite, hacc]
    unfold State.woEffect
    split
    · rfl
    · split
      · rw [State.setRamInitPending_read_cellAt, kept _ _ _ (by simpa [writeFoot] using ha)]
      · rfl
    · split
      · rw [State.setRingPending_read_cellAt, kept _ _ _ (by simpa [writeFoot] using ha)]
      · rfl
    · rfl
  | rw =>
    replace ha := ha (by rw [hacc]; nofun)
    simp only [State.applyWrite, hacc]
    unfold State.rwEffect
    split
    · rename_i i
      obtain ⟨hown, hnodes⟩ : a ≠ busAddr (.debugClear i) ∧ a ∉ (portStatusRegs s.cfg i).map busAddr := by simpa [writeFoot] using ha
      split
      · rw [State.zeroRegs_cellAt, State.store_cfg, if_neg hnodes, kept _ _ _ hown]
      · exact kept _ _ _ hown
    · exact absurd rfl (hn _)
    · rename_i i
      obtain ⟨hown, hstatus⟩ : a ≠ busAddr (.rstseqReq i) ∧ a ≠ busAddr (.rstseqStatus i) := by simpa [writeFoot] using ha
      split
      · rw [State.setRstseqPending_read_cellAt, kept _ _ _ hstatus, kept _ _ _ hown]
      · exact kept _ _ _ hown
    · rename_i hd hw hq
      refine kept _ _ _ ?_
      cases r <;> first | simpa [writeFoot] using ha | exact absurd rfl (hd _) | exact absurd rfl (hq _) | cases hacc

/-- Only the end of interrupt arms the line (R38). -/
theorem applyWrite_armed (s : State) {r : Reg} (h : r ≠ .hostEoi) (v : Word) (b : Bool) : (s.applyWrite r v b).hw.armed = s.hw.armed := by
  have zeroed : ∀ (x : State) rs, (x.zeroRegs rs).hw.armed = x.hw.armed := fun x rs => by rw [x.zeroRegs_hw rs]
  have reset : ∀ (x : State) rs, (x.resetRegs rs).hw.armed = x.hw.armed := fun x rs => by rw [x.resetRegs_hw rs]
  have written : ∀ m l i w, (s.ramWrite m l i w).hw.armed = s.hw.armed := fun m l i w => by
    unfold State.ramWrite
    split
    · cases m <;> rfl
    · rfl
  cases r <;> simp only [State.applyWrite, access]
  case hostEoi => exact absurd rfl h
  case debugClear l => simp only [State.rwEffect]; split <;> simp only [zeroed, State.store_hw_armed]
  case warmReset g => simp only [State.rwEffect, State.warmResetPorts_eq, reset, State.store_hw_armed]
  case rstseqReq l => simp only [State.rwEffect]; split <;> rfl
  case tagpoolInit l => simp only [State.woEffect]; split <;> rfl
  case ringCmd => simp only [State.woEffect]; split <;> rfl
  case crumbData l => exact written ..
  case camData l => exact written ..
  case tblData l => exact written ..
  case node k i n => cases n <;> simp only [] <;> first | rfl | (split <;> rfl)
  all_goals first | rfl | (split <;> rfl)

theorem ramIndex_lt {m : Ram} {i k : Nat} (h : ramIndex c m l i = some k) : k < ramDepth c m := by
  unfold ramIndex at h
  split at h
  · cases h
    assumption
  · split at h
    · split at h
      · cases h
        assumption
      · cases h
    · cases h

theorem exists_ramData {r : Reg} (hl : regOfLink l r = true) (hi : access r = .indexed) : ∃ m, r = ramData m l := by
  cases r <;> simp only [regOfLink, beq_iff_eq, Bool.false_eq_true] at hl <;> first | subst hl | skip
  case crumbData => exact ⟨.crumb, rfl⟩
  case camData => exact ⟨.cam, rfl⟩
  case tblData => exact ⟨.ganged, rfl⟩
  case node k i n => cases n <;> cases hi
  all_goals cases hi

/-- A write of a DATA register reaches the RAM entries of its own link only (R47, R51). -/
theorem ramWrite_otherLinks (hw : configWf s.cfg = true) (m : Ram) (k : Nat) (v : Word) :
    (s.ramWrite m l k v).hw.tagpoolClean = s.hw.tagpoolClean ∧
      ∀ m' j i, j ≠ l → i < 0x100000000 → (s.ramWrite m l k v).ramEntry m' j i = s.ramEntry m' j i := by
  unfold State.ramWrite
  cases hk : ramIndex s.cfg m l k with
  | none => exact ⟨rfl, fun _ _ _ _ _ => rfl⟩
  | some k' =>
    refine ⟨by cases m <;> rfl, fun m' j i hj hlt => ?_⟩
    have hdepth : k' < 0x100000000 := lt_of_lt_of_le (ramIndex_lt hk) ((configWf_sizes hw).rams m)
    have hkey : ramKey j i ≠ ramKey l k' := fun h => hj (ramKey_inj hlt hdepth h).1
    cases m <;> cases m' <;> simp [State.ramEntry, State.setRam, State.ramOf, Memory.get_set, hkey]

/-- No write reaches the RAM entries or the tag pool of another link. -/
theorem applyWrite_otherLinks (hw : configWf s.cfg = true) {r : Reg} (hr : regOfLink l r = true ∨ access r ≠ .indexed) (v : Word) (b : Bool) :
    (s.applyWrite r v b).hw.tagpoolClean = s.hw.tagpoolClean ∧
      ∀ m j i, j ≠ l → i < 0x100000000 → (s.applyWrite r v b).ramEntry m j i = s.ramEntry m j i := by
  by_cases hi : access r = .indexed
  · obtain ⟨m, rfl⟩ := exists_ramData (hr.resolve_right (not_not_intro hi)) hi
    rw [applyWrite_ramData]
    exact ramWrite_otherLinks hw m _ v
  · have h := applyWrite_storesOnly s v b hi
    exact ⟨h.clean, fun m j i _ _ => by unfold State.ramEntry; rw [h.rams m]⟩

/-! ## The two writes of WARM_RESET (R295, R296, R299) -/

/-- Asserting a port's bit reaches its set where the bit was not held, and no other port's. -/
theorem mem_warmReached_assert (hw : configWf c = true) (hl : l < c.nLink) {w : Word} {r : Reg} :
    r ∈ warmReached c (pg c l) (setBits ((w ||| bit (pl c l)) &&& lowMask c.pgSize &&& ~~~w))
      ↔ w.getLsbD (pl c l) = false ∧ r ∈ warmResetSet c l := by
  obtain ⟨hpos, hle⟩ := (configWf_sizes hw).ports
  have hport : pl c l < c.pgSize := Nat.mod_lt _ hpos
  have hlink : pg c l * c.pgSize + pl c l = l := Nat.div_add_mod' l c.pgSize
  have hrisen : ∀ p, ((w ||| bit (pl c l)) &&& lowMask c.pgSize &&& ~~~w).getLsbD p = true ↔ p = pl c l ∧ w.getLsbD (pl c l) = false := fun p => by
    have h32 : pl c l < 32 := lt_of_lt_of_le hport hle
    simp only [BitVec.getLsbD_and, BitVec.getLsbD_or, BitVec.getLsbD_not, getLsbD_bit, getLsbD_lowMask hle, h32]
    by_cases hp : p = pl c l
    · subst hp
      simp [h32, hport]
    · cases w.getLsbD p <;> simp [hp]
  rw [mem_warmReached]
  simp only [mem_setBits, hrisen]
  constructor
  · rintro ⟨p, ⟨rfl, hclear⟩, -, hr⟩
    exact ⟨hclear, hlink ▸ hr⟩
  · rintro ⟨hclear, hr⟩
    exact ⟨_, ⟨rfl, hclear⟩, hlink.symm ▸ hl, hlink.symm ▸ hr⟩

/-- The cells after a port's warm-reset bit is asserted. -/
theorem applyWrite_assertReset (hw : configWf c = true) (hl : l < c.nLink) (hc : s.cfg = c) (b : Bool) (a : Nat) :
    (s.applyWrite (.warmReset (pg c l)) (s.field (.warmReset (pg c l)) ||| bit (pl c l)) b).cellAt a =
      if (s.field (.warmReset (pg c l))).getLsbD (pl c l) = false ∧ a ∈ (warmResetSet c l).map busAddr then resetValue c a
      else if a = busAddr (.warmReset (pg c l)) then (s.field (.warmReset (pg c l)) ||| bit (pl c l)) &&& lowMask c.pgSize
      else s.cellAt a := by
  subst hc
  have hreached : a ∈ (warmReached s.cfg (pg s.cfg l) (setBits ((s.field (.warmReset (pg s.cfg l)) ||| bit (pl s.cfg l))
      &&& lowMask s.cfg.pgSize &&& ~~~s.field (.warmReset (pg s.cfg l))))).map busAddr
        ↔ (s.field (.warmReset (pg s.cfg l))).getLsbD (pl s.cfg l) = false ∧ a ∈ (warmResetSet s.cfg l).map busAddr := by
    simp only [List.mem_map, mem_warmReached_assert hw hl]
    constructor
    · rintro ⟨r, ⟨hclear, hr⟩, rfl⟩
      exact ⟨hclear, r, hr, rfl⟩
    · rintro ⟨hclear, r, hr, rfl⟩
      exact ⟨r, ⟨hclear, hr⟩, rfl⟩
  rw [applyWrite_warmReset, State.resetRegs_cellAt, State.store_cfg, State.store_cellAt]
  simp only [hreached]

/-- Releasing it resets nothing. -/
theorem applyWrite_releaseReset (s : State) (g p : Nat) (b : Bool) :
    s.applyWrite (.warmReset g) (s.field (.warmReset g) &&& ~~~bit p) b
      = s.store (.warmReset g) (s.field (.warmReset g) &&& ~~~bit p &&& lowMask s.cfg.pgSize) := by
  have hnone : s.field (.warmReset g) &&& ~~~bit p &&& lowMask s.cfg.pgSize &&& ~~~s.field (.warmReset g) = 0#32 := by
    ext i hi
    simp only [BitVec.getElem_and, BitVec.getElem_not, BitVec.getElem_zero]
    cases (s.field (.warmReset g))[i] <;> simp
  rw [applyWrite_warmReset, hnone]
  rfl

/-! ## States with the same hardware -/

theorem State.cellAt_of_hw (hh : t.hw = s.hw) (hc : t.cfg = s.cfg) (a : Nat) : t.cellAt a = s.cellAt a := by
  unfold State.cellAt
  rw [hh, hc]

theorem State.ramEntry_of_hw (hh : t.hw = s.hw) (m : Ram) (j i : Nat) : t.ramEntry m j i = s.ramEntry m j i := by
  cases m <;> simp only [State.ramEntry, State.ramOf, hh]

theorem State.tagpoolClean_of_hw (hh : t.hw = s.hw) (j : Nat) : t.tagpoolClean j = s.tagpoolClean j := by
  unfold State.tagpoolClean
  rw [hh]

/-! ## Other links' fault state (R310, R316) -/

/-- The fault state of other links than `l` is as before, no flag is set, and H grows. -/
structure OthersKept (l : Nat) (s t : State) : Prop where
  links : ∀ j, j ≠ l → t.fatalOccurred j = s.fatalOccurred j ∧ t.phase j = s.phase j ∧ t.registered j = s.registered j
  cleared : ∀ j, t.fatalOccurred j = true → s.fatalOccurred j = true
  device : t.fault.resetRequired = s.fault.resetRequired
  history : s.io.history <+: t.io.history

theorem OthersKept.of_fault (hf : t.fault = s.fault) (hh : s.io.history <+: t.io.history) : OthersKept l s t := by
  have flags : ∀ j, t.fatalOccurred j = s.fatalOccurred j := fun j => by unfold State.fatalOccurred; rw [hf]
  refine ⟨fun j _ => ⟨flags j, ?_, ?_⟩, fun j h => (flags j).symm.trans h, by rw [hf], hh⟩
  · unfold State.phase; rw [hf]
  · unfold State.registered; rw [hf]

theorem OthersKept.unseeing (l : Nat) : Unseeing (OthersKept l) where
  chains := ⟨fun s => .of_fault rfl List.prefix_rfl, fun h k => ⟨fun j hj => by
      obtain ⟨hf, hp, hr⟩ := h.links j hj
      obtain ⟨kf, kp, kr⟩ := k.links j hj
      exact ⟨kf.trans hf, kp.trans hp, kr.trans hr⟩,
    fun j hj => h.cleared j (k.cleared j hj), k.device.trans h.device, h.history.trans k.history⟩⟩
  record := fun _ _ hf _ hh => .of_fault hf hh

/-- Every recovery keeps it, whatever the configuration. -/
theorem OthersKept.covers (c : Config) (l : Nat) : CoversRecovery c l (fun _ => True) (fun _ => True) (OthersKept l) := by
  have written : ∀ (s : State) r v b, OthersKept l s (s.applyWrite r v b) := fun s r v b => by
    obtain ⟨-, hf, -, hio⟩ := (s.applyWrite_hardwareOnly r v b).parts
    exact .of_fault hf (by rw [hio])
  exact {
    toUnseeing := OthersKept.unseeing l
    ask := fun s q _ => .of_fault (State.ask_fault s q) (by rw [State.ask_io_history])
    write := fun s r v b _ _ => written s r v b
    stuck := fun _ _ _ _ _ => trivial
    registers := fun _ _ => trivial
    questions := fun _ _ => trivial
    warm := fun s _ => written s _ _ _
    cool := fun s _ => written s _ _ _
    acked := fun s _ => by unfold State.ackRstseq; split <;> exact .of_fault rfl List.prefix_rfl
    initialised := fun s _ => by unfold State.finishRamInit; split <;> exact .of_fault rfl List.prefix_rfl
    phase := fun s p => ⟨fun j hj => ⟨rfl, by rw [State.setPhase_read, if_neg hj], rfl⟩, fun _ h => h, rfl, List.prefix_rfl⟩
    registration := fun s b => ⟨fun j hj => ⟨rfl, rfl, by rw [State.setRegistered_read, if_neg hj]⟩, fun _ h => h, rfl, List.prefix_rfl⟩
    flag := fun s => ⟨fun j hj => ⟨by rw [State.setFatalOccurred_read, if_neg hj], rfl, rfl⟩, fun j h => by
      rw [State.setFatalOccurred_read] at h
      split at h
      · cases h
      · exact h, rfl, List.prefix_rfl⟩ }

/-! ## Other links' hardware (R310, R316) -/

/-- What the environment is asked about a link (R15). -/
def linkQueries (l : Nat) : List EnvQuery := [.linkInReset l, .rstseqAck l, .containStuck l, .raminitDone l, .registerOk l]

/-- Of the hardware and the environment's answers, only those of link `l` have changed. -/
structure LinkOnly (c : Config) (l : Nat) (s t : State) : Prop where
  cells : SameCellsBut (recoveryWrites c l) s t
  armed : t.hw.armed = s.hw.armed
  clean : ∀ j, j ≠ l → t.tagpoolClean j = s.tagpoolClean j
  rams : ∀ m j i, j ≠ l → i < 0x100000000 → t.ramEntry m j i = s.ramEntry m j i
  asks : ∀ q, q ∉ linkQueries l → (t.ask q).1 = (s.ask q).1

/-- A register of link `l` alone: a write of it changes no cell outside the recovery's. -/
structure OwnReg (c : Config) (l : Nat) (r : Reg) : Prop where
  owner : regOfLink l r = true ∨ r = .scratchPort (l / 32)
  foot : access r ≠ .indexed → ∀ x ∈ writeFoot c r, x ∈ recoveryWrites c l

/-- An update of the register cells and the pending requests. -/
theorem LinkOnly.of_cells (hc : SameCellsBut (recoveryWrites c l) s t) (ha : t.hw.armed = s.hw.armed) (hcl : t.hw.tagpoolClean = s.hw.tagpoolClean)
    (hr : ∀ m j i, j ≠ l → i < 0x100000000 → t.ramEntry m j i = s.ramEntry m j i) (he : t.io.env = s.io.env) : LinkOnly c l s t :=
  ⟨hc, ha, fun j _ => by unfold State.tagpoolClean; rw [hcl], hr, fun q _ => State.ask_congr he q⟩

theorem LinkOnly.unseeing (c : Config) (l : Nat) : Unseeing (LinkOnly c l) where
  chains := ⟨fun s => .of_cells (fun _ _ => rfl) rfl rfl (fun _ _ _ _ _ => rfl) rfl, fun h k =>
    ⟨fun a ha => (k.cells a ha).trans (h.cells a ha), k.armed.trans h.armed, fun j hj => (k.clean j hj).trans (h.clean j hj),
      fun m j i hj hi => (k.rams m j i hj hi).trans (h.rams m j i hj hi), fun q hq => (k.asks q hq).trans (h.asks q hq)⟩⟩
  record := fun hc hh _ he _ => .of_cells (fun a _ => State.cellAt_of_hw hh hc a) (by rw [hh]) (by rw [hh])
    (fun m j i _ _ => State.ramEntry_of_hw hh m j i) he

/-- A register of the link that the recovery may change, or whose write changes no cell of its own. -/
theorem OwnReg.of_link {r : Reg} (hown : regOfLink l r = true) (h : access r = .indexed ∨ r = .tagpoolInit l ∨ r ∈ recoveryWrites c l) :
    OwnReg c l r := by
  refine ⟨.inl hown, fun hi x hx => ?_⟩
  rcases h with h | rfl | h
  · exact absurd h hi
  · rw [List.mem_singleton.mp hx]
    simp [recoveryWrites]
  · cases r <;> simp only [writeFoot, regOfLink, List.mem_cons, List.not_mem_nil, or_false, beq_iff_eq, Bool.false_eq_true] at hx hown
    case debugClear j =>
      subst hown
      rcases hx with rfl | hx
      · exact h
      · simp only [recoveryWrites, List.mem_append]
        exact .inl (.inr (portStatusRegs_subset hx))
    case rstseqReq j =>
      subst hown
      rcases hx with rfl | rfl
      · exact h
      · simp [recoveryWrites]
    case tagpoolInit j =>
      subst hx
      subst hown
      simp [recoveryWrites]
    all_goals
      subst hx
      exact h

/-- Every register a recovery writes by name is one of the link's own. -/
theorem ownReg_of_recoveryAccesses (hl : Sound c l) {r : Reg} (hr : r ∈ recoveryAccesses c l) : OwnReg c l r := by
  simp only [recoveryAccesses, List.mem_append, List.mem_cons, List.not_mem_nil, or_false, List.mem_map] at hr
  rcases hr with (hr | hr) | ⟨w, hw, rfl⟩
  · rcases hr with rfl | rfl | rfl | rfl | rfl | rfl | rfl | rfl | rfl | rfl | rfl | rfl | rfl | rfl
    case inr.inr.inr.inr.inr.inr.inr.inr.inr.inr.inr.inr.inr =>
      exact ⟨.inr rfl, fun _ x hx => by rw [List.mem_singleton.mp hx]; simp [recoveryWrites]⟩
    all_goals exact .of_link (beq_self_eq_true l) (by simp [recoveryWrites, access])
  · exact .of_link (hl.snap hr).2.2 (.inr (.inr (by simp [recoveryWrites, hr])))
  · obtain ⟨k, hk, t, rfl⟩ := rearmWrites_mem hw
    refine .of_link (by simp [regOfLink, hk]) (.inr (.inr ?_))
    refine List.mem_append_right _ (List.mem_flatMap.mpr ⟨k, hk, List.mem_map.mpr ⟨t, ?_, rfl⟩⟩)
    cases t <;> simp [allTrees]

/-- What a write of one of them may change. -/
theorem OwnReg.written (h : OwnReg c l r) (hw : configWf c = true) (hc : s.cfg = c) (v : Word) (b : Bool) : LinkOnly c l s (s.applyWrite r v b) := by
  have hother : (∀ g, r ≠ .warmReset g) ∧ r ≠ .hostEoi ∧ (regOfLink l r = true ∨ access r ≠ .indexed) := by
    rcases h.owner with h | rfl
    · refine ⟨fun g e => ?_, fun e => ?_, .inl h⟩ <;> (rw [e] at h; cases h)
    · exact ⟨nofun, nofun, .inr nofun⟩
  obtain ⟨hwarm, heoi, hlink⟩ := hother
  obtain ⟨hclean, hrams⟩ := applyWrite_otherLinks (s := s) (by rw [hc]; exact hw) hlink v b
  refine .of_cells (fun a ha => applyWrite_cellAt s hwarm v b fun hi hmem => ha ?_) (applyWrite_armed s heoi v b) hclean hrams ?_
  · rw [hc] at hmem
    obtain ⟨x, hx, rfl⟩ := List.mem_map.mp hmem
    exact List.mem_map_of_mem (h.foot hi x hx)
  · rw [(s.applyWrite_hardwareOnly r v b).parts.2.2.2]

theorem OwnReg.stuck (h : OwnReg c l r) {v : Word} {q : EnvQuery} (hq : stuckQuery r v = some q) : q ∈ linkQueries l := by
  obtain ⟨j, rfl⟩ : ∃ j, r = .containLatch j := by cases r <;> first | exact ⟨_, rfl⟩ | cases hq
  obtain rfl : j = l := by simpa [regOfLink] using h.owner
  simp only [stuckQuery, Option.ite_none_right_eq_some, Option.some.injEq] at hq
  rw [← hq.2]
  simp [linkQueries]

/-- Every recovery of a link that can pass Validate keeps it. -/
theorem LinkOnly.covers (hl : Sound c l) : CoversRecovery c l (OwnReg c l) (· ∈ linkQueries l) (LinkOnly c l) := by
  have warmReset : ∀ (s : State) v, s.cfg = c → SameCellsBut (recoveryWrites c l) s (s.applyWrite (.warmReset (pg c l)) v false) →
      LinkOnly c l s (s.applyWrite (.warmReset (pg c l)) v false) := fun s v hc hcells => by
    have hother := applyWrite_otherLinks (s := s) (l := l) (r := .warmReset (pg c l)) (by rw [hc]; exact hl.wf) (.inr nofun) v false
    exact .of_cells hcells (applyWrite_armed s (r := .warmReset (pg c l)) nofun v false) hother.1 hother.2
      (by rw [(s.applyWrite_hardwareOnly _ v false).parts.2.2.2])
  have stored : ∀ (s : State) r v, r ∈ recoveryWrites c l → SameCellsBut (recoveryWrites c l) s (s.store r v) := fun s r v hr a ha => by
    have hne : a ≠ busAddr r := fun e => ha (e ▸ List.mem_map_of_mem hr)
    rw [State.store_cellAt, if_neg hne]
  exact {
    toUnseeing := LinkOnly.unseeing c l
    ask := fun s q hq => ⟨fun a _ => State.ask_read_cellAt s q a, by rw [State.ask_hw],
      fun j _ => State.tagpoolClean_of_hw (State.ask_hw s q) j, fun m j i _ _ => State.ramEntry_of_hw (State.ask_hw s q) m j i,
      fun p hp => State.ask_other s fun e => hp (e ▸ hq)⟩
    write := fun s r v b hc hr => hr.written hl.wf hc v b
    stuck := fun r v q hr hq => hr.stuck hq
    registers := fun r hr => ownReg_of_recoveryAccesses hl hr
    questions := fun q hq => by
      simp only [List.mem_cons, List.not_mem_nil, or_false] at hq
      rcases hq with rfl | rfl | rfl | rfl <;> simp [linkQueries]
    warm := fun s hc => warmReset s _ hc fun a ha => by
      rw [applyWrite_assertReset hl.wf hl.link hc, if_neg, if_neg]
      · exact fun e => ha (e ▸ List.mem_map_of_mem (by simp [recoveryWrites]))
      · rintro ⟨-, h⟩
        obtain ⟨r, hr, rfl⟩ := List.mem_map.mp h
        exact ha (List.mem_map_of_mem (by simp [recoveryWrites, hr]))
    cool := fun s hc => warmReset s _ hc (by rw [applyWrite_releaseReset]; exact stored s _ _ (by simp [recoveryWrites]))
    acked := fun s _ => by
      unfold State.ackRstseq
      split
      · exact .of_cells (stored s _ _ (by simp [recoveryWrites])) rfl rfl (fun m _ _ _ _ => by cases m <;> rfl) rfl
      · exact (LinkOnly.unseeing c l).chains.refl s
    initialised := fun s _ => by
      unfold State.finishRamInit
      split
      · refine ⟨stored s _ _ (by simp [recoveryWrites]), rfl, fun j hj => ?_, fun m _ _ _ _ => by cases m <;> rfl,
          fun q _ => State.ask_congr (by rfl) q⟩
        rw [State.tagpoolClean, State.setRamInitPending_hw_tagpoolClean]
        exact (State.setTagpoolClean_read ..).trans (if_neg hj)
      · exact (LinkOnly.unseeing c l).chains.refl s
    phase := fun s p => .of_cells (fun _ _ => rfl) rfl rfl (fun _ _ _ _ _ => rfl) rfl
    registration := fun s p => .of_cells (fun _ _ => rfl) rfl rfl (fun _ _ _ _ _ => rfl) rfl
    flag := fun s => .of_cells (fun _ _ => rfl) rfl rfl (fun _ _ _ _ _ => rfl) rfl }

end Sys2Proof.Machine

/-! PROOFS. Family 44_recovery: a RSTDRAIN of any links, whatever the environment answers (R281, R310, R314, R316), and what an earlier
one still owes (R313). -/

namespace Sys2Proof.Machine

variable {c : Config} {l : Nat} {s t : State} {forced : Bool} {masks : List Word}

/-! ## The link set (R118, R144) -/

theorem linkSetFrom_pairwise (j : Nat) (masks : List Word) : (linkSetFrom j masks).Pairwise (· < ·) := by
  induction masks generalizing j with
  | nil => exact List.Pairwise.nil
  | cons w ws ih =>
    refine List.pairwise_append.mpr ⟨?_, ih (j + 1), fun a ha b hb => ?_⟩
    · exact (List.pairwise_lt_range.sublist List.filter_sublist).map _ fun _ _ h => by omega
    · obtain ⟨b', hb', rfl⟩ := List.mem_map.mp ha
      obtain ⟨n, i, -, -, -, rfl⟩ := mem_linkSetFrom.mp hb
      have : b' < 32 := List.mem_range.mp (List.mem_of_mem_filter hb')
      omega

theorem mem_linkSet_iff : l ∈ linkSet masks ↔ (masks.getD (l / 32) 0#32).getLsbD (l % 32) = true := by
  rw [mem_linkSet]
  constructor
  · rintro ⟨n, b, -, hb, h, rfl⟩
    rwa [show (32 * n + b) / 32 = n by omega, show (32 * n + b) % 32 = b by omega]
  · intro h
    refine ⟨l / 32, l % 32, ?_, Nat.mod_lt _ (by decide), h, (Nat.div_add_mod l 32).symm⟩
    by_contra hn
    rw [List.getD_eq_default _ _ (Nat.le_of_not_lt hn)] at h
    simp at h

/-! ## A batch (R281, R316) -/

/-- What every recovery of the batch keeps is kept by the batch. -/
theorem recoverAll_covered {R : State → State → Prop} (hR : Unseeing R) {ls : List Nat}
    (h : ∀ l ∈ ls, ∀ s, Alone c s → ∃ a t, recover l forced s = .ok a t ∧ Alone c t ∧ R s t) (hs : Alone c s) (hlock : s.seq.lock = .free) :
    ∃ sts t, recoverAll forced ls s = .ok sts t ∧ Alone c t ∧ sts.map (fun x => x.1) = ls ∧ R s t := by
  induction ls generalizing s with
  | nil => exact ⟨[], s, rfl, hs, rfl, hR.chains.refl s⟩
  | cons l ls ih =>
    obtain ⟨a, t, e, ht, hrec⟩ := h l (List.mem_cons_self ..) (s.enterRecovery l) hs
    obtain ⟨sts, u, e', hu, hmap, hrest⟩ := ih (s := t.leaveRecovery) (fun j hj => h j (List.mem_cons_of_mem _ hj)) ht rfl
    refine ⟨(l, a) :: sts, u, ?_, hu, congrArg (l :: ·) hmap, ?_⟩
    · rw [recoverAll_cons hs.1 hlock e, Act.bind_of_ok e']
      rfl
    · have henter : R s (s.enterRecovery l) := hR.record rfl rfl rfl rfl List.prefix_rfl
      have hleave : R t t.leaveRecovery := hR.record rfl rfl rfl rfl List.prefix_rfl
      exact hR.chains.trans henter (hR.chains.trans hrec (hR.chains.trans hleave hrest))

/-- What a batch of links `ls` keeps: the fault state of every other link, and, under a well-formed configuration, the hardware
but the listed links'. -/
structure BatchOnly (c : Config) (ls : List Nat) (s t : State) : Prop where
  links : ∀ j, j ∉ ls → t.fatalOccurred j = s.fatalOccurred j ∧ t.phase j = s.phase j ∧ t.registered j = s.registered j
  cleared : ∀ j, t.fatalOccurred j = true → s.fatalOccurred j = true
  device : t.fault.resetRequired = s.fault.resetRequired
  history : s.io.history <+: t.io.history
  armed : configWf c = true → t.hw.armed = s.hw.armed
  cells : configWf c = true → ∀ a : Nat, (∀ l ∈ ls, a ∉ (recoveryWrites c l).map busAddr) → t.cellAt a = s.cellAt a
  rams : configWf c = true → ∀ j, j ∉ ls → t.tagpoolClean j = s.tagpoolClean j ∧
    ∀ m i, i < 0x100000000 → t.ramEntry m j i = s.ramEntry m j i

theorem BatchOnly.of_links {ls : List Nat} (hl : l ∈ ls) (h : OthersKept l s t) (k : configWf c = true → LinkOnly c l s t) : BatchOnly c ls s t where
  links := fun j hj => h.links j fun e => hj (e ▸ hl)
  cleared := h.cleared
  device := h.device
  history := h.history
  armed := fun hw => (k hw).armed
  cells := fun hw a ha => (k hw).cells a (ha l hl)
  rams := fun hw j hj => have hne : j ≠ l := fun e => hj (e ▸ hl)
    ⟨(k hw).clean j hne, fun m i hi => (k hw).rams m j i hne hi⟩

theorem BatchOnly.unseeing (c : Config) (ls : List Nat) : Unseeing (BatchOnly c ls) where
  chains := ⟨fun s => ⟨fun _ _ => ⟨rfl, rfl, rfl⟩, fun _ h => h, rfl, List.prefix_rfl, fun _ => rfl, fun _ _ _ => rfl,
      fun _ _ _ => ⟨rfl, fun _ _ _ => rfl⟩⟩,
    fun h k => ⟨fun j hj => by
        obtain ⟨hf, hp, hr⟩ := h.links j hj
        obtain ⟨kf, kp, kr⟩ := k.links j hj
        exact ⟨kf.trans hf, kp.trans hp, kr.trans hr⟩,
      fun j hj => h.cleared j (k.cleared j hj), k.device.trans h.device, h.history.trans k.history,
      fun hw => (k.armed hw).trans (h.armed hw), fun hw a ha => (k.cells hw a ha).trans (h.cells hw a ha), fun hw j hj => by
        obtain ⟨hc, hr⟩ := h.rams hw j hj
        obtain ⟨kc, kr⟩ := k.rams hw j hj
        exact ⟨kc.trans hc, fun m i hi => (kr m i hi).trans (hr m i hi)⟩⟩⟩
  record := fun hc hh hf _ hhist =>
    ⟨fun j _ => ⟨by simp only [State.fatalOccurred, hf], by simp only [State.phase, hf], by simp only [State.registered, hf]⟩,
      fun j h => by simpa only [State.fatalOccurred, hf] using h, by rw [hf], hhist, fun _ => by rw [hh],
      fun _ a _ => State.cellAt_of_hw hh hc a, fun _ j _ => ⟨State.tagpoolClean_of_hw hh j, fun m i _ => State.ramEntry_of_hw hh m j i⟩⟩

/-- RECOVER of one link of a batch. -/
theorem recover_batchOnly {ls : List Nat} (hl : l ∈ ls) (hs : Alone c s) :
    ∃ a t, recover l forced s = .ok a t ∧ Alone c t ∧ BatchOnly c ls s t := by
  obtain ⟨a, t, e, ht, h⟩ := recover_covered (OthersKept.unseeing l) hs (fun _ => OthersKept.covers c l) forced
  refine ⟨a, t, e, ht, .of_links hl h fun hw => ?_⟩
  obtain ⟨a', t', e', -, k⟩ := recover_covered (LinkOnly.unseeing c l) hs (fun hv => LinkOnly.covers (validLink_sound hw hs.2 hv)) forced
  rw [e] at e'
  cases e'
  exact k

/-! ## What an earlier RSTDRAIN owes (R313) -/

/-- The owed steps of `q` done: their events, the Result and the response. -/
theorem rcvBegin_owed {q : RcvTail} (hq : s.seq.rcvTail = some q) : ∃ env, rcvBegin s = .ok () { s with
    seq := { s.seq with rcvTail := none, rcvStep := none }
    io := { s.io with
      history := s.io.history ++ (if q.launched then [] else s.trainingEvents) ++ [.result (.rstdrain (anyFailed q.sts) q.sts)]
      responses := s.io.responses ++ [rstdrainWords (anyFailed q.sts) q.sts]
      env := env } } := by
  unfold rcvBegin
  cases hl : q.launched with
  | true =>
    refine ⟨s.io.env, ?_⟩
    rw [Act.bind_of_ok (advanceRcv_result hq hl), advanceRcv_idle rfl, if_pos rfl, List.append_nil]
    simp only [State.setRcvTail, State.setRcvStep, State.emit, State.respond]
  | false =>
    obtain ⟨env, e⟩ := advanceRcv_launches hq hl
    refine ⟨env, ?_⟩
    rw [Act.bind_of_ok e, advanceRcv_result (q := { q with launched := true }) rfl rfl]
    simp only [State.setRcvTail, State.setRcvStep, State.emit, State.respond, Bool.false_eq_true, if_false]

/-! ## The settled statement -/

/-- Settles O49: a batch keeps what is not its links' (`BatchOnly`); the owed steps are taken up before the links. -/
theorem rstdrainAlwaysCompletes : Obligations.RstdrainAlwaysCompletes := by
  have runs : ∀ (s : State) (forced : Bool) (masks : List Word), Quiet s → ∃ sts t, recoverAll forced (linkSet masks) s = .ok sts t
      ∧ Alone s.cfg t ∧ sts.map (fun x => x.1) = linkSet masks ∧ BatchOnly s.cfg (linkSet masks) s t := fun s forced masks hq =>
    recoverAll_covered (BatchOnly.unseeing s.cfg _) (fun l hl s hs => recover_batchOnly hl hs) ⟨hq.1, rfl⟩ hq.2.2
  refine ⟨fun s forced masks hq htail ha => ?_, fun s forced masks q hq htail ha => ?_⟩
  · obtain ⟨sts, t, e, ht, hmap, h⟩ := runs s forced masks hq
    obtain ⟨sts', t', e', -, hcalm, -⟩ := recoverAll_quiet forced (linkSet masks) (s := s) ⟨hq.1, rfl⟩ hq.2.2
    rw [e] at e'
    cases e'
    obtain ⟨es, hes⟩ := h.history
    have hu := t.trained_drained sts
    generalize hdef : t.trained sts = u at hu
    refine ⟨u, sts, hdef ▸ exec_rstdrain_of htail ha e ht.1, hmap, linkSetFrom_pairwise 0 masks, fun l => mem_linkSet_iff, ?_, ⟨es ++ t.trainingEvents, ?_⟩,
      ?_, by rw [hu.seq], by rw [hu.seq], by rw [hu.seq], hu.cfg.trans ht.2, fun j hj => ?_, fun j hj => ?_, ?_, fun hw => ⟨?_, fun a ha => ?_, fun j hj => ?_⟩⟩
    · rw [hu.responses, hcalm.responses]
      rfl
    · rw [hu.history, ← hes, List.append_assoc, List.append_assoc, List.append_assoc]
      rfl
    · rw [hu.seq]
      exact hcalm.lock.trans hq.2.2
    · simpa only [State.fatalOccurred, State.phase, State.registered, hu.fault] using h.links j hj
    · exact h.cleared j (by simpa only [State.fatalOccurred, hu.fault] using hj)
    · rw [hu.fault, h.device]
    · rw [hu.hw, h.armed hw]
    · rw [State.cellAt_of_hw hu.hw hu.cfg, h.cells hw a ha]
    · simpa only [State.tagpoolClean_of_hw hu.hw, State.ramEntry_of_hw hu.hw] using h.rams hw j hj
  · obtain ⟨env, e⟩ := rcvBegin_owed htail
    let t : State := { s with
      seq := { s.seq with rcvTail := none, rcvStep := none }
      io := { s.io with
        history := s.io.history ++ (if q.launched then [] else s.trainingEvents) ++ [.result (.rstdrain (anyFailed q.sts) q.sts)]
        responses := s.io.responses ++ [rstdrainWords (anyFailed q.sts) q.sts]
        env := env } }
    obtain ⟨sts, u, e', hu, -, -⟩ := runs t forced masks hq
    refine ⟨t, _, ?_, rfl, rfl, rfl, rfl, rfl⟩
    rw [exec_rstdrain_of (s := t) rfl ha e' hu.1, exec_commandProgram (p := progRstdrain forced masks) rfl, runCommand_admitted ha,
      progRstdrain, Act.bind_of_ok e, Act.bind_of_ok e', Act.modify_bind, finishRcv_quiet hu.1]
    rfl

/-! ## Two links (R316) -/

/-- What is asked about one link is not asked about another. -/
theorem linkQueries_disjoint {l j : Nat} (h : l ≠ j) {q : EnvQuery} (hq : q ∈ linkQueries l) : q ∉ linkQueries j := by
  simp only [linkQueries, List.mem_cons, List.not_mem_nil, or_false] at hq
  rcases hq with rfl | rfl | rfl | rfl | rfl <;> simpa [linkQueries] using h

theorem Favours.of_asks (h : Favours s l) (hask : ∀ q ∈ linkQueries l, (t.ask q).1 = (s.ask q).1) : Favours t l where
  sequencer := (hask _ (by simp [linkQueries])).trans h.sequencer
  latch := (hask _ (by simp [linkQueries])).trans h.latch
  rams := (hask _ (by simp [linkQueries])).trans h.rams
  register := (hask _ (by simp [linkQueries])).trans h.register

/-- The recovery of one link leaves another's phase and the environment's answers about it. -/
theorem recover_leaves (hw : configWf c = true) {j : Nat} (hj : j ≠ l) (hs : Alone c s) : ∃ a t, recover l forced s = .ok a t ∧ Alone c t
    ∧ t.phase j = s.phase j ∧ ∀ q ∈ linkQueries j, (t.ask q).1 = (s.ask q).1 := by
  obtain ⟨a, t, e, ht, h⟩ := recover_covered (OthersKept.unseeing l) hs (fun _ => OthersKept.covers c l) forced
  obtain ⟨a', t', e', -, k⟩ := recover_covered (LinkOnly.unseeing c l) hs (fun hv => LinkOnly.covers (validLink_sound hw hs.2 hv)) forced
  rw [e] at e'
  cases e'
  exact ⟨a, t, e, ht, (h.links j hj).2.1, fun q hq => k.asks q (linkQueries_disjoint hj hq)⟩

/-- Settles O51: the second link's recovery begins where nothing it depends on has changed. -/
theorem faultIsolationInABatch : Obligations.FaultIsolationInABatch := by
  intro s forced masks l₁ l₂ hw hq htail ha hls hgate hvalid hfav
  have hne : l₂ ≠ l₁ := by
    have h := linkSetFrom_pairwise 0 masks
    rw [show linkSetFrom 0 masks = [l₁, l₂] from hls] at h
    exact ((List.pairwise_cons.mp h).1 l₂ (List.mem_singleton_self l₂)).ne'
  obtain ⟨⟨st, stp⟩, t₁, e, ht, hphase, hasks⟩ := recover_leaves (forced := forced) (s := s.enterRecovery l₁) hw hne ⟨hq.1, rfl⟩
  have hs2 : Alone s.cfg (t₁.leaveRecovery.enterRecovery l₂) := ht
  have hvalid2 : validLink (t₁.leaveRecovery.enterRecovery l₂) l₂ = true := by
    have hc : (t₁.leaveRecovery.enterRecovery l₂).cfg = s.cfg := ht.2
    have hp : (t₁.leaveRecovery.enterRecovery l₂).phase l₂ = s.phase l₂ := hphase
    simpa only [validLink, hc, hp] using hvalid
  have hfav2 : Favours (t₁.leaveRecovery.enterRecovery l₂) l₂ := hfav.of_asks fun q hq => by
    have hstart : ((s.enterRecovery l₁).ask q).1 = (s.ask q).1 := State.ask_congr (by rfl) q
    have hnext : ((t₁.leaveRecovery.enterRecovery l₂).ask q).1 = (t₁.ask q).1 := State.ask_congr (by rfl) q
    rw [hnext, hasks q hq, hstart]
  obtain ⟨u, e', hu, hrec, -⟩ := recover_ok hw hs2 (hgate _ hs2.2) hvalid2 hfav2
  have hrun : recoverAll forced [l₁, l₂] s = .ok [(l₁, st, stp), (l₂, .ok, 0)] u.leaveRecovery := by
    rw [recoverAll_cons hq.1 hq.2.2 e, Act.bind_of_ok (recoverAll_single (s := t₁.leaveRecovery) ht.1 rfl e')]
    rfl
  obtain ⟨_, _, eq, -, hcalm, -⟩ := recoverAll_quiet forced [l₁, l₂] (s := s) ⟨hq.1, rfl⟩ hq.2.2
  rw [hrun] at eq
  cases eq
  have hv := u.leaveRecovery.trained_drained [(l₁, st, stp), (l₂, .ok, 0)]
  have hexec := exec_rstdrain_of (t := u.leaveRecovery) htail ha (by rw [hls]; exact hrun) hu.1
  generalize u.leaveRecovery.trained [(l₁, st, stp), (l₂, .ok, 0)] = v at hv hexec
  refine ⟨v, st, stp, hexec, ?_, ?_, ?_, ?_, fun k hk t => ?_⟩
  · have hfailed : anyFailed [(l₁, st, stp), (l₂, .ok, 0)] = st.isError := by cases st <;> rfl
    rw [hv.responses, hcalm.responses, hfailed]
  · have h := hrec.flags l₂
    rw [if_pos rfl] at h
    rw [State.fatalOccurred, hv.fault]
    exact h
  · have h := hrec.phases l₂
    rw [if_pos rfl] at h
    rw [State.phase, hv.fault]
    exact h
  · have h := hrec.registrations l₂
    rw [if_pos rfl] at h
    rw [State.registered, hv.fault]
    exact h
  · have h := hrec.enables k hk t
    have hcfg : (t₁.leaveRecovery.enterRecovery l₂).cfg = s.cfg := hs2.2
    rw [hcfg] at h
    exact (State.field_congr hv.cfg (State.cellAt_of_hw hv.hw hv.cfg _)).trans h

end Sys2Proof.Machine

/-! PROOFS. Family 44_recovery: what each of the steps 2 to 11 leaves, with the answers that decide them (R285 to R305): the cells a
step may change, the registers it leaves at a known value, and what it returns. -/

namespace Sys2Proof.Machine

variable {c : Config} {l : Nat} {s t u : State} {rs rs' : List Reg} {Q Q' : List EnvQuery}

/-! ## Registers and their cells -/

/-- A register that is none of some others has none of their addresses. -/
theorem busAddr_not_mem {r : Reg} (hr : fits r = true) (hrs : ∀ x ∈ rs, fits x = true) (h : r ∉ rs) : busAddr r ∉ rs.map busAddr := by
  intro hmem
  obtain ⟨x, hx, e⟩ := List.mem_map.mp hmem
  have hne : x ≠ r := fun e => h (e ▸ hx)
  exact busAddr_ne hr (hrs x hx) hne e

/-- The cells of some registers apart, and the answers to some questions, everything is as before; H may have grown. -/
structure ChangesOnly (rs : List Reg) (Q : List EnvQuery) (s t : State) : Prop where
  cells : SameCellsBut rs s t
  cfg : t.cfg = s.cfg
  fault : t.fault = s.fault
  cache : t.hw.gangedCache = s.hw.gangedCache
  asks : ∀ q, q ∉ Q → (t.ask q).1 = (s.ask q).1
  history : s.io.history <+: t.io.history

theorem ChangesOnly.trans (h : ChangesOnly rs Q s t) (k : ChangesOnly rs Q t u) : ChangesOnly rs Q s u :=
  ⟨fun a ha => (k.cells a ha).trans (h.cells a ha), k.cfg.trans h.cfg, k.fault.trans h.fault, k.cache.trans h.cache, fun q hq => (k.asks q hq).trans (h.asks q hq),
    h.history.trans k.history⟩

theorem ChangesOnly.mono (h : ChangesOnly rs Q s t) (hrs : rs ⊆ rs') (hQ : Q ⊆ Q') : ChangesOnly rs' Q' s t :=
  ⟨fun a ha => h.cells a fun hm => ha (List.map_subset busAddr hrs hm), h.cfg, h.fault, h.cache, fun q hq => h.asks q fun hm => hq (hQ hm), h.history⟩

theorem ChangesOnly.field (h : ChangesOnly rs Q s t) {r : Reg} (hr : busAddr r ∉ rs.map busAddr) : t.field r = s.field r :=
  State.field_congr h.cfg (h.cells _ hr)

theorem ChangesOnly.unseeing (rs : List Reg) (Q : List EnvQuery) : Unseeing (ChangesOnly rs Q) where
  chains := ⟨fun _ => ⟨fun _ _ => rfl, rfl, rfl, rfl, fun _ _ => rfl, List.prefix_rfl⟩, ChangesOnly.trans⟩
  record := fun hc hh hf he hist => ⟨fun a _ => State.cellAt_of_hw hh hc a, hc, hf, by rw [hh], fun q _ => State.ask_congr he q, hist⟩

/-- Hardware changes of the listed cells. -/
theorem ChangesOnly.of_cells (h : HardwareOnly s t) (hcache : t.hw.gangedCache = s.hw.gangedCache) (hc : SameCellsBut rs s t) :
    ChangesOnly rs Q s t := by
  obtain ⟨hcfg, hf, -, hio⟩ := h.parts
  exact ⟨hc, hcfg, hf, hcache, fun q _ => State.ask_congr (by rw [hio]) q, by rw [hio]⟩

/-- No write changes the cached table (R66). -/
theorem applyWrite_cache (s : State) (r : Reg) (v : Word) (b : Bool) : (s.applyWrite r v b).hw.gangedCache = s.hw.gangedCache := by
  by_cases hi : access r = .indexed
  · have written : ∀ m l i, (s.ramWrite m l i v).hw.gangedCache = s.hw.gangedCache := fun m l i => by
      unfold State.ramWrite
      split
      · cases m <;> rfl
      · rfl
    simp only [State.applyWrite, hi, State.indexedWrite]
    split
    · exact written ..
    · exact written ..
    · exact written ..
    · rfl
  · exact (applyWrite_storesOnly s v b hi).cache

/-- A register whose writes change cells of `rs` only and ask questions of `Q` only. -/
structure Accessible (c : Config) (rs : List Reg) (Q : List EnvQuery) (r : Reg) : Prop where
  plain : ∀ g, r ≠ .warmReset g
  foot : access r ≠ .indexed → ∀ x ∈ writeFoot c r, x ∈ rs
  stuck : ∀ v q, stuckQuery r v = some q → q ∈ Q

theorem ChangesOnly.covers (c : Config) (rs : List Reg) (Q : List EnvQuery) : Covers c (Accessible c rs Q) (· ∈ Q) (ChangesOnly rs Q) where
  toUnseeing := ChangesOnly.unseeing rs Q
  ask := fun s q hq => ⟨fun a _ => State.ask_read_cellAt s q a, State.ask_cfg s q, State.ask_fault s q,
    by rw [State.ask_hw], fun p hp => State.ask_other s fun e => hp (e ▸ hq), by rw [State.ask_io_history]⟩
  write := fun s r v b hc hr => ChangesOnly.of_cells (s.applyWrite_hardwareOnly r v b) (applyWrite_cache s r v b) fun a ha =>
    applyWrite_cellAt s hr.plain v b fun hi hm => ha (by
      rw [hc] at hm
      exact List.map_subset busAddr (hr.foot hi) hm)
  stuck := fun r v q hr hq => hr.stuck v q hq

/-! ## Each step's footprint (R292 to R303) -/

/-- The registers of each step whose cells it may change: 5, 6, 7, 8, 9 and 11. -/
def stopRegs (l : Nat) : List Reg := [.ctrlStop l]
def maskRegs (l : Nat) : List Reg := [.portIntrCtrl l, .lmIntrCtrl l]
def assertRegs (c : Config) (l : Nat) : List Reg := .warmReset (pg c l) :: warmResetSet c l
def sequencerRegs (l : Nat) : List Reg := [.rstseqReq l, .rstseqStatus l]
def releaseRegs (c : Config) (l : Nat) : List Reg := [.warmReset (pg c l), .debugClear l] ++ portStatusRegs c l
def ramRegs (l : Nat) : List Reg := [.ramInitStatus l, .crumbAddr l, .camAddr l]

theorem stepStop_changesOnly (c : Config) (l : Nat) : Quietly c (Covering (ChangesOnly (stopRegs l) [])) (stepStop l) :=
  covered_stepStop (ChangesOnly.covers ..) ⟨nofun, fun _ _ h => h, nofun⟩

theorem stepMask_changesOnly (c : Config) (l : Nat) : Quietly c (Covering (ChangesOnly (maskRegs l) [])) (stepMask l) :=
  covered_stepMask (ChangesOnly.covers ..) ⟨nofun, fun _ _ h => by simp_all [maskRegs, writeFoot], nofun⟩
    ⟨nofun, fun _ _ h => by simp_all [maskRegs, writeFoot], nofun⟩

theorem stepWarmReset_changesOnly (hl : Sound c l) : Quietly c (Covering (ChangesOnly (assertRegs c l) [])) (stepWarmReset l) :=
  covered_stepWarmReset (ChangesOnly.covers ..) fun s hc => .of_cells (s.applyWrite_hardwareOnly _ _ _) (applyWrite_cache ..) fun a ha => by
    simp only [assertRegs, List.map_cons, List.mem_cons, not_or] at ha
    rw [applyWrite_assertReset hl.wf hl.link hc, if_neg fun h => ha.2 h.2, if_neg ha.1]

/-- An answer of a responder stores to one status register. -/
theorem ackRstseq_changesOnly (s : State) (l : Nat) : ChangesOnly (sequencerRegs l) Q s (s.ackRstseq l) := by
  refine .of_cells (by unfold State.ackRstseq; split <;> rfl) (by unfold State.ackRstseq; split <;> rfl) fun a ha => ?_
  have hne : a ≠ busAddr (.rstseqStatus l) := fun e => ha (e ▸ List.mem_map_of_mem (by simp [sequencerRegs]))
  unfold State.ackRstseq
  split
  · rw [State.setRstseqPending_read_cellAt, State.store_cellAt, if_neg hne]
  · rfl

theorem finishRamInit_changesOnly (s : State) (l : Nat) : ChangesOnly (ramRegs l) Q s (s.finishRamInit l) := by
  refine .of_cells (by unfold State.finishRamInit; split <;> rfl) (by unfold State.finishRamInit; split <;> rfl) fun a ha => ?_
  have hne : a ≠ busAddr (.ramInitStatus l) := fun e => ha (e ▸ List.mem_map_of_mem (by simp [ramRegs]))
  unfold State.finishRamInit
  split
  · rw [State.setRamInitPending_read_cellAt, State.setTagpoolClean_read_cellAt, State.store_cellAt, if_neg hne]
  · rfl

theorem stepRstseq_changesOnly (c : Config) (l : Nat) : Quietly c (Covering (ChangesOnly (sequencerRegs l) [.rstseqAck l])) (stepRstseq l) :=
  covered_stepRstseq (ChangesOnly.covers ..) ⟨nofun, fun _ _ h => h, nofun⟩ (List.mem_singleton_self _) fun s _ => ackRstseq_changesOnly s l

theorem stepDeassert_changesOnly (c : Config) (l : Nat) : Quietly c (Covering (ChangesOnly (releaseRegs c l) [])) (stepDeassert l) := by
  refine covered_stepDeassert (ChangesOnly.covers ..) (fun s _ => .of_cells (s.applyWrite_hardwareOnly _ _ _) (applyWrite_cache ..) fun a ha => ?_)
    ⟨nofun, fun _ x h => List.mem_cons_of_mem _ h, nofun⟩
  have hne : a ≠ busAddr (.warmReset (pg c l)) := fun e => ha (e ▸ List.mem_map_of_mem (by simp [releaseRegs]))
  rw [applyWrite_releaseReset, State.store_cellAt, if_neg hne]

theorem stepContain_changesOnly (c : Config) (l : Nat) : Quietly c (Covering (ChangesOnly [.containLatch l] [.containStuck l])) (stepContain l) :=
  covered_stepContain (ChangesOnly.covers ..) ⟨nofun, fun _ _ h => h, fun v q h => by
    simp only [stuckQuery, Option.ite_none_right_eq_some, Option.some.injEq] at h
    exact List.mem_singleton.mpr h.2.symm⟩

/-- The registers step 11 accesses. -/
theorem ramRegs_accessible {r : Reg} (hr : r ∈ [Reg.tagpoolInit l, .crumbAddr l, .crumbData l, .camAddr l, .camData l]) :
    Accessible c (ramRegs l) Q r := by
  simp only [List.mem_cons, List.not_mem_nil, or_false] at hr
  rcases hr with rfl | rfl | rfl | rfl | rfl <;> exact ⟨nofun, fun hi x hx => by simp_all [ramRegs, writeFoot, access], nofun⟩

theorem stepRams_changesOnly (c : Config) (l : Nat) : Quietly c (Covering (ChangesOnly (ramRegs l) [.raminitDone l])) (stepRams l) :=
  covered_stepRams (ChangesOnly.covers ..) (fun _ => ramRegs_accessible) (List.mem_singleton_self _) fun s _ => finishRamInit_changesOnly s l

/-! ## What the steps that can fail return (R297, R301, R303) -/

/-- A poll of a clear bit returns the environment's answer. -/
theorem poll_answer (hs : Alone c s) {r : Reg} (h : (readReg s r).getLsbD 0 = false) (q : EnvQuery) (g : State → State) :
    ∃ t, poll r q g s = .ok (s.ask q).1 t := by
  unfold poll
  rw [Act.bind_of_ok (rd_quiet hs.1 r), h, if_neg Bool.false_ne_true, Act.bind_of_ok (askEnv_apply _ _)]
  cases (s.ask q).1 with
  | true => exact ⟨_, rfl⟩
  | false => exact ⟨_, rfl⟩

/-- A request clears the status it waits for (R297, R298). -/
theorem wr_rstseqReq (hs : Alone c s) (l : Nat) : ∃ t, wr (.rstseqReq l) 1#32 s = .ok () t ∧ Alone c t ∧ t.io.env = s.io.env
    ∧ t.field (.rstseqStatus l) = 0#32 := by
  refine ⟨_, (wr_quiet hs.1 rfl).trans (congrArg _ ((applyWrite_rstseqReq ..).trans (if_pos rfl))), hs, rfl, ?_⟩
  rw [State.setRstseqPending_read_field, State.store_field_same, BitVec.zero_and]

theorem wr_tagpoolInit (hs : Alone c s) (l : Nat) : ∃ t, wr (.tagpoolInit l) 1#32 s = .ok () t ∧ Alone c t ∧ t.io.env = s.io.env
    ∧ t.field (.ramInitStatus l) = 0#32 := by
  refine ⟨_, (wr_quiet hs.1 rfl).trans (congrArg _ ((applyWrite_tagpoolInit ..).trans (if_pos rfl))), hs, rfl, ?_⟩
  rw [State.setRamInitPending_read_field, State.store_field_same, BitVec.zero_and]

/-- A written 1 leaves the latch set where it was set and is held (R302). -/
theorem wr_containLatch (hs : Alone c s) (l : Nat) : ∃ t, wr (.containLatch l) 1#32 s = .ok () t ∧ Alone c t
    ∧ (t.field (.containLatch l)).getLsbD 0 = ((s.field (.containLatch l)).getLsbD 0 && (s.ask (.containStuck l)).1) := by
  have hask : Alone c ((s.emit (.write (.containLatch l) 1#32)).ask (.containStuck l)).2 :=
    Alone.ask (s := s.emit (.write (.containLatch l) 1#32)) hs _
  refine ⟨_, (Act.bind_of_ok (tick_quiet hs.1)).trans (writeReg_containLatch s rfl), ?_⟩
  cases (s.ask (.containStuck l)).1 with
  | true =>
    refine ⟨hask, ?_⟩
    rw [if_pos rfl, State.ask_read_field, State.emit_read_field, Bool.and_true]
  | false =>
    refine ⟨hask, ?_⟩
    rw [if_neg Bool.false_ne_true, State.store_field_same]
    simp

/-- The request has cleared the status, so the answer decides. -/
theorem stepRstseq_answer (hs : Alone c s) {a : Bool} (e : stepRstseq l s = .ok a t) : a = (s.ask (.rstseqAck l)).1 := by
  obtain ⟨x, ex, hx, henv, hstatus⟩ := wr_rstseqReq (s := s.setRcvStep (some 8)) hs l
  have hclear : (readReg x (.rstseqStatus l)).getLsbD 0 = false := congrArg (BitVec.getLsbD · 0) hstatus
  obtain ⟨y, ey⟩ := poll_answer hx hclear (.rstseqAck l) (fun s => s.ackRstseq l)
  unfold stepRstseq at e
  rw [Act.bind_of_ok (setStep_apply _ _), Act.bind_of_ok ex, ey] at e
  cases e
  exact State.ask_congr (s := s) henv _

/-- The latch reads back clear unless it was set and is held (R301). -/
theorem stepContain_answer (hs : Alone c s) {a : Bool} (e : stepContain l s = .ok a t) :
    a = !((s.field (.containLatch l)).getLsbD 0 && (s.ask (.containStuck l)).1) := by
  obtain ⟨x, ex, hx, hbit⟩ := wr_containLatch (s := s.setRcvStep (some 10)) hs l
  have hask : ((s.setRcvStep (some 10)).ask (.containStuck l)).1 = (s.ask (.containStuck l)).1 := State.ask_congr (by rfl) _
  rw [hask] at hbit
  unfold stepContain at e
  rw [Act.bind_of_ok (setStep_apply _ _), Act.bind_of_ok ex, Act.bind_of_ok (rd_quiet hx.1 _)] at e
  cases e
  exact congrArg (!·) hbit

/-- The request has cleared the status, and zeroing the RAMs leaves it, so the answer decides (R303). -/
theorem stepRams_answer (hl : l < 4096) (hs : Alone c s) {a : Bool} (e : stepRams l s = .ok a t) : a = (s.ask (.raminitDone l)).1 := by
  have zeroed : ∀ addr data is, addr ∈ [Reg.crumbAddr l, .camAddr l] → data ∈ [Reg.crumbData l, .camData l] →
      Quietly c (Covering (ChangesOnly [.crumbAddr l, .camAddr l] [])) (zeroRam addr data is) := fun addr data is ha hd => by
    simp only [List.mem_cons, List.not_mem_nil, or_false] at ha hd
    refine covered_zeroRam (ChangesOnly.covers ..) ?_ ?_ is
    · rcases ha with rfl | rfl <;> exact ⟨nofun, fun _ x hx => by simp_all [writeFoot], nofun⟩
    · rcases hd with rfl | rfl <;> exact ⟨nofun, fun hi => absurd rfl hi, nofun⟩
  obtain ⟨x, ex, hx, henv, hstatus⟩ := wr_tagpoolInit (s := s.setRcvStep (some 11)) hs l
  obtain ⟨_, y, ey, hy, ky, -⟩ := zeroed (.crumbAddr l) (.crumbData l) (List.range x.cfg.crumbDepth) (by simp) (by simp) x hx
  obtain ⟨_, z, ez, hz, kz, -⟩ := zeroed (.camAddr l) (.camData l) (List.range y.cfg.camDepth) (by simp) (by simp) y hy
  have hkept : z.field (.ramInitStatus l) = x.field (.ramInitStatus l) := (ky.trans kz).field
    (busAddr_not_mem (by simpa [fits] using hl) (by simpa [fits] using hl) (by simp))
  have hclear : (readReg z (.ramInitStatus l)).getLsbD 0 = false := congrArg (BitVec.getLsbD · 0) (hkept.trans hstatus)
  obtain ⟨w, ew⟩ := poll_answer hz hclear (.raminitDone l) (fun s => s.finishRamInit l)
  unfold stepRams at e
  rw [Act.bind_of_ok (setStep_apply _ _), Act.bind_of_ok ex, Act.get_bind, Act.bind_of_ok ey, Act.get_bind, Act.bind_of_ok ez, ew] at e
  cases e
  exact ((ky.trans kz).asks _ nofun).trans (State.ask_congr (s := s) henv _)

end Sys2Proof.Machine

/-! PROOFS. Family 44_recovery: the state after the warm reset is asserted (step 7) and after it is released (step 9), with the events
recorded so far (R285 to R300). -/

namespace Sys2Proof.Machine

variable {c : Config} {l : Nat} {s t u : State}

/-! ## Addresses -/

theorem Sound.fits_warmReset (hl : Sound c l) : fits (.warmReset (pg c l)) = true := by
  have h : pg c l ≤ l := Nat.div_le_self l _
  simpa [fits] using lt_of_le_of_lt h hl.lt

theorem Sound.fits_scratchPort (hl : Sound c l) : fits (.scratchPort (l / 32)) = true := by
  have h := hl.lt
  simp only [fits, decide_eq_true_eq]
  omega

/-- The registers of the link that the steps write by name. -/
theorem Sound.fits_link (hl : Sound c l) : ∀ r ∈ [Reg.ctrlStop l, .portIntrCtrl l, .lmIntrCtrl l, .rstseqReq l, .rstseqStatus l, .debugClear l,
    .containLatch l, .ramInitStatus l, .crumbAddr l, .camAddr l], fits r = true := by
  simpa [fits] using hl.lt

/-! ## Steps 2 to 7 (R285 to R296) -/

/-- The events of steps 2 to 7. -/
def State.assertEvents (s : State) (l : Nat) : List Event :=
  [Event.extCall .unregisterLink (some l)]
    ++ (if (s.ask (.linkInReset l)).1 then [] else [Event.extCall .requestShutdown (some l), .extCall .clearTransportState (some l)])
    ++ [Event.write (.ctrlStop l) (s.field (.ctrlStop l) ||| 0x3#32), .delay .tDrain, .write (.portIntrCtrl l) 0#32, .write (.lmIntrCtrl l) 0#32,
        .write (.warmReset (pg s.cfg l)) (s.field (.warmReset (pg s.cfg l)) ||| bit (pl s.cfg l))]

/-- Steps 2 to 4 change no hardware: the link is unregistered, the phase RESET, the snapshot taken. -/
theorem steps_two_to_four (hl : Sound c l) (hs : Alone c s) : ∃ t, (stepUnregister l >>= fun _ => stepQuiesce l >>= fun _ => stepSnapshot l) s = .ok () t
    ∧ Alone c t ∧ t.hw = s.hw ∧ t.fault = ((s.setRegistered l false).setPhase l .reset).fault
    ∧ t.seq.snap = (snapList c l).map (fun r => (r, s.field r)) ∧ (∀ q, q ≠ .linkInReset l → (t.ask q).1 = (s.ask q).1)
    ∧ t.io.history = s.io.history ++ ([Event.extCall .unregisterLink (some l)]
      ++ (if (s.ask (.linkInReset l)).1 then [] else [Event.extCall .requestShutdown (some l), .extCall .clearTransportState (some l)])) := by
  obtain ⟨a, ea, ha, hhw, hfault, henv, hhist⟩ : ∃ a, stepUnregister l s = .ok () a ∧ Alone c a ∧ a.hw = s.hw
      ∧ a.fault = ((s.setRegistered l false).setPhase l .reset).fault ∧ a.io.env = s.io.env
      ∧ a.io.history = s.io.history ++ [Event.extCall .unregisterLink (some l)] := by
    refine ⟨(((s.setRcvStep (some 2)).emit (.extCall .unregisterLink (some l))).setRegistered l false).setPhase l .reset, ?_, hs, rfl, rfl, rfl, rfl⟩
    unfold stepUnregister
    rw [Act.bind_of_ok (setStep_apply _ _), Act.bind_of_ok (extCall_quiet (by exact hs.1) _ _)]
    rfl
  obtain ⟨b, eb, hb, hhwb⟩ := stepQuiesce_ran ha l
  have hhistb := (Records.stepQuiesce (c := c) l a () b ha eb).2
  have hfield : ∀ r, b.field r = s.field r := fun r =>
    State.field_congr (hb.alone.2.trans hs.2.symm) (State.cellAt_of_hw (hhwb.trans hhw) (hb.alone.2.trans hs.2.symm) _)
  have hrw : ∀ r ∈ snapList c l, access r = .rw := fun r hr => (hl.snap hr).2.1
  refine ⟨((b.setRcvStep (some 4)).setSnap []).setSnap ([] ++ (snapList c l).map (fun r => (r, b.field r))), ?_, hb.alone, hhwb.trans hhw,
    hb.fault.trans hfault, ?_, fun q hq => ?_, ?_⟩
  · rw [Act.bind_of_ok ea, Act.bind_of_ok eb]
    unfold stepSnapshot
    rw [Act.bind_of_ok (setStep_apply _ _), Act.modify_bind, Act.get_bind, show ((b.setRcvStep (some 4)).setSnap []).cfg = c from hb.alone.2]
    exact snapshotRegs_quiet _ hrw (s := (b.setRcvStep (some 4)).setSnap []) hb.alone.1
  · simp only [hfield]
    rfl
  · exact (State.ask_congr (s := b) (by rfl) q).trans ((hb.asks q hq).trans (State.ask_congr henv q))
  · rw [← List.append_assoc, ← hhist]
    simp only [State.ask_congr henv] at hhistb
    exact hhistb

/-- Step 6 leaves both gates 0. -/
theorem stepMask_gates (hs : Alone c s) (e : stepMask l s = .ok () t) : ∀ r ∈ maskRegs l, t.field r = 0#32 := by
  unfold stepMask at e
  rw [Act.bind_of_ok (setStep_apply _ _), Act.bind_of_ok (wr_store (by exact hs.1) rfl rfl fun _ _ _ => rfl),
    wr_store (by exact hs.1) rfl rfl fun _ _ _ => rfl] at e
  cases e
  intro r hr
  simp only [maskRegs, List.mem_cons, List.not_mem_nil, or_false] at hr
  rw [State.field_eq_cellAt, State.store_cellAt, State.emit_read_cellAt, State.store_cellAt]
  rcases hr with rfl | rfl <;> simp

/-- Step 7 on the cells. -/
theorem stepWarmReset_cellAt (hl : Sound c l) (hs : Alone c s) (e : stepWarmReset l s = .ok () t) (a : Nat) : t.cellAt a =
    if (s.field (.warmReset (pg c l))).getLsbD (pl c l) = false ∧ a ∈ (warmResetSet c l).map busAddr then resetValue c a
    else if a = busAddr (.warmReset (pg c l)) then (s.field (.warmReset (pg c l)) ||| bit (pl c l)) &&& lowMask c.pgSize
    else s.cellAt a := by
  unfold stepWarmReset at e
  rw [Act.bind_of_ok (setStep_apply _ _), Act.get_bind, show (s.setRcvStep (some 7)).cfg = c from hs.2,
    Act.bind_of_ok (rd_quiet (by exact hs.1) _), wr_quiet (by exact hs.1) rfl] at e
  cases e
  exact applyWrite_assertReset (s := (s.setRcvStep (some 7)).emit _) hl.wf hl.link hs.2 false a

/-- A port's bit is one of the defined bits of its group's WARM_RESET. -/
theorem warmReset_defined (hl : Sound c l) (hc : s.cfg = c) :
    (s.field (.warmReset (pg c l)) ||| bit (pl c l)) &&& lowMask c.pgSize = s.field (.warmReset (pg c l)) ||| bit (pl c l) := by
  obtain ⟨hpos, hle⟩ := (configWf_sizes hl.wf).ports
  have hport : pl c l < c.pgSize := Nat.mod_lt _ hpos
  have hfield : s.field (.warmReset (pg c l)) &&& lowMask c.pgSize = s.field (.warmReset (pg c l)) := by
    rw [State.field, hc, BitVec.and_assoc]
    exact congrArg _ BitVec.and_self
  have hbit : bit (pl c l) &&& lowMask c.pgSize = bit (pl c l) := BitVec.eq_of_getLsbD_eq fun i _ => by
    rw [BitVec.getLsbD_and, getLsbD_lowMask hle, getLsbD_bit]
    by_cases hi : i = pl c l <;> simp [hi, hport]
  rw [BitVec.and_or_distrib_right, hfield, hbit]

/-- After step 7: the link is down, the gates are 0, its warm-reset bit is held and, if it was not before, what it reaches is reset. -/
structure Asserted (c : Config) (l : Nat) (s t : State) : Prop where
  alone : Alone c t
  fault : t.fault = ((s.setRegistered l false).setPhase l .reset).fault
  snap : t.seq.snap = (snapList c l).map (fun r => (r, s.field r))
  cache : t.hw.gangedCache = s.hw.gangedCache
  asks : ∀ q, q ≠ .linkInReset l → (t.ask q).1 = (s.ask q).1
  cells : SameCellsBut (stopRegs l ++ maskRegs l ++ assertRegs c l) s t
  gates : ∀ r ∈ maskRegs l, busAddr r ∉ (warmResetSet c l).map busAddr → t.field r = 0#32
  warm : busAddr (.warmReset (pg c l)) ∉ (warmResetSet c l).map busAddr →
    t.field (.warmReset (pg c l)) = s.field (.warmReset (pg c l)) ||| bit (pl c l)
  reset : (s.field (.warmReset (pg c l))).getLsbD (pl c l) = false → ∀ r ∈ warmResetSet c l, t.cellAt (busAddr r) = resetValue c (busAddr r)
  history : t.io.history = s.io.history ++ s.assertEvents l

theorem Asserted.grows (h : Asserted c l s t) : s.io.history <+: t.io.history := ⟨_, h.history.symm⟩

theorem steps_two_to_seven (hl : Sound c l) (hs : Alone c s) : ∃ t, (stepUnregister l >>= fun _ => stepQuiesce l >>= fun _ => stepSnapshot l >>= fun _ =>
    stepStop l >>= fun _ => stepMask l >>= fun _ => stepWarmReset l) s = .ok () t ∧ Asserted c l s t := by
  obtain ⟨a, ea, ha, hhw, hfault, hsnap, hasks, hhist⟩ := steps_two_to_four hl hs
  obtain ⟨_, b, eb, hb, kb, sb⟩ := stepStop_changesOnly c l a ha
  obtain ⟨_, d, ed, hd, kd, sd⟩ := stepMask_changesOnly c l b hb
  obtain ⟨_, t, et, ht, kt, st⟩ := stepWarmReset_changesOnly hl d hd
  have hnamed := hl.fits_link
  simp only [List.forall_mem_cons] at hnamed
  obtain ⟨hstop, hport, hlm, -⟩ := hnamed
  have hmask : ∀ r ∈ maskRegs l, fits r = true := by simp [maskRegs, hport, hlm]
  have hsame : ∀ r, a.field r = s.field r := fun r =>
    State.field_congr (ha.2.trans hs.2.symm) (State.cellAt_of_hw hhw (ha.2.trans hs.2.symm) _)
  have hwarm : d.field (.warmReset (pg c l)) = s.field (.warmReset (pg c l)) := by
    rw [kd.field (busAddr_not_mem hl.fits_warmReset hmask (by simp [maskRegs])),
      kb.field (busAddr_not_mem hl.fits_warmReset (rs := stopRegs l) (by simp [stopRegs, hstop]) (by simp [stopRegs])), hsame]
  have hcell := stepWarmReset_cellAt hl hd et
  have hall : ChangesOnly (stopRegs l ++ maskRegs l ++ assertRegs c l) [] a t :=
    ((kb.mono (by simp) (by simp)).trans (kd.mono (by simp) (by simp))).trans (kt.mono (by simp) (by simp))
  refine ⟨t, ?_, ht, hall.fault.trans hfault, ?_, hall.cache.trans (by rw [hhw]), fun q hq => (hall.asks q nofun).trans (hasks q hq),
    fun x hx => (hall.cells x hx).trans (State.cellAt_of_hw hhw (ha.2.trans hs.2.symm) x), fun r hr hnot => ?_, fun hnot => ?_, fun hclear r hr => ?_, ?_⟩
  · have split : (stepUnregister l >>= fun _ => stepQuiesce l >>= fun _ => stepSnapshot l >>= fun _ =>
        stepStop l >>= fun _ => stepMask l >>= fun _ => stepWarmReset l)
        = (stepUnregister l >>= fun _ => stepQuiesce l >>= fun _ => stepSnapshot l) >>= fun _ =>
          stepStop l >>= fun _ => stepMask l >>= fun _ => stepWarmReset l := by simp only [Act.bind_assoc]
    rw [split, Act.bind_of_ok ea, Act.bind_of_ok eb, Act.bind_of_ok ed, et]
  · rw [st, sd, sb, hsnap]
  · have hne : r ≠ .warmReset (pg c l) := by rintro rfl; simp [maskRegs] at hr
    rw [kt.field ?_, stepMask_gates hb ed r hr]
    simp only [assertRegs, List.map_cons, List.mem_cons, not_or]
    exact ⟨busAddr_ne hl.fits_warmReset (hmask r hr) hne, hnot⟩
  · rw [State.field_eq_cellAt, hcell, if_neg fun h => hnot h.2, if_pos rfl, hwarm, ht.2, BitVec.and_assoc]
    rw [show lowMask c.pgSize &&& definedMask c (.warmReset (pg c l)) = lowMask c.pgSize from BitVec.and_self, warmReset_defined hl hs.2]
  · rw [hcell, hwarm, if_pos ⟨hclear, List.mem_map_of_mem hr⟩]
  · rw [(Records.stepWarmReset (c := c) l d () t hd et).2, (Records.stepMask (c := c) l b () d hb ed).2, (Records.stepStop (c := c) l a () b ha eb).2,
      hhist, State.assertEvents, hs.2]
    simp only [hwarm, hsame, List.append_assoc, List.cons_append, List.nil_append]

/-! ## Steps 8 and 9 (R297 to R300) -/

/-- The write that releases a port's bit clears it, and no other of the register. -/
theorem wr_releaseReset (hs : Alone c s) (g p : Nat) : ∃ t, wr (.warmReset g) (readReg s (.warmReset g) &&& ~~~bit p) s = .ok () t ∧ Alone c t
    ∧ t.field (.warmReset g) = s.field (.warmReset g) &&& ~~~bit p := by
  refine ⟨_, (wr_quiet hs.1 rfl).trans (congrArg _ (applyWrite_releaseReset (s.emit _) g p false)), hs, ?_⟩
  rw [State.store_field_same]
  exact (BitVec.and_assoc ..).trans ((congrArg _ BitVec.and_self).trans (s.field_and_defined (.warmReset g) _))

/-- The registers steps 8 and 9 write are neither gates nor WARM_RESET. -/
theorem not_mem_portStatusRegs {r : Reg} (h : access r = .rw) : r ∉ portStatusRegs c l := fun hr => by
  rw [portStatusRegs_access hr] at h
  cases h

/-- Step 9 clears the port's bit of WARM_RESET, and no other of it. -/
theorem stepDeassert_warm (hl : Sound c l) (hs : Alone c s) (e : stepDeassert l s = .ok () t) :
    t.field (.warmReset (pg c l)) = s.field (.warmReset (pg c l)) &&& ~~~bit (pl c l) := by
  have pulse : ∀ v, Quietly c (Covering (ChangesOnly (.debugClear l :: portStatusRegs c l) [])) (wr (.debugClear l) v) := fun v =>
    covered_wr (r := .debugClear l) (ChangesOnly.covers ..) ⟨nofun, fun _ _ h => h, nofun⟩ v
  obtain ⟨x, ex, hx, hfield⟩ := wr_releaseReset (s := s.setRcvStep (some 9)) hs (pg c l) (pl c l)
  obtain ⟨_, y, ey, hy, ky, -⟩ := pulse 1#32 x hx
  obtain ⟨_, z, ez, hz, kz, -⟩ := pulse 0#32 y hy
  unfold stepDeassert at e
  rw [Act.bind_of_ok (setStep_apply _ _), Act.get_bind, show (s.setRcvStep (some 9)).cfg = c from hs.2,
    Act.bind_of_ok (rd_quiet (by exact hs.1) _), Act.bind_of_ok ex, Act.bind_of_ok ey, ez] at e
  cases e
  have hdebug : fits (.debugClear l) = true := hl.fits_link _ (by simp)
  have hfits : ∀ r ∈ Reg.debugClear l :: portStatusRegs c l, fits r = true :=
    List.forall_mem_cons.mpr ⟨hdebug, fun r hr => portStatusRegs_fits hl.wf hr⟩
  have hnodes : .warmReset (pg c l) ∉ portStatusRegs c l := not_mem_portStatusRegs rfl
  have hnot : .warmReset (pg c l) ∉ Reg.debugClear l :: portStatusRegs c l := by simp [hnodes]
  rw [(ky.trans kz).field (busAddr_not_mem hl.fits_warmReset hfits hnot), hfield]
  rfl

/-- After step 9: the warm-reset bit is released, the rest as step 7 left it but for what steps 8 and 9 write. -/
structure Released (c : Config) (l : Nat) (s t : State) : Prop where
  alone : Alone c t
  fault : t.fault = ((s.setRegistered l false).setPhase l .reset).fault
  snap : t.seq.snap = (snapList c l).map (fun r => (r, s.field r))
  cache : t.hw.gangedCache = s.hw.gangedCache
  asks : ∀ q, q ∉ [EnvQuery.linkInReset l, .rstseqAck l] → (t.ask q).1 = (s.ask q).1
  cells : SameCellsBut (stopRegs l ++ maskRegs l ++ assertRegs c l ++ sequencerRegs l ++ releaseRegs c l) s t
  gates : ∀ r ∈ maskRegs l, busAddr r ∉ (warmResetSet c l).map busAddr → t.field r = 0#32
  released : (t.field (.warmReset (pg c l))).getLsbD (pl c l) = false
  warm : busAddr (.warmReset (pg c l)) ∉ (warmResetSet c l).map busAddr →
    t.field (.warmReset (pg c l)) = s.field (.warmReset (pg c l)) &&& ~~~bit (pl c l)
  reset : (s.field (.warmReset (pg c l))).getLsbD (pl c l) = false → ∀ r ∈ warmResetSet c l,
    busAddr r ∉ (sequencerRegs l ++ releaseRegs c l).map busAddr → t.cellAt (busAddr r) = resetValue c (busAddr r)
  history : ∃ g, t.io.history = s.io.history ++ (s.assertEvents l ++ [Event.write (.rstseqReq l) 1#32, .write (.warmReset (pg c l)) g,
      .write (.debugClear l) 1#32, .write (.debugClear l) 0#32])
    ∧ (busAddr (.warmReset (pg c l)) ∉ (warmResetSet c l).map busAddr → g = s.field (.warmReset (pg c l)) &&& ~~~bit (pl c l))

theorem Released.grows (h : Released c l s t) : s.io.history <+: t.io.history := by
  obtain ⟨g, hg, -⟩ := h.history
  exact ⟨_, hg.symm⟩

theorem writtenAfterWarmReset_fits (hl : Sound c l) : ∀ r ∈ writtenAfterWarmReset c l, fits r = true := by
  refine List.forall_mem_append.mpr ⟨?_, fun r hr => portStatusRegs_fits hl.wf hr⟩
  simp [hl.fits_warmReset, hl.fits_link]

theorem sequencerRegs_subset : sequencerRegs l ⊆ writtenAfterWarmReset c l := fun r hr => by
  simp only [sequencerRegs, List.mem_cons, List.not_mem_nil, or_false] at hr
  rcases hr with rfl | rfl <;> simp [writtenAfterWarmReset]

theorem releaseRegs_subset : releaseRegs c l ⊆ writtenAfterWarmReset c l := fun r hr => by
  simp only [releaseRegs, List.mem_append, List.mem_cons, List.not_mem_nil, or_false] at hr
  rcases hr with (rfl | rfl) | hr <;> simp [writtenAfterWarmReset, *]

theorem latchAndRamRegs_subset : .containLatch l :: ramRegs l ⊆ writtenAfterWarmReset c l := fun r hr => by
  simp only [ramRegs, List.mem_cons, List.not_mem_nil, or_false] at hr
  rcases hr with rfl | rfl | rfl | rfl <;> simp [writtenAfterWarmReset]

/-- The gates are none of the registers the steps after the warm reset write. -/
theorem maskRegs_not_written (hl : Sound c l) {r : Reg} (hr : r ∈ maskRegs l) : busAddr r ∉ (writtenAfterWarmReset c l).map busAddr := by
  simp only [maskRegs, List.mem_cons, List.not_mem_nil, or_false] at hr
  have hnodes : r ∉ portStatusRegs c l := by rcases hr with rfl | rfl <;> exact not_mem_portStatusRegs rfl
  refine busAddr_not_mem ?_ (writtenAfterWarmReset_fits hl) ?_
  · rcases hr with rfl | rfl <;> exact hl.fits_link _ (by simp)
  · rcases hr with rfl | rfl <;> simp [writtenAfterWarmReset, hnodes]

theorem Asserted.release (hl : Sound c l) (h : Asserted c l s t) (hack : (s.ask (.rstseqAck l)).1 = true) :
    ∃ x u, stepRstseq l t = .ok true x ∧ stepDeassert l x = .ok () u ∧ Released c l s u := by
  obtain ⟨a, x, ex, hx, kx, sx⟩ := stepRstseq_changesOnly c l t h.alone
  obtain rfl : a = true := (stepRstseq_answer h.alone ex).trans ((h.asks (.rstseqAck l) (by simp)).trans hack)
  obtain ⟨_, u, eu, hu, ku, su⟩ := stepDeassert_changesOnly c l x hx
  have hboth : ChangesOnly (sequencerRegs l ++ releaseRegs c l) [.rstseqAck l] t u := (kx.mono (by simp) (by simp)).trans (ku.mono (by simp) (by simp))
  have hwarm := stepDeassert_warm hl hx eu
  have hheld : x.field (.warmReset (pg c l)) = t.field (.warmReset (pg c l)) :=
    kx.field (busAddr_not_mem hl.fits_warmReset (fun r hr => writtenAfterWarmReset_fits hl r (sequencerRegs_subset hr)) (by simp [sequencerRegs]))
  have hclear : busAddr (.warmReset (pg c l)) ∉ (warmResetSet c l).map busAddr →
      x.field (.warmReset (pg c l)) &&& ~~~bit (pl c l) = s.field (.warmReset (pg c l)) &&& ~~~bit (pl c l) := fun hnot => by
    rw [hheld, h.warm hnot, BitVec.and_or_distrib_right]
    simp
  refine ⟨x, u, ex, eu, hu, hboth.fault.trans h.fault, su.trans (sx.trans h.snap), hboth.cache.trans h.cache, fun q hq => ?_, fun b hb => ?_,
    fun r hr hnot => ?_, ?_, fun hnot => ?_, fun hbit r hr hnot => ?_, _, ?_, hclear⟩
  · simp only [List.mem_cons, List.not_mem_nil, or_false, not_or] at hq
    rw [hboth.asks q (by simpa using hq.2), h.asks q hq.1]
  · simp only [List.map_append, List.mem_append, not_or] at hb
    obtain ⟨⟨hstart, hseq⟩, hrel⟩ := hb
    rw [hboth.cells b (by simp [hseq, hrel]), h.cells b (by simpa [and_assoc] using hstart)]
  · have hwritten := hboth.mono (List.append_subset.mpr ⟨sequencerRegs_subset, releaseRegs_subset⟩) (List.Subset.refl _)
    rw [hwritten.field (maskRegs_not_written hl hr), h.gates r hr hnot]
  · rw [hwarm, getLsbD_and_not_bit]
    simp
  · rw [hwarm, hclear hnot]
  · rw [hboth.cells _ hnot, h.reset hbit r hr]
  · rw [(Records.stepDeassert (c := c) l x () u hx eu).2, (Records.stepRstseq (c := c) l t true x h.alone ex).2, h.history]
    simp only [List.append_assoc, List.cons_append, List.nil_append]

/-! ## The recovery up to there -/

theorem recoverValid_asserted (hl : Sound c l) (hs : Alone c s) : ∃ t, Asserted c l s t ∧ recoverValid l s
    = (stepRstseq l >>= fun acked => if acked then recoverAfterReset l else raiseAbort .timeout 8 l) t := by
  obtain ⟨t, e, h⟩ := steps_two_to_seven hl hs
  have split : recoverValid l = (stepUnregister l >>= fun _ => stepQuiesce l >>= fun _ => stepSnapshot l >>= fun _ =>
      stepStop l >>= fun _ => stepMask l >>= fun _ => stepWarmReset l) >>= fun _ =>
        stepRstseq l >>= fun acked => if acked then recoverAfterReset l else raiseAbort .timeout 8 l := by
    unfold recoverValid
    simp only [Act.bind_assoc]
  exact ⟨t, h, by rw [split, Act.bind_of_ok e]⟩

theorem recoverValid_released (hl : Sound c l) (hs : Alone c s) (hack : (s.ask (.rstseqAck l)).1 = true) : ∃ t, Released c l s t ∧ recoverValid l s
    = (stepContain l >>= fun cleared => if cleared then
        stepRams l >>= fun done => if done then stepRestore l >>= fun _ => stepRearm l >>= fun _ => stepRegister l else raiseAbort .timeout 11 l
      else raiseAbort .containLatchStuck 10 l) t := by
  obtain ⟨t, h, e⟩ := recoverValid_asserted hl hs
  obtain ⟨x, u, ex, eu, hu⟩ := h.release hl hack
  refine ⟨u, hu, ?_⟩
  rw [e, Act.bind_of_ok ex, if_pos rfl]
  unfold recoverAfterReset
  rw [Act.bind_of_ok eu]

end Sys2Proof.Machine

/-! PROOFS. Family 44_recovery: steps 10 to 13 where nothing holds them up (R301 to R307): the link re-armed, and the events up to the
registration. -/

namespace Sys2Proof.Machine

variable {c : Config} {l : Nat} {s t u : State}

/-! ## What steps 5 to 11 leave alone -/

/-- A register at an address the warm reset does not reach, and none of those steps 5 to 7 write, is not among their cells. -/
theorem not_mem_assertCells (hl : Sound c l) {r : Reg} (hr : fits r = true) (hset : busAddr r ∉ (warmResetSet c l).map busAddr)
    (hnot : r ∉ [Reg.ctrlStop l, .portIntrCtrl l, .lmIntrCtrl l, .warmReset (pg c l)]) :
    busAddr r ∉ (stopRegs l ++ maskRegs l ++ assertRegs c l).map busAddr := by
  have hfits : ∀ x ∈ [Reg.ctrlStop l, .portIntrCtrl l, .lmIntrCtrl l, .warmReset (pg c l)], fits x = true := by
    simp [hl.fits_link, hl.fits_warmReset]
  have hnamed := busAddr_not_mem hr hfits hnot
  simp only [stopRegs, maskRegs, assertRegs, List.map_append, List.map_cons, List.map_nil, List.mem_append, List.mem_cons, List.not_mem_nil, or_false,
    not_or] at hnamed ⊢
  exact ⟨⟨hnamed.1, hnamed.2.1, hnamed.2.2.1⟩, hnamed.2.2.2, hset⟩

/-- SCRATCH_PORT is none of the registers steps 5 to 11 write. -/
theorem scratchPort_not_written (hl : Sound c l) {w : Nat} (hfit : fits (.scratchPort w) = true)
    (hset : busAddr (.scratchPort w) ∉ (warmResetSet c l).map busAddr) :
    busAddr (.scratchPort w) ∉ (stopRegs l ++ maskRegs l ++ assertRegs c l).map busAddr
      ∧ busAddr (.scratchPort w) ∉ (writtenAfterWarmReset c l).map busAddr := by
  have hnodes : .scratchPort w ∉ portStatusRegs c l := not_mem_portStatusRegs rfl
  exact ⟨not_mem_assertCells hl hfit hset (by simp), busAddr_not_mem hfit (writtenAfterWarmReset_fits hl) (by simp [writtenAfterWarmReset, hnodes])⟩

/-- What none of steps 5 to 9 writes is after step 9 as it was. -/
theorem Released.field_kept (h : Released c l s t) (hc : s.cfg = c) {r : Reg} (hbefore : busAddr r ∉ (stopRegs l ++ maskRegs l ++ assertRegs c l).map busAddr)
    (hafter : busAddr r ∉ (sequencerRegs l ++ releaseRegs c l).map busAddr) : t.field r = s.field r := by
  refine State.field_congr (h.alone.2.trans hc.symm) (h.cells _ ?_)
  simp only [List.map_append, List.mem_append, not_or] at hbefore hafter ⊢
  exact ⟨⟨hbefore, hafter.1⟩, hafter.2⟩

/-- The registers of steps 8 and 9 are among those written after the warm reset. -/
theorem not_mem_released {a : Nat} (h : a ∉ (writtenAfterWarmReset c l).map busAddr) : a ∉ (sequencerRegs l ++ releaseRegs c l).map busAddr :=
  fun hm => h (List.map_subset busAddr (List.append_subset.mpr ⟨sequencerRegs_subset, releaseRegs_subset⟩) hm)

/-! ## The writes of steps 12 and 13 -/

/-- Step 12 writes the snapshot back, re-seeds the table from its cached copy and discards the snapshot (R306). -/
theorem stepRestore_writes (hl : Sound c l) (hs : Alone c s) {f : Reg → Word} (hsnap : s.seq.snap = (snapList c l).map (fun r => (r, f r)))
    (e : stepRestore l s = .ok () t) : t.io.history = s.io.history ++ ((snapList c l).map (fun r => Event.write r (f r))
      ++ (List.range c.gangedDepth).flatMap (fun i =>
        [Event.write (.tblAddr l) (BitVec.ofNat 32 i), .write (.tblData l) (s.hw.gangedCache.getD i 0#32)]))
      ∧ t.seq.snap = [] := by
  obtain ⟨a, ea, ra, -, -⟩ := wrAll_ran hl.wf _ (hl.plain f) (s := s.setRcvStep (some 12)) hs
  obtain ⟨b, eb, -⟩ := seedGanged_seeded hl.wf hl.lt (List.range c.gangedDepth) (fun i hi => List.mem_range.mp hi) ra.alone
  have hcache : a.hw.gangedCache = s.hw.gangedCache := ra.cache
  have hwritten := (Records.wrAll (c := c) _ (s.setRcvStep (some 12)) () a hs ea).2
  have hseeded := (Records.seedGanged (c := c) l _ a () b ra.alone eb).2
  simp only [hcache, List.map_map] at hwritten hseeded
  unfold stepRestore at e
  rw [Act.bind_of_ok (setStep_apply _ _), Act.get_bind, show (s.setRcvStep (some 12)).seq.snap = _ from hsnap, Act.bind_of_ok ea, Act.get_bind,
    ra.alone.2, Act.bind_of_ok eb] at e
  cases e
  refine ⟨?_, rfl⟩
  rw [← List.append_assoc]
  exact hseeded.trans (congrArg (· ++ _) hwritten)

/-- Step 13 clears the link's bit of SCRATCH_PORT, and no other (R307). -/
theorem stepRearm_scratch (hl : Sound c l) (hs : Alone c s) (e : stepRearm l s = .ok () t) :
    t.field (.scratchPort (l / 32)) = s.field (.scratchPort (l / 32)) &&& ~~~bit (l % 32)
      ∧ t.io.history = s.io.history ++ ((rearmWrites c l).map (fun w => Event.write w.1 w.2) ++ [Event.write (.portIntrCtrl l) c.gateStd,
        .write (.lmIntrCtrl l) c.gateStd, .write (.scratchPort (l / 32)) (s.field (.scratchPort (l / 32)) &&& ~~~bit (l % 32))]) := by
  have hport : fits (.portIntrCtrl l) = true := hl.fits_link _ (by simp)
  have hlm : fits (.lmIntrCtrl l) = true := hl.fits_link _ (by simp)
  have hscratch := hl.fits_scratchPort
  obtain ⟨a, ea, ra, -, -⟩ := wrAll_ran hl.wf _ (rearmWrites_plain (c := c) hl.lt) (s := s.setRcvStep (some 13)) hs
  obtain ⟨b, eb, rb, -⟩ := wr_set ra.alone hport (fun _ => rfl) rfl (fun _ _ _ => rfl) c.gateStd
  obtain ⟨d, ed, rd', -⟩ := wr_set rb.alone hlm (fun _ => rfl) rfl (fun _ _ _ => rfl) c.gateStd
  have hd : Alone c (d.setFatalOccurred l false) := rd'.alone
  have hkept : d.field (.scratchPort (l / 32)) = s.field (.scratchPort (l / 32)) := by
    rw [rd'.fields _ hscratch (by simp), rb.fields _ hscratch (by simp), ra.fields _ hscratch]
    · rfl
    · rintro ⟨w, hw, hr⟩
      obtain ⟨k, -, t, rfl⟩ := rearmWrites_mem hw
      simp [writeFoot] at hr
  obtain ⟨f, ef, rf', vf⟩ := wr_set hd hscratch (fun _ => rfl) rfl (fun _ _ _ => rfl) (s.field (.scratchPort (l / 32)) &&& ~~~bit (l % 32))
  have hread : readReg (d.setFatalOccurred l false) (.scratchPort (l / 32)) = s.field (.scratchPort (l / 32)) := hkept
  unfold stepRearm at e
  rw [Act.bind_of_ok (setStep_apply _ _), Act.get_bind, show (s.setRcvStep (some 13)).cfg = c from hs.2, Act.bind_of_ok ea, Act.get_bind, ra.alone.2,
    Act.bind_of_ok eb, Act.get_bind, rb.alone.2, Act.bind_of_ok ed, Act.modify_bind, Act.bind_of_ok (rd_quiet hd.1 _), hread, Act.bind_of_ok ef] at e
  cases e
  refine ⟨?_, ?_⟩
  · rw [State.setPhase_read_field, vf]
    simp only [definedMask, BitVec.and_allOnes]
  · have ha := (Records.wrAll (c := c) _ (s.setRcvStep (some 13)) () a hs ea).2
    have hb := (Records.wr (c := c) _ _ a () b ra.alone eb).2
    have hd' := (Records.wr (c := c) _ _ b () d rb.alone ed).2
    have hf := (Records.wr (c := c) _ _ (d.setFatalOccurred l false) () f hd ef).2
    have hd0 : (d.setFatalOccurred l false).io.history = d.io.history := rfl
    have hs0 : (s.setRcvStep (some 13)).io.history = s.io.history := rfl
    have ht0 : (f.setPhase l .rearmed).io.history = f.io.history := rfl
    rw [ht0, hf, hd0, hd', hb, ha, hs0]
    simp only [List.append_assoc, List.cons_append, List.nil_append]

/-! ## The link re-armed -/

/-- The link is re-armed, and its registration decides (R307, R308). -/
structure Rearmed (c : Config) (l : Nat) (s t : State) : Prop where
  alone : Alone c t
  fault : t.fault = (((((s.setRegistered l false).setPhase l .reset).setPhase l .restored).setFatalOccurred l false).setPhase l .rearmed).fault
  registers : RearmedRegisters s l t
  snap : t.seq.snap = []
  released : (t.field (.warmReset (pg c l))).getLsbD (pl c l) = false
  warm : busAddr (.warmReset (pg c l)) ∉ (warmResetSet c l).map busAddr →
    t.field (.warmReset (pg c l)) = s.field (.warmReset (pg c l)) &&& ~~~bit (pl c l)
  scratch : busAddr (.scratchPort (l / 32)) ∉ (warmResetSet c l).map busAddr →
    t.field (.scratchPort (l / 32)) = s.field (.scratchPort (l / 32)) &&& ~~~bit (l % 32)
  register : (t.ask (.registerOk l)).1 = (s.ask (.registerOk l)).1
  events : ∃ g v, t.io.history ++ [Event.extCall .registerLink (some l)] = s.io.history ++ s.recoveryEvents l g v
    ∧ (busAddr (.warmReset (pg c l)) ∉ (warmResetSet c l).map busAddr → g = s.field (.warmReset (pg c l)) &&& ~~~bit (pl c l))
    ∧ (busAddr (.scratchPort (l / 32)) ∉ (warmResetSet c l).map busAddr → v = s.field (.scratchPort (l / 32)) &&& ~~~bit (l % 32))

/-- A snapshotted register's write changes no RW register but its own, so none that is not the link's. -/
theorem not_mem_snapFoot (hl : Sound c l) {r : Reg} (hr : access r = .rw) (hown : regOfLink l r = false) :
    ∀ r' ∈ snapList c l, r ∉ writeFoot c r' := fun r' hr' hmem => by
  obtain ⟨-, hacc, hlink⟩ := hl.snap hr'
  rw [← rw_foot hr hacc hmem, hown] at hlink
  cases hlink

/-- WARM_RESET and SCRATCH_PORT are none of the registers steps 10 and 11 write. -/
theorem not_mem_latchAndRamRegs (hl : Sound c l) {r : Reg} (hr : fits r = true) (hown : regOfLink l r = false) :
    busAddr r ∉ (.containLatch l :: ramRegs l).map busAddr :=
  busAddr_not_mem hr (fun x hx => writtenAfterWarmReset_fits hl x (latchAndRamRegs_subset hx)) fun hm => by
    simp only [ramRegs, List.mem_cons, List.not_mem_nil, or_false] at hm
    rcases hm with rfl | rfl | rfl | rfl <;> simp [regOfLink] at hown

/-- The report-enable writes of step 13 as events (R307). -/
theorem rearmWrites_events (c : Config) (l : Nat) : (rearmWrites c l).map (fun w => Event.write w.1 w.2)
    = linkKinds.flatMap (fun k => allTrees.map (fun t => Event.write (.node k l (.reportEn t)) (enStd c k t))) := by
  simp only [rearmWrites, List.map_flatMap, List.map_map, Function.comp_def]

theorem recoverValid_rearmed (hl : Sound c l) (hs : Alone c s) (hack : (s.ask (.rstseqAck l)).1 = true) (hlatch : (s.ask (.containStuck l)).1 = false)
    (hrams : (s.ask (.raminitDone l)).1 = true) : ∃ t, Rearmed c l s t ∧ recoverValid l s = stepRegister l t := by
  obtain rfl := hs.2
  obtain ⟨r, h, erun⟩ := recoverValid_released hl hs hack
  obtain ⟨cleared, x, ex, hx, kx, sx⟩ := stepContain_changesOnly s.cfg l r h.alone
  have hcleared : cleared = true := by
    rw [stepContain_answer h.alone ex, h.asks _ (by simp), hlatch, Bool.and_false]
    rfl
  subst hcleared
  obtain ⟨done, y, ey, hy, ky, sy⟩ := stepRams_changesOnly s.cfg l x hx
  have hdone : done = true := by
    rw [stepRams_answer hl.lt hx ey, kx.asks _ (by simp), h.asks _ (by simp), hrams]
  subst hdone
  have kxy : ChangesOnly (.containLatch l :: ramRegs l) [.containStuck l, .raminitDone l] r y := (kx.mono (by simp) (by simp)).trans (ky.mono (by simp) (by simp))
  have hsnap : y.seq.snap = (snapList s.cfg l).map (fun r => (r, s.field r)) := sy.trans (sx.trans h.snap)
  obtain ⟨z, ez, az, fz, -, -, -, -, -, faz, -, qz⟩ := stepRestore_ran hl hy hsnap
  obtain ⟨t, et, at', ft, vt, pt, lt, st, -, -, fat, -, qt⟩ := stepRearm_ran hl az
  obtain ⟨hscratch, hhist⟩ := stepRearm_scratch hl az et
  obtain ⟨hrestore, hdiscard⟩ := stepRestore_writes hl hy hsnap ez
  obtain ⟨_, t', et', -, -, hsnapt⟩ := covered_stepRearm (OthersKept.covers s.cfg l) z az
  rw [et] at et'
  cases et'
  have kept : ∀ q, access q = .rw → fits q = true → regOfLink l q = false → q ≠ .tblAddr l → z.field q = r.field q := fun q hacc hfit hown hne => by
    rw [fz q hfit (not_mem_snapFoot hl hacc hown) hne, kxy.field (not_mem_latchAndRamRegs hl hfit hown)]
  have hwarm : t.field (.warmReset (pg s.cfg l)) = r.field (.warmReset (pg s.cfg l)) := by
    rw [ft _ hl.fits_warmReset nofun nofun nofun (fun _ _ _ => nofun), kept _ rfl hl.fits_warmReset rfl nofun]
  have hheld : busAddr (.scratchPort (l / 32)) ∉ (warmResetSet s.cfg l).map busAddr →
      z.field (.scratchPort (l / 32)) = s.field (.scratchPort (l / 32)) := fun hset => by
    rw [kept _ rfl hl.fits_scratchPort rfl nofun]
    obtain ⟨hbefore, hafter⟩ := scratchPort_not_written hl hl.fits_scratchPort hset
    exact h.field_kept rfl hbefore (not_mem_released hafter)
  obtain ⟨g, hg, hgval⟩ := h.history
  refine ⟨t, ⟨at', ?_, ⟨⟨pt, lt⟩, vt, st⟩, hsnapt.trans hdiscard, ?_, fun hset => ?_, fun hset => ?_, ?_, g,
    z.field (.scratchPort (l / 32)) &&& ~~~bit (l % 32), ?_, hgval, fun hset => ?_⟩, ?_⟩
  · have hy0 : y.fault = ((s.setRegistered l false).setPhase l .reset).fault := kxy.fault.trans h.fault
    have hz0 : z.fault = (((s.setRegistered l false).setPhase l .reset).setPhase l .restored).fault := faz.trans (fault_congr hy0 l .restored true).1
    exact fat.trans (fault_congr (fault_congr hz0 l .idle false).2.2 l .rearmed true).1
  · rw [hwarm, h.released]
  · rw [hwarm, h.warm hset]
  · rw [hscratch, hheld hset]
  · rw [qt, qz, kxy.asks _ (by simp), h.asks _ (by simp)]
  · rw [hhist, hrestore, (Records.stepRams (c := s.cfg) l x true y hx ey).2, (Records.stepContain (c := s.cfg) l r true x h.alone ex).2, hg,
      kxy.cache, h.cache, rearmWrites_events]
    simp only [State.recoveryEvents, State.assertEvents, List.append_assoc, List.cons_append, List.nil_append]
  · rw [hheld hset]
  · rw [erun, Act.bind_of_ok ex, if_pos rfl, Act.bind_of_ok ey, if_pos rfl, Act.bind_of_ok ez, Act.bind_of_ok et]

end Sys2Proof.Machine

/-! PROOFS. Family 44_recovery: a recovery the environment holds up (R297, R301, R303, R308, R311, R312). -/

namespace Sys2Proof.Machine

variable {c : Config} {l stp : Nat} {s t u x : State} {Q : List EnvQuery}

/-! ## What an abort leaves in the registers (R312) -/

/-- The hypothesis on the warm-reset set: it reaches none of the registers whose value an abort is described by. -/
def SparesAbort (c : Config) (l : Nat) : Prop :=
  ∀ r ∈ [Reg.warmReset (pg c l), .portIntrCtrl l, .lmIntrCtrl l, .containLatch l], busAddr r ∉ (warmResetSet c l).map busAddr

theorem SparesAbort.warm (h : SparesAbort c l) : busAddr (.warmReset (pg c l)) ∉ (warmResetSet c l).map busAddr := h _ (by simp)
theorem SparesAbort.latch (h : SparesAbort c l) : busAddr (.containLatch l) ∉ (warmResetSet c l).map busAddr := h _ (by simp)
theorem SparesAbort.gates (h : SparesAbort c l) : ∀ r ∈ maskRegs l, busAddr r ∉ (warmResetSet c l).map busAddr := by
  simp only [maskRegs, List.mem_cons, List.not_mem_nil, or_false]
  rintro r (rfl | rfl) <;> exact h _ (by simp)

/-- At step 8 the warm-reset bit is still held (R297). -/
theorem Asserted.aborted (hl : Sound c l) (hc : s.cfg = c) (hspare : SparesAbort c l) (h : Asserted c l s t)
    (k : ChangesOnly (sequencerRegs l) Q t x) : AbortedRegisters s l 8 x := by
  subst hc
  have hk := k.mono (sequencerRegs_subset (c := s.cfg)) (List.Subset.refl _)
  have hgate : ∀ r ∈ maskRegs l, x.field r = 0#32 := fun r hr => by
    rw [hk.field (maskRegs_not_written hl hr), h.gates r hr (hspare.gates r hr)]
  refine ⟨⟨hgate _ (by simp [maskRegs]), hgate _ (by simp [maskRegs])⟩, ?_, fun w hw hset => ?_, fun hclear r hr hnot => ?_⟩
  · obtain ⟨hpos, hle⟩ := (configWf_sizes hl.wf).ports
    have hport : pl s.cfg l < 32 := lt_of_lt_of_le (Nat.mod_lt _ hpos) hle
    have hseq : ∀ r ∈ sequencerRegs l, fits r = true := fun r hr => writtenAfterWarmReset_fits hl r (sequencerRegs_subset hr)
    rw [k.field (busAddr_not_mem hl.fits_warmReset hseq (by simp [sequencerRegs])), h.warm hspare.warm, BitVec.getLsbD_or, getLsbD_bit]
    simp [hport]
  · have hfit : fits (.scratchPort w) = true := by simpa [fits] using lt_of_lt_of_le hw (configWf_sizes hl.wf).words.2
    obtain ⟨hbefore, hafter⟩ := scratchPort_not_written hl hfit hset
    rw [hk.field hafter, State.field_congr h.alone.2 (h.cells _ hbefore)]
  · rw [hk.cells _ hnot, h.reset hclear r hr]

/-- After step 9 it is released (R301, R303). -/
theorem Released.aborted (hl : Sound c l) (hc : s.cfg = c) (hspare : SparesAbort c l) (h : Released c l s t)
    (k : ChangesOnly (.containLatch l :: ramRegs l) Q t x) (hstp : stp ≠ 8) : AbortedRegisters s l stp x := by
  subst hc
  have hk := k.mono (latchAndRamRegs_subset (c := s.cfg)) (List.Subset.refl _)
  have hgate : ∀ r ∈ maskRegs l, x.field r = 0#32 := fun r hr => by
    rw [hk.field (maskRegs_not_written hl hr), h.gates r hr (hspare.gates r hr)]
  refine ⟨⟨hgate _ (by simp [maskRegs]), hgate _ (by simp [maskRegs])⟩, ?_, fun w hw hset => ?_, fun hclear r hr hnot => ?_⟩
  · have hfits : ∀ r ∈ .containLatch l :: ramRegs l, fits r = true := fun r hr => writtenAfterWarmReset_fits hl r (latchAndRamRegs_subset hr)
    rw [k.field (busAddr_not_mem hl.fits_warmReset hfits (by simp [ramRegs])), h.released]
    simp [hstp]
  · have hfit : fits (.scratchPort w) = true := by simpa [fits] using lt_of_lt_of_le hw (configWf_sizes hl.wf).words.2
    obtain ⟨hbefore, hafter⟩ := scratchPort_not_written hl hfit hset
    rw [hk.field hafter, h.field_kept rfl hbefore (not_mem_released hafter)]
  · rw [hk.cells _ hnot, h.reset hclear r hr (not_mem_released hnot)]

/-! ## The four failures (R311, R312) -/

/-- The recovery of link `l` from `s` has ended in `t`, failing at step `stp`. -/
structure FailedAt (s : State) (l stp : Nat) (t : State) : Prop where
  logged : ∃ es, t.io.history = s.io.history ++ es ∧ .log (.recoveryError (failureAt stp) stp l) ∈ es
  phases : ∀ j, t.phase j = if j = l then (if stp = 14 then .destroyed else .failed) else s.phase j
  registrations : ∀ j, t.registered j = if j = l then false else s.registered j
  flags : ∀ j, t.fatalOccurred j = if stp = 14 ∧ j = l then false else s.fatalOccurred j
  device : t.fault.resetRequired = s.fault.resetRequired
  aborted : stp ≠ 14 → AbortedRegisters s l stp t
  rearmed : stp = 14 → RearmedRegisters s l t
  snap : t.seq.snap = []

/-- An abort after step 2: logged, phase FAILED, the snapshot discarded, nothing else (R312). -/
theorem FailedAt.of_abort (hstp : stp ≠ 14) (hfault : x.fault = ((s.setRegistered l false).setPhase l .reset).fault)
    (hhist : s.io.history <+: x.io.history) (hregs : AbortedRegisters s l stp x) :
    ∃ t, raiseAbort (failureAt stp) stp l x = .ok (failureAt stp, stp) t ∧ FailedAt s l stp t := by
  obtain ⟨es, hes⟩ := hhist
  have hphase : ∀ j, x.phase j = if j = l then .reset else s.phase j := fun j => by
    rw [State.phase, hfault]
    exact State.setPhase_read ..
  have hregistered : ∀ j, x.registered j = if j = l then false else s.registered j := fun j => by
    rw [State.registered, hfault]
    exact State.setRegistered_read s l j false
  have hflag : ∀ j, x.fatalOccurred j = s.fatalOccurred j := fun j => by
    rw [State.fatalOccurred, hfault]
    rfl
  refine ⟨((x.emit (.log (.recoveryError (failureAt stp) stp l))).setPhase l .failed).setSnap [], rfl,
    ⟨es ++ [Event.log (.recoveryError (failureAt stp) stp l)], ?_, by simp⟩, fun j => ?_, hregistered, fun j => ?_, ?_, fun _ => ?_, fun h => absurd h hstp, rfl⟩
  · rw [← List.append_assoc, hes]
    rfl
  · rw [State.setSnap_read_phase, State.setPhase_read, State.emit_read_phase, hphase, if_neg hstp]
    split_ifs <;> rfl
  · rw [if_neg fun h => hstp h.1]
    exact hflag j
  · change x.fault.resetRequired = s.fault.resetRequired
    rw [hfault]
    rfl
  · exact ⟨hregs.gates, hregs.warm, hregs.scratch, hregs.reset⟩

/-- A failed registration (R308): logged, phase DESTROYED. -/
theorem stepRegister_refused (hs : Alone c s) (hno : (s.ask (.registerOk l)).1 = false) : ∃ t, stepRegister l s = .ok (.reRegistrationFailed, 14) t
    ∧ t.cfg = s.cfg ∧ t.hw = s.hw ∧ t.fault = (s.setPhase l .destroyed).fault ∧ t.seq.snap = s.seq.snap
    ∧ t.io.history = s.io.history ++ [Event.extCall .registerLink (some l), .log (.recoveryError .reRegistrationFailed 14 l)] := by
  have hask : (((s.setRcvStep (some 14)).emit (.extCall .registerLink (some l))).ask (.registerOk l)).1 = false :=
    (State.ask_congr (by rfl) _).trans hno
  obtain ⟨env, he⟩ := ((s.setRcvStep (some 14)).emit (.extCall .registerLink (some l))).ask_snd (.registerOk l)
  unfold stepRegister
  rw [Act.bind_of_ok (setStep_apply _ _), Act.bind_of_ok (extCall_quiet (by exact hs.1) _ _), Act.bind_of_ok (askEnv_apply _ _), hask, he]
  exact ⟨_, rfl, rfl, rfl, rfl, rfl, List.append_assoc s.io.history [_] [_]⟩

section
variable (hl : Sound c l) (hs : Alone c s)
include hl hs

theorem failsAt_sequencer (hspare : SparesAbort c l) (hack : (s.ask (.rstseqAck l)).1 = false) :
    ∃ t, recoverValid l s = .ok (failureAt 8, 8) t ∧ FailedAt s l 8 t := by
  obtain ⟨r, h, e⟩ := recoverValid_asserted hl hs
  obtain ⟨acked, x, ex, hx, kx, -⟩ := stepRstseq_changesOnly c l r h.alone
  have hacked : acked = false := by rw [stepRstseq_answer h.alone ex, h.asks _ (by simp), hack]
  subst hacked
  have hhist : s.io.history <+: x.io.history := h.grows.trans kx.history
  obtain ⟨t, et, ht⟩ := FailedAt.of_abort (by decide) (kx.fault.trans h.fault) hhist (h.aborted hl hs.2 hspare kx)
  exact ⟨t, by rw [e, Act.bind_of_ok ex]; exact et, ht⟩

theorem failsAt_latch (hspare : SparesAbort c l) (hack : (s.ask (.rstseqAck l)).1 = true) (hstuck : (s.ask (.containStuck l)).1 = true)
    (hset : (s.field (.containLatch l)).getLsbD 0 = true) : ∃ t, recoverValid l s = .ok (failureAt 10, 10) t ∧ FailedAt s l 10 t := by
  obtain ⟨r, h, e⟩ := recoverValid_released hl hs hack
  obtain ⟨cleared, x, ex, hx, kx, -⟩ := stepContain_changesOnly c l r h.alone
  have hfit : fits (.containLatch l) = true := hl.fits_link _ (by simp)
  have hnodes : .containLatch l ∉ portStatusRegs c l := fun hm => by
    obtain ⟨k, hk | hk⟩ := portStatusRegs_mem hm <;> cases hk
  have hfits : ∀ q ∈ sequencerRegs l ++ releaseRegs c l, fits q = true := fun q hq =>
    writtenAfterWarmReset_fits hl q (List.append_subset.mpr ⟨sequencerRegs_subset, releaseRegs_subset⟩ hq)
  have hkept : r.field (.containLatch l) = s.field (.containLatch l) :=
    h.field_kept hs.2 (not_mem_assertCells hl hfit hspare.latch (by simp)) (busAddr_not_mem hfit hfits (by simp [sequencerRegs, releaseRegs, hnodes]))
  have hcleared : cleared = false := by
    rw [stepContain_answer h.alone ex, hkept, hset, h.asks _ (by simp), hstuck]
    rfl
  subst hcleared
  have hhist : s.io.history <+: x.io.history := h.grows.trans kx.history
  obtain ⟨t, et, ht⟩ := FailedAt.of_abort (stp := 10) (by decide) (kx.fault.trans h.fault) hhist
    (h.aborted hl hs.2 hspare (kx.mono (by simp) (List.Subset.refl _)) (by decide))
  exact ⟨t, by rw [e, Act.bind_of_ok ex]; exact et, ht⟩

theorem failsAt_rams (hspare : SparesAbort c l) (hack : (s.ask (.rstseqAck l)).1 = true) (hstuck : (s.ask (.containStuck l)).1 = false)
    (hrams : (s.ask (.raminitDone l)).1 = false) : ∃ t, recoverValid l s = .ok (failureAt 11, 11) t ∧ FailedAt s l 11 t := by
  obtain ⟨r, h, e⟩ := recoverValid_released hl hs hack
  obtain ⟨cleared, x, ex, hx, kx, -⟩ := stepContain_changesOnly c l r h.alone
  have hcleared : cleared = true := by
    rw [stepContain_answer h.alone ex, h.asks _ (by simp), hstuck, Bool.and_false]
    rfl
  subst hcleared
  obtain ⟨done, y, ey, hy, ky, -⟩ := stepRams_changesOnly c l x hx
  have hdone : done = false := by rw [stepRams_answer hl.lt hx ey, kx.asks _ (by simp), h.asks _ (by simp), hrams]
  subst hdone
  have kxy : ChangesOnly (.containLatch l :: ramRegs l) [.containStuck l, .raminitDone l] r y := (kx.mono (by simp) (by simp)).trans (ky.mono (by simp) (by simp))
  have hhist : s.io.history <+: y.io.history := h.grows.trans kxy.history
  obtain ⟨t, et, ht⟩ := FailedAt.of_abort (stp := 11) (by decide) (kxy.fault.trans h.fault) hhist (h.aborted hl hs.2 hspare kxy (by decide))
  refine ⟨t, ?_, ht⟩
  rw [e, Act.bind_of_ok ex, if_pos rfl, Act.bind_of_ok ey]
  exact et

theorem failsAt_registration (hack : (s.ask (.rstseqAck l)).1 = true) (hstuck : (s.ask (.containStuck l)).1 = false)
    (hrams : (s.ask (.raminitDone l)).1 = true) (hno : (s.ask (.registerOk l)).1 = false) :
    ∃ t, recoverValid l s = .ok (failureAt 14, 14) t ∧ FailedAt s l 14 t := by
  obtain ⟨r, h, e⟩ := recoverValid_rearmed hl hs hack hstuck hrams
  obtain ⟨t, et, hcfg, hhw, hfault, hsnap, hhist⟩ := stepRegister_refused (l := l) h.alone (h.register.trans hno)
  have hlast := hfault.trans (fault_congr h.fault l .destroyed true).1
  have hfield : ∀ q, t.field q = r.field q := fun q => State.field_congr hcfg (State.cellAt_of_hw hhw hcfg _)
  obtain ⟨g, v, hevents, -, -⟩ := h.events
  refine ⟨t, e.trans et, ⟨s.recoveryEvents l g v ++ [Event.log (.recoveryError (failureAt 14) 14 l)], ?_, by simp⟩, fun j => ?_, fun j => ?_, fun j => ?_, ?_,
    fun hne => absurd rfl hne, fun _ => ?_, hsnap.trans h.snap⟩
  · rw [← List.append_assoc, ← hevents, hhist, List.append_assoc]
    rfl
  · rw [State.phase, hlast]
    refine (State.setPhase_read ..).trans ?_
    simp only [State.setPhase_read, State.setFatalOccurred_read_phase, State.setRegistered_read_phase]
    split_ifs <;> rfl
  · rw [State.registered, hlast]
    exact State.setRegistered_read s l j false
  · rw [State.fatalOccurred, hlast]
    refine (State.setFatalOccurred_read s l j false).trans ?_
    simp
  · rw [hlast]
    rfl
  · exact ⟨by rw [hfield, hfield]; exact h.registers.gates, fun k hk t => by rw [hfield]; exact h.registers.enables k hk t,
      by rw [hfield]; exact h.registers.persisted⟩

end

theorem recoverValid_stopsAt (hl : Sound c l) (hs : Alone c s) (hspare : SparesAbort c l) (h : stopsAt s l stp) :
    ∃ t, recoverValid l s = .ok (failureAt stp, stp) t ∧ FailedAt s l stp t := by
  unfold stopsAt at h
  split at h
  · exact failsAt_sequencer hl hs hspare h
  · obtain ⟨hack, hstuck, hset⟩ := h
    exact failsAt_latch hl hs hspare hack hstuck hset
  · obtain ⟨hack, hstuck, hrams⟩ := h
    exact failsAt_rams hl hs hspare hack hstuck hrams
  · obtain ⟨hack, hstuck, hrams, hno⟩ := h
    exact failsAt_registration hl hs hack hstuck hrams hno
  · exact h.elim

/-! ## The settled statement -/

theorem stopsAt_congr (he : t.io.env = s.io.env) (hf : t.field (.containLatch l) = s.field (.containLatch l)) (h : stopsAt s l stp) : stopsAt t l stp := by
  have hask := State.ask_congr he
  unfold stopsAt at h
  split at h
  · exact (hask _).trans h
  · simpa only [stopsAt, hask, hf] using h
  · simpa only [stopsAt, hask] using h
  · simpa only [stopsAt, hask] using h
  · exact h.elim

/-- The response word of each failure (R119, R137). -/
theorem stopsAt_word (h : stopsAt s l stp) : (failureAt stp).isError = true ∧ linkWord 0 (failureAt stp) stp =
    if stp = 8 then 0x00810000#32 else if stp = 10 then 0x00A20000#32 else if stp = 11 then 0x00B10000#32 else 0x00E30000#32 := by
  unfold stopsAt at h
  split at h
  · decide
  · decide
  · decide
  · decide
  · exact h.elim

/-- Settles O53: the recovery runs to the step that fails, and the RSTDRAIN ends as it left off. -/
theorem sequencerTimeoutLeavesTheLinkDown : Obligations.SequencerTimeoutLeavesTheLinkDown := by
  intro s forced masks l stp hw hq htail ha hl hg hv hstop hspare
  have hlt := linkSet_single_lt hw ha hl
  have hsound := validLink_sound hw rfl hv
  have hstart : Alone s.cfg ((s.enterRecovery l).setRcvStep (some 1)) := ⟨hq.1, rfl⟩
  obtain ⟨t, e, h⟩ := recoverValid_stopsAt hsound hstart hspare (stopsAt_congr (s := s) rfl rfl hstop)
  have hrec : recover l forced (s.enterRecovery l) = .ok (failureAt stp, stp) t :=
    (recover_valid ((forcedGate_enterRecovery s forced l l).trans hg) hv).trans e
  obtain ⟨u, hu, hcfg, hhw, hfault, hsnap, hlock, hhist, hresp⟩ := exec_rstdrain_single_leaves hq htail ha hl hrec
  obtain ⟨es, hes, hlog⟩ := h.logged
  obtain ⟨herror, hword⟩ := stopsAt_word hstop
  have hfield : ∀ r, u.field r = t.field r := fun r => State.field_congr hcfg (State.cellAt_of_hw hhw hcfg _)
  rw [rstdrainWords_single hlt, herror, hword] at hresp
  have hcell : ∀ a, u.cellAt a = t.cellAt a := State.cellAt_of_hw hhw hcfg
  refine ⟨u, es ++ _, hu, hhist.trans ((congrArg (· ++ _) hes).trans (List.append_assoc ..)), List.mem_append_left _ hlog, hresp,
    fun j => ?_, fun j => ?_, fun j => ?_, ?_, fun hne => ?_, fun heq => ?_, hsnap.trans h.snap, hlock⟩
  · rw [State.phase, hfault]
    exact h.phases j
  · rw [State.registered, hfault]
    exact h.registrations j
  · rw [State.fatalOccurred, hfault]
    exact h.flags j
  · rw [hfault]
    exact h.device
  · obtain ⟨hgates, hwarm, hscratch, hreset⟩ := h.aborted hne
    exact ⟨by rw [hfield, hfield]; exact hgates, by rw [hfield]; exact hwarm, fun w hw hset => by rw [hfield]; exact hscratch w hw hset,
      fun hclear r hr hnot => by rw [hcell]; exact hreset hclear r hr hnot⟩
  · obtain ⟨hgates, henables, hpersisted⟩ := h.rearmed heq
    exact ⟨by rw [hfield, hfield]; exact hgates, fun k hk t => by rw [hfield]; exact henables k hk t, by rw [hfield]; exact hpersisted⟩

end Sys2Proof.Machine

/-! PROOFS. Family 44_recovery: a recovery that nothing holds up (R283 to R309, R315). -/

namespace Sys2Proof.Machine

variable {c : Config} {l : Nat} {s t u : State}

/-- The registration succeeds (R308). -/
theorem stepRegister_accepted (hs : Alone c s) (hok : (s.ask (.registerOk l)).1 = true) : ∃ t, stepRegister l s = .ok (.ok, 0) t
    ∧ t.cfg = s.cfg ∧ t.hw = s.hw ∧ t.seq.snap = s.seq.snap ∧ t.io.history = s.io.history ++ [Event.extCall .registerLink (some l)] := by
  have hask : (((s.setRcvStep (some 14)).emit (.extCall .registerLink (some l))).ask (.registerOk l)).1 = true :=
    (State.ask_congr (by rfl) _).trans hok
  obtain ⟨env, he⟩ := ((s.setRcvStep (some 14)).emit (.extCall .registerLink (some l))).ask_snd (.registerOk l)
  unfold stepRegister
  rw [Act.bind_of_ok (setStep_apply _ _), Act.bind_of_ok (extCall_quiet (by exact hs.1) _ _), Act.bind_of_ok (askEnv_apply _ _), hask, he]
  exact ⟨_, rfl, rfl, rfl, rfl, rfl⟩

/-- The sequencers' own state and H are no part of what a recovery leaves. -/
theorem Recovered.of_parts {v : State} (h : Recovered t l u) (hc : t.cfg = s.cfg) (hh : t.hw = s.hw) (hf : t.fault = s.fault) (vc : v.cfg = u.cfg)
    (vh : v.hw = u.hw) (vf : v.fault = u.fault) : Recovered s l v := by
  obtain ⟨_, _, _, _, _⟩ := s
  obtain ⟨_, _, _, _, _⟩ := v
  cases hc
  cases hh
  cases hf
  cases vc
  cases vh
  cases vf
  exact ⟨h.flags, h.device, h.phases, h.registrations, h.persisted, h.enables, h.gates, h.latch, h.restored, h.crumb, h.cam, h.ganged, h.otherRams,
    h.clean⟩

/-- Nor are they of what the events are made from. -/
theorem recoveryEvents_of_parts (hc : t.cfg = s.cfg) (hh : t.hw = s.hw) (he : t.io.env = s.io.env) (g v : Word) :
    t.recoveryEvents l g v = s.recoveryEvents l g v := by
  have field : ∀ r, t.field r = s.field r := fun r => State.field_congr hc (State.cellAt_of_hw hh hc _)
  simp only [State.recoveryEvents, hc, hh, field, State.ask_congr he]

theorem trainingEvents_of_ask (h : (t.ask .trainingOk).1 = (s.ask .trainingOk).1) : t.trainingEvents = s.trainingEvents := by
  rw [State.trainingEvents, State.trainingEvents, h]

/-- The whole recovery, with its events and the two registers it shares with other links. -/
structure RecoveredInOrder (s : State) (l : Nat) (t : State) : Prop where
  recovered : Recovered s l t
  only : LinkOnly s.cfg l s t
  snap : t.seq.snap = []
  released : (t.field (.warmReset (pg s.cfg l))).getLsbD (pl s.cfg l) = false
  warm : busAddr (.warmReset (pg s.cfg l)) ∉ (warmResetSet s.cfg l).map busAddr →
    t.field (.warmReset (pg s.cfg l)) = s.field (.warmReset (pg s.cfg l)) &&& ~~~bit (pl s.cfg l)
  scratch : busAddr (.scratchPort (l / 32)) ∉ (warmResetSet s.cfg l).map busAddr →
    t.field (.scratchPort (l / 32)) = s.field (.scratchPort (l / 32)) &&& ~~~bit (l % 32)
  events : ∃ g v, t.io.history = s.io.history ++ s.recoveryEvents l g v
    ∧ (busAddr (.warmReset (pg s.cfg l)) ∉ (warmResetSet s.cfg l).map busAddr → g = s.field (.warmReset (pg s.cfg l)) &&& ~~~bit (pl s.cfg l))
    ∧ (busAddr (.scratchPort (l / 32)) ∉ (warmResetSet s.cfg l).map busAddr → v = s.field (.scratchPort (l / 32)) &&& ~~~bit (l % 32))

theorem recover_inOrder {forced : Bool} (hw : configWf s.cfg = true) (hs : s.io.sched = []) (hg : forcedGate s forced l = true)
    (hv : validLink s l = true) (hfav : Favours s l) : ∃ t, recover l forced s = .ok (.ok, 0) t ∧ RecoveredInOrder s l t := by
  have hsound := validLink_sound hw rfl hv
  have hask : ∀ q, ((s.setRcvStep (some 1)).ask q).1 = (s.ask q).1 := fun q => State.ask_congr (by rfl) q
  obtain ⟨t, e, -, hrec, -⟩ := recover_ok hw (s := s) ⟨hs, rfl⟩ hg hv hfav
  obtain ⟨_, t', e', -, honly⟩ := recover_covered (LinkOnly.unseeing s.cfg l) (s := s) ⟨hs, rfl⟩ (fun _ => LinkOnly.covers hsound) forced
  rw [e] at e'
  cases e'
  obtain ⟨r, h, er⟩ := recoverValid_rearmed hsound (s := s.setRcvStep (some 1)) ⟨hs, rfl⟩ ((hask _).trans hfav.sequencer) ((hask _).trans hfav.latch)
    ((hask _).trans hfav.rams)
  obtain ⟨t', et, hcfg, hhw, hsnap, hhist⟩ := stepRegister_accepted (l := l) h.alone (h.register.trans ((hask _).trans hfav.register))
  rw [recover_valid hg hv, er, et] at e
  cases e
  have field : ∀ q, t.field q = r.field q := fun q => State.field_congr hcfg (State.cellAt_of_hw hhw hcfg _)
  obtain ⟨g, v, hevents, hgval, hvval⟩ := h.events
  refine ⟨t, by rw [recover_valid hg hv, er, et], hrec, honly, hsnap.trans h.snap, ?_, fun hset => ?_, fun hset => ?_, g, v, ?_, hgval, hvval⟩
  · rw [field]
    exact h.released
  · rw [field]
    exact h.warm hset
  · rw [field]
    exact h.scratch hset
  · rw [hhist, hevents, recoveryEvents_of_parts (s := s) (t := s.setRcvStep (some 1)) rfl rfl rfl]
    rfl

/-- Settles O50: the recovery in order (`recover_inOrder`), then step 15. -/
theorem rstdrainRecoversALink : Obligations.RstdrainRecoversALink := by
  intro s forced masks l hw hq htail ha hl hg hv hfav
  have hlt := linkSet_single_lt hw ha hl
  have hfav' : Favours (s.enterRecovery l) l := hfav.of_asks fun q _ => State.ask_congr (by rfl) q
  obtain ⟨t, e, h⟩ := recover_inOrder (s := s.enterRecovery l) hw hq.1 ((forcedGate_enterRecovery s forced l l).trans hg) hv hfav'
  obtain ⟨u, hu, hcfg, hhw, hfault, hsnap, hlock, hhist, hresp⟩ := exec_rstdrain_single_leaves hq htail ha hl e
  have field : ∀ r, u.field r = t.field r := fun r => State.field_congr hcfg (State.cellAt_of_hw hhw hcfg _)
  obtain ⟨g, v, hevents, hgval, hvval⟩ := h.events
  refine ⟨u, hu, h.recovered.of_parts rfl rfl rfl hcfg hhw hfault, ?_, hlock, hsnap.trans h.snap, ?_, fun r hr hset b hb => ?_, fun a ha => ?_, g, v, ?_,
    hgval, hvval⟩
  · have hword : linkWord 0 .ok 0 = 0#32 := by decide
    rw [hresp, rstdrainWords_single hlt, hword, BitVec.zero_or]
    rfl
  · rw [field]
    exact h.released
  · rcases List.mem_pair.mp hr with rfl | rfl
    · have hscratch : t.field (.scratchPort (l / 32)) = s.field (.scratchPort (l / 32)) &&& ~~~bit (l % 32) := h.scratch hset
      rw [if_pos rfl] at hb
      rw [field, hscratch, getLsbD_and_not_bit, decide_eq_false hb, Bool.not_false, Bool.and_true]
    · have hwarm : t.field (.warmReset (pg s.cfg l)) = s.field (.warmReset (pg s.cfg l)) &&& ~~~bit (pl s.cfg l) := h.warm hset
      rw [if_neg nofun] at hb
      rw [field, hwarm, getLsbD_and_not_bit, decide_eq_false hb, Bool.not_false, Bool.and_true]
  · rw [State.cellAt_of_hw hhw hcfg]
    exact h.only.cells a ha
  · have hask : (t.ask .trainingOk).1 = (s.ask .trainingOk).1 := (h.only.asks _ (by simp [linkQueries])).trans (State.ask_congr (by rfl) _)
    rw [hhist, hevents, trainingEvents_of_ask hask, recoveryEvents_of_parts (s := s) (t := s.enterRecovery l) rfl rfl rfl, State.trainingEvents]
    simp only [List.append_assoc]
    rfl

end Sys2Proof.Machine

/-! PROOFS. Family 60_exceptions: the microcontroller's interrupt, which stands in two trees and is served once (R243, R344), and
the delivery of the host interrupt (R345, R355). -/

namespace Sys2Proof.Machine

/-! ## The microcontroller in the trees (R344) -/

/-- The summary bit of a microcontroller's engine is what the microcontroller asserts. -/
theorem State.getLsbD_summary_mctrlf (s : State) {m w j : Nat} (hj : j < 32) (he : engineOf s.cfg (32 * w + j) = some (.mctrlf, m))
    (t : Tree) : (readReg s (.summary t w)).getLsbD j = s.mctrlAsserts m t := by
  change (s.summaryWord t w).getLsbD j = _
  rw [s.getLsbD_summaryWord t w hj, State.engineBit, he]
  rfl

/-- A microcontroller asserts the same in the two trees of its family. -/
theorem State.mctrlAsserts_fatal_eq_nonfatal (s : State) (m : Nat) : s.mctrlAsserts m .fatal = s.mctrlAsserts m .nonfatal := rfl

/-- The correctable tree is none of the family's. -/
theorem State.mctrlAsserts_correctable (s : State) (m : Nat) : s.mctrlAsserts m .correctable = false := by
  rw [Bool.eq_false_iff]
  exact fun h => ((s.mctrlAsserts_iff m .correctable).mp h).1 rfl

/-- The enable register of HANDLE.MCTRL belongs to the microcontroller, not to a tree (R243): what one tree finds, the other does. -/
theorem State.maskOf_mctrl_tree (s : State) (l : Nat) (t t' : Tree) : s.maskOf .mctrl l t' = s.maskOf .mctrl l t := rfl

/-- Settles O37: a HANDLE leaves an empty mask (`exec_handle_treated`), for MCTRL the mask of every tree, and `handleFindsNothing`
says what the HANDLE in the other tree then does. -/
theorem linkInterruptServedOnceInBothTrees : Obligations.LinkInterruptServedOnceInBothTrees := by
  refine ⟨fun s m w j hj he => ?_, fun s u l t t' hw hq ha ha' hexec => ?_⟩
  · simp only [s.getLsbD_summary_mctrlf hj he]
    exact ⟨s.mctrlAsserts_fatal_eq_nonfatal m, s.mctrlAsserts_correctable m⟩
  · obtain ⟨hu, hcfg, hmask⟩ := exec_handle_treated (k := .mctrl) hw hq ha hexec
    have hmask' : u.maskOf .mctrl l.toNat t' = 0#32 := (u.maskOf_mctrl_tree l.toNat t t').trans hmask
    exact ⟨_, handleFindsNothing u .mctrl l t' hu (by rw [hcfg]; exact ha') hmask', rfl, rfl, rfl⟩

/-! ## Delivery (R345, R355) -/

theorem step_deliver {s : State} {later : List Input} (h : s.io.inbox = .move .deliver :: later) :
    step s = .next (s.setInbox later).deliver := by
  rw [step_move h]
  rfl

/-- Where the host line is asserted, delivery clears `armed` and puts SERVICE at the head of the inbox. -/
theorem State.deliver_asserted {s : State} (h : s.hostLine = true) :
    s.deliver = (s.setArmed false).setInbox (.frame (.command [0x01000000#32]) :: s.io.inbox) := if_pos h

theorem State.deliver_low {s : State} (h : ¬ s.hostLine = true) : s.deliver = s := if_neg h

/-- The word of a SERVICE is a whole command, which takes the mutex: with the mutex free it is the next operation. -/
theorem step_service {s : State} {later : List Input} (hin : s.io.inbox = .frame (.command [0x01000000#32]) :: later)
    (hl : s.seq.lock = .free) : step s = exec .service (s.setInbox later) :=
  step_command hin (by decide) (canBegin_iff.mpr (.inl hl))

/-- Settles O54: the two cases of the host line (`State.hostLine_iff`), which does not depend on the inbox. -/
theorem deliveryIssuesService : Obligations.DeliveryIssuesService := by
  intro s later hin
  have hline : (s.setInbox later).hostLine = true ↔ s.hw.armed = true ∧ readReg s .topPending &&& readReg s .topEnable ≠ 0#32 :=
    (s.setInbox later).hostLine_iff
  refine ⟨fun hup => ⟨_, ?_, rfl, fun hl => step_service rfl hl⟩, fun hlow => ?_⟩
  · rw [step_deliver hin, State.deliver_asserted (hline.mpr hup)]
    rfl
  · rw [step_deliver hin, State.deliver_low (mt hline.mp hlow)]
    rfl

end Sys2Proof.Machine

/-! PROOFS. Family 70_reset_and_hazards: what the two resets leave (R370, R371). -/

namespace Sys2Proof.Machine

/-! ## The registers that reset to 0 (R72) -/

theorem resetValue_of_zeroAtReset (c : Config) {a : Nat} (h : zeroAtReset a = true) : resetValue c a = 0#32 := by
  unfold resetValue
  cases assoc a c.resetValueOf with
  | none => rfl
  | some v => exact if_pos h

/-- The reset-sequencer status, RAM-init status and scratch registers lie where the default map says, for every index the map has
room for (R120, R125, R126). -/
theorem zeroAtReset_rstseqStatus {l : Nat} (hl : l < 4096) : zeroAtReset (busAddr (.rstseqStatus l)) = true := by
  have place : busAddr (.rstseqStatus l) / 0x1000000 = 0x11 ∧ busAddr (.rstseqStatus l) % 0x1000 = 0x02C := by
    simp only [busAddr, packAddr]
    omega
  simp [zeroAtReset, place]

theorem zeroAtReset_ramInitStatus {l : Nat} (hl : l < 4096) : zeroAtReset (busAddr (.ramInitStatus l)) = true := by
  have place : busAddr (.ramInitStatus l) / 0x1000000 = 0x11 ∧ busAddr (.ramInitStatus l) % 0x1000 = 0x014 := by
    simp only [busAddr, packAddr]
    omega
  simp [zeroAtReset, place]

theorem zeroAtReset_scratchPort {w : Nat} (hw : w < 128) : zeroAtReset (busAddr (.scratchPort w)) = true := by
  have place : packAddr 0x10 0 0x040 ≤ busAddr (.scratchPort w) ∧ busAddr (.scratchPort w) < packAddr 0x10 0 0x240 := by
    simp only [busAddr, packAddr]
    omega
  simp [zeroAtReset, place]

/-! ## Cold reset (R370) -/

theorem step_coldReset {s : State} {d : RamDraw} {later : List Input} (h : s.io.inbox = .move (.coldReset d) :: later) :
    step s = .next ((s.setInbox later).coldReset d) := by
  rw [step_move h]
  rfl

/-- With nothing stored every cell reads RESET_VALUE. -/
theorem State.coldReset_cellAt (s : State) (d : RamDraw) (a : Nat) : (s.coldReset d).cellAt a = resetValue s.cfg a := rfl

/-- Settles O55: nothing is stored after a cold reset, in the registers as in the fault state, and RESET_VALUE of the scratch and
handshake registers is 0. -/
theorem coldResetState : Obligations.ColdResetState := by
  intro s d later hin
  have hzero : ∀ {a : Nat}, zeroAtReset a = true → ((s.setInbox later).coldReset d).cellAt a = 0#32 := fun ha =>
    (State.coldReset_cellAt ..).trans (resetValue_of_zeroAtReset s.cfg ha)
  exact ⟨_, step_coldReset hin, State.coldReset_cellAt _ d, hzero (by decide),
    fun l hl => ⟨hzero (zeroAtReset_rstseqStatus hl), hzero (zeroAtReset_ramInitStatus hl)⟩, hzero (by decide),
    fun w hw => hzero (zeroAtReset_scratchPort hw), fun l => ⟨rfl, rfl, rfl⟩, rfl, rfl, rfl, rfl, rfl⟩

/-! ## Soft reset (R371) -/

theorem step_softReset {s : State} {later : List Input} (h : s.io.inbox = .move .softReset :: later) :
    step s = .next (s.setInbox later).softReset := by
  rw [step_move h]
  rfl

/-- Settles O56: the flags are the scratch bits (`State.softReset_fatalOccurred`); of the hardware only `armed` is touched. -/
theorem softResetState : Obligations.SoftResetState := by
  intro s later hin
  exact ⟨_, step_softReset hin, rfl, fun l hl => (s.setInbox later).softReset_fatalOccurred hl,
    (s.setInbox later).softReset_resetRequired, fun l => ⟨rfl, rfl⟩, rfl, rfl, rfl⟩

end Sys2Proof.Machine

/-! PROOFS. Family 70_reset_and_hazards: boot (R373). Each of its inputs is an act of HOST that establishes one fact (`BootAct.Done`),
and since boot gives every register one value (`bootValue`) no act undoes what another has established. So the whole run
establishes the facts of all its acts, in whatever order, and these make the clean entry of R73. -/

namespace Sys2Proof.Machine

/-! ## The acts of boot -/

/-- The value boot writes to a register, if it stores to it at all (R373 steps 1, 2 and 5). -/
def bootValue (c : Config) : Reg → Option Word
  | .node k _ .containEn => some (containStd c k)
  | .node k _ (.eccLimit u) => some (eccLimitStd c k u)
  | .node k _ (.reportEn t) => some (enStd c k t)
  | .intrStallEn _ => some (stallStd c)
  | .portIntrCtrl _ | .lmIntrCtrl _ => some c.gateStd
  | .topEnable => some c.topEnableCfg
  | _ => none

/-- What HOST does at boot: it stores to a register, registers a link, or arms the interrupt. -/
inductive BootAct where
  | store (r : Reg) (v : Word)
  | register (l : Nat)
  | arm

/-- The input by which HOST presents the act. -/
def BootAct.input (c : Config) : BootAct → Input
  | .store r v => hostWrite c r v
  | .register l => .move (.registerLink l)
  | .arm => hostWrite c .hostEoi 1#32

/-- A store is of the register's boot value, to a register there is. -/
def BootAct.Legal (c : Config) : BootAct → Prop
  | .store r v => bootValue c r = some v ∧ mapped c r = true
  | .register _ => True
  | .arm => True

/-- What the act establishes. -/
def BootAct.Done (s : State) : BootAct → Prop
  | .store r v => s.field r = v &&& definedMask s.cfg r
  | .register l => s.registered l = true
  | .arm => s.hw.armed = true

/-- Nothing established is undone; the configuration and the mutex are as before. -/
structure BootKeeps (s t : State) : Prop where
  cfg : t.cfg = s.cfg
  lock : t.seq.lock = s.seq.lock
  done : ∀ a : BootAct, a.Legal s.cfg → a.Done s → a.Done t

theorem BootKeeps.refl (s : State) : BootKeeps s s := ⟨rfl, rfl, fun _ _ h => h⟩

theorem BootKeeps.trans {s t u : State} (h : BootKeeps s t) (h' : BootKeeps t u) : BootKeeps s u :=
  ⟨h'.cfg.trans h.cfg, h'.lock.trans h.lock, fun a ha hs => h'.done a (h.cfg ▸ ha) (h.done a ha hs)⟩

/-- A register boot stores to is RW, and its write has no side effect (R90). -/
theorem bootValue_plain {c : Config} {r : Reg} {v : Word} (h : bootValue c r = some v) :
    access r = .rw ∧ (∀ l, r ≠ .debugClear l) ∧ (∀ g, r ≠ .warmReset g) ∧ ∀ l, r ≠ .rstseqReq l := by
  unfold bootValue at h
  split at h
  case h_8 => cases h
  all_goals exact ⟨rfl, nofun, nofun, nofun⟩

/-! ## One act -/

/-- The write HOST presents reaches the register it is meant for, with the value in the register's own layout (R120, R7). -/
theorem step_hostWrite {s : State} {r : Reg} {v : Word} {later : List Input} (hw : configWf s.cfg = true) (hm : mapped s.cfg r = true)
    (hin : s.io.inbox = hostWrite s.cfg r v :: later) :
    ∃ a w, mappedReg s.cfg a = some r ∧ v = fromBus s.cfg r w ∧ step s = exec (.wr32 a w) (s.setInbox later) := by
  obtain ⟨toReg, ofReg, -, hvalue⟩ := registerMapRoundTrip s.cfg hw
  obtain ⟨-, hreg⟩ := toReg r hm
  obtain ⟨-, -, haligned⟩ := ofReg _ r hreg
  exact ⟨_, _, hreg, (hvalue r v).1.symm, step_bus hin (by rw [decodeBus, if_pos haligned]; rfl)⟩

/-- A store of boot: every other register keeps its value, and the register itself has only one boot value, so that nothing
established is undone. -/
theorem step_bootStore {s : State} {r : Reg} {v : Word} {later : List Input} (hw : configWf s.cfg = true)
    (ha : (BootAct.store r v).Legal s.cfg) (hin : s.io.inbox = (BootAct.store r v).input s.cfg :: later) :
    ∃ t, step s = .next t ∧ t.io.inbox = later ∧ (BootAct.store r v).Done t ∧ BootKeeps s t := by
  obtain ⟨hv, hm⟩ := ha
  obtain ⟨hrw, hdebug, hwarm, hreq⟩ := bootValue_plain hv
  obtain ⟨a, w, hreg, hbus, hstep⟩ := step_hostWrite hw hm hin
  obtain ⟨t, hexec, hfield, hcells, hhw, hfault, hseq, hio⟩ :=
    plainWriteStores (s.setInbox later) a w v r hw hreg hbus hrw hdebug hwarm hreq
  have hnext : step s = .next t := hstep.trans hexec
  have hcfg : t.cfg = s.cfg := by
    obtain ⟨t', hexec', hcfg, -⟩ := (writeCompletesAndIsRecorded (s.setInbox later) a w).2 r hreg
    obtain rfl : t = t' := Host.Outcome.next.inj (hexec.symm.trans hexec')
    exact hcfg
  refine ⟨t, hnext, by rw [hio]; rfl, by rw [BootAct.Done, hcfg]; exact hfield, hcfg, by rw [hseq]; rfl, fun b hb hdone => ?_⟩
  cases b with
  | register l =>
    rw [BootAct.Done, State.registered, hfault]
    exact hdone
  | arm =>
    rw [BootAct.Done, hhw]
    exact hdone
  | store r' v' =>
    rw [BootAct.Done, hcfg]
    by_cases e : r' = r
    · subst e
      obtain rfl : v = v' := Option.some.inj (hv.symm.trans hb.1)
      exact hfield
    · have hcell : t.cellAt (busAddr r') = s.cellAt (busAddr r') :=
        hcells _ (by simpa using busAddr_ne (mapped_fits hw hm) (mapped_fits hw hb.2) e)
      rw [State.field_congr hcfg hcell]
      exact hdone

/-- Each act of boot has a step, which establishes what the act is for and undoes nothing. -/
theorem step_bootAct {s : State} {a : BootAct} {later : List Input} (hw : configWf s.cfg = true) (ha : a.Legal s.cfg)
    (hin : s.io.inbox = a.input s.cfg :: later) :
    ∃ t, step s = .next t ∧ t.io.inbox = later ∧ a.Done t ∧ BootKeeps s t := by
  cases a with
  | store r v => exact step_bootStore hw ha hin
  | register l =>
    refine ⟨_, (step_move hin).trans rfl, rfl, ?_, rfl, rfl, fun b _ hdone => ?_⟩
    · rw [BootAct.Done, State.setRegistered_read, if_pos rfl]
    · cases b with
      | store r v => exact hdone
      | arm => exact hdone
      | register j =>
        rw [BootAct.Done, State.setRegistered_read]
        split
        · rfl
        · exact hdone
  | arm =>
    obtain ⟨a, w, hreg, -, hstep⟩ := step_hostWrite (r := .hostEoi) hw rfl hin
    refine ⟨_, hstep.trans (eoiWriteArms _ a w hreg), rfl, rfl, rfl, rfl, fun b _ hdone => ?_⟩
    cases b with
    | store r v => exact hdone
    | register j => exact hdone
    | arm => rfl

/-! ## A run of acts -/

theorem run_succ_of_step {s t : State} (h : step s = .next t) (n : Nat) :
    Host.Core.run Sys2Proof.core (n + 1) s = Host.Core.run Sys2Proof.core n t := by
  have hcore : Sys2Proof.core.step s = .next t := h
  simp only [Host.Core.run, hcore]

/-- A run of acts establishes what each of them is for. -/
theorem run_bootActs {xs : List Input} {s : State} (hw : configWf s.cfg = true) (hin : s.io.inbox = xs)
    (hacts : ∀ x ∈ xs, ∃ a : BootAct, a.Legal s.cfg ∧ x = a.input s.cfg) :
    ∃ u, Host.Core.run Sys2Proof.core xs.length s = .next u ∧ BootKeeps s u
      ∧ ∀ a : BootAct, a.Legal s.cfg → a.input s.cfg ∈ xs → a.Done u := by
  induction xs generalizing s with
  | nil => exact ⟨s, rfl, .refl s, fun a _ h => nomatch h⟩
  | cons x xs ih =>
    obtain ⟨hx, hxs⟩ := List.forall_mem_cons.mp hacts
    obtain ⟨a, ha, rfl⟩ := hx
    obtain ⟨t, hstep, htin, -, hkeep⟩ := step_bootAct hw ha hin
    rw [← hkeep.cfg] at hw hxs
    obtain ⟨u, hrun, hkeep', hdone⟩ := ih hw htin hxs
    refine ⟨u, (run_succ_of_step hstep _).trans hrun, hkeep.trans hkeep', fun b hb hmem => ?_⟩
    have hbt : b.Legal t.cfg := hkeep.cfg ▸ hb
    rcases List.mem_cons.mp hmem with e | hmem
    · obtain ⟨t', hstep', -, hbdone, -⟩ := step_bootAct (hkeep.cfg ▸ hw) hb (e ▸ hin)
      obtain rfl : t = t' := Host.Outcome.next.inj (hstep.symm.trans hstep')
      exact hkeep'.done b hbt hbdone
    · exact hdone b hbt (by rw [hkeep.cfg]; exact hmem)

/-! ## The inputs of boot (R373) -/

/-- Step 1 for a node with the full register set. -/
theorem bootNode_of_hasFullSet (c : Config) {k : Kind} (i : Nat) (h : hasFullSet k = true) : bootNode c k i =
    hostWrite c (.node k i .containEn) (containStd c k)
      :: (List.range (nEcc c k)).map (fun u => hostWrite c (.node k i (.eccLimit u)) (eccLimitStd c k u))
      ++ (treesOfKind c k).map (fun t => hostWrite c (.node k i (.reportEn t)) (enStd c k t)) := by
  cases k with
  | mctrl | pci | priv => cases h
  | _ => rfl

/-- PCI and PRIV are the node kinds without the full register set. -/
theorem eq_pci_or_priv {k : Kind} (hk : k ≠ .mctrl) (h : hasFullSet k = false) : k = .pci ∨ k = .priv := by
  cases k with
  | pci => exact .inl rfl
  | priv => exact .inr rfl
  | mctrl => exact absurd rfl hk
  | _ => cases h

theorem mem_bootKinds (k : Kind) : k ∈ bootKinds := by cases k <;> decide

theorem mem_bootNodes {c : Config} {k : Kind} {i : Nat} : (k, i) ∈ bootNodes c ↔ nodeExists c k i = true := by
  simpa [bootNodes, mem_bootKinds k] using nodeExists_instances

theorem lt_nLink_of_linkEnabled {c : Config} {l : Nat} (h : linkEnabled c l = true) : l < c.nLink := by
  simp only [linkEnabled, Bool.and_eq_true, decide_eq_true_eq] at h
  exact h.1

theorem mem_enabledLinks {c : Config} {l : Nat} : l ∈ enabledLinks c ↔ linkEnabled c l = true := by
  simpa [enabledLinks] using lt_nLink_of_linkEnabled

theorem mem_bootInputs {c : Config} {x : Input} : x ∈ bootInputs c ↔
    (∃ k i, nodeExists c k i = true ∧ x ∈ bootNode c k i)
      ∨ (∃ l, linkEnabled c l = true ∧ (x = hostWrite c (.portIntrCtrl l) c.gateStd ∨ x = hostWrite c (.lmIntrCtrl l) c.gateStd))
      ∨ (∃ l, linkEnabled c l = true ∧ x = .move (.registerLink l))
      ∨ x = hostWrite c .topEnable c.topEnableCfg ∨ x = hostWrite c .hostEoi 1#32 := by
  simp only [bootInputs, List.mem_append, List.mem_flatMap, List.mem_map, Prod.exists, mem_bootNodes, mem_enabledLinks,
    List.mem_cons, List.not_mem_nil, or_false, or_assoc, eq_comm (b := x)]

theorem hasReg_reportEn_of_hasFullSet (c : Config) {k : Kind} (h : hasFullSet k = true) (t : Tree) : hasReg c k (.reportEn t) = true := by
  cases t with
  | fatal => exact decide_eq_true (by rintro rfl; cases h)
  | nonfatal | correctable => exact h

/-- Every input of step 1 is a store of the register's boot value. -/
theorem bootNode_store {c : Config} {k : Kind} {i : Nat} (hn : nodeExists c k i = true) {x : Input} (hx : x ∈ bootNode c k i) :
    ∃ r v, (BootAct.store r v).Legal c ∧ x = hostWrite c r v := by
  by_cases hfull : hasFullSet k = true
  · rw [bootNode_of_hasFullSet c i hfull] at hx
    simp only [List.cons_append, List.mem_cons, List.mem_append, List.mem_map, List.mem_range] at hx
    rcases hx with rfl | ⟨u, hu, rfl⟩ | ⟨t, -, rfl⟩
    · exact ⟨_, _, ⟨rfl, by simp [mapped, hn, hasReg, hfull]⟩, rfl⟩
    · exact ⟨_, _, ⟨rfl, by simp [mapped, hn, hasReg, hfull, hu]⟩, rfl⟩
    · exact ⟨_, _, ⟨rfl, by simp [mapped, hn, hasReg_reportEn_of_hasFullSet c hfull t]⟩, rfl⟩
  · by_cases hk : k = .mctrl
    · subst hk
      obtain rfl := List.mem_singleton.mp hx
      exact ⟨.intrStallEn i, _, ⟨rfl, hn⟩, rfl⟩
    · rcases eq_pci_or_priv hk (by simpa using hfull) with rfl | rfl <;>
      · obtain rfl := List.mem_singleton.mp hx
        exact ⟨_, _, ⟨rfl, by simp [mapped, hn, hasReg]⟩, rfl⟩

/-- Every input of boot is one of its acts. -/
theorem bootInputs_acts {c : Config} {x : Input} (hx : x ∈ bootInputs c) : ∃ a : BootAct, a.Legal c ∧ x = a.input c := by
  rcases mem_bootInputs.mp hx with ⟨k, i, hn, hx⟩ | ⟨l, hl, rfl | rfl⟩ | ⟨l, -, rfl⟩ | rfl | rfl
  · obtain ⟨r, v, ha, rfl⟩ := bootNode_store hn hx
    exact ⟨.store r v, ha, rfl⟩
  · exact ⟨.store (.portIntrCtrl l) _, ⟨rfl, decide_eq_true (lt_nLink_of_linkEnabled hl)⟩, rfl⟩
  · exact ⟨.store (.lmIntrCtrl l) _, ⟨rfl, decide_eq_true (lt_nLink_of_linkEnabled hl)⟩, rfl⟩
  · exact ⟨.register l, trivial, rfl⟩
  · exact ⟨.store .topEnable _, ⟨rfl, rfl⟩, rfl⟩
  · exact ⟨.arm, trivial, rfl⟩

/-! ## The clean entry (R73) -/

/-- A node's contain-enable is among the inputs of step 1. -/
theorem mem_bootNode_containEn {c : Config} {k : Kind} (i : Nat) (h : hasReg c k .containEn = true) :
    hostWrite c (.node k i .containEn) (containStd c k) ∈ bootNode c k i := by
  rw [bootNode_of_hasFullSet c i h]
  exact List.mem_cons_self

/-- So is its report-enable of every tree of its kind. -/
theorem mem_bootNode_reportEn {c : Config} {k : Kind} (i : Nat) {t : Tree} (ht : t ∈ treesOfKind c k)
    (h : hasReg c k (.reportEn t) = true) : hostWrite c (.node k i (.reportEn t)) (enStd c k t) ∈ bootNode c k i := by
  by_cases hfull : hasFullSet k = true
  · rw [bootNode_of_hasFullSet c i hfull]
    exact List.mem_append_right _ (List.mem_map_of_mem ht)
  · obtain rfl : t = .fatal := by
      cases t with
      | fatal => rfl
      | nonfatal | correctable => exact absurd h hfull
    rcases eq_pci_or_priv (of_decide_eq_true h) (by simpa using hfull) with rfl | rfl <;> exact List.mem_singleton_self _

/-- The facts that the acts of boot establish are those of the clean entry. -/
theorem cleanEntry_of_done {u : State} (hlock : u.seq.lock = .free)
    (hdone : ∀ a : BootAct, a.Legal u.cfg → a.input u.cfg ∈ bootInputs u.cfg → a.Done u) : CleanEntry u where
  nodes k i _ hn := by
    have node : ∀ {r v}, bootValue u.cfg (.node k i r) = some v → hasReg u.cfg k r = true →
        hostWrite u.cfg (.node k i r) v ∈ bootNode u.cfg k i → u.field (.node k i r) = v &&& definedMask u.cfg (.node k i r) :=
      fun {r v} hv hr hmem => hdone (.store _ v) ⟨hv, by simp [mapped, hn, hr]⟩ (mem_bootInputs.mpr (.inl ⟨k, i, hn, hmem⟩))
    exact ⟨fun t ht hr => (node rfl hr (mem_bootNode_reportEn i ht hr)).trans BitVec.and_allOnes,
      fun hr => (node rfl hr (mem_bootNode_containEn i hr)).trans BitVec.and_allOnes⟩
  stall m hm := hdone (.store (.intrStallEn m) _) ⟨rfl, hm⟩ (mem_bootInputs.mpr (.inl ⟨.mctrl, m, hm, List.mem_singleton_self _⟩))
  gates l hl := by
    have hlt : decide (l < u.cfg.nLink) = true := decide_eq_true (lt_nLink_of_linkEnabled hl)
    exact ⟨hdone (.store (.portIntrCtrl l) _) ⟨rfl, hlt⟩ (mem_bootInputs.mpr (.inr (.inl ⟨l, hl, .inl rfl⟩))),
      hdone (.store (.lmIntrCtrl l) _) ⟨rfl, hlt⟩ (mem_bootInputs.mpr (.inr (.inl ⟨l, hl, .inr rfl⟩)))⟩
  top := hdone (.store .topEnable _) ⟨rfl, rfl⟩ (mem_bootInputs.mpr (.inr (.inr (.inr (.inl rfl)))))
  links l hl := hdone (.register l) trivial (mem_bootInputs.mpr (.inr (.inr (.inl ⟨l, hl, rfl⟩))))
  line := hdone .arm trivial (mem_bootInputs.mpr (.inr (.inr (.inr (.inr rfl)))))
  mutex := hlock

/-- Settles O57: boot is a run of acts (`bootInputs_acts`), and such a run establishes what each act is for (`run_bootActs`). -/
theorem bootReachesCleanEntry : Obligations.BootReachesCleanEntry := by
  intro s hw hlock hin
  obtain ⟨u, hrun, hkeep, hdone⟩ := run_bootActs hw hin (fun _ => bootInputs_acts)
  refine ⟨u, hrun, cleanEntry_of_done (hkeep.lock.trans hlock) ?_⟩
  rw [hkeep.cfg]
  exact hdone

end Sys2Proof.Machine

/-! PROOFS. Family 30_encoding: decoding the frame of an operation gives the operation back, on the command port and on the
register bus (R110), and the written-out frames of R111 to R120 are read as the encodings they are. -/

namespace Sys2Proof

/-! ## Each interface reads back what is presented on it (R110) -/

/-- On the command port an encoding that nothing follows is read back. -/
theorem decodeWords_of_encode {i : Instr} {ws : List Word} (hwf : wellFormed i = true) (he : encode i = .command ws) :
    decodeWords ws = .ok i := by
  obtain ⟨hread, -, -⟩ := commandsAreReadInSequence i ws [] hwf he
  rwa [List.append_nil] at hread

/-- R120: the operations of the register bus are RD32 and WR32, told apart by the strobe. -/
theorem encode_eq_bus {i : Instr} {strobe : Bool} {a v : Word} (he : encode i = .bus strobe a v) :
    (i = .rd32 a ∧ strobe = false) ∨ (i = .wr32 a v ∧ strobe = true) := by
  cases i.form with
  | walk f inst t => rw [encode_walkInstr] at he; cases he
  | handle k inst t => rw [encode_handleInstr] at he; cases he
  | setfatal link dw => cases link <;> cases he
  | rd32 a => cases he; exact .inl ⟨rfl, rfl⟩
  | wr32 a v => cases he; exact .inr ⟨rfl, rfl⟩
  | service | qlink link | qdev | rstdrain forced masks => cases he

/-- A transaction with an aligned address (R88) is the access its strobe says. -/
theorem decodeBus_of_aligned {a : Word} (strobe : Bool) (v : Word) (h : aligned a = true) :
    decodeBus strobe a v = .ok (if strobe then .wr32 a v else .rd32 a) := if_pos h

/-- On the register bus an encoding is read back: well-formedness is the alignment of its address. -/
theorem decodeBus_of_encode {i : Instr} {strobe : Bool} {a v : Word} (hwf : wellFormed i = true)
    (he : encode i = .bus strobe a v) : decodeBus strobe a v = .ok i := by
  obtain ⟨rfl, rfl⟩ | ⟨rfl, rfl⟩ := encode_eq_bus he
  · exact decodeBus_of_aligned false v hwf
  · exact decodeBus_of_aligned true v hwf

/-! ## The round trip -/

/-- Settles O1: an encoding stands on one of the two interfaces, and each of them reads back what it is given. -/
theorem decodeOfEncode : Obligations.DecodeOfEncode := by
  intro i hwf
  cases he : encode i with
  | command ws => exact decodeWords_of_encode hwf he
  | bus strobe a v => exact decodeBus_of_encode hwf he

/-- Settles O4: each of the written-out frames is the encoding of the operation it stands for. -/
theorem writtenOutWordsDecode : Obligations.WrittenOutWordsDecode :=
  ⟨decodeWords_of_encode rfl rfl, decodeWords_of_encode rfl rfl, decodeWords_of_encode rfl rfl, decodeWords_of_encode rfl rfl,
    decodeWords_of_encode rfl rfl, decodeWords_of_encode rfl rfl, decodeWords_of_encode rfl rfl, decodeWords_of_encode rfl rfl,
    decodeBus_of_encode rfl rfl, decodeBus_of_encode rfl rfl⟩

end Sys2Proof
